-- ==== Sys2Proof/Word.lean ====
section
/-!
DEFINITION. The two widths that the links and the management space carry: bytes and 32-bit words
(R160).
-/

namespace Sys2Proof

/-- One byte of a message, a data buffer or a piece. -/
abbrev Byte := BitVec 8

/-- A 32-bit word: a byte address, a management word or a descriptor word. -/
abbrev Word := BitVec 32

end Sys2Proof
end

