-- ==== Sys2Proof/Config.lean ====
section
/-!
DEFINITION. What the part fixes, and the one free value of the model.
-/

namespace Sys2Proof.Config

/-- Entries that the P origin may own at one time (R49). -/
def quotaP : Nat := 8

/-- Entries that the B origin may own at one time, over all source nodes (R49). -/
def quotaB : Nat := 8

/-- Entries that one move channel may own at one time (R49). -/
def quotaM : Nat := 2

/-- Records that the attention queue can hold (R138). -/
def attentionCapacity : Nat := 16

/-- The skip count at which an entry is aged (R83). -/
def agedSkip : Nat := 16

/-- The largest pace credit (R117). -/
def paceCreditMax : Nat := 15

/-- The largest no-answer count (R89). -/
def noAnswerMax : Nat := 7

/-- Identity word 0: revision 1, vendor code 0x0F3, part code 0x2416 (R154). -/
def identity0 : Word := 0x10F32416#32

/-- FREE VALUE (log entry 11). The byte at a buffer position that no rule has written, at the
n-th giving of an entry (R42: "the rest undefined"). It has no body: nothing can know it. -/
opaque undefinedByte : Nat → Nat → Byte

end Sys2Proof.Config
end

