-- ==== Sys2Proof/Syntax.lean ====
section
/-!
DEFINITION. The commands of the bridge, one constructor per row of spec/opcode_table.json, with the
operands that the rule of each row needs.
-/

namespace Sys2Proof

/-- One of the four target ports T0 to T3. -/
abbrev PortNo := Fin 4

/-- One of the four move channels M0 to M3. -/
abbrev ChannelNo := Fin 4

/-- The index of a Transaction Table entry. -/
abbrev EntryNo := Fin 24

/-- The commands. A message command carries the bytes of the whole message as it arrives (R1, R161).
A command of the management block carries nothing: it takes the write at the head of the
management request queue (R150, log entry 1). -/
inductive Instr where
  /-- R5 to R10: a message arrives whole on the P link as a request. -/
  | requestOnPLink (msg : List Byte)
  /-- R5 to R9, R11: a message arrives whole on the B link as a request. -/
  | requestOnBLink (msg : List Byte)
  /-- R21: a message arrives whole on the B link as a response. -/
  | bLinkResponse (msg : List Byte)
  /-- R21: the remote response timer of an entry expires. -/
  | remoteResponseTimerExpiry (entry : EntryNo)
  /-- R82 to R84: a port makes an issue decision. -/
  | grant (port : PortNo)
  /-- R85: a DONE arrives on a target link. -/
  | targetDone (port : PortNo) (msg : List Byte)
  /-- R86: a DEFER arrives on a target link. -/
  | targetDefer (port : PortNo) (msg : List Byte)
  /-- R88: a FAULT arrives on a target link. -/
  | targetFault (port : PortNo) (msg : List Byte)
  /-- R89: the response timer of an entry expires. -/
  | responseTimerExpiry (entry : EntryNo)
  /-- R87: the retry timer of an entry expires. -/
  | retryTimerExpiry (entry : EntryNo)
  /-- R99: the hold timer of a port expires. -/
  | holdTimerExpiry (port : PortNo)
  /-- R113: a move channel makes a unit start decision. -/
  | unitStartDecision (channel : ChannelNo)
  /-- R36 to R38: the management block takes a COMMIT. -/
  | commit
  /-- R40: the management block takes a COPY BACK. -/
  | copyBack
  /-- R75: the management block takes a PORT RESUME. -/
  | portResume
  /-- R74: the management block takes a PORT OFFLINE. -/
  | portOffline
  /-- R110: the management block takes a CHANNEL START of the loaded form. -/
  | channelStartLoaded
  /-- R111: the management block takes a CHANNEL START of the fetch form. -/
  | channelStartFetch
  /-- R119: the management block takes a CHANNEL PAUSE. -/
  | channelPause
  /-- R120: the management block takes a CHANNEL CONTINUE. -/
  | channelContinue
  /-- R121: the management block takes a CHANNEL STOP. -/
  | channelStop
  /-- R159: the management block takes a CARD RESET command. -/
  | cardResetCommand
  /-- R24: the management block takes a write to a staging word. -/
  | stagingWrite
  /-- R109: the management block takes a write to a loaded descriptor word. -/
  | loadedDescriptorWrite
  /-- R69: the management block takes a write to a port configuration word. -/
  | portConfigurationWrite
  /-- R155: the management block takes a write to a setting word. -/
  | settingWrite
  /-- R153: the management block takes a write to the remote management word. -/
  | remoteManagementWrite
  /-- R140: the management block takes a write to the attention enables. -/
  | attentionEnablesWrite
  /-- R157: the management block takes a write to the command argument word. -/
  | commandArgumentWrite
  /-- R152: the management block takes a write to any other offset. -/
  | mgmtWrite
  /-- R147: a CODE arrives on a target link. -/
  | targetCode (port : PortNo) (msg : List Byte)
  /-- R147: a PASS arrives on a target link. -/
  | targetPass (port : PortNo) (msg : List Byte)
  /-- R147: the ask timer expires. -/
  | askTimerExpiry
  /-- R141: a TATTN line takes a level. -/
  | targetAttentionLineChange (port : PortNo) (asserted : Bool)
  /-- R117: a pulse on a TPACE line. -/
  | pacePulse (port : PortNo)
  /-- R129: PALERT asserts. -/
  | palertAssert
  /-- R130: PALERT deasserts. -/
  | palertDeassert
  /-- R131: the hold-off timer expires. -/
  | holdOffTimerExpiry
  /-- R71: a target link comes up. -/
  | tLinkUp (port : PortNo)
  /-- R72: a target link goes down. -/
  | tLinkDown (port : PortNo)
  /-- R19: the B link comes up. -/
  | bLinkUp
  /-- R22: the B link goes down. -/
  | bLinkDown
  /-- R62: CRST asserts. -/
  | cardReset
  /-- R65: PORST asserts; the straps read the values carried. -/
  | powerOnReset (slot : BitVec 4) (bootp bootw : BitVec 2)
  /-- R68, R128, R19: PORST is released. -/
  | porstRelease
  /-- R62: CRST is released. -/
  | crstRelease
  /-- R1: the P link goes down. -/
  | pLinkDown
  /-- R1: the P link comes up. -/
  | pLinkUp
deriving DecidableEq, Repr

end Sys2Proof
end

