-- ==== Sys2Proof/WellFormed.lean ====
section
/-!
DEFINITION. Which command terms spell a message of their own row: the message is as long as the
header of its kind and its kind field names the row (R161). The machine gives every term a meaning
(it discards what is not such a message); this check is about the term.
-/

namespace Sys2Proof

/-- The kind field of a message: bits 31 to 28 of its header word, which are the upper four bits of
the fourth byte (R160, R161). -/
def messageKind (msg : List Byte) : Option (BitVec 4) :=
  (msg[3]?).map fun b => b.extractLsb' 4 4

/-- A message of at least n bytes whose kind field is k. -/
def isMessage (n : Nat) (k : BitVec 4) (msg : List Byte) : Bool :=
  decide (n ≤ msg.length) && decide (messageKind msg = some k)

/-- The check, command by command. Kinds and header lengths are those of the link message table of
9.5: a P request has two header words, a B request three, a B response two, a target's answer
one. -/
def Instr.wellFormed : Instr → Bool
  | .requestOnPLink msg => isMessage 8 1 msg
  | .requestOnBLink msg => isMessage 12 1 msg
  | .bLinkResponse msg => isMessage 8 2 msg
  | .targetDone _ msg => isMessage 4 8 msg
  | .targetDefer _ msg => isMessage 4 9 msg
  | .targetFault _ msg => isMessage 4 10 msg
  | .targetCode _ msg => isMessage 4 11 msg
  | .targetPass _ msg => isMessage 4 12 msg
  | .remoteResponseTimerExpiry _ => true
  | .grant _ => true
  | .responseTimerExpiry _ => true
  | .retryTimerExpiry _ => true
  | .holdTimerExpiry _ => true
  | .unitStartDecision _ => true
  | .commit => true
  | .copyBack => true
  | .portResume => true
  | .portOffline => true
  | .channelStartLoaded => true
  | .channelStartFetch => true
  | .channelPause => true
  | .channelContinue => true
  | .channelStop => true
  | .cardResetCommand => true
  | .stagingWrite => true
  | .loadedDescriptorWrite => true
  | .portConfigurationWrite => true
  | .settingWrite => true
  | .remoteManagementWrite => true
  | .attentionEnablesWrite => true
  | .commandArgumentWrite => true
  | .mgmtWrite => true
  | .askTimerExpiry => true
  | .targetAttentionLineChange _ _ => true
  | .pacePulse _ => true
  | .palertAssert => true
  | .palertDeassert => true
  | .holdOffTimerExpiry => true
  | .tLinkUp _ => true
  | .tLinkDown _ => true
  | .bLinkUp => true
  | .bLinkDown => true
  | .cardReset => true
  | .powerOnReset _ _ _ => true
  | .porstRelease => true
  | .crstRelease => true
  | .pLinkDown => true
  | .pLinkUp => true

end Sys2Proof
end

