-- ==== Sys2Proof/Decode.lean ====
section
/-!
DEFINITION. Reading a command from a table word. The table gives no row of this block any bits, so
no word spells a command; the layouts of the link messages, which do have bits, are in
Sys2Proof/Machine/Operands.lean.
-/

namespace Sys2Proof

/-- The command that a word spells by the opcode table's bits: none, since no row has bits. -/
def decodeTableWord (nbits w : Nat) : Option Instr :=
  match nbits, w with
  | _, _ => none

end Sys2Proof
end

