-- ==== Sys2Proof/Machine/State.lean ====
section
/-!
DEFINITION. Everything the manual gives the bridge to hold, as plain data, and the bridge right after
a power-on reset. Lists that the manual defines as orders of entries (the P response list, the wait
lists, the management request queue, the waiting asks), the issued sets and the counts are not
stored twice: Sys2Proof/Machine/Ops.lean and Flags.lean compute them from the entries, the rounds
and the arrival order (log entry 23).
-/

namespace Sys2Proof

/-- Spaces of a request (R2). -/
inductive Space where
  | data | mgmt | attn
deriving DecidableEq, Repr

/-- Operations of a request (R2). -/
inductive Op where
  | read | write | readHold | writeRelease
deriving DecidableEq, Repr

/-- The fifteen status codes (R14). -/
inductive Status where
  | ok | full | form | unmapped | denied | noRoute | noTarget | targetFault | noAnswer | retryOut
  | guarded | holdBroken | linkDown | busy | aborted
deriving DecidableEq, Repr

/-- A detail, as the byte that a response carries (R15, R165). The codes this bridge sets are named in
Sys2Proof/Machine/Operands.lean; a relayed response may carry any byte (R21). -/
abbrev Detail := BitVec 8

/-- The two links on which requests arrive. -/
inductive Link where
  | p | b
deriving DecidableEq, Repr

/-- The fields of a request (R2). `source` and `stamp` are read on the B link only. `space` is absent
when the space field holds 3, which names no space (R161). -/
structure Request where
  tag : BitVec 4
  node : BitVec 4
  space : Option Space
  op : Op
  length : BitVec 7
  source : BitVec 4
  address : Word
  stamp : BitVec 16
  data : List Byte
deriving DecidableEq, Repr

/-- The result fields of a response (R13). -/
structure Response where
  tag : BitVec 4
  status : Status
  data : Option (List Byte)
  faultAddress : Option Word
  detail : Option Detail
deriving DecidableEq, Repr

/-- Messages that leave on the P link: responses and attention notices (R13, R16). -/
inductive PMessage where
  | response (r : Response)
  | notice (count : Nat)
deriving DecidableEq, Repr

/-- Messages that leave on the B link: responses with their addressing fields (R13) and forwarded
requests (R20). -/
inductive BMessage where
  | response (node source : BitVec 4) (stamp : BitVec 16) (r : Response)
  | request (r : Request)
deriving DecidableEq, Repr

/-- Messages that leave on a target link (R17). -/
inductive TMessage where
  | piece (entry : EntryNo) (round : BitVec 8) (isWrite : Bool) (address : Word) (size : Nat)
      (data : List Byte)
  | ask (number : BitVec 8)
  | portReset
deriving DecidableEq, Repr

namespace Machine

/-- Rights of a window for an origin class (R23). The two-bit field has a fourth encoding that names
no right (R24). -/
inductive Rights where
  | none | read | readWrite | noRight
deriving DecidableEq, Repr

/-- An entry of the live window table (R23). -/
structure Window where
  valid : Bool
  base : BitVec 20
  limit : BitVec 20
  port : PortNo
  targetPage : BitVec 20
  localRights : Rights
  remoteRights : Rights
  guarded : Bool
deriving DecidableEq, Repr

/-- The four words of a window entry or of a descriptor. -/
abbrev FourWords := Vector Word 4

/-- Width of a port, in bytes (R67). -/
inductive Width where
  | one | two | four
deriving DecidableEq, Repr

/-- The configuration fields of a port record (R67). -/
structure PortConfig where
  width : Width
  credit : Nat
  responseLimit : Nat
  retryLimit : Nat
  retryInterval : Nat
  offlineThreshold : Nat
deriving DecidableEq, Repr

/-- The straps as sampled at power-on reset (R3, R25, R68). -/
structure Straps where
  slot : BitVec 4
  bootp : BitVec 2
  bootw : BitVec 2
deriving DecidableEq, Repr

/-- The bridge settings and the command argument word (R155, R157). -/
structure Settings where
  remoteManagement : Bool
  nodeMask : BitVec 16
  holdLimit : BitVec 8
  holdOff : BitVec 8
  remoteLimit : BitVec 16
  kindEnables : BitVec 9
  portEnables : BitVec 4
  argument : Word
deriving DecidableEq, Repr

/-- What the bridge is strapped and configured with: the part of the state that a card reset keeps
whole (R25, R77, R155, R159). -/
structure Setup where
  straps : Straps
  settings : Settings
  live : Vector Window 32
  staging : Vector FourWords 32
  generation : BitVec 16
  portConfig : Vector PortConfig 4
deriving DecidableEq, Repr

/-- The levels of the input lines and of the links themselves (00_scope.md, Signals). `true` is
asserted or up. `early` is the model's own and is filled from outside, as the queue of commands is:
for each PALERT_ASSERT, PALERT_DEASSERT and B_LINK_DOWN to come, in order, whether the command moves
the level alone, ahead of its event. Past its end every event is taken (R54, R63, R132, log entry 17). -/
structure Lines where
  porst : Bool
  crst : Bool
  palert : Bool
  pLink : Bool
  bLink : Bool
  tLink : Vector Bool 4
  tattn : Vector Bool 4
  early : List Bool
deriving DecidableEq, Repr

/-- The requester an entry belongs to (00_scope.md, Terms): the processor, a remote card identified by
its source node, or a move channel. -/
inductive Origin where
  | p
  | b (source : BitVec 4)
  | m (channel : ChannelNo)
deriving DecidableEq, Repr

/-- The states of an entry other than FREE (R46). A FREE entry has no record (log entry 25). -/
inductive EntryState where
  | waiting | issued | backoff | forwarded | serving | complete | orphaned
deriving DecidableEq, Repr

/-- The route of an entry (R42). -/
inductive Route where
  | port (p : PortNo)
  | remote
  | mgmt
  | attn
deriving DecidableEq, Repr

/-- The decode record (R31). -/
structure DecodeRecord where
  window : Fin 32
  generation : BitVec 16
  port : PortNo
  target : Word
  guarded : Bool
  width : Width
deriving DecidableEq, Repr

/-- A record of the Transaction Table (R42). The round is not here: it belongs to the index (R43). The
arrival order is the list `order` of the state. The source node of a B entry is in its origin.
A timer that runs is held as the value it was started with. -/
structure Entry where
  state : EntryState
  origin : Origin
  tag : Option (BitVec 4)
  returnStamp : Option (BitVec 16)
  node : Option (BitVec 4)
  space : Space
  op : Op
  address : Word
  length : Nat
  route : Option Route
  decode : Option DecodeRecord
  piecesTotal : Nat
  nextPiece : Nat
  retryCount : Nat
  skipCount : Nat
  timer : Option Nat
  buffer : Vector Byte 64
  finalStatus : Option Status
  faultAddress : Option Word
  detail : Option Detail
deriving DecidableEq, Repr

/-- States of a port (R67). -/
inductive PortState where
  | absent | online | offline
deriving DecidableEq, Repr

/-- An origin that can hold a port (R93). -/
inductive Holder where
  | p
  | b (source : BitVec 4)
deriving DecidableEq, Repr

/-- The phase of a hold, with the fields that are present in it (R93): the hold read, the value the
hold timer runs with, the release. -/
inductive HoldPhase where
  | awaitingRead (read : EntryNo)
  | timing (limit : Nat)
  | awaitingRelease (release : EntryNo)
deriving DecidableEq, Repr

/-- The hold record of a port (R93). -/
structure Hold where
  holder : Holder
  phase : HoldPhase
deriving DecidableEq, Repr

/-- The state fields of a port record (R67). -/
structure Port where
  state : PortState
  noAnswer : Nat
  askNumber : BitVec 8
  hold : Option Hold
deriving DecidableEq, Repr

/-- Why a channel is stopping (R105). -/
inductive StopCause where
  | stop | fault
deriving DecidableEq, Repr

/-- States of a move channel (R105). The stop cause is present in STOPPING. -/
inductive ChannelState where
  | idle | fetching | running | pausing | paused
  | stopping (cause : StopCause)
deriving DecidableEq, Repr

/-- How a channel's last run ended (R105). -/
inductive RunOutcome where
  | none | complete | stopped | faulted
deriving DecidableEq, Repr

/-- Size of a unit (R107). -/
inductive UnitSize where
  | one | two | four | sixteen
deriving DecidableEq, Repr

/-- A descriptor (R107). `pace` is the 3-bit field as loaded, undefined encodings included (R109). -/
structure Descriptor where
  source : Word
  destination : Word
  count : BitVec 16
  unit : UnitSize
  sourceFixed : Bool
  destinationFixed : Bool
  pace : BitVec 3
  notify : Bool
  link : Word
deriving DecidableEq, Repr

/-- The phase of a unit record, with the entry it owns or the bytes it holds (R105). -/
inductive UnitPhase where
  | reading (entry : EntryNo)
  | staged (bytes : List Byte)
  | writing (entry : EntryNo)
  | discarding (entry : EntryNo)
deriving DecidableEq, Repr

/-- A unit record (R105). -/
structure UnitRecord where
  number : Nat
  phase : UnitPhase
deriving DecidableEq, Repr

/-- The record of a move channel (R105). -/
structure Channel where
  state : ChannelState
  outcome : RunOutcome
  faultStatus : Option Status
  faultAddress : Option Word
  faultDetail : Option Detail
  descriptor : Descriptor
  fetchAddress : Option Word
  remaining : BitVec 16
  started : BitVec 16
  sourceCursor : Word
  destinationCursor : Word
  units : List UnitRecord
  paceCredit : Nat
  completed : BitVec 16
deriving DecidableEq, Repr

/-- The guard state (R128). The hold-off timer runs in RELEASING only; it is held as the value, in ms,
it was started with. -/
inductive GuardState where
  | opened
  | guarded
  | releasing (holdOff : Nat)
deriving DecidableEq, Repr

/-- Sources of attention records (R137). -/
inductive AttnSource where
  | channel (c : ChannelNo)
  | port (p : PortNo)
  | guardUnit
  | backplane
deriving DecidableEq, Repr

/-- Kinds of attention records (R137). -/
inductive AttnKind where
  | channelDone | channelFault | portOffline | portLost | holdBroken | guardOn | guardOff
  | blinkDown | blinkUp
deriving DecidableEq, Repr

/-- An attention record (R137). The detail is a fault status and a fault address. -/
structure AttnRecord where
  source : AttnSource
  kind : AttnKind
  count : Nat
  detail : Option (Status × Word)
deriving DecidableEq, Repr

/-- The walk record (R146). A port that is passed is passed in the same event, so between events a
walk in progress always has an ASK outstanding (log entry 27). -/
structure Walk where
  ask : EntryNo
  port : PortNo
  number : BitVec 8
  timer : Nat
deriving DecidableEq, Repr

/-- The attention unit (R138, R141, R146). `out` is the pending condition as last evaluated, which
ATTN_OUT follows. -/
structure Attention where
  queue : List AttnRecord
  overflow : Bool
  walk : Option Walk
  out : Bool
deriving DecidableEq, Repr

/-- No event of the manual stops the bridge, so there is no fault: a safe omission, since every
command answers a next state. -/
inductive Fault where
deriving DecidableEq, Repr

/-- The only refusal: a command whose meaning has not been written. No command answers it. Safe: the
machine stops instead of going on with an effect the manual does not give. -/
inductive Refusal where
  | notModelled (mnemonic : String)
deriving DecidableEq, Repr

/-- The state of the bridge, and the queue of commands that wait for it. -/
structure State where
  /-- Straps, settings, tables and port configuration. -/
  setup : Setup
  /-- Levels of the input lines and links. -/
  lines : Lines
  /-- The Transaction Table; an absent record is a FREE entry (R42, R46). -/
  entries : Vector (Option Entry) 24
  /-- The round of each index (R43). -/
  rounds : Vector (BitVec 8) 24
  /-- The arrival order of the entries that are not FREE, oldest first (R44). -/
  order : List EntryNo
  /-- The state fields of the port records (R67). -/
  ports : Vector Port 4
  /-- The broken notes (R94), by the holder code of R165: 1 to 15 for the B holders, 16 for P. Cell 0,
  the code of no holder, is nobody's. -/
  notes : Vector (Option PortNo) 17
  /-- The B link state of the B port: true is UP (R19). -/
  bLinkUp : Bool
  /-- The channel records (R105). -/
  channels : Vector Channel 4
  /-- The guard state and the hold-off timer (R128). -/
  guard : GuardState
  /-- The attention unit (R138). -/
  attention : Attention
  /-- The messages that have left on the P link, in link order (R1, log entry 10). -/
  pSent : List PMessage
  /-- The messages that have left on the B link (log entry 10). -/
  bSent : List BMessage
  /-- The messages that have left on each target link (log entry 10). -/
  tSent : Vector (List TMessage) 4
  /-- The model's own counter: how often an entry has been given, which the free value of undefined
  buffer bytes is applied to (log entry 11). -/
  freshCount : Nat
  /-- The commands that wait, first in first out. -/
  pending : List Instr
deriving DecidableEq, Repr

/-- An entry of either window table that power-on reset leaves invalid (R25). -/
def Window.empty : Window :=
  { valid := false, base := 0, limit := 0, port := 0, targetPage := 0,
    localRights := .none, remoteRights := .none, guarded := false }

/-- The boot window (R25). -/
def Window.boot (bootp : BitVec 2) : Window :=
  { valid := true, base := 0, limit := 255, port := bootp.toFin, targetPage := 0,
    localRights := .readWrite, remoteRights := .none, guarded := false }

/-- The live table after power-on reset (R25). -/
def liveAtPowerOn (bootp : BitVec 2) : Vector Window 32 :=
  (Vector.replicate 32 Window.empty).set 0 (Window.boot bootp)

/-- The staging words after power-on reset: those the live table reads as (R25, 9.5). -/
def stagingAtPowerOn (bootp : BitVec 2) : Vector FourWords 32 :=
  (Vector.replicate 32 (Vector.replicate 4 0#32)).set 0
    #v[0x80000000#32, 0x000000FF#32, (bootp.setWidth 32) <<< 28, 0x00000002#32]

/-- The width that the BOOTW strap gives the boot port (R68). -/
def Width.ofBootw (bootw : BitVec 2) : Width :=
  if bootw = 0 then .one else if bootw = 1 then .two else .four

/-- Port configuration after power-on reset (R68). -/
def PortConfig.atPowerOn (width : Width) : PortConfig :=
  { width, credit := 1, responseLimit := 100, retryLimit := 8, retryInterval := 10,
    offlineThreshold := 3 }

/-- Settings after power-on reset (R155, R157, 9.5). -/
def Settings.atPowerOn : Settings :=
  { remoteManagement := false, nodeMask := 0xFFFE, holdLimit := 50, holdOff := 20,
    remoteLimit := 2000, kindEnables := 0x1FF, portEnables := 0, argument := 0 }

/-- Straps, settings and tables after a power-on reset that sampled these straps (R25, R34, R68,
R155). -/
def Setup.atPowerOn (straps : Straps) : Setup :=
  { straps
    settings := Settings.atPowerOn
    live := liveAtPowerOn straps.bootp
    staging := stagingAtPowerOn straps.bootp
    generation := 0
    portConfig := (Vector.replicate 4 (PortConfig.atPowerOn .four)).set straps.bootp.toFin
      (PortConfig.atPowerOn (Width.ofBootw straps.bootw)) }

/-- State fields of a port after power-on reset (R68). -/
def Port.atPowerOn : Port :=
  { state := .absent, noAnswer := 0, askNumber := 0, hold := none }

/-- A descriptor of all zero fields (R106). -/
def Descriptor.zero : Descriptor :=
  { source := 0, destination := 0, count := 0, unit := .one, sourceFixed := false,
    destinationFixed := false, pace := 0, notify := false, link := 0 }

/-- A channel record after power-on reset and after card reset (R106). -/
def Channel.atReset : Channel :=
  { state := .idle, outcome := .none, faultStatus := none, faultAddress := none,
    faultDetail := none, descriptor := Descriptor.zero, fetchAddress := none, remaining := 0,
    started := 0, sourceCursor := 0, destinationCursor := 0, units := [], paceCredit := 0,
    completed := 0 }

/-- The attention unit after power-on reset (R149). -/
def Attention.atPowerOn : Attention :=
  { queue := [], overflow := false, walk := none, out := false }

/-- The state with every piece that a power-on reset sets at its default (R19, R25, R65, R68, R94,
R103, R106, R128, R149, R155). Line levels, what has left on the links, the model's counter and
the queue of commands are as before (log entry 28). -/
def State.withDefaults (s : State) (straps : Straps) : State :=
  { s with
    setup := Setup.atPowerOn straps
    entries := Vector.replicate 24 none
    rounds := Vector.replicate 24 0
    order := []
    ports := Vector.replicate 4 Port.atPowerOn
    notes := Vector.replicate 17 none
    bLinkUp := false
    channels := Vector.replicate 4 Channel.atReset
    guard := .opened
    attention := Attention.atPowerOn }

/-- Line levels at State.reset: no reset asserted, the supply healthy, the P link up and every other
link down (DESIGN CHOICE, log entries 7 and 8). -/
def Lines.atReset : Lines :=
  { porst := false, crst := false, palert := false, pLink := true, bLink := false,
    tLink := Vector.replicate 4 false, tattn := Vector.replicate 4 false, early := [] }

/-- The bridge right after a power-on reset, PORST released, with no command waiting. The straps read
0 (DESIGN CHOICE, log entry 7); POWER_ON_RESET carries any other. -/
def State.reset : State :=
  { setup := Setup.atPowerOn { slot := 0, bootp := 0, bootw := 0 }
    lines := Lines.atReset
    entries := Vector.replicate 24 none
    rounds := Vector.replicate 24 0
    order := []
    ports := Vector.replicate 4 Port.atPowerOn
    notes := Vector.replicate 17 none
    bLinkUp := false
    channels := Vector.replicate 4 Channel.atReset
    guard := .opened
    attention := Attention.atPowerOn
    pSent := []
    bSent := []
    tSent := Vector.replicate 4 []
    freshCount := 0
    pending := [] }

end Machine

end Sys2Proof
end

