-- ==== Sys2Proof/Machine/Operands.lean ====
section
/-!
DEFINITION. The forms in which operands travel: the layouts of chapter 9 (R160 to R165), from bytes and
words to fields and back; the piece plan of a transaction (R78).
-/

namespace Sys2Proof

/-! ## Details (R165, 9.6) -/

namespace Detail

/-- The detail that names window or staging index i. -/
def index (i : Fin 32) : Detail := BitVec.ofNat 8 i.val
/-- The detail that names port p. -/
def port (p : PortNo) : Detail := BitVec.ofNat 8 p.val
def field : Detail := 64
def length : Detail := 65
def block : Detail := 66
def holdShape : Detail := 67
def mgmtShape : Detail := 68
def attnShape : Detail := 69
def tagInUse : Detail := 70
def holdHeld : Detail := 71
def holdPending : Detail := 72
def releasePending : Detail := 73
def wrongPort : Detail := 74
def noHold : Detail := 75
def zeroCount : Detail := 76
def sourceAlign : Detail := 77
def destAlign : Detail := 78
def linkAlign : Detail := 79
def command : Detail := 80

end Detail

/-! ## Codes of names (9.5, 9.6) -/

/-- The status codes of R165. -/
def Status.code : Status → BitVec 4
  | .ok => 0 | .full => 1 | .form => 2 | .unmapped => 3 | .denied => 4 | .noRoute => 5
  | .noTarget => 6 | .targetFault => 7 | .noAnswer => 8 | .retryOut => 9 | .guarded => 10
  | .holdBroken => 11 | .linkDown => 12 | .busy => 13 | .aborted => 14

/-- The status a code names; 15 names none (R165). -/
def Status.ofCode (c : BitVec 4) : Option Status :=
  match c.toNat with
  | 0 => some .ok | 1 => some .full | 2 => some .form | 3 => some .unmapped | 4 => some .denied
  | 5 => some .noRoute | 6 => some .noTarget | 7 => some .targetFault | 8 => some .noAnswer
  | 9 => some .retryOut | 10 => some .guarded | 11 => some .holdBroken | 12 => some .linkDown
  | 13 => some .busy | 14 => some .aborted | _ => none

/-- The space field; 3 names no space (R161). -/
def Space.ofCode (c : BitVec 2) : Option Space :=
  match c.toNat with
  | 0 => some .data | 1 => some .mgmt | 2 => some .attn | _ => none

def Space.code : Option Space → BitVec 2
  | some .data => 0 | some .mgmt => 1 | some .attn => 2 | none => 3

def Op.ofCode (c : BitVec 2) : Op :=
  match c.toNat with
  | 0 => .read | 1 => .write | 2 => .readHold | _ => .writeRelease

def Op.code : Op → BitVec 2
  | .read => 0 | .write => 1 | .readHold => 2 | .writeRelease => 3

/-- READ and READ_HOLD: the operations that return data and carry none (R2). -/
def Op.isRead : Op → Bool
  | .read => true | .write => false | .readHold => true | .writeRelease => false

/-! ## Words and bytes (R160) -/

/-- The word whose bytes are these, the first at the lowest address. -/
def wordOf (b0 b1 b2 b3 : Byte) : Word := b3 ++ b2 ++ b1 ++ b0

/-- The four bytes of a word, the lowest address first. -/
def wordBytes (w : Word) : List Byte :=
  [w.extractLsb' 0 8, w.extractLsb' 8 8, w.extractLsb' 16 8, w.extractLsb' 24 8]

/-- The first word of a message and the bytes after it. -/
def takeWord : List Byte → Option (Word × List Byte)
  | b0 :: b1 :: b2 :: b3 :: rest => some (wordOf b0 b1 b2 b3, rest)
  | _ => none

/-- The word that stands in four bytes of a list of bytes from position i on; a byte that is not there
counts as zero. -/
def wordAt (bytes : List Byte) (i : Nat) : Word :=
  wordOf (bytes.getD i 0) (bytes.getD (i + 1) 0) (bytes.getD (i + 2) 0) (bytes.getD (i + 3) 0)

/-! ## Requests (R161, 9.5) -/

/-- The header word of a request: kind 1 in bits 31-28, source node 23-20, length 18-12, op 11-10,
space 9-8, node 7-4, tag 3-0. -/
def Request.header (r : Request) : Word :=
  (1#4 ++ 0#4 ++ r.source ++ 0#1 ++ r.length ++ r.op.code ++ Space.code r.space ++ r.node ++ r.tag :
    BitVec (4 + 4 + 4 + 1 + 7 + 2 + 2 + 4 + 4))

/-- A request as the bytes of a message. The P link carries no return stamp word. -/
def Request.encode (l : Link) (r : Request) : List Byte :=
  match l with
  | .p => wordBytes r.header ++ wordBytes r.address ++ r.data
  | .b => wordBytes r.header ++ wordBytes r.address ++ wordBytes (r.stamp.setWidth 32) ++ r.data

/-- The request whose words and data are these. -/
def Request.ofWords (header address stamp : Word) (data : List Byte) : Request :=
  { tag := header.extractLsb' 0 4
    node := header.extractLsb' 4 4
    space := Space.ofCode (header.extractLsb' 8 2)
    op := Op.ofCode (header.extractLsb' 10 2)
    length := header.extractLsb' 12 7
    source := header.extractLsb' 20 4
    address
    stamp := stamp.setWidth 16
    data }

/-- A message read as a request: absent when its kind is not 1 or it is shorter than its header words
(R161), in which case the message is discarded. On the P link the source node bits are
ignored and there is no stamp. -/
def parseRequest (l : Link) (msg : List Byte) : Option Request :=
  (takeWord msg).bind fun (header, rest) =>
  if header.extractLsb' 28 4 = 1#4 then
    (takeWord rest).bind fun (address, rest) =>
    match l with
    | .p => some { Request.ofWords header address 0 rest with source := 0 }
    | .b => (takeWord rest).map fun (stamp, data) => Request.ofWords header address stamp data
  else none

/-! ## Responses and notices (R13, R16, 9.5) -/

/-- The header word of a response: kind 2 in bits 31-28, detail 23-16, data present 10, detail present
9, fault address present 8, status 7-4, tag 3-0. -/
def Response.header (r : Response) : Word :=
  (2#4 ++ 0#4 ++ r.detail.getD 0 ++ 0#5 ++ BitVec.ofBool r.data.isSome ++
    BitVec.ofBool r.detail.isSome ++ BitVec.ofBool r.faultAddress.isSome ++ r.status.code ++ r.tag :
    BitVec (4 + 4 + 8 + 5 + 1 + 1 + 1 + 4 + 4))

/-- What follows the header words of a response: the fault address word if present, then the data. -/
def Response.tail (r : Response) : List Byte :=
  (match r.faultAddress with
    | some a => wordBytes a
    | none => []) ++ r.data.getD []

/-- A message of the P link as bytes. -/
def PMessage.encode : PMessage → List Byte
  | .response r => wordBytes r.header ++ r.tail
  | .notice count => wordBytes (3#4 ++ 0#23 ++ BitVec.ofNat 5 count : BitVec (4 + 23 + 5))

/-- A message of the B link as bytes. -/
def BMessage.encode : BMessage → List Byte
  | .response node source stamp r =>
      wordBytes r.header ++
        wordBytes (stamp ++ 0#8 ++ source ++ node : BitVec (16 + 8 + 4 + 4)) ++ r.tail
  | .request r => r.encode .b

/-- The fields of a response as read on the B link. -/
structure BResponse where
  node : BitVec 4
  source : BitVec 4
  stamp : BitVec 16
  body : Response
deriving DecidableEq, Repr

/-- A message read as a response on the B link: absent when its kind is not 2, when it is shorter than
its two header words or than the fault address word it announces, or when its status field
holds 15 (R161, R165, log entry 15). Bytes after the fault address are data if the present bit
says so and are ignored otherwise. -/
def parseResponse (msg : List Byte) : Option BResponse :=
  (takeWord msg).bind fun (header, rest) =>
  if header.extractLsb' 28 4 = 2#4 then
    (takeWord rest).bind fun (addressing, rest) =>
    (Status.ofCode (header.extractLsb' 4 4)).bind fun status =>
    (if header.extractLsb' 8 1 = 1#1 then
        (takeWord rest).map fun (a, rest) => (some a, rest)
      else some (none, rest)).map fun (faultAddress, rest) =>
    { node := addressing.extractLsb' 0 4
      source := addressing.extractLsb' 4 4
      stamp := addressing.extractLsb' 16 16
      body :=
        { tag := header.extractLsb' 0 4
          status
          data := if header.extractLsb' 10 1 = 1#1 then some rest else none
          faultAddress
          detail :=
            if header.extractLsb' 9 1 = 1#1 then some (header.extractLsb' 16 8) else none } }
  else none

/-! ## Target link messages (R17, R18, 9.5) -/

/-- The size field of a PIECE: 0 one byte, 1 two, 2 four. -/
def sizeCode (size : Nat) : BitVec 2 :=
  if size = 4 then 2 else if size = 2 then 1 else 0

/-- A message of a target link as bytes. -/
def TMessage.encode : TMessage → List Byte
  | .piece entry round isWrite address size data =>
      wordBytes (1#4 ++ 0#9 ++ sizeCode size ++ BitVec.ofBool isWrite ++ round ++ 0#3 ++
        BitVec.ofNat 5 entry.val : BitVec (4 + 9 + 2 + 1 + 8 + 3 + 5)) ++
      wordBytes address ++ data
  | .ask number => wordBytes (2#4 ++ 0#12 ++ number ++ 0#8 : BitVec (4 + 12 + 8 + 8))
  | .portReset => wordBytes (3#4 ++ 0#28 : BitVec (4 + 28))

/-- The stamp and data of an answer to a piece: a DONE, DEFER or FAULT of this kind (8, 9, 10). -/
def parseAnswer (kind : BitVec 4) (msg : List Byte) : Option (BitVec 5 × BitVec 8 × List Byte) :=
  (takeWord msg).bind fun (header, data) =>
  if header.extractLsb' 28 4 = kind then
    some (header.extractLsb' 0 5, header.extractLsb' 8 8, data)
  else none

/-- The ask number and code of an answer to an ASK: a CODE or PASS of this kind (11, 12). -/
def parseAskAnswer (kind : BitVec 4) (msg : List Byte) : Option (BitVec 8 × BitVec 8) :=
  (takeWord msg).bind fun (header, _) =>
  if header.extractLsb' 28 4 = kind then
    some (header.extractLsb' 8 8, header.extractLsb' 16 8)
  else none

/-- The stamp of an issue or forward as the number a forwarded request carries (R43). -/
def stampNumber (i : EntryNo) (round : BitVec 8) : BitVec 16 :=
  BitVec.ofNat 16 (i.val * 256 + round.toNat)

/-- The entry and round that a return stamp names; an index part of 24 or more names no entry
(R59). -/
def stampParts (stamp : BitVec 16) : Option (EntryNo × BitVec 8) :=
  if h : stamp.toNat / 256 < 24 then some (⟨stamp.toNat / 256, h⟩, stamp.setWidth 8) else none

/-- The entry that the index field of an answer names; 24 and above name none (R161). -/
def entryOfIndex (index : BitVec 5) : Option EntryNo :=
  if h : index.toNat < 24 then some ⟨index.toNat, h⟩ else none

namespace Machine

/-! ## Window words (R162, 9.5) -/

def Rights.ofCode (c : BitVec 2) : Rights :=
  match c.toNat with
  | 0 => .none | 1 => .read | 2 => .readWrite | _ => .noRight

def Rights.code : Rights → BitVec 2
  | .none => 0 | .read => 1 | .readWrite => 2 | .noRight => 3

/-- The fields that the named bits of four window words hold. -/
def Window.ofWords (w : FourWords) : Window :=
  { valid := w[0].getLsbD 31
    base := w[0].extractLsb' 0 20
    limit := w[1].extractLsb' 0 20
    port := (w[2].extractLsb' 28 2).toFin
    targetPage := w[2].extractLsb' 0 20
    localRights := Rights.ofCode (w[3].extractLsb' 0 2)
    remoteRights := Rights.ofCode (w[3].extractLsb' 2 2)
    guarded := w[3].getLsbD 8 }

/-- The words a live entry reads as: named fields, every other bit 0. -/
def Window.words (w : Window) : FourWords :=
  #v[(BitVec.ofBool w.valid ++ 0#11 ++ w.base : BitVec (1 + 11 + 20)),
     (0#12 ++ w.limit : BitVec (12 + 20)),
     (0#2 ++ BitVec.ofFin w.port ++ 0#8 ++ w.targetPage : BitVec (2 + 2 + 8 + 20)),
     (0#23 ++ BitVec.ofBool w.guarded ++ 0#4 ++ w.remoteRights.code ++ w.localRights.code :
       BitVec (23 + 1 + 4 + 2 + 2))]

/-! ## Descriptor words (R107, R163, 9.5) -/

def UnitSize.ofCode (c : BitVec 2) : UnitSize :=
  match c.toNat with
  | 0 => .one | 1 => .two | 2 => .four | _ => .sixteen

def UnitSize.code : UnitSize → BitVec 2
  | .one => 0 | .two => 1 | .four => 2 | .sixteen => 3

def UnitSize.bytes : UnitSize → Nat
  | .one => 1 | .two => 2 | .four => 4 | .sixteen => 16

/-- The fields that four descriptor words hold. -/
def Descriptor.ofWords (w0 w1 w2 w3 : Word) : Descriptor :=
  { source := w0
    destination := w1
    count := w2.extractLsb' 0 16
    unit := UnitSize.ofCode (w2.extractLsb' 16 2)
    sourceFixed := w2.getLsbD 18
    destinationFixed := w2.getLsbD 19
    pace := w2.extractLsb' 20 3
    notify := w2.getLsbD 23
    link := w3 }

/-- Word k of a descriptor; bits named for no field are 0 (R160, log entry 19). -/
def Descriptor.word (d : Descriptor) (k : Fin 4) : Word :=
  match k with
  | 0 => d.source
  | 1 => d.destination
  | 2 => (0#8 ++ BitVec.ofBool d.notify ++ d.pace ++ BitVec.ofBool d.destinationFixed ++
      BitVec.ofBool d.sourceFixed ++ d.unit.code ++ d.count : BitVec (8 + 1 + 3 + 1 + 1 + 2 + 16))
  | 3 => d.link

/-- The descriptor after word k is written (R109): the fields of the other words are unchanged. -/
def Descriptor.setWord (d : Descriptor) (k : Fin 4) (w : Word) : Descriptor :=
  match k with
  | 0 => { d with source := w }
  | 1 => { d with destination := w }
  | 2 => Descriptor.ofWords d.source d.destination w d.link
  | 3 => { d with link := w }

/-- The descriptor that 16 fetched bytes hold (R112, R163). -/
def Descriptor.ofBytes (bytes : List Byte) : Descriptor :=
  Descriptor.ofWords (wordAt bytes 0) (wordAt bytes 4) (wordAt bytes 8) (wordAt bytes 12)

/-- The port whose pace line paces the descriptor: the pace field encodes NONE and T0 to T3 as 0 to 4
(R163). -/
def Descriptor.pacePort (d : Descriptor) : Option PortNo :=
  match d.pace.toNat with
  | 1 => some 0 | 2 => some 1 | 3 => some 2 | 4 => some 3 | _ => none

/-- Validation (R108): the detail of the first check that fails, or none. -/
def Descriptor.invalid (d : Descriptor) : Option Detail :=
  if d.count = 0 then some Detail.zeroCount
  else if 4 < d.pace.toNat then some Detail.field
  else if d.source.toNat % d.unit.bytes ≠ 0 then some Detail.sourceAlign
  else if d.destination.toNat % d.unit.bytes ≠ 0 then some Detail.destAlign
  else if d.link.toNat % 16 ≠ 0 then some Detail.linkAlign
  else none

/-! ## Port configuration words (R164, 9.5) -/

def Width.bytes : Width → Nat
  | .one => 1 | .two => 2 | .four => 4

/-- The width that a number of bytes names; any other number is out of range (R69). -/
def Width.ofBytes (n : Nat) : Option Width :=
  match n with
  | 1 => some .one | 2 => some .two | 4 => some .four | _ => none

/-- Word k of a port's configuration. -/
def PortConfig.word (c : PortConfig) (k : Fin 3) : Word :=
  match k with
  | 0 => (0#16 ++ BitVec.ofNat 4 c.retryLimit ++ 0#1 ++ BitVec.ofNat 3 c.offlineThreshold ++ 0#1 ++
      BitVec.ofNat 3 c.credit ++ 0#1 ++ BitVec.ofNat 3 c.width.bytes :
      BitVec (16 + 4 + 1 + 3 + 1 + 3 + 1 + 3))
  | 1 => BitVec.ofNat 32 c.responseLimit
  | 2 => BitVec.ofNat 32 c.retryInterval

/-- The configuration after word k is written, or none when a value of the word is out of range
(R69, R164). -/
def PortConfig.setWord (c : PortConfig) (k : Fin 3) (w : Word) : Option PortConfig :=
  match k with
  | 0 =>
    (Width.ofBytes (w.extractLsb' 0 3).toNat).bind fun width =>
    let credit := (w.extractLsb' 4 3).toNat
    let threshold := (w.extractLsb' 8 3).toNat
    if 1 ≤ credit ∧ credit ≤ 4 ∧ 1 ≤ threshold then
      some { c with width, credit, offlineThreshold := threshold,
                    retryLimit := (w.extractLsb' 12 4).toNat }
    else none
  | 1 =>
    let limit := (w.extractLsb' 0 10).toNat
    if 1 ≤ limit ∧ limit ≤ 1000 then some { c with responseLimit := limit } else none
  | 2 =>
    let interval := (w.extractLsb' 0 8).toNat
    if 1 ≤ interval then some { c with retryInterval := interval } else none

/-! ## Setting words (R155, 9.5) -/

/-- The timer settings word: hold limit in bits 7-0, guard hold-off in bits 15-8. -/
def Settings.timersWord (t : Settings) : Word := (0#16 ++ t.holdOff ++ t.holdLimit : BitVec (16 + 8 + 8))

/-- The attention enables word: kind enables in bits 8-0, port enables in bits 19-16. -/
def Settings.enablesWord (t : Settings) : Word :=
  (0#12 ++ t.portEnables ++ 0#7 ++ t.kindEnables : BitVec (12 + 4 + 7 + 9))

/-! ## Status words (R165, 9.5, 9.6) -/

def PortState.code : PortState → BitVec 2
  | .absent => 0 | .online => 1 | .offline => 2

/-- The holder code: 1 to 15 for a B origin, 16 for P (R165). -/
def Holder.code : Holder → Fin 17
  | .p => 16
  | .b source => ⟨source.toNat, Nat.lt_of_lt_of_le source.isLt (by decide)⟩

def ChannelState.code : ChannelState → BitVec 3
  | .idle => 0 | .fetching => 1 | .running => 2 | .pausing => 3 | .paused => 4 | .stopping _ => 5

def RunOutcome.code : RunOutcome → BitVec 2
  | .none => 0 | .complete => 1 | .stopped => 2 | .faulted => 3

/-- Channel status word k. An absent fault status reads 15, an absent detail 0xFF, an absent fault
address 0 (R127, R165). -/
def Channel.statusWord (c : Channel) (k : Fin 4) : Word :=
  match k with
  | 0 => ((c.faultDetail.getD 0xFF#8) ++ 0#4 ++ (c.faultStatus.elim 15#4 Status.code) ++
      BitVec.ofNat 4 c.paceCredit ++ 0#2 ++ BitVec.ofNat 2 c.units.length ++ 0#2 ++ c.outcome.code ++
      0#1 ++ c.state.code : BitVec (8 + 4 + 4 + 4 + 2 + 2 + 2 + 2 + 1 + 3))
  | 1 => (c.completed ++ c.remaining : BitVec (16 + 16))
  | 2 => c.faultAddress.getD 0
  | 3 => c.destinationCursor

def GuardState.code : GuardState → BitVec 2
  | .opened => 0 | .guarded => 1 | .releasing _ => 2

def AttnSource.code : AttnSource → BitVec 4
  | .channel c => BitVec.ofNat 4 c.val
  | .port p => BitVec.ofNat 4 (4 + p.val)
  | .guardUnit => 8
  | .backplane => 9

def AttnKind.code : AttnKind → Fin 9
  | .channelDone => 0 | .channelFault => 1 | .portOffline => 2 | .portLost => 3 | .holdBroken => 4
  | .guardOn => 5 | .guardOff => 6 | .blinkDown => 7 | .blinkUp => 8

/-- The answer of an ask, without the fields taken when it ends the ask (R145). -/
inductive Answer where
  | empty
  | record (r : AttnRecord)
  | overflow
  | portCode (port : PortNo) (code : BitVec 8)
deriving DecidableEq, Repr

/-- The answer record of 16 bytes (R145, 9.5). Absent fields read as zero. -/
def Answer.bytes (a : Answer) (remaining : Nat) (overflow : Bool) : List Byte :=
  let word1 (code : BitVec 8) (port : BitVec 2) : Word :=
    (code ++ 0#6 ++ port ++ 0#7 ++ BitVec.ofBool overflow ++ 0#3 ++ BitVec.ofNat 5 remaining :
      BitVec (8 + 6 + 2 + 7 + 1 + 3 + 5))
  match a with
  | .empty => wordBytes 0#32 ++ wordBytes (word1 0 0) ++ wordBytes 0#32 ++ wordBytes 0#32
  | .record r =>
      wordBytes (0#8 ++ BitVec.ofNat 8 r.count ++ 0#4 ++ BitVec.ofNat 4 r.kind.code.val ++ r.source.code ++
        0#2 ++ 1#2 : BitVec (8 + 8 + 4 + 4 + 4 + 2 + 2)) ++
      wordBytes (word1 0 0) ++
      wordBytes (r.detail.elim 0#32 fun d => d.1.code.setWidth 32) ++
      wordBytes (r.detail.elim 0#32 fun d => d.2)
  | .overflow => wordBytes 2#32 ++ wordBytes (word1 0 0) ++ wordBytes 0#32 ++ wordBytes 0#32
  | .portCode port code =>
      wordBytes 3#32 ++ wordBytes (word1 code (BitVec.ofNat 2 port.val)) ++ wordBytes 0#32 ++
        wordBytes 0#32

/-! ## The piece plan (R78) -/

/-- The size of the piece at target address a with r bytes uncovered at width w: the largest of 1, 2
and 4 that is not larger than w, not larger than r, and divides a. -/
def pieceSize (w a r : Nat) : Nat :=
  if 4 ≤ w ∧ 4 ≤ r ∧ a % 4 = 0 then 4
  else if 2 ≤ w ∧ 2 ≤ r ∧ a % 2 = 0 then 2
  else 1

/-- The pieces from distance `at` on, as pairs of distance from the start and size. `fuel` bounds
the number of pieces; one piece covers at least one byte, so the bytes left are enough. -/
def planFrom (w a : Nat) : (fuel dist r : Nat) → List (Nat × Nat)
  | 0, _, _ => []
  | fuel + 1, dist, r =>
    if r = 0 then []
    else
      let size := pieceSize w (a + dist) r
      (dist, size) :: planFrom w a fuel (dist + size) (r - size)

/-- The piece plan of length bytes at target address a for width w. -/
def piecePlan (a : Word) (length : Nat) (w : Width) : List (Nat × Nat) :=
  planFrom w.bytes a.toNat length 0 length

end Machine

end Sys2Proof
end

