-- ==== Sys2Proof/Machine/Ops.lean ====
section
/-!
DEFINITION. The named operations over the state: giving, changing and freeing entries, the orders of
entries that the manual names (computed from the arrival order), the rounds, the port, note and
channel records, and the sending of messages.
-/

namespace Sys2Proof.Machine

/-- Every cell of a vector through f. It says what `Vector.map` says, in a form that the kernel
evaluates. -/
def mapCells {α β : Type} {n : Nat} (f : α → β) (v : Vector α n) : Vector β n :=
  ⟨(v.toList.map f).toArray, by simp⟩

/-! ## Entries and their orders -/

/-- The entries that are not FREE with their indices, in arrival order, oldest first (R44). -/
def State.table (s : State) : List (EntryNo × Entry) :=
  s.order.filterMap fun i => s.entries[i].map fun e => (i, e)

/-- The FREE entry with the lowest index (R44). -/
def State.lowestFree (s : State) : Option EntryNo :=
  (List.finRange 24).find? fun i => s.entries[i].isNone

/-- Entry i is given to a new occupant and takes the youngest place in the arrival order (R44). -/
def State.give (s : State) (i : EntryNo) (e : Entry) : State :=
  { s with entries := s.entries.set i (some e), order := s.order ++ [i],
           freshCount := s.freshCount + 1 }

/-- The record of entry i changes by f; a FREE entry stays FREE. -/
def State.modEntry (s : State) (i : EntryNo) (f : Entry → Entry) : State :=
  { s with entries := s.entries.set i (s.entries[i].map f) }

/-- Entry i becomes FREE and its place in the arrival order is released. The round of the index is
kept (R43). -/
def State.free (s : State) (i : EntryNo) : State :=
  { s with entries := s.entries.set i none, order := s.order.filter fun j => j ≠ i }

/-- The round of index i advances by 1, wrapping from 255 to 0 (R43). -/
def State.bumpRound (s : State) (i : EntryNo) : State :=
  { s with rounds := s.rounds.set i (s.rounds[i] + 1) }

/-- Entries on the wait list of a port: routed there and WAITING, ISSUED or BACKOFF (R80). -/
def Entry.onWaitList (p : PortNo) (e : Entry) : Bool :=
  decide (e.route = some (.port p)) &&
    (decide (e.state = .waiting) || decide (e.state = .issued) || decide (e.state = .backoff))

/-- The wait list of a port, oldest at the head (R80). -/
def State.waitList (s : State) (p : PortNo) : List (EntryNo × Entry) :=
  s.table.filter fun ie => ie.2.onWaitList p

/-- Whether a piece of the entry is out at the port: ISSUED there, or ORPHANED with a piece issued
there (R58, R67). -/
def Entry.pieceOutAt (p : PortNo) (e : Entry) : Bool :=
  decide (e.route = some (.port p)) && (decide (e.state = .issued) || decide (e.state = .orphaned))

/-- The issued set of a port: the stamps of the pieces out there (R67). -/
def State.issuedSet (s : State) (p : PortNo) : List (EntryNo × BitVec 8) :=
  (s.table.filter fun ie => ie.2.pieceOutAt p).map fun ie => (ie.1, s.rounds[ie.1])

/-- The issued count of a port (R67). -/
def State.issuedCount (s : State) (p : PortNo) : Nat := (s.issuedSet p).length

/-- The P response list: the P entries that are not FREE, oldest at the head (R52). -/
def State.pList (s : State) : List (EntryNo × Entry) :=
  s.table.filter fun ie => decide (ie.2.origin = .p)

/-- The management request queue: the SERVING entries routed MGMT, oldest at the head (R150). -/
def State.mgmtQueue (s : State) : List (EntryNo × Entry) :=
  s.table.filter fun ie => decide (ie.2.route = some .mgmt) && decide (ie.2.state = .serving)

/-- The asks: the SERVING entries routed ATTN, oldest at the head (R143). -/
def State.asks (s : State) : List (EntryNo × Entry) :=
  s.table.filter fun ie => decide (ie.2.route = some .attn) && decide (ie.2.state = .serving)

/-- The B origins, whatever their source nodes. -/
def Origin.isB : Origin → Bool
  | .p => false | .b _ => true | .m _ => false

def Origin.isM : Origin → Bool
  | .p => false | .b _ => false | .m _ => true

/-- Entries that the origins picked out by f own (R49). -/
def State.owned (s : State) (f : Origin → Bool) : Nat :=
  (s.table.filter fun ie => f ie.2.origin).length

/-- Entries that move channel c owns (R49). -/
def State.ownedM (s : State) (c : ChannelNo) : Nat := s.owned fun o => decide (o = .m c)

/-- The data buffer of a newly given entry: write data in its first bytes, the rest undefined (R42),
which is a free value (log entry 11). -/
def freshBuffer (n : Nat) (data : List Byte) : Vector Byte 64 :=
  Vector.ofFn fun k => data.getD k.val (Config.undefinedByte n k.val)

/-- The buffer with bytes placed from position `at_` on; bytes that would fall beyond the end are not
placed (R45). -/
def placeBytes (buffer : Vector Byte 64) (at_ : Nat) (bytes : List Byte) : Vector Byte 64 :=
  Vector.ofFn fun k =>
    if at_ ≤ k.val then bytes.getD (k.val - at_) buffer[k] else buffer[k]

/-- The first length bytes of the entry's buffer (R45). -/
def Entry.bytes (e : Entry) : List Byte := e.buffer.toList.take e.length

/-- The word that a management write carries (R160). -/
def Entry.word (e : Entry) : Word := wordAt e.buffer.toList 0

/-- A new entry with every field as R42 gives it at creation. Routing sets the state and the route. R42
gives the pieces total no value before the decode record is set; that it reads 0 until then is the
model's choice (log entry 32). -/
def State.newEntry (s : State) (origin : Origin) (tag : Option (BitVec 4))
    (stamp : Option (BitVec 16)) (node : Option (BitVec 4)) (space : Space) (op : Op)
    (address : Word) (length : Nat) (data : List Byte) : Entry :=
  { state := .serving, origin, tag, returnStamp := stamp, node, space, op, address, length,
    route := none, decode := none, piecesTotal := 0, nextPiece := 0, retryCount := 0,
    skipCount := 0, timer := none, buffer := freshBuffer s.freshCount data, finalStatus := none,
    faultAddress := none, detail := none }

/-! ## Pieces of an entry -/

/-- The piece plan of an entry, made from its decode record (R78). -/
def Entry.plan (e : Entry) : List (Nat × Nat) :=
  match e.decode with
  | some d => piecePlan d.target e.length d.width
  | none => []

/-- The next piece of the plan: its distance from the start and its size (R79). -/
def Entry.piece (e : Entry) : Nat × Nat := e.plan.getD e.nextPiece (0, 1)

/-- The request-side address of the next piece (R79). -/
def Entry.pieceAddress (e : Entry) : Word := e.address + BitVec.ofNat 32 e.piece.1

/-- The target address of the next piece (R79). -/
def Entry.pieceTarget (e : Entry) : Word :=
  (e.decode.elim 0#32 fun d => d.target) + BitVec.ofNat 32 e.piece.1

/-- The bytes of the next piece of a write (R79). -/
def Entry.pieceBytes (e : Entry) : List Byte := (e.buffer.toList.drop e.piece.1).take e.piece.2

/-- A guarded write: a WRITE or WRITE_RELEASE whose decode record holds the guarded flag (chapter 7,
section 7.2). -/
def Entry.guardedWrite (e : Entry) : Bool :=
  !e.op.isRead && e.decode.any fun d => d.guarded

/-! ## Ports, holds, notes, channels -/

def State.modPort (s : State) (p : PortNo) (f : Port → Port) : State :=
  { s with ports := s.ports.set p (f s.ports[p]) }

def State.modChannel (s : State) (c : ChannelNo) (f : Channel → Channel) : State :=
  { s with channels := s.channels.set c (f s.channels[c]) }

def Holder.origin : Holder → Origin
  | .p => .p
  | .b source => .b source

/-- The holder that an origin is; a move channel is none (chapter 5, section 5.1). -/
def Origin.holder : Origin → Option Holder
  | .p => some .p
  | .b source => some (.b source)
  | .m _ => none

/-- The port that a holder holds, with the hold record: the lowest-numbered, since it holds at most
one (R93). -/
def State.holdOf (s : State) (h : Holder) : Option (PortNo × Hold) :=
  (List.finRange 4).findSome? fun p =>
    s.ports[p].hold.bind fun hold => if hold.holder = h then some (p, hold) else none

/-- The broken note of a holder (R94). -/
def State.note (s : State) (h : Holder) : Option PortNo := s.notes[h.code]

def State.setNote (s : State) (h : Holder) (v : Option PortNo) : State :=
  { s with notes := s.notes.set h.code v }

/-! ## Sending (R1) -/

/-- A message is produced on the P link: it leaves if the link is up and is discarded if it is down
(R1). -/
def State.sendP (s : State) (m : PMessage) : State :=
  { s with pSent := if s.lines.pLink then s.pSent ++ [m] else s.pSent }

/-- A message is produced on the B link: it leaves if the link itself is up and is discarded if it is
down (R54). R54 says so of responses; that a forwarded request is discarded likewise, its entry
staying FORWARDED, is the model's choice (log entry 33). -/
def State.sendB (s : State) (m : BMessage) : State :=
  { s with bSent := if s.lines.bLink then s.bSent ++ [m] else s.bSent }

/-- A message is sent on a target link. -/
def State.sendT (s : State) (p : PortNo) (m : TMessage) : State :=
  { s with tSent := s.tSent.set p (s.tSent[p] ++ [m]) }

/-! ## Responses of an entry (R13, R45) -/

/-- The result fields of the response of an ended entry (R13): data for OK on a READ or READ_HOLD. -/
def Entry.response (e : Entry) : Response :=
  { tag := e.tag.getD 0
    status := e.finalStatus.getD .ok
    data := if e.finalStatus = some .ok ∧ e.op.isRead then some e.bytes else none
    faultAddress := e.faultAddress
    detail := e.detail }

/-- The response of a B entry, addressed to its source node (R54). -/
def State.bResponse (s : State) (source : BitVec 4) (e : Entry) : BMessage :=
  .response source s.setup.straps.slot (e.returnStamp.getD 0) e.response

end Sys2Proof.Machine
end

