-- ==== Sys2Proof/Machine/Flags.lean ====
section
/-!
DEFINITION. The flags, counts and conditions that the bridge computes from its state: the pending
condition and ATTN_OUT, the raising of attention, the earlier-generation count, and the
conditions of an issue (per-origin order, hold, guard).
-/

namespace Sys2Proof.Machine

/-! ## The pending condition (R141, R142) -/

/-- Whether a port's attention line counts: its enable is set and its line is asserted (R141). -/
def State.lineWants (s : State) (p : PortNo) : Bool :=
  s.setup.settings.portEnables.getLsbD p.val && s.lines.tattn[p]

/-- The pending condition (R141). -/
def State.pendingCondition (s : State) : Bool :=
  !s.attention.queue.isEmpty || s.attention.overflow || (List.finRange 4).any s.lineWants

/-- The pending condition is evaluated: ATTN_OUT follows it, and a change from false to true produces
one notice with the number of records in the queue (R141, R142). -/
def State.evalPending (s : State) : State :=
  { s with
    attention := { s.attention with out := s.pendingCondition }
    pSent :=
      if s.pendingCondition && !s.attention.out && s.lines.pLink then
        s.pSent ++ [.notice s.attention.queue.length]
      else s.pSent }

/-! ## Raising attention (R138) -/

/-- Whether the queue holds a record with this source and kind. -/
def Attention.holds (a : Attention) (source : AttnSource) (kind : AttnKind) : Bool :=
  a.queue.any fun r => decide (r.source = source) && decide (r.kind = kind)

/-- What an enabled event does to the queue and the flag: a merge, a new record at the tail, or the
overflow flag (R138, cases 2 to 4). -/
def Attention.record (a : Attention) (source : AttnSource) (kind : AttnKind)
    (detail : Option (Status × Word)) : Attention :=
  if a.holds source kind then
    { a with queue := a.queue.map fun r =>
        if r.source = source ∧ r.kind = kind then { r with count := min 255 (r.count + 1) } else r }
  else if a.queue.length < Config.attentionCapacity then
    { a with queue := a.queue ++ [{ source, kind, count := 1, detail }] }
  else { a with overflow := true }

/-- Whether events of this kind are recorded (R140). -/
def State.kindEnabled (s : State) (kind : AttnKind) : Bool :=
  s.setup.settings.kindEnables.getLsbD kind.code.val

/-- An event is raised: it is recorded if its kind is enabled, and the pending condition is evaluated
(R138, R141). -/
def State.raise (s : State) (source : AttnSource) (kind : AttnKind)
    (detail : Option (Status × Word)) : State :=
  { s with attention := if s.kindEnabled kind then s.attention.record source kind detail
                        else s.attention }.evalPending

/-! ## Counts (R35, R49) -/

/-- Whether the entry may still send a piece under an earlier table: WAITING, ISSUED, BACKOFF or
ORPHANED with a generation that is not the current one (R35). -/
def Entry.earlier (generation : BitVec 16) (e : Entry) : Bool :=
  (decide (e.state = .waiting) || decide (e.state = .issued) || decide (e.state = .backoff) ||
    decide (e.state = .orphaned)) &&
  e.decode.any fun d => decide (d.generation ≠ generation)

/-- The earlier-generation count (R35). -/
def State.earlierCount (s : State) : Nat :=
  (s.table.filter fun ie => ie.2.earlier s.setup.generation).length

/-- The number of ORPHANED entries (R49). -/
def State.orphanedCount (s : State) : Nat :=
  (s.table.filter fun ie => decide (ie.2.state = .orphaned)).length

/-! ## Conditions of an issue (R51, R81, R97) -/

/-- The entries older than entry i, oldest first (R44). -/
def State.olderThan (s : State) (i : EntryNo) : List (EntryNo × Entry) :=
  s.table.takeWhile fun jf => decide (jf.1 ≠ i)

/-- Per-origin order: an older entry of the same origin is WAITING or BACKOFF at the port (R51). -/
def State.blockedByOrder (s : State) (p : PortNo) (i : EntryNo) (e : Entry) : Bool :=
  (s.olderThan i).any fun jf =>
    decide (jf.2.origin = e.origin) && decide (jf.2.route = some (.port p)) &&
      (decide (jf.2.state = .waiting) || decide (jf.2.state = .backoff))

/-- Whether a hold of the port holds the entry back: another origin holds the port, or the entry is a
READ_HOLD that the record does not name as its hold read (R81, R96, R97). -/
def State.heldBack (s : State) (p : PortNo) (i : EntryNo) (e : Entry) : Bool :=
  match s.ports[p].hold with
  | none => false
  | some hold =>
    decide (hold.holder.origin ≠ e.origin) ||
      (decide (e.op = .readHold) && decide (hold.phase ≠ .awaitingRead i))

/-- The conditions of an issue that R81 and R133 share: WAITING at the port, not blocked by per-origin
order, not held back by a hold. -/
def State.dueAt (s : State) (p : PortNo) (i : EntryNo) (e : Entry) : Bool :=
  decide (e.state = .waiting) && decide (e.route = some (.port p)) && !s.blockedByOrder p i e &&
    !s.heldBack p i e

/-- Whether the guard refuses guarded writes (R128, R133). -/
def State.guardClosed (s : State) : Bool := decide (s.guard ≠ .opened)

/-- Eligibility for the grant of the next piece (R81). -/
def State.eligible (s : State) (p : PortNo) (i : EntryNo) (e : Entry) : Bool :=
  s.dueAt p i e && !(e.guardedWrite && s.guardClosed)

/-- Whether a guarded write at a port is to end GUARDED now (R133). -/
def State.guardDue (s : State) (i : EntryNo) (e : Entry) : Bool :=
  s.guardClosed && e.guardedWrite &&
    match e.route with
    | some (.port p) => decide (s.ports[p].state = .online) && s.dueAt p i e
    | _ => false

end Sys2Proof.Machine
end

