-- ==== Sys2Proof/Machine/Windows.lean ====
section
/-!
DEFINITION. The Window Table: decode (R26 to R31), the validation of a COMMIT and the copies of COMMIT
and COPY BACK (R36 to R40).
-/

namespace Sys2Proof.Machine

/-- The page of an address (00_scope.md, Sizes). -/
def pageOf (a : Word) : BitVec 20 := a.extractLsb' 12 20

/-- Whether a live entry is a window that holds the page (R23). -/
def Window.holdsPage (w : Window) (page : BitVec 20) : Bool :=
  w.valid && decide (w.base ≤ page) && decide (page ≤ w.limit)

/-- The matching window: the valid live entry with the lowest index that holds the address (R27). -/
def State.matchingWindow (s : State) (address : Word) : Option (Fin 32) :=
  (List.finRange 32).find? fun i => s.setup.live[i].holdsPage (pageOf address)

/-- Whether rights allow an operation (R28): a READ needs READ or READ_WRITE, the others
READ_WRITE. -/
def Rights.allow (r : Rights) (op : Op) : Bool :=
  match r with
  | .none => false
  | .noRight => false
  | .read => decide (op = .read)
  | .readWrite => true

/-- The rights of the window for the origin class of an origin: remote for B, local for the others
(R26, R28). -/
def Window.rightsFor (w : Window) (origin : Origin) : Rights :=
  if origin.isB then w.remoteRights else w.localRights

/-- The address the target sees (R30). -/
def Window.targetAddress (w : Window) (address : Word) : Word :=
  address - (w.base.setWidth 32 <<< 12) + (w.targetPage.setWidth 32 <<< 12)

/-- The decode (R26 to R31): the status and detail of the first check that fails, or the decode
record. -/
def State.decodeAddress (s : State) (origin : Origin) (op : Op) (address : Word) :
    Except (Status × Option Detail) DecodeRecord :=
  match s.matchingWindow address with
  | none => .error (.unmapped, none)
  | some i =>
    let w := s.setup.live[i]
    if !(w.rightsFor origin).allow op then .error (.denied, some (Detail.index i))
    else if s.ports[w.port].state ≠ .online then .error (.noTarget, some (Detail.index i))
    else .ok
      { window := i, generation := s.setup.generation, port := w.port,
        target := w.targetAddress address, guarded := w.guarded,
        width := s.setup.portConfig[w.port].width }

/-- An entry that takes its place on the wait list of the port its decode names (R31). -/
def Entry.placed (e : Entry) (d : DecodeRecord) : Entry :=
  { e with state := .waiting, route := some (.port d.port), decode := some d,
           piecesTotal := (piecePlan d.target e.length d.width).length }

/-- Whether a staging entry fails validation: valid, and its limit page is below its base page or a
rights field names no right (R36). -/
def Window.unsound (w : Window) : Bool :=
  w.valid && (decide (w.limit < w.base) || decide (w.localRights = .noRight) ||
    decide (w.remoteRights = .noRight))

/-- The lowest-indexed staging entry that fails validation (R36, R37). -/
def State.badStaging (s : State) : Option (Fin 32) :=
  (List.finRange 32).find? fun i => (Window.ofWords s.setup.staging[i]).unsound

/-- The live table becomes a copy of the staging table and the generation advances (R38). -/
def State.commitTables (s : State) : State :=
  { s with setup := { s.setup with live := mapCells Window.ofWords s.setup.staging
                                   generation := s.setup.generation + 1 } }

/-- The staging table becomes a copy of the live table as it reads (R40, R162). -/
def State.copyBackTables (s : State) : State :=
  { s with setup := { s.setup with staging := mapCells Window.words s.setup.live } }

end Sys2Proof.Machine
end

