-- ==== Sys2Proof/Machine/Channels.lean ====
section
/-!
DEFINITION. The move channels (chapter 6): creation of their entries, the reports of their entries,
completion, faults, and the effects of their commands. The meanings of the command rows call
these; see Sys2Proof/Machine/Management.lean.
-/

namespace Sys2Proof.Machine

/-- What became of a creation: the entry's index, an end at the decode (R55), or no entry because the
channel owns 2 or none is FREE, which the quotas exclude (R49, R50, log entry 21). -/
inductive Creation where
  | placed (i : EntryNo)
  | ended (status : Status) (detail : Option Detail)
  | noEntry
deriving DecidableEq, Repr

/-- A channel creates an entry (R50): within its quota, decoded under local rights in the same event.
An entry that its decode ends is given and FREE again in this event and leaves nothing behind. -/
def State.createMove (s : State) (c : ChannelNo) (op : Op) (address : Word) (length : Nat)
    (data : List Byte) : State × Creation :=
  if s.ownedM c < Config.quotaM then
    match s.lowestFree with
    | none => (s, .noEntry)
    | some i =>
      match s.decodeAddress (.m c) op address with
      | .error (status, detail) => (s, .ended status detail)
      | .ok d =>
        (s.give i ((s.newEntry (.m c) none none none .data op address length data).placed d),
          .placed i)
  else (s, .noEntry)

/-- The channel enters IDLE (R112, R116, R118, R122, R124). -/
def Channel.enterIdle (ch : Channel) (outcome : RunOutcome) : Channel :=
  { ch with state := .idle, outcome, paceCredit := 0, fetchAddress := none }

/-- The channel enters IDLE with outcome FAULTED and raises CHANNEL_FAULT with its fault status and
fault address as detail (R112, R124). -/
def State.faultIdle (s : State) (c : ChannelNo) : State :=
  let s := s.modChannel c fun ch => ch.enterIdle .faulted
  s.raise (.channel c) .channelFault
    (some (s.channels[c].faultStatus.getD .ok, s.channels[c].faultAddress.getD 0))

/-- A stopping channel whose unit list is empty and that owns no entry enters IDLE (R122, R124); a
pausing channel whose unit list is empty becomes PAUSED (R119). -/
def State.restChannel (s : State) (c : ChannelNo) : State :=
  let ch := s.channels[c]
  if ch.units.isEmpty then
    match ch.state with
    | .stopping .stop =>
      if s.ownedM c = 0 then s.modChannel c fun ch => ch.enterIdle .stopped else s
    | .stopping .fault => if s.ownedM c = 0 then s.faultIdle c else s
    | .pausing => s.modChannel c fun ch => { ch with state := .paused }
    | .idle => s
    | .fetching => s
    | .running => s
    | .paused => s
  else s

/-- What a unit failure does to the other records of the list: a READING record becomes DISCARDING, a
STAGED record leaves, a WRITING or DISCARDING record stays (R123). -/
def dropLater (units : List UnitRecord) : List UnitRecord :=
  units.filterMap fun u =>
    match u.phase with
    | .reading i => some { u with phase := .discarding i }
    | .staged _ => none
    | .writing _ => some u
    | .discarding _ => some u

/-- A unit failure (R123): the fault fields are set, the failed record is gone (`others` are the
records that remain), and the channel stops with cause FAULT. -/
def State.failUnit (s : State) (c : ChannelNo) (others : List UnitRecord) (status : Status)
    (address : Word) (detail : Option Detail) : State :=
  s.modChannel c fun ch =>
    { ch with faultStatus := some status, faultAddress := some address, faultDetail := detail,
              units := dropLater others, state := .stopping .fault }

/-- The write of the first unit of the list is created, carrying the unit's bytes (R114, R115); a
decode that ends it at once is a failure of the unit (R123), whose address is the unit's
destination address. -/
def State.startWrite (s : State) (c : ChannelNo) (u : UnitRecord) (rest : List UnitRecord)
    (bytes : List Byte) : State :=
  let ch := s.channels[c]
  match s.createMove c .write ch.destinationCursor ch.descriptor.unit.bytes bytes with
  | (s, .placed j) => s.modChannel c fun ch => { ch with units := { u with phase := .writing j } :: rest }
  | (s, .ended status detail) => s.failUnit c rest status ch.destinationCursor detail
  | (s, .noEntry) => s

/-- A fetch that failed: IDLE, FAULTED, with the status and detail of the report and its fault address
or else the fetch address (R112). -/
def State.fetchFault (s : State) (c : ChannelNo) (status : Status) (address : Word)
    (detail : Option Detail) : State :=
  (s.modChannel c fun ch =>
    { ch with faultStatus := some status, faultAddress := some address,
              faultDetail := detail }).faultIdle c

/-- The channel enters FETCHING and creates its fetch entry, a 16-byte READ at the fetch address
(R111, R116, R120); a decode that ends it at once is acted on as R112 states. -/
def State.startFetch (s : State) (c : ChannelNo) (address : Word) : State :=
  let s := s.modChannel c fun ch => { ch with state := .fetching, fetchAddress := some address }
  match s.createMove c .read address 16 [] with
  | (s, .placed _) => s
  | (s, .ended status detail) => s.fetchFault c status address detail
  | (s, .noEntry) => s

/-- The loaded descriptor becomes current and the channel runs (R110, R112). -/
def Channel.becomeCurrent (ch : Channel) : Channel :=
  { ch with remaining := ch.descriptor.count, started := 0,
            sourceCursor := ch.descriptor.source,
            destinationCursor := ch.descriptor.destination, units := [], paceCredit := 0,
            state := .running }

/-- The cursor after a unit at it (R113, R115). -/
def nextCursor (cursor : Word) (fixed : Bool) (unit : UnitSize) : Word :=
  if fixed then cursor else cursor + BitVec.ofNat 32 unit.bytes

/-- A descriptor is complete (R116). -/
def State.completeDescriptor (s : State) (c : ChannelNo) : State :=
  let s := s.modChannel c fun ch => { ch with completed := ch.completed + 1 }
  let ch := s.channels[c]
  let s := if ch.descriptor.notify then s.raise (.channel c) .channelDone none else s
  match ch.state with
  | .pausing =>
    if ch.descriptor.link = 0 then s.modChannel c fun ch => ch.enterIdle .complete
    else s.modChannel c fun ch => { ch with state := .paused }
  | .stopping _ => s.modChannel c fun ch => ch.enterIdle .stopped
  | .running =>
    if ch.descriptor.link = 0 then s.modChannel c fun ch => ch.enterIdle .complete
    else s.startFetch c ch.descriptor.link
  | .idle => s
  | .fetching => s
  | .paused => s

/-- The write of a unit has ended OK (R115): its record has left (`others` remain), remaining units
fall, the destination cursor advances, and a STAGED successor is written or the descriptor is
complete. -/
def State.writeDone (s : State) (c : ChannelNo) (others : List UnitRecord) : State :=
  let s := s.modChannel c fun ch =>
    { ch with units := others, remaining := ch.remaining - 1,
              destinationCursor :=
                nextCursor ch.destinationCursor ch.descriptor.destinationFixed ch.descriptor.unit }
  let ch := s.channels[c]
  if ch.state = .stopping .fault then s
  else if ch.remaining = 0 then s.completeDescriptor c
  else
    match others with
    | [] => s
    | u :: rest =>
      match u.phase with
      | .staged bytes => s.startWrite c u rest bytes
      | .reading _ => s
      | .writing _ => s
      | .discarding _ => s

/-- The fetch entry has reported (R112; R122 for a channel that is stopping). -/
def State.fetchReport (s : State) (c : ChannelNo) (status : Status) (faultAddress : Option Word)
    (detail : Option Detail) (data : List Byte) : State :=
  let ch := s.channels[c]
  match ch.fetchAddress with
  | none => s
  | some address =>
    if ch.state = .fetching then
      if status = .ok then
        let s := s.modChannel c fun ch =>
          { ch with descriptor := Descriptor.ofBytes data, fetchAddress := none }
        match (Descriptor.ofBytes data).invalid with
        | none => s.modChannel c Channel.becomeCurrent
        | some check => s.fetchFault c .form address (some check)
      else s.fetchFault c status (faultAddress.getD address) detail
    else s.modChannel c fun ch => { ch with fetchAddress := none }

/-- Whether a unit record owns entry i (R105). -/
def UnitRecord.owns (u : UnitRecord) (i : EntryNo) : Bool :=
  match u.phase with
  | .reading j => decide (j = i)
  | .staged _ => false
  | .writing j => decide (j = i)
  | .discarding j => decide (j = i)

/-- The record at position k of the unit list has had its entry's report (R114, R115, R122 to
R124). `address` is the address of the transaction. -/
def State.unitReport (s : State) (c : ChannelNo) (k : Nat) (u : UnitRecord) (address : Word)
    (status : Status) (faultAddress : Option Word) (detail : Option Detail) (data : List Byte) :
    State :=
  let units := s.channels[c].units
  let others := units.eraseIdx k
  match u.phase with
  | .reading _ =>
    if status = .ok then
      if k = 0 then s.startWrite c u others data
      else s.modChannel c fun ch => { ch with units := units.set k { u with phase := .staged data } }
    else s.failUnit c others status (faultAddress.getD address) detail
  | .writing _ =>
    if status = .ok then s.writeDone c others
    else if s.channels[c].state = .stopping .fault then
      s.modChannel c fun ch => { ch with units := others }
    else s.failUnit c others status (faultAddress.getD address) detail
  | .discarding _ => s.modChannel c fun ch => { ch with units := others }
  | .staged _ => s

/-- An entry of channel c, FREE since this event, reports its end (R55). -/
def State.report (s : State) (c : ChannelNo) (i : EntryNo) (address : Word) (status : Status)
    (faultAddress : Option Word) (detail : Option Detail) (data : List Byte) : State :=
  let units := s.channels[c].units
  let s :=
    match units.findIdx? fun u => u.owns i with
    | some k =>
      match units[k]? with
      | some u => s.unitReport c k u address status faultAddress detail data
      | none => s
    | none => s.fetchReport c status faultAddress detail data
  s.restChannel c

/-! ## Unit start decisions (R113) -/

/-- The conditions of a unit start decision (R113). -/
def State.canStartUnit (s : State) (c : ChannelNo) : Bool :=
  let ch := s.channels[c]
  decide (ch.state = .running) && decide (ch.started < ch.descriptor.count) &&
    decide (ch.units.length < 2) && decide (s.ownedM c < Config.quotaM) &&
    (decide (ch.descriptor.pacePort = none) || decide (1 ≤ ch.paceCredit))

/-- A unit is started: its record is appended, its read is created at the source cursor, the cursor
advances (R113). A read that its decode ends at once is a failure of the unit (R114, R123). -/
def State.startUnit (s : State) (c : ChannelNo) : State :=
  let ch := s.channels[c]
  let after (units : List UnitRecord) (ch : Channel) : Channel :=
    { ch with
      units
      started := ch.started + 1
      paceCredit := if ch.descriptor.pacePort = none then ch.paceCredit else ch.paceCredit - 1
      sourceCursor := nextCursor ch.sourceCursor ch.descriptor.sourceFixed ch.descriptor.unit }
  match s.createMove c .read ch.sourceCursor ch.descriptor.unit.bytes [] with
  | (s, .placed i) =>
    s.modChannel c (after (ch.units ++ [{ number := ch.started.toNat, phase := .reading i }]))
  | (s, .ended status detail) =>
    ((s.modChannel c (after ch.units)).failUnit c ch.units status ch.sourceCursor detail).restChannel c
  | (s, .noEntry) => s

/-! ## Commands (R110, R111, R119 to R121) -/

/-- The outcome and fault fields as a START leaves them (R110, R111). -/
def Channel.clearOutcome (ch : Channel) : Channel :=
  { ch with outcome := .none, faultStatus := none, faultAddress := none, faultDetail := none }

/-- START of the loaded form (R110): the state after it, with its status and detail. -/
def State.startLoaded (s : State) (c : ChannelNo) : State × Status × Option Detail :=
  let ch := s.channels[c]
  if ch.state ≠ .idle then (s, .busy, none)
  else
    match ch.descriptor.invalid with
    | some check => (s, .form, some check)
    | none => (s.modChannel c fun ch => ch.clearOutcome.becomeCurrent, .ok, none)

/-- START of the fetch form at the command argument (R111, R157). -/
def State.startFetchForm (s : State) (c : ChannelNo) : State × Status × Option Detail :=
  let ch := s.channels[c]
  let address := s.setup.settings.argument
  if ch.state ≠ .idle then (s, .busy, none)
  else if address.toNat % 16 ≠ 0 then (s, .form, some Detail.linkAlign)
  else
    ((s.modChannel c fun ch =>
        { ch.clearOutcome with remaining := 0, started := 0, units := [], paceCredit := 0 }).startFetch
      c address, .ok, none)

/-- PAUSE (R119). -/
def State.pauseChannel (s : State) (c : ChannelNo) : State × Status × Option Detail :=
  let ch := s.channels[c]
  if ch.state ≠ .running then (s, .busy, none)
  else
    (s.modChannel c fun ch =>
      { ch with state := if ch.units.isEmpty then .paused else .pausing }, .ok, none)

/-- CONTINUE (R120). -/
def State.continueChannel (s : State) (c : ChannelNo) : State × Status × Option Detail :=
  let ch := s.channels[c]
  match ch.state with
  | .pausing => (s.modChannel c fun ch => { ch with state := .running }, .ok, none)
  | .paused =>
    if ch.remaining = 0 then (s.startFetch c ch.descriptor.link, .ok, none)
    else (s.modChannel c fun ch => { ch with state := .running }, .ok, none)
  | .idle => (s, .busy, none)
  | .fetching => (s, .busy, none)
  | .running => (s, .busy, none)
  | .stopping _ => (s, .busy, none)

/-- What a STOP does to the unit list: READING records become DISCARDING, and a STAGED record that
follows one leaves (R121). -/
def stopUnits : List UnitRecord → List UnitRecord
  | [] => []
  | u :: rest =>
    match u.phase with
    | .reading i =>
      { u with phase := .discarding i } :: dropLater rest
    | .staged _ => u :: stopUnits rest
    | .writing _ => u :: stopUnits rest
    | .discarding _ => u :: dropLater rest

/-- STOP (R121). -/
def State.stopChannel (s : State) (c : ChannelNo) : State × Status × Option Detail :=
  let ch := s.channels[c]
  let stopping (ch : Channel) : Channel :=
    { ch with state := .stopping .stop, units := stopUnits ch.units }
  match ch.state with
  | .fetching => (s.modChannel c fun ch => { ch with state := .stopping .stop }, .ok, none)
  | .running =>
    (if (stopUnits ch.units).isEmpty then
        s.modChannel c fun ch => (stopping ch).enterIdle .stopped
      else s.modChannel c stopping, .ok, none)
  | .pausing =>
    (if (stopUnits ch.units).isEmpty then
        s.modChannel c fun ch => (stopping ch).enterIdle .stopped
      else s.modChannel c stopping, .ok, none)
  | .paused => (s.modChannel c fun ch => ch.enterIdle .stopped, .ok, none)
  | .idle => (s, .busy, none)
  | .stopping _ => (s, .busy, none)

/-! ## Pace pulses (R117) -/

/-- Whether a pulse of port p's pace line can go to the channel (R117). -/
def Channel.takesPulse (ch : Channel) (p : PortNo) : Bool :=
  (decide (ch.state = .running) || decide (ch.state = .pausing) || decide (ch.state = .paused)) &&
    decide (ch.descriptor.pacePort = some p)

/-- A pulse on port p's pace line: it goes to the lowest-numbered channel that qualifies, or is dropped
(R117). -/
def State.pulse (s : State) (p : PortNo) : State :=
  match (List.finRange 4).find? fun c => s.channels[c].takesPulse p with
  | none => s
  | some c =>
    s.modChannel c fun ch => { ch with paceCredit := min Config.paceCreditMax (ch.paceCredit + 1) }

end Sys2Proof.Machine
end

