-- ==== Sys2Proof/Machine/Transactions.lean ====
section
/-!
DEFINITION. The end of an entry and its delivery (R47, R52 to R55, R61), with what the end does to a
hold (R99, R101); the loss of a port (R72, R73, R102); the sweep of the guard (R134).
-/

namespace Sys2Proof.Machine

/-! ## The CARD RESET command (R64) -/

/-- Whether the entry is a CARD RESET command that has ended OK: a management write of the P origin
to the command word with code 9 (R64, R159). -/
def Entry.isCardReset (e : Entry) : Bool :=
  decide (e.origin = .p) && decide (e.route = some .mgmt) && decide (e.op = .write) &&
    decide (e.address = 0x080#32) && decide (e.word.extractLsb' 0 8 = 9#8) &&
    decide (e.finalStatus = some .ok)

/-- Whether a CARD RESET command has reached the head of the P response list, ended: its response and
the card reset then close the present event (R64, log entry 9). -/
def State.resetDue (s : State) : Bool :=
  match s.pList with
  | [] => false
  | (_, e) :: _ => decide (e.state = .complete) && e.isCardReset

/-! ## Delivery of P responses (R53) -/

/-- The head of the P response list, if it is COMPLETE and no CARD RESET command, leaves: its response
is produced and it becomes FREE (R53). -/
def State.deliverHead (s : State) : Option State :=
  match s.pList with
  | [] => none
  | (i, e) :: _ =>
    if e.state = .complete ∧ !e.isCardReset then some ((s.sendP (.response e.response)).free i)
    else none

/-- Up to n responses leave from the head of the P response list (R53). -/
def State.deliverUpTo : Nat → State → State
  | 0, s => s
  | n + 1, s =>
    match s.deliverHead with
    | none => s
    | some s => s.deliverUpTo n

/-- All responses that can leave do, until the head has not ended (R53). The list is never longer than
the table. -/
def State.deliverP (s : State) : State := s.deliverUpTo 24

/-! ## The end of an entry (R47) -/

/-- The hold record when its READ_HOLD ends: TIMING with the hold limit in force on OK, absent on any
other status (R99). -/
def Hold.afterRead (hold : Hold) (holdLimit : BitVec 8) (status : Status) : Option Hold :=
  if status = .ok then some { hold with phase := .timing holdLimit.toNat } else none

/-- What the end of entry i with this status does to the hold of its port: a READ_HOLD that holds the
port starts the hold timer on OK and ends the hold otherwise (R99); an accepted WRITE_RELEASE
ends it (R101). -/
def State.holdAtEnd (s : State) (i : EntryNo) (e : Entry) (status : Status) : State :=
  match e.route with
  | some (.port p) =>
    match s.ports[p].hold with
    | none => s
    | some hold =>
      if hold.phase = .awaitingRead i then
        s.modPort p fun port => { port with hold := hold.afterRead s.setup.settings.holdLimit status }
      else if hold.phase = .awaitingRelease i then s.modPort p fun port => { port with hold := none }
      else s
  | _ => s

/-- The record of an entry at its end: final status, fault address, detail, timer stopped (R47). -/
def Entry.ended (e : Entry) (status : Status) (faultAddress : Option Word)
    (detail : Option Detail) : Entry :=
  { e with state := .complete, finalStatus := some status, faultAddress, detail, timer := none }

/-- Entry i ends (R47). A P entry becomes COMPLETE and leaves in its turn (R53), a B entry produces its
response and becomes FREE (R54), a move entry becomes FREE and reports to its channel (R55). An
entry that is FREE, COMPLETE or ORPHANED is not ended again. -/
def State.endEntry (s : State) (i : EntryNo) (status : Status) (faultAddress : Option Word)
    (detail : Option Detail) : State :=
  match s.entries[i] with
  | none => s
  | some e =>
    if e.state = .complete ∨ e.state = .orphaned then s
    else
      let s := s.holdAtEnd i e status
      let e := e.ended status faultAddress detail
      match e.origin with
      | .p => (s.modEntry i fun _ => e).deliverP
      | .b source => (s.sendB (s.bResponse source e)).free i
      | .m c => (s.free i).report c i e.address status faultAddress detail e.bytes

/-- Entries end one after another with the same status and no detail; each with the fault address that
f gives for its record (R73, R134). -/
def State.endAll (s : State) (status : Status) (f : Entry → Option Word) :
    List (EntryNo × Entry) → State
  | [] => s
  | (i, e) :: rest => (s.endEntry i status (f e) none).endAll status f rest

/-- Entries become FREE one after another without a response (R61, R66). -/
def State.freeAll (s : State) : List (EntryNo × Entry) → State
  | [] => s
  | (i, _) :: rest => (s.free i).freeAll rest

/-! ## Loss of a port (R72, R73) -/

/-- The entries at the port end NO_TARGET in ascending arrival order, and its ORPHANED entries are
freed; the issued set is then empty (R72, R73, R61). -/
def State.endAtPort (s : State) (p : PortNo) : State :=
  let s := s.endAll .noTarget (fun _ => none) (s.waitList p)
  s.freeAll (s.table.filter fun ie => ie.2.pieceOutAt p)

/-- A hold that is still present when the entries have ended becomes absent, and its holder's broken
note records the port (R73, R102). -/
def State.breakHold (s : State) (p : PortNo) : State :=
  match s.ports[p].hold with
  | none => s
  | some hold => (s.modPort p fun port => { port with hold := none }).setNote hold.holder (some p)

/-- The port goes OFFLINE from ONLINE (R73). -/
def State.goOffline (s : State) (p : PortNo) : State :=
  (((s.modPort p fun port => { port with state := .offline }).endAtPort p).breakHold p).raise
    (.port p) .portOffline none

/-- What a T link down does to the port (R72). -/
def State.loseLink (s : State) (p : PortNo) : State :=
  match s.ports[p].state with
  | .online =>
    (((s.modPort p fun port => { port with state := .absent }).endAtPort p).breakHold p).raise
      (.port p) .portLost none
  | .offline =>
    (s.modPort p fun port => { port with state := .absent }).raise (.port p) .portLost none
  | .absent => s

/-! ## Guarded writes (R133, R134) -/

/-- Every guarded write WAITING or BACKOFF at any port ends GUARDED, in ascending arrival order, with
the address of its next piece (R134). -/
def State.sweep (s : State) : State :=
  s.endAll .guarded (fun e => some e.pieceAddress)
    (s.table.filter fun ie => ie.2.guardedWrite &&
      (decide (ie.2.state = .waiting) || decide (ie.2.state = .backoff)))

/-- Up to n guarded writes that are due end GUARDED, the oldest that is due first (R133, log entry 12).
The model's choice where R64 and R133 fall in one event: once a CARD RESET command has reached the
head of the P response list, no further write is refused, and the reset answers a B write ABORTED
(log entry 9). -/
def State.refuseUpTo : Nat → State → State
  | 0, s => s
  | n + 1, s =>
    if s.resetDue then s
    else
      match s.table.find? fun ie => s.guardDue ie.1 ie.2 with
      | none => s
      | some (i, e) => (s.endEntry i .guarded (some e.pieceAddress) none).refuseUpTo n

/-- Every guarded write that is due ends GUARDED (R133). Each end takes one guarded write off the wait
lists and none joins them, so the size of the table is enough. -/
def State.refuseGuarded (s : State) : State := s.refuseUpTo 24

end Sys2Proof.Machine
end

