-- ==== Sys2Proof/Machine/Attention.lean ====
section
/-!
DEFINITION. The asks and the walk of the attention unit (R143 to R148).
-/

namespace Sys2Proof.Machine

/-- An ask ends OK with its answer record in its buffer; the remaining fields are taken now (R143,
R145). -/
def State.endAsk (s : State) (i : EntryNo) (a : Answer) : State :=
  let bytes := a.bytes s.attention.queue.length s.attention.overflow
  (s.modEntry i fun e => { e with buffer := placeBytes e.buffer 0 bytes }).endEntry i .ok none none

/-- An ASK is sent to port p for ask i: the ask number advances, the ask timer starts with the port's
response limit, and the walk waits at the port (R17, R146). -/
def State.sendAsk (s : State) (i : EntryNo) (p : PortNo) : State :=
  let number := s.ports[p].askNumber + 1
  let s := (s.modPort p fun port => { port with askNumber := number }).sendT p (.ask number)
  { s with attention := { s.attention with
      walk := some { ask := i, port := p, number, timer := s.setup.portConfig[p].responseLimit } } }

/-- The walk for ask i reaches these ports in order: the first whose enable is set, whose line is
asserted and which is not ABSENT is sent an ASK; the others are passed; past the last the ask
ends EMPTY (R146). -/
def State.walkOn (s : State) (i : EntryNo) : List PortNo → State
  | [] => s.endAsk i .empty
  | p :: rest =>
    if s.lineWants p ∧ s.ports[p].state ≠ .absent then s.sendAsk i p else s.walkOn i rest

/-- The walk in progress, if it has an ASK outstanding at port p, passes the port and reaches the next
(R147, R148). -/
def State.passPort (s : State) (p : PortNo) : State :=
  match s.attention.walk with
  | none => s
  | some w =>
    if w.port = p then
      { s with attention := { s.attention with walk := none } }.walkOn w.ask
        ((List.finRange 4).filter fun q => p < q)
    else s

/-- The oldest ask is taken: answered with the head record or the overflow flag, or a walk begins at
T0 (R143). -/
def State.takeAsk (s : State) (i : EntryNo) : State :=
  match s.attention.queue with
  | r :: queue =>
    ({ s with attention := { s.attention with queue } }.evalPending).endAsk i (.record r)
  | [] =>
    if s.attention.overflow then
      ({ s with attention := { s.attention with overflow := false } }.evalPending).endAsk i .overflow
    else s.walkOn i (List.finRange 4)

/-- Up to n asks are taken, while none is in service and one waits (R143). The model's choice where R64
and R143 fall in one event: once a CARD RESET command has reached the head of the P response list,
no further ask is taken, and the reset frees those that wait (log entry 9). -/
def State.takeAsksUpTo : Nat → State → State
  | 0, s => s
  | n + 1, s =>
    if s.resetDue || s.attention.walk.isSome then s
    else
      match s.asks with
      | [] => s
      | (i, _) :: _ => (s.takeAsk i).takeAsksUpTo n

/-- The asks that can be taken are: each take ends an ask or begins a walk, so the size of the table
is enough. -/
def State.takeAsks (s : State) : State := s.takeAsksUpTo 24

end Sys2Proof.Machine
end

