-- ==== Sys2Proof/Machine/MgmtMap.lean ====
section
/-!
DEFINITION. The management map (9.5), management reads (R151, R154 to R157) and the classes of
management writes that the opcode table makes rows of.
-/

namespace Sys2Proof.Machine

/-- The objects of the management map (9.5). -/
inductive MgmtObject where
  | identity0 | identity1 | backplane | remoteManagement | nodeMask | timers | remoteLimit
  | attentionEnables | command | argument | generation | occupancy | attentionStatus | guardState
  | portConfig (p : PortNo) (k : Fin 3)
  | portStatus (p : PortNo) (k : Fin 2)
  | descriptor (c : ChannelNo) (k : Fin 4)
  | channelStatus (c : ChannelNo) (k : Fin 4)
  | staging (i : Fin 32) (k : Fin 4)
  | live (i : Fin 32) (k : Fin 4)
deriving DecidableEq, Repr

/-- The row and word of a word offset within a block of rows of four words. -/
def rowWord (n : Nat) [NeZero n] (offset : Nat) : Fin n × Fin 4 :=
  (Fin.ofNat n (offset / 16), Fin.ofNat 4 (offset / 4))

/-- The object at a byte offset of the management space, or none when the offset is unassigned
(9.5). Every assigned offset is a multiple of 4. -/
def objectAt (offset : Nat) : Option MgmtObject :=
  if offset % 4 ≠ 0 then none
  else if offset = 0x000 then some .identity0
  else if offset = 0x004 then some .identity1
  else if offset = 0x010 then some .backplane
  else if offset = 0x040 then some .remoteManagement
  else if offset = 0x044 then some .nodeMask
  else if offset = 0x048 then some .timers
  else if offset = 0x04C then some .remoteLimit
  else if offset = 0x050 then some .attentionEnables
  else if offset = 0x080 then some .command
  else if offset = 0x084 then some .argument
  else if offset = 0x0C0 then some .generation
  else if offset = 0x0C4 then some .occupancy
  else if offset = 0x0C8 then some .attentionStatus
  else if offset = 0x0CC then some .guardState
  else if 0x100 ≤ offset ∧ offset < 0x140 then
    if h : (offset - 0x100) / 4 % 4 < 3 then
      some (.portConfig (Fin.ofNat 4 ((offset - 0x100) / 16)) ⟨(offset - 0x100) / 4 % 4, h⟩)
    else none
  else if 0x140 ≤ offset ∧ offset < 0x160 then
    some (.portStatus (Fin.ofNat 4 ((offset - 0x140) / 8)) (Fin.ofNat 2 ((offset - 0x140) / 4)))
  else if 0x200 ≤ offset ∧ offset < 0x240 then
    some (.descriptor (rowWord 4 (offset - 0x200)).1 (rowWord 4 (offset - 0x200)).2)
  else if 0x240 ≤ offset ∧ offset < 0x280 then
    some (.channelStatus (rowWord 4 (offset - 0x240)).1 (rowWord 4 (offset - 0x240)).2)
  else if 0x400 ≤ offset ∧ offset < 0x600 then
    some (.staging (rowWord 32 (offset - 0x400)).1 (rowWord 32 (offset - 0x400)).2)
  else if 0x600 ≤ offset ∧ offset < 0x800 then
    some (.live (rowWord 32 (offset - 0x600)).1 (rowWord 32 (offset - 0x600)).2)
  else none

/-- The occupancy word (R49, R156, 9.5). -/
def State.occupancyWord (s : State) : Word :=
  (0#8 ++ BitVec.ofNat 4 s.pList.length ++ BitVec.ofNat 4 s.orphanedCount ++
    BitVec.ofNat 2 (s.ownedM 3) ++ BitVec.ofNat 2 (s.ownedM 2) ++ BitVec.ofNat 2 (s.ownedM 1) ++
    BitVec.ofNat 2 (s.ownedM 0) ++ BitVec.ofNat 4 (s.owned Origin.isB) ++
    BitVec.ofNat 4 (s.owned fun o => decide (o = .p)) : BitVec (8 + 4 + 4 + 2 + 2 + 2 + 2 + 4 + 4))

/-- Port status word k (R70, 9.5). -/
def State.portStatusWord (s : State) (p : PortNo) (k : Fin 2) : Word :=
  match k with
  | 0 => (0#21 ++ BitVec.ofNat 3 s.ports[p].noAnswer ++ 0#1 ++ BitVec.ofNat 3 (s.issuedCount p) ++
      0#2 ++ s.ports[p].state.code : BitVec (21 + 3 + 1 + 3 + 2 + 2))
  | 1 => BitVec.ofNat 32 (s.ports[p].hold.elim 0 fun h => h.holder.code.val)

/-- The word a management read of an object returns, or none for the command word, which is write-only
(R151, R154 to R157, R162). -/
def State.readObject (s : State) : MgmtObject → Option Word
  | .identity0 => some Config.identity0
  | .identity1 => some (0#22 ++ s.setup.straps.bootw ++ 0#2 ++ s.setup.straps.bootp ++
      s.setup.straps.slot : BitVec (22 + 2 + 2 + 2 + 4))
  | .backplane => some ((BitVec.ofBool s.bLinkUp).setWidth 32)
  | .remoteManagement => some ((BitVec.ofBool s.setup.settings.remoteManagement).setWidth 32)
  | .nodeMask => some (s.setup.settings.nodeMask.setWidth 32)
  | .timers => some s.setup.settings.timersWord
  | .remoteLimit => some (s.setup.settings.remoteLimit.setWidth 32)
  | .attentionEnables => some s.setup.settings.enablesWord
  | .command => none
  | .argument => some s.setup.settings.argument
  | .generation => some (0#11 ++ BitVec.ofNat 5 s.earlierCount ++ s.setup.generation :
      BitVec (11 + 5 + 16))
  | .occupancy => some s.occupancyWord
  | .attentionStatus => some (0#23 ++ BitVec.ofBool s.attention.overflow ++ 0#3 ++
      BitVec.ofNat 5 s.attention.queue.length : BitVec (23 + 1 + 3 + 5))
  | .guardState => some (s.guard.code.setWidth 32)
  | .portConfig p k => some (s.setup.portConfig[p].word k)
  | .portStatus p k => some (s.portStatusWord p k)
  | .descriptor c k => some (s.channels[c].descriptor.word k)
  | .channelStatus c k => some (s.channels[c].statusWord k)
  | .staging i k => some s.setup.staging[i][k]
  | .live i k => some s.setup.live[i].words[k]

/-- A management request of a B origin while remote management is off is refused (R151, R152,
R153). -/
def State.remoteRefused (s : State) (e : Entry) : Bool :=
  e.origin.isB && !s.setup.settings.remoteManagement

/-- What a management read answers (R151): the word, or the status of the check that fails. -/
def State.serveRead (s : State) (e : Entry) : Except Status Word :=
  if s.remoteRefused e then .error .denied
  else
    match objectAt e.address.toNat with
    | none => .error .unmapped
    | some o =>
      match s.readObject o with
      | none => .error .denied
      | some w => .ok w

/-- The management block takes the read at the head of its queue and ends it (R151). -/
def State.takeRead (s : State) (i : EntryNo) (e : Entry) : State :=
  match s.serveRead e with
  | .error status => s.endEntry i status none none
  | .ok w =>
    (s.modEntry i fun e => { e with buffer := placeBytes e.buffer 0 (wordBytes w) }).endEntry i .ok
      none none

/-- Up to n management reads are taken from the head of the queue (log entry 1). -/
def State.takeReadsUpTo : Nat → State → State
  | 0, s => s
  | n + 1, s =>
    if s.resetDue then s
    else
      match s.mgmtQueue with
      | [] => s
      | (i, e) :: _ => if e.op = .read then (s.takeRead i e).takeReadsUpTo n else s

/-- The reads at the head of the management request queue are taken, up to the first write (log entry
1). -/
def State.takeReads (s : State) : State := s.takeReadsUpTo 24

/-- The rows of the opcode table that take a management write. -/
inductive MgmtRow where
  | commit | copyBack | portResume | portOffline | channelStartLoaded | channelStartFetch
  | channelPause | channelContinue | channelStop | cardResetCommand | stagingWrite
  | loadedDescriptorWrite | portConfigurationWrite | settingWrite | remoteManagementWrite
  | attentionEnablesWrite | commandArgumentWrite | mgmtWrite
deriving DecidableEq, Repr

/-- The row of a command word (R158, 9.6). A code that names no command belongs to MGMT_WRITE. -/
def commandRow (w : Word) : MgmtRow :=
  match (w.extractLsb' 0 8).toNat with
  | 1 => .commit
  | 2 => .copyBack
  | 3 => .portResume
  | 4 => .portOffline
  | 5 => if w.getLsbD 12 then .channelStartFetch else .channelStartLoaded
  | 6 => .channelPause
  | 7 => .channelContinue
  | 8 => .channelStop
  | 9 => .cardResetCommand
  | _ => .mgmtWrite

/-- The port or channel that a command word names (R158). -/
def commandTarget (w : Word) : Fin 4 := (w.extractLsb' 8 2).toFin

/-- The row that takes a management write, by its offset and word. -/
def Entry.mgmtRow (e : Entry) : MgmtRow :=
  match objectAt e.address.toNat with
  | some .command => commandRow e.word
  | some (.staging _ _) => .stagingWrite
  | some (.descriptor _ _) => .loadedDescriptorWrite
  | some (.portConfig _ _) => .portConfigurationWrite
  | some .nodeMask => .settingWrite
  | some .timers => .settingWrite
  | some .remoteLimit => .settingWrite
  | some .remoteManagement => .remoteManagementWrite
  | some .attentionEnables => .attentionEnablesWrite
  | some .argument => .commandArgumentWrite
  | _ => .mgmtWrite

end Sys2Proof.Machine
end

