-- ==== Sys2Proof/Machine/Settle.lean ====
section
/-!
DEFINITION. The card reset (R62, R63, R77, R103, R106, R132, R149), and the close of every event: what
the manual makes follow within the same event from the conditions that then hold (R133, R143,
R64), and the management reads that are the next events (R150).
-/

namespace Sys2Proof.Machine

/-! ## Card reset -/

/-- Whether a card reset answers the entry ABORTED: B origin, and WAITING, ISSUED, BACKOFF or SERVING
(R62, R63). -/
def Entry.aborts (e : Entry) : Bool :=
  e.origin.isB && (decide (e.state = .waiting) || decide (e.state = .issued) ||
    decide (e.state = .backoff) || decide (e.state = .serving))

/-- The ABORTED responses, in ascending arrival order (R63). -/
def State.sendAborted (s : State) : List (EntryNo × Entry) → State
  | [] => s
  | (_, e) :: rest =>
    match e.origin with
    | .b source => (s.sendB (s.bResponse source (e.ended .aborted none none))).sendAborted rest
    | .p => s.sendAborted rest
    | .m _ => s.sendAborted rest

/-- The state fields of a port after a card reset (R77). -/
def Port.atCardReset (port : Port) : Port :=
  { state := if port.state = .offline then .online else port.state,
    noAnswer := 0, askNumber := 0, hold := none }

/-- PORT RESET is sent to each port that is not ABSENT (R77). -/
def State.sendPortResets (s : State) : State :=
  { s with tSent := Vector.ofFn fun p : Fin 4 =>
      if s.ports[p].state = .absent then s.tSent[p] else s.tSent[p] ++ [.portReset] }

/-- The guard state re-evaluated from the line (R132). -/
def GuardState.atCardReset (g : GuardState) (palert : Bool) (holdOff : BitVec 8) : GuardState :=
  if palert then .guarded
  else
    match g with
    | .opened => .opened
    | .guarded => .releasing holdOff.toNat
    | .releasing _ => .releasing holdOff.toNat

/-- The card reset: live B entries are answered ABORTED, every entry becomes FREE, and the ports, holds,
notes, channels, guard and attention unit are reset. Rounds, setup and lines are kept (R25, R43,
R62, R77, R103, R106, R132, R149, R159). -/
def State.cardReset (s : State) : State :=
  let s := s.sendAborted (s.table.filter fun ie => ie.2.aborts)
  let s : State :=
    { s with
      entries := Vector.replicate 24 none
      order := []
      ports := mapCells Port.atCardReset s.ports
      notes := Vector.replicate 17 none
      channels := Vector.replicate 4 Channel.atReset
      guard := s.guard.atCardReset s.lines.palert s.setup.settings.holdOff
      attention := { queue := [], overflow := false, walk := none, out := false } }
  s.sendPortResets.evalPending

/-! ## The close of an event -/

/-- The response of the CARD RESET command at the head is produced, and the card reset is taken (R64,
log entry 9). -/
def State.closeReset (s : State) : State :=
  match s.pList with
  | [] => s
  | (i, e) :: _ => ((s.sendP (.response e.response)).free i).cardReset

/-- A CARD RESET command that has reached the head of the P response list is delivered and acts, which
closes the event (R64). -/
def State.closeEvent (s : State) : State := if s.resetDue then s.closeReset else s

/-- What follows an event. In the same event guarded writes that are due are refused (R133), asks are
taken (R143), and a CARD RESET command at the head of the P response list acts (R64); that the
refusals stand before the asks is the model's choice (log entry 31). As the next events, the
management reads at the head of the queue are taken (R150, R151, log entry 1). -/
def State.settle (s : State) : State := s.refuseGuarded.takeAsks.closeEvent.takeReads.closeEvent

end Sys2Proof.Machine
end

