-- ==== Sys2Proof/Machine/Requests.lean ====
section
/-!
DEFINITION. Requests and responses on the P and B links (chapter 1): acceptance, routing, the hold
checks at decode (R95, R100), forwarding; the meanings of REQUEST_ON_P_LINK, REQUEST_ON_B_LINK,
B_LINK_RESPONSE and REMOTE_RESPONSE_TIMER_EXPIRY.
-/

namespace Sys2Proof.Machine

/-! ## Acceptance (R5 to R9) -/

/-- The form checks in their order (R5): the detail of the first that fails. -/
def Request.formCheck (l : Link) (r : Request) : Option Detail :=
  let length := r.length.toNat
  if r.space = none ∨ (l = .b ∧ r.node = 0) ∨
      (if r.op.isRead then r.data ≠ [] else r.data.length ≠ length) then some Detail.field
  else if length = 0 ∨ 64 < length then some Detail.length
  else if 64 < r.address.toNat % 64 + length then some Detail.block
  else if (r.op = .readHold ∨ r.op = .writeRelease) ∧
      ¬ ((length = 1 ∨ length = 2 ∨ length = 4) ∧ r.address.toNat % length = 0 ∧
        r.space = some .data) then some Detail.holdShape
  else if r.space = some .mgmt ∧
      ¬ ((r.op = .read ∨ r.op = .write) ∧ length = 4 ∧ r.address.toNat % 4 = 0) then
    some Detail.mgmtShape
  else if r.space = some .attn ∧ ¬ (r.op = .read ∧ length = 16 ∧ r.address = 0) then
    some Detail.attnShape
  else none

/-- Whether the tag belongs to an unanswered request of the same requester (R6): for P every P entry,
for a source node of B every entry of it that is not ORPHANED. -/
def State.tagInUse (s : State) (origin : Origin) (tag : BitVec 4) : Bool :=
  s.table.any fun ie =>
    decide (ie.2.origin = origin) && decide (ie.2.tag = some tag) && decide (ie.2.state ≠ .orphaned)

/-- Whether the origin owns its full quota (R7). -/
def State.quotaFull (s : State) (origin : Origin) : Bool :=
  match origin with
  | .p => decide (Config.quotaP ≤ s.owned fun o => decide (o = .p))
  | .b _ => decide (Config.quotaB ≤ s.owned Origin.isB)
  | .m c => decide (Config.quotaM ≤ s.ownedM c)

/-- What acceptance answers at once, if it refuses: FORM with a detail, or FULL (R5 to R8). -/
def State.refusal (s : State) (l : Link) (origin : Origin) (r : Request) :
    Option (Status × Option Detail) :=
  match Request.formCheck l r with
  | some check => some (.form, some check)
  | none =>
    if s.tagInUse origin r.tag then some (.form, some Detail.tagInUse)
    else if s.quotaFull origin then some (.full, none)
    else none

/-- The result fields of a refusal at acceptance (R8). -/
def refusalResponse (tag : BitVec 4) (status : Status) (detail : Option Detail) : Response :=
  { tag, status, data := none, faultAddress := none, detail }

/-! ## Hold checks at decode (R95, R100) -/

/-- Whether the origin has an entry of this operation in one of these states. -/
def State.hasEntry (s : State) (origin : Origin) (op : Op) (states : List EntryState) : Bool :=
  s.table.any fun ie =>
    decide (ie.2.origin = origin) && decide (ie.2.op = op) && decide (ie.2.state ∈ states)

/-- The checks of a READ_HOLD of holder h (R95): the detail of the first that fails. -/
def State.readHoldCheck (s : State) (h : Holder) : Option Detail :=
  if (s.holdOf h).isSome then some Detail.holdHeld
  else if s.hasEntry h.origin .readHold [.waiting, .issued, .backoff] then some Detail.holdPending
  else if s.hasEntry h.origin .writeRelease [.waiting, .issued, .backoff] then
    some Detail.releasePending
  else none

/-- The checks of a WRITE_RELEASE of holder h that decoded to port p (R100): none when it is accepted,
else the status and detail it ends with. -/
def State.releaseCheck (s : State) (h : Holder) (p : PortNo) : Option (Status × Detail) :=
  match s.holdOf h with
  | some (q, hold) =>
    if q ≠ p then some (.form, Detail.wrongPort)
    else
      match hold.phase with
      | .timing _ => none
      | .awaitingRead _ => some (.form, Detail.holdPending)
      | .awaitingRelease _ => some (.form, Detail.releasePending)
  | none =>
    if s.hasEntry h.origin .readHold [.waiting, .backoff] then some (.form, Detail.holdPending)
    else
      match s.note h with
      | some q => some (.holdBroken, Detail.port q)
      | none => some (.form, Detail.noHold)

/-! ## Routing (R10 to R12) -/

/-- What routing decides for a new entry. -/
inductive Routing where
  | ended (status : Status) (detail : Option Detail)
  | port (d : DecodeRecord)
  | remote
  | mgmt
  | attn
deriving DecidableEq, Repr

/-- The routing of a DATA request for this card: its decode, with the hold checks (R12, R31). -/
def State.routeData (s : State) (h : Holder) (op : Op) (address : Word) : Routing :=
  match s.decodeAddress h.origin op address with
  | .error (status, detail) => .ended status detail
  | .ok d =>
    match op with
    | .read => .port d
    | .write => .port d
    | .readHold =>
      match s.readHoldCheck h with
      | some check => .ended .form (some check)
      | none => .port d
    | .writeRelease =>
      match s.releaseCheck h d.port with
      | some (status, detail) => .ended status (some detail)
      | none => .port d

/-- The routing of a P request (R10). -/
def State.routeP (s : State) (space : Space) (r : Request) : Routing :=
  let slot := s.setup.straps.slot
  if r.node = 0 ∨ r.node = slot then
    match space with
    | .data => s.routeData .p r.op r.address
    | .mgmt => .mgmt
    | .attn => .attn
  else if slot = 0 then .ended .noRoute none
  else if !s.setup.settings.nodeMask.getLsbD r.node.toNat then .ended .denied none
  else if !s.bLinkUp then .ended .noRoute none
  else .remote

/-- The routing of a B request (R11). -/
def State.routeB (s : State) (space : Space) (r : Request) : Routing :=
  if r.node ≠ s.setup.straps.slot then .ended .noRoute none
  else
    match space with
    | .attn => .ended .denied none
    | .data => s.routeData (.b r.source) r.op r.address
    | .mgmt => .mgmt

/-- What the decode of a hold operation of holder h changes beside its own entry i: an accepted
READ_HOLD clears the broken note (R95), an accepted release stops the hold timer and is named by
the record, one answered HOLD_BROKEN clears the note (R100). -/
def State.holdAtDecode (s : State) (h : Holder) (op : Op) (i : EntryNo) (routing : Routing) : State :=
  match op, routing with
  | .readHold, .port _ => s.setNote h none
  | .writeRelease, .port d =>
    s.modPort d.port fun port =>
      { port with hold := port.hold.map fun hold => { hold with phase := .awaitingRelease i } }
  | .writeRelease, .ended .holdBroken _ => s.setNote h none
  | _, _ => s

/-- A P entry is forwarded (R20): a fresh round, the remote response timer, state FORWARDED, and the
request on the B link. -/
def State.forward (s : State) (i : EntryNo) (r : Request) : State :=
  let s := (s.bumpRound i).modEntry i fun e =>
    { e with state := .forwarded, route := some .remote,
             timer := some s.setup.settings.remoteLimit.toNat }
  s.sendB (.request { r with source := s.setup.straps.slot, stamp := stampNumber i s.rounds[i] })

/-- Routing acts on the new entry i (R9 to R12). -/
def State.applyRouting (s : State) (i : EntryNo) (r : Request) : Routing → State
  | .ended status detail => s.endEntry i status none detail
  | .port d => s.modEntry i fun e => e.placed d
  | .remote => s.forward i r
  | .mgmt => s.modEntry i fun e => { e with route := some .mgmt }
  | .attn => s.modEntry i fun e => { e with route := some .attn }

/-- An accepted request is given the lowest FREE entry and routed (R9). With no FREE entry, which the
quotas exclude (R49), nothing happens (log entry 21). -/
def State.acceptEntry (s : State) (h : Holder) (e : Entry) (r : Request) (routing : Routing) : State :=
  match s.lowestFree with
  | none => s
  | some i => ((s.give i e).holdAtDecode h r.op i routing).applyRouting i r routing

/-- The entry of an accepted P request (R42). -/
def State.entryP (s : State) (space : Space) (r : Request) : Entry :=
  s.newEntry .p (some r.tag) none (some r.node) space r.op r.address r.length.toNat r.data

/-- The entry of an accepted B request (R42). -/
def State.entryB (s : State) (space : Space) (r : Request) : Entry :=
  s.newEntry (.b r.source) (some r.tag) (some r.stamp) none space r.op r.address r.length.toNat r.data

/-- A request on the P link is refused at once or accepted (R5 to R10). -/
def State.requestP (s : State) (r : Request) : State :=
  match s.refusal .p .p r, r.space with
  | some (status, detail), _ => s.sendP (.response (refusalResponse r.tag status detail))
  | none, some space => (s.acceptEntry .p (s.entryP space r) r (s.routeP space r)).settle
  | none, none => s

/-- A request on the B link is refused at once or accepted (R5 to R9, R11). -/
def State.requestB (s : State) (r : Request) : State :=
  match s.refusal .b (.b r.source) r, r.space with
  | some (status, detail), _ =>
    s.sendB (.response r.source s.setup.straps.slot r.stamp (refusalResponse r.tag status detail))
  | none, some space =>
    (s.acceptEntry (.b r.source) (s.entryB space r) r (s.routeB space r)).settle
  | none, none => s

/-! ## Meanings -/

/-- REQUEST_ON_P_LINK (R1, R5 to R10). Discarded while PORST or CRST is asserted, and when the message is
no request. -/
def execRequestOnPLink (msg : List Byte) (s : State) : Host.Outcome State Fault Refusal :=
  if s.lines.porst || s.lines.crst then .next s
  else
    match parseRequest .p msg with
    | none => .next s
    | some r => .next (s.requestP r)

/-- REQUEST_ON_B_LINK (R1, R3, R5 to R9, R11, R19). Discarded while PORST or CRST is asserted, on a
standalone card, while the B link state is DOWN, when the message is no request, and when its
source node is outside 1 to 15. -/
def execRequestOnBLink (msg : List Byte) (s : State) : Host.Outcome State Fault Refusal :=
  if s.lines.porst || s.lines.crst || decide (s.setup.straps.slot = 0) || !s.bLinkUp then .next s
  else
    match parseRequest .b msg with
    | none => .next s
    | some r => if r.source = 0 then .next s else .next (s.requestB r)

/-- The forwarded entry that a response on the B link is taken for (R21, R59). -/
def State.forwardedFor (s : State) (r : BResponse) : Option (EntryNo × Entry) :=
  if r.node ≠ s.setup.straps.slot then none
  else
    (stampParts r.stamp).bind fun (i, round) =>
    s.entries[i].bind fun e =>
    if e.state = .forwarded ∧ s.rounds[i] = round ∧ e.node = some r.source then some (i, e) else none

/-- Whether a response that matches is malformed: OK for a READ or READ_HOLD with another number of
data bytes than the entry's length (R21). -/
def malformedFor (e : Entry) (r : Response) : Bool :=
  decide (r.status = .ok) && e.op.isRead && decide ((r.data.getD []).length ≠ e.length)

/-- A response that is taken ends its entry with the response's status, data, fault address and detail
(R21, R45). -/
def State.relay (s : State) (i : EntryNo) (e : Entry) (r : Response) : State :=
  let s :=
    if r.status = .ok ∧ e.op.isRead then
      s.modEntry i fun e => { e with buffer := placeBytes e.buffer 0 (r.data.getD []) }
    else s
  (s.endEntry i r.status r.faultAddress r.detail).settle

/-- B_LINK_RESPONSE (R1, R3, R21, R59). -/
def execBLinkResponse (msg : List Byte) (s : State) : Host.Outcome State Fault Refusal :=
  if s.lines.porst || decide (s.setup.straps.slot = 0) then .next s
  else
    match parseResponse msg with
    | none => .next s
    | some r =>
      match s.forwardedFor r with
      | none => .next s
      | some (i, e) => if malformedFor e r.body then .next s else .next (s.relay i e r.body)

/-- REMOTE_RESPONSE_TIMER_EXPIRY (R21): a FORWARDED entry whose timer runs ends NO_ANSWER with the
request's address. In any other case no such timer runs and nothing happens. -/
def execRemoteResponseTimerExpiry (i : EntryNo) (s : State) : Host.Outcome State Fault Refusal :=
  match s.entries[i] with
  | none => .next s
  | some e =>
    if !s.lines.porst ∧ e.state = .forwarded ∧ e.timer.isSome then
      .next (s.endEntry i .noAnswer (some e.address) none).settle
    else .next s

end Sys2Proof.Machine
end

