-- ==== Sys2Proof/Machine/Issue.lean ====
section
/-!
DEFINITION. The port issue units (chapter 4): the meanings of GRANT, DONE, DEFER, FAULT and of the
response, retry and hold timer expiries.
-/

namespace Sys2Proof.Machine

/-! ## Issue decisions (R82 to R84, R96) -/

/-- The eligible entries of a port, oldest first (R81). -/
def State.eligibleAt (s : State) (p : PortNo) : List (EntryNo × Entry) :=
  s.table.filter fun ie => s.eligible p ie.1 ie.2

/-- The arbiter's choice among eligible entries, oldest first: an aged one, else a B entry, else a P
entry, else a move entry (R83). -/
def choose (l : List (EntryNo × Entry)) : Option (EntryNo × Entry) :=
  ((l.find? fun ie => decide (Config.agedSkip ≤ ie.2.skipCount)).or
    (l.find? fun ie => ie.2.origin.isB)).or
  ((l.find? fun ie => decide (ie.2.origin = .p)).or (l.find? fun ie => ie.2.origin.isM))

/-- Every eligible entry of the list other than i has been passed over (R83). -/
def State.skipOthers (s : State) (i : EntryNo) : List (EntryNo × Entry) → State
  | [] => s
  | (j, _) :: rest =>
    (if j = i then s
      else s.modEntry j fun e => { e with skipCount := min Config.agedSkip (e.skipCount + 1) }).skipOthers
      i rest

/-- The grant of a READ_HOLD's first piece at an unheld port takes the hold (R96). -/
def State.takeHold (s : State) (p : PortNo) (i : EntryNo) (e : Entry) : State :=
  match e.origin.holder with
  | none => s
  | some holder =>
    if e.op = .readHold ∧ e.nextPiece = 0 ∧ s.ports[p].hold = none then
      s.modPort p fun port => { port with hold := some { holder, phase := .awaitingRead i } }
    else s

/-- The PIECE of a grant (R84, R79). -/
def State.pieceMessage (s : State) (i : EntryNo) (e : Entry) : TMessage :=
  .piece i s.rounds[i] (!e.op.isRead) e.pieceTarget e.piece.2
    (if e.op.isRead then [] else e.pieceBytes)

/-- Entry i is granted its next piece at port p (R83, R84, R96). -/
def State.grantPiece (s : State) (p : PortNo) (i : EntryNo) (e : Entry) : State :=
  let s := ((s.skipOthers i (s.eligibleAt p)).bumpRound i).modEntry i fun e =>
    { e with state := .issued, skipCount := 0,
             timer := some s.setup.portConfig[p].responseLimit }
  (s.takeHold p i e).sendT p (s.pieceMessage i e)

/-- GRANT (R81 to R84): an issue decision at port p. When the port is not ONLINE, has no credit left or
has no eligible entry, the conditions of R82 do not hold and nothing happens (log entry 5). -/
def execGrant (p : PortNo) (s : State) : Host.Outcome State Fault Refusal :=
  if !s.lines.porst ∧ s.ports[p].state = .online ∧ s.issuedCount p < s.setup.portConfig[p].credit then
    match choose (s.eligibleAt p) with
    | none => .next s
    | some (i, e) => .next (s.grantPiece p i e).settle
  else .next s

/-! ## Answers (R58, R85, R86, R88, R61) -/

/-- The entry whose piece an answer with this index and round is taken for at port p (R58). -/
def State.answeredAt (s : State) (p : PortNo) (index : BitVec 5) (round : BitVec 8) :
    Option (EntryNo × Entry) :=
  (entryOfIndex index).bind fun i =>
  s.entries[i].bind fun e =>
  if e.pieceOutAt p ∧ s.rounds[i] = round then some (i, e) else none

/-- An answer has been taken at the port: its no-answer count becomes 0 (R85, R86, R88, R61). -/
def State.zeroNoAnswer (s : State) (p : PortNo) : State :=
  s.modPort p fun port => { port with noAnswer := 0 }

/-- The record of an entry whose piece is answered DONE: read data are placed at the piece's
positions, the next piece index advances, the retry count becomes 0, the timer stops, and the
entry is WAITING (R85). -/
def Entry.afterDone (e : Entry) (data : List Byte) : Entry :=
  { e with
    state := .waiting
    timer := none
    buffer := if e.op.isRead then placeBytes e.buffer e.piece.1 data else e.buffer
    nextPiece := e.nextPiece + 1
    retryCount := 0 }

/-- Whether a DONE with these data is malformed for the entry's piece (R18). -/
def Entry.malformedDone (e : Entry) (data : List Byte) : Bool :=
  if e.op.isRead then decide (data.length ≠ e.piece.2) else !data.isEmpty

/-- A DONE is taken for entry i (R85; R61 for an ORPHANED entry). -/
def State.takeDone (s : State) (p : PortNo) (i : EntryNo) (e : Entry) (data : List Byte) : State :=
  let s := s.zeroNoAnswer p
  if e.state = .orphaned then (s.free i).settle
  else
    let s := s.modEntry i fun e => e.afterDone data
    if e.nextPiece + 1 < e.piecesTotal then s.settle else (s.endEntry i .ok none none).settle

/-- DONE (R1, R18, R58, R85). Discarded while PORST is asserted, when its stamp names no piece out at
the port, and when it is malformed. -/
def execTargetDone (p : PortNo) (msg : List Byte) (s : State) : Host.Outcome State Fault Refusal :=
  match parseAnswer 8 msg with
  | none => .next s
  | some (index, round, data) =>
    match s.answeredAt p index round with
    | none => .next s
    | some (i, e) =>
      if s.lines.porst || e.malformedDone data then .next s else .next (s.takeDone p i e data)

/-- A DEFER is taken for entry i (R86; R61 for an ORPHANED entry). -/
def State.takeDefer (s : State) (p : PortNo) (i : EntryNo) (e : Entry) : State :=
  let s := s.zeroNoAnswer p
  if e.state = .orphaned then (s.free i).settle
  else if s.setup.portConfig[p].retryLimit ≤ e.retryCount then
    (s.endEntry i .retryOut (some e.pieceAddress) none).settle
  else
    (s.modEntry i fun e =>
      { e with state := .backoff, retryCount := e.retryCount + 1,
               timer := some s.setup.portConfig[p].retryInterval }).settle

/-- DEFER (R1, R18, R58, R86). -/
def execTargetDefer (p : PortNo) (msg : List Byte) (s : State) : Host.Outcome State Fault Refusal :=
  match parseAnswer 9 msg with
  | none => .next s
  | some (index, round, _) =>
    match s.answeredAt p index round with
    | none => .next s
    | some (i, e) => if s.lines.porst then .next s else .next (s.takeDefer p i e)

/-- A FAULT is taken for entry i (R88; R61 for an ORPHANED entry). -/
def State.takeFault (s : State) (p : PortNo) (i : EntryNo) (e : Entry) : State :=
  let s := s.zeroNoAnswer p
  if e.state = .orphaned then (s.free i).settle
  else (s.endEntry i .targetFault (some e.pieceAddress) none).settle

/-- FAULT (R1, R18, R58, R88). -/
def execTargetFault (p : PortNo) (msg : List Byte) (s : State) : Host.Outcome State Fault Refusal :=
  match parseAnswer 10 msg with
  | none => .next s
  | some (index, round, _) =>
    match s.answeredAt p index round with
    | none => .next s
    | some (i, e) => if s.lines.porst then .next s else .next (s.takeFault p i e)

/-! ## Timers -/

/-- The no-answer count of a port rises by 1 and may take the port OFFLINE (R89). -/
def State.countSilence (s : State) (p : PortNo) : State :=
  let s := s.modPort p fun port => { port with noAnswer := min Config.noAnswerMax (port.noAnswer + 1) }
  if s.ports[p].state = .online ∧ s.setup.portConfig[p].offlineThreshold ≤ s.ports[p].noAnswer then
    s.goOffline p
  else s

/-- The response timer of entry i at port p expires: the entry ends NO_ANSWER, or is freed if ORPHANED;
then the silence is counted (R89, R61). The model's choice where R133 falls into this event: a guarded
write that the end of a hold lets become due is not refused between the steps of R89, so a port
that goes OFFLINE ends it NO_TARGET (log entry 30). -/
def State.expireResponse (s : State) (p : PortNo) (i : EntryNo) (e : Entry) : State :=
  let s :=
    if e.state = .orphaned then s.free i else s.endEntry i .noAnswer (some e.pieceAddress) none
  (s.countSilence p).settle

/-- RESPONSE_TIMER_EXPIRY (R89): acts on an entry with a piece out and its timer running; in any other
case no response timer runs and nothing happens. -/
def execResponseTimerExpiry (i : EntryNo) (s : State) : Host.Outcome State Fault Refusal :=
  match s.entries[i] with
  | none => .next s
  | some e =>
    match e.route with
    | some (.port p) =>
      if !s.lines.porst ∧ e.pieceOutAt p ∧ e.timer.isSome then .next (s.expireResponse p i e)
      else .next s
    | _ => .next s

/-- RETRY_TIMER_EXPIRY (R87): a BACKOFF entry whose timer runs becomes WAITING; in any other case no
retry timer runs and nothing happens. -/
def execRetryTimerExpiry (i : EntryNo) (s : State) : Host.Outcome State Fault Refusal :=
  match s.entries[i] with
  | none => .next s
  | some e =>
    if !s.lines.porst ∧ e.state = .backoff ∧ e.timer.isSome then
      .next (s.modEntry i fun e => { e with state := .waiting, timer := none }).settle
    else .next s

/-- The hold of port p in TIMING is broken: the record becomes absent, the holder's note records the
port, HOLD_BROKEN is raised (R99). -/
def State.expireHold (s : State) (p : PortNo) (holder : Holder) : State :=
  (((s.modPort p fun port => { port with hold := none }).setNote holder (some p)).raise (.port p)
    .holdBroken none).settle

/-- HOLD_TIMER_EXPIRY (R99): acts on a hold in TIMING; in any other case no hold timer runs and nothing
happens. -/
def execHoldTimerExpiry (p : PortNo) (s : State) : Host.Outcome State Fault Refusal :=
  match s.ports[p].hold with
  | none => .next s
  | some hold =>
    match hold.phase with
    | .timing _ => if s.lines.porst then .next s else .next (s.expireHold p hold.holder)
    | .awaitingRead _ => .next s
    | .awaitingRelease _ => .next s

/-- UNIT_START_DECISION (R113). When its conditions do not hold there is no decision and nothing happens
(log entry 5). -/
def execUnitStartDecision (c : ChannelNo) (s : State) : Host.Outcome State Fault Refusal :=
  if !s.lines.porst ∧ s.canStartUnit c then .next (s.startUnit c).settle else .next s

end Sys2Proof.Machine
end

