-- ==== Sys2Proof/Machine/Management.lean ====
section
/-!
DEFINITION. The takes of management writes (R150, R152, R158): one meaning per row, each over the shared
take of the write at the head of the management request queue.
-/

namespace Sys2Proof.Machine

/-- What serving a management write does: the state after its effect, and the status and detail with
which its entry ends. -/
abbrev Served := State × Status × Option Detail

/-- The write at the head of the management request queue, if it is one of this row. -/
def State.headWrite (s : State) (row : MgmtRow) : Option (EntryNo × Entry) :=
  match s.mgmtQueue with
  | [] => none
  | (i, e) :: _ => if e.op = .write ∧ e.mgmtRow = row then some (i, e) else none

/-- The management block serves entry i and ends it in the same event (R150, R152, log entry 14); a B
write while remote management is off is refused DENIED before any other check. -/
def State.serveWrite (s : State) (i : EntryNo) (e : Entry) (serve : Entry → State → Served) : State :=
  let (s, status, detail) := if s.remoteRefused e then (s, .denied, none) else serve e s
  (s.endEntry i status none detail).settle

/-- The take of the write at the head of the queue, when it is one of this row; in any other case there
is no such take and nothing happens (log entries 1 and 5). -/
def State.takeWrite (s : State) (row : MgmtRow) (serve : Entry → State → Served) :
    Host.Outcome State Fault Refusal :=
  match s.headWrite row with
  | none => .next s
  | some (i, e) => if s.lines.porst then .next s else .next (s.serveWrite i e serve)

/-! ## Commands (R158) -/

/-- COMMIT (R36 to R38). -/
def serveCommit (_e : Entry) (s : State) : Served :=
  match s.badStaging with
  | some i => (s, .form, some (Detail.index i))
  | none => (s.commitTables, .ok, none)

def execCommit (s : State) : Host.Outcome State Fault Refusal := s.takeWrite .commit serveCommit

/-- COPY BACK (R40). -/
def serveCopyBack (_e : Entry) (s : State) : Served := (s.copyBackTables, .ok, none)

def execCopyBack (s : State) : Host.Outcome State Fault Refusal := s.takeWrite .copyBack serveCopyBack

/-- RESUME of an OFFLINE port: PORT RESET is sent, the no-answer count becomes 0, the port becomes
ONLINE, and a walk with an ASK outstanding there passes it (R75, R148). -/
def State.resumePort (s : State) (p : PortNo) : State :=
  ((s.sendT p .portReset).modPort p fun port => { port with state := .online, noAnswer := 0 }).passPort p

/-- PORT RESUME (R75). -/
def servePortResume (e : Entry) (s : State) : Served :=
  if s.ports[commandTarget e.word].state = .offline then
    (s.resumePort (commandTarget e.word), .ok, none)
  else (s, .busy, none)

def execPortResume (s : State) : Host.Outcome State Fault Refusal := s.takeWrite .portResume servePortResume

/-- PORT OFFLINE (R74). -/
def servePortOffline (e : Entry) (s : State) : Served :=
  if s.ports[commandTarget e.word].state = .online then
    (s.goOffline (commandTarget e.word), .ok, none)
  else (s, .busy, none)

def execPortOffline (s : State) : Host.Outcome State Fault Refusal :=
  s.takeWrite .portOffline servePortOffline

/-- CHANNEL START, loaded form (R110). -/
def serveStartLoaded (e : Entry) (s : State) : Served := s.startLoaded (commandTarget e.word)

def execChannelStartLoaded (s : State) : Host.Outcome State Fault Refusal :=
  s.takeWrite .channelStartLoaded serveStartLoaded

/-- CHANNEL START, fetch form (R111). -/
def serveStartFetch (e : Entry) (s : State) : Served := s.startFetchForm (commandTarget e.word)

def execChannelStartFetch (s : State) : Host.Outcome State Fault Refusal :=
  s.takeWrite .channelStartFetch serveStartFetch

/-- CHANNEL PAUSE (R119). -/
def servePause (e : Entry) (s : State) : Served := s.pauseChannel (commandTarget e.word)

def execChannelPause (s : State) : Host.Outcome State Fault Refusal := s.takeWrite .channelPause servePause

/-- CHANNEL CONTINUE (R120). -/
def serveContinue (e : Entry) (s : State) : Served := s.continueChannel (commandTarget e.word)

def execChannelContinue (s : State) : Host.Outcome State Fault Refusal :=
  s.takeWrite .channelContinue serveContinue

/-- CHANNEL STOP (R121). -/
def serveStop (e : Entry) (s : State) : Served := s.stopChannel (commandTarget e.word)

def execChannelStop (s : State) : Host.Outcome State Fault Refusal := s.takeWrite .channelStop serveStop

/-- CARD RESET (R159): refused from the B origin; from P it ends OK, and the card reset follows at its
delivery (R64, State.settle). -/
def serveCardReset (e : Entry) (s : State) : Served :=
  if e.origin.isB then (s, .denied, none) else (s, .ok, none)

def execCardResetCommand (s : State) : Host.Outcome State Fault Refusal :=
  s.takeWrite .cardResetCommand serveCardReset

/-! ## Writes to objects (R152) -/

/-- The settings change. -/
def State.modSettings (s : State) (f : Settings → Settings) : State :=
  { s with setup := { s.setup with settings := f s.setup.settings } }

/-- A staging word is stored as written (R24, R162). -/
def serveStagingWrite (e : Entry) (s : State) : Served :=
  match objectAt e.address.toNat with
  | some (.staging i k) =>
    ({ s with setup := { s.setup with
        staging := s.setup.staging.set i (s.setup.staging[i].set k e.word) } }, .ok, none)
  | _ => (s, .unmapped, none)

def execStagingWrite (s : State) : Host.Outcome State Fault Refusal :=
  s.takeWrite .stagingWrite serveStagingWrite

/-- A loaded descriptor word is stored in IDLE and refused BUSY otherwise (R109). -/
def serveDescriptorWrite (e : Entry) (s : State) : Served :=
  match objectAt e.address.toNat with
  | some (.descriptor c k) =>
    if s.channels[c].state = .idle then
      (s.modChannel c fun ch => { ch with descriptor := ch.descriptor.setWord k e.word }, .ok, none)
    else (s, .busy, none)
  | _ => (s, .unmapped, none)

def execLoadedDescriptorWrite (s : State) : Host.Outcome State Fault Refusal :=
  s.takeWrite .loadedDescriptorWrite serveDescriptorWrite

/-- Retry counts of the entries at a port above its new retry limit are lowered to it (R69). -/
def State.lowerRetries (s : State) (limit : Nat) : List (EntryNo × Entry) → State
  | [] => s
  | (i, _) :: rest =>
    (s.modEntry i fun e => { e with retryCount := min limit e.retryCount }).lowerRetries limit rest

/-- The configuration of port p is replaced (R69). -/
def State.setPortConfig (s : State) (p : PortNo) (c : PortConfig) : State :=
  ({ s with setup := { s.setup with portConfig := s.setup.portConfig.set p c } }).lowerRetries
    c.retryLimit (s.waitList p)

/-- A port configuration word is written, or refused FORM when a value is out of range (R69, R164). -/
def servePortConfigWrite (e : Entry) (s : State) : Served :=
  match objectAt e.address.toNat with
  | some (.portConfig p k) =>
    match s.setup.portConfig[p].setWord k e.word with
    | some c => (s.setPortConfig p c, .ok, none)
    | none => (s, .form, none)
  | _ => (s, .unmapped, none)

def execPortConfigurationWrite (s : State) : Host.Outcome State Fault Refusal :=
  s.takeWrite .portConfigurationWrite servePortConfigWrite

/-- The settings after a write to a setting word: none when a value is out of range (R155). Bit 0 of
the node mask word is named for no field and is not kept (R160, log entry 20). -/
def Settings.write (t : Settings) (o : MgmtObject) (w : Word) : Option Settings :=
  match o with
  | .nodeMask => some { t with nodeMask := w.extractLsb' 0 16 &&& 0xFFFE#16 }
  | .timers =>
    if w.extractLsb' 0 8 = 0#8 ∨ w.extractLsb' 8 8 = 0#8 then none
    else some { t with holdLimit := w.extractLsb' 0 8, holdOff := w.extractLsb' 8 8 }
  | .remoteLimit =>
    if w.extractLsb' 0 16 = 0#16 then none else some { t with remoteLimit := w.extractLsb' 0 16 }
  | _ => none

/-- A setting word is written whole or refused FORM (R155). -/
def serveSettingWrite (e : Entry) (s : State) : Served :=
  match objectAt e.address.toNat with
  | some o =>
    match s.setup.settings.write o e.word with
    | some t => (s.modSettings fun _ => t, .ok, none)
    | none => (s, .form, none)
  | none => (s, .unmapped, none)

def execSettingWrite (s : State) : Host.Outcome State Fault Refusal :=
  s.takeWrite .settingWrite serveSettingWrite

/-- The remote management word is written from P and refused DENIED from B (R153). -/
def serveRemoteManagementWrite (e : Entry) (s : State) : Served :=
  if e.origin.isB then (s, .denied, none)
  else (s.modSettings fun t => { t with remoteManagement := e.word.getLsbD 0 }, .ok, none)

def execRemoteManagementWrite (s : State) : Host.Outcome State Fault Refusal :=
  s.takeWrite .remoteManagementWrite serveRemoteManagementWrite

/-- The attention enables are written and the pending condition is evaluated at once (R140, R141). -/
def serveEnablesWrite (e : Entry) (s : State) : Served :=
  ((s.modSettings fun t =>
    { t with kindEnables := e.word.extractLsb' 0 9, portEnables := e.word.extractLsb' 16 4 }).evalPending,
    .ok, none)

def execAttentionEnablesWrite (s : State) : Host.Outcome State Fault Refusal :=
  s.takeWrite .attentionEnablesWrite serveEnablesWrite

/-- The command argument word is stored whole (R157). -/
def serveArgumentWrite (e : Entry) (s : State) : Served :=
  (s.modSettings fun t => { t with argument := e.word }, .ok, none)

def execCommandArgumentWrite (s : State) : Host.Outcome State Fault Refusal :=
  s.takeWrite .commandArgumentWrite serveArgumentWrite

/-- Any other write: UNMAPPED where the offset is assigned to no object, FORM with detail COMMAND for a
command code that names no command, DENIED for the read-only objects (R152, R158). -/
def serveOtherWrite (e : Entry) (s : State) : Served :=
  match objectAt e.address.toNat with
  | none => (s, .unmapped, none)
  | some .command => (s, .form, some Detail.command)
  | some _ => (s, .denied, none)

def execMgmtWrite (s : State) : Host.Outcome State Fault Refusal := s.takeWrite .mgmtWrite serveOtherWrite

end Sys2Proof.Machine
end

