-- ==== Sys2Proof/Machine/LinesAndResets.lean ====
section
/-!
DEFINITION. The answers to an ASK, the lines, the links and the resets: the meanings of the remaining
rows.
-/

namespace Sys2Proof.Machine

/-! ## The walk (R147) -/

/-- The walk in progress if its ASK is outstanding at port p with this number (R18). -/
def State.walkAt (s : State) (p : PortNo) (number : BitVec 8) : Option Walk :=
  s.attention.walk.bind fun w => if w.port = p ∧ w.number = number then some w else none

/-- CODE (R18, R147): the walk ends and its ask ends OK with a PORT_CODE answer; the next ask is taken in
the same event. Discarded when no ASK with its number is outstanding at the port, when its code is
0, and while PORST is asserted. -/
def execTargetCode (p : PortNo) (msg : List Byte) (s : State) : Host.Outcome State Fault Refusal :=
  match parseAskAnswer 11 msg with
  | none => .next s
  | some (number, code) =>
    match s.walkAt p number with
    | none => .next s
    | some w =>
      if s.lines.porst ∨ code = 0 then .next s
      else
        .next (({ s with attention := { s.attention with walk := none } }.endAsk w.ask
          (.portCode p code)).settle)

/-- PASS (R18, R147): the port is passed and the walk reaches the next. -/
def execTargetPass (p : PortNo) (msg : List Byte) (s : State) : Host.Outcome State Fault Refusal :=
  match parseAskAnswer 12 msg with
  | none => .next s
  | some (number, _) =>
    match s.walkAt p number with
    | none => .next s
    | some _ => if s.lines.porst then .next s else .next (s.passPort p).settle

/-- ASK_TIMER_EXPIRY (R147): the port with the ASK outstanding is passed; without a walk no ask timer
runs and nothing happens. -/
def execAskTimerExpiry (s : State) : Host.Outcome State Fault Refusal :=
  match s.attention.walk with
  | none => .next s
  | some w => if s.lines.porst then .next s else .next (s.passPort w.port).settle

/-! ## Lines -/

def State.modLines (s : State) (f : Lines → Lines) : State := { s with lines := f s.lines }

/-- Whether the next PALERT or B link down command takes the event of its line, or moves the level alone
(R54, R63, R132, log entry 17). -/
def Lines.eventTaken (l : Lines) : Bool := !l.early.headD false

/-- TARGET_ATTENTION_LINE_CHANGE (R141): the line takes the level and the pending condition is
evaluated. -/
def execTargetAttentionLineChange (p : PortNo) (asserted : Bool) (s : State) :
    Host.Outcome State Fault Refusal :=
  .next (s.modLines fun l => { l with tattn := l.tattn.set p asserted }).evalPending

/-- PACE_PULSE (R117). -/
def execPacePulse (p : PortNo) (s : State) : Host.Outcome State Fault Refusal :=
  if s.lines.porst then .next s else .next (s.pulse p)

/-- The guard closes: GUARDED, GUARD_ON raised, guarded writes swept (R129, R134). -/
def State.closeGuard (s : State) : State :=
  ({ s with guard := .guarded }.raise .guardUnit .guardOn none).sweep.settle

/-- PALERT_ASSERT (R129). In GUARDED it has no effect; while PORST is asserted only the line follows
(R128), and so it does until the event is taken (R132, log entry 17). -/
def execPalertAssert (s : State) : Host.Outcome State Fault Refusal :=
  let taken := s.lines.eventTaken
  let s := s.modLines fun l => { l with palert := true, early := l.early.tail }
  if !taken ∨ s.lines.porst ∨ s.guard = .guarded then .next s else .next s.closeGuard

/-- PALERT_DEASSERT (R130). In OPEN and RELEASING it has no effect; while PORST is asserted only the line
follows (R128), and so it does until the event is taken (R132, log entry 17). -/
def execPalertDeassert (s : State) : Host.Outcome State Fault Refusal :=
  let taken := s.lines.eventTaken
  let s := s.modLines fun l => { l with palert := false, early := l.early.tail }
  if taken ∧ !s.lines.porst ∧ s.guard = .guarded then
    .next { s with guard := .releasing s.setup.settings.holdOff.toNat }
  else .next s

/-- HOLD_OFF_TIMER_EXPIRY (R131): in RELEASING the guard opens and GUARD_OFF is raised; otherwise no
hold-off timer runs and nothing happens. -/
def execHoldOffTimerExpiry (s : State) : Host.Outcome State Fault Refusal :=
  match s.guard with
  | .releasing _ =>
    if s.lines.porst then .next s
    else .next ({ s with guard := .opened }.raise .guardUnit .guardOff none).settle
  | .opened => .next s
  | .guarded => .next s

/-! ## Links -/

/-- A T link up event at the port: from ABSENT it becomes ONLINE with no-answer count 0 and no hold; in
any other state it has no effect (R71). -/
def State.linkUpAt (s : State) (p : PortNo) : State :=
  if s.ports[p].state = .absent then
    s.modPort p fun port => { port with state := .online, noAnswer := 0, hold := none }
  else s

/-- T_LINK_UP (R71). While PORST is asserted no port takes a link event (R68). -/
def execTLinkUp (p : PortNo) (s : State) : Host.Outcome State Fault Refusal :=
  let s := s.modLines fun l => { l with tLink := l.tLink.set p true }
  if s.lines.porst then .next s else .next (s.linkUpAt p)

/-- T_LINK_DOWN (R72, R148): the port's event, then a walk with an ASK outstanding there passes the
port (log entry 13). -/
def execTLinkDown (p : PortNo) (s : State) : Host.Outcome State Fault Refusal :=
  let s := s.modLines fun l => { l with tLink := l.tLink.set p false }
  if s.lines.porst then .next s else .next ((s.loseLink p).passPort p).settle

/-- A B link up event: on a rack member in DOWN the state becomes UP and BLINK_UP is raised (R19, R3). -/
def State.bLinkUpEvent (s : State) : State :=
  if s.setup.straps.slot ≠ 0 ∧ !s.bLinkUp then
    { s with bLinkUp := true }.raise .backplane .blinkUp none
  else s

/-- B_LINK_UP (R19). -/
def execBLinkUp (s : State) : Host.Outcome State Fault Refusal :=
  let s := s.modLines fun l => { l with bLink := true }
  if s.lines.porst then .next s else .next s.bLinkUpEvent

/-- B entries with a piece ISSUED become ORPHANED (R60). -/
def State.orphanIssued (s : State) : State :=
  { s with entries := mapCells (fun x => x.map fun e =>
      if e.origin.isB ∧ e.state = .issued then { e with state := .orphaned } else e) s.entries }

def Hold.heldByB (h : Hold) : Bool :=
  match h.holder with
  | .p => false
  | .b _ => true

/-- Every hold of a B origin becomes absent and the broken notes of all B origins are cleared (R103). -/
def State.dropBHolds (s : State) : State :=
  { s with
    ports := mapCells (fun port =>
      if port.hold.any Hold.heldByB then { port with hold := none } else port) s.ports
    notes := (Vector.replicate 17 none).set Holder.p.code (s.note .p) }

/-- The link-down event of the B port (R22, R66, R103). -/
def State.bLinkDownEvent (s : State) : State :=
  let s := { s with bLinkUp := false }
  let s := s.endAll .linkDown (fun _ => none)
    (s.table.filter fun ie => decide (ie.2.state = .forwarded))
  let s := s.freeAll (s.table.filter fun ie =>
    ie.2.origin.isB && (decide (ie.2.state = .waiting) || decide (ie.2.state = .backoff) ||
      decide (ie.2.state = .serving)))
  s.orphanIssued.dropBHolds.raise .backplane .blinkDown none

/-- B_LINK_DOWN (R22). On a standalone card and in DOWN it has no effect beyond the line; until the event
is taken the link alone is down, and what the B port produces is discarded (R54, R63, log entry
17). -/
def execBLinkDown (s : State) : Host.Outcome State Fault Refusal :=
  let taken := s.lines.eventTaken
  let s := s.modLines fun l => { l with bLink := false, early := l.early.tail }
  if taken ∧ !s.lines.porst ∧ s.setup.straps.slot ≠ 0 ∧ s.bLinkUp then .next s.bLinkDownEvent.settle
  else .next s

/-- P_LINK_DOWN (R1). -/
def execPLinkDown (s : State) : Host.Outcome State Fault Refusal :=
  .next (s.modLines fun l => { l with pLink := false })

/-- P_LINK_UP (R1). -/
def execPLinkUp (s : State) : Host.Outcome State Fault Refusal :=
  .next (s.modLines fun l => { l with pLink := true })

/-! ## Resets -/

/-- CARD_RESET (R62): CRST asserts and the card reset is taken. While PORST is asserted only the line
follows. -/
def execCardReset (s : State) : Host.Outcome State Fault Refusal :=
  let s := s.modLines fun l => { l with crst := true }
  if s.lines.porst then .next s else .next s.cardReset

/-- CRST_RELEASE (R1, R62). -/
def execCrstRelease (s : State) : Host.Outcome State Fault Refusal :=
  .next (s.modLines fun l => { l with crst := false })

/-- POWER_ON_RESET (R65 and the reset values of every chapter): PORST asserts and the straps are
sampled. -/
def execPowerOnReset (slot : BitVec 4) (bootp bootw : BitVec 2) (s : State) :
    Host.Outcome State Fault Refusal :=
  .next ((s.withDefaults { slot, bootp, bootw }).modLines fun l => { l with porst := true })

/-- Each port whose target link is up takes a T link up event (R68). -/
def State.linkUpsAtRelease (s : State) : List PortNo → State
  | [] => s
  | p :: rest => (if s.lines.tLink[p] then s.linkUpAt p else s).linkUpsAtRelease rest

/-- PORST_RELEASE (R68, R128, R19): the guard samples PALERT, each port whose link is up takes a link-up
event, and on a rack member the B port takes one if the B link is up. Without PORST asserted
nothing happens. -/
def execPorstRelease (s : State) : Host.Outcome State Fault Refusal :=
  if s.lines.porst then
    let s := s.modLines fun l => { l with porst := false }
    let s := { s with guard := if s.lines.palert then .guarded else .opened }
    let s := s.linkUpsAtRelease (List.finRange 4)
    .next (if s.lines.bLink then s.bLinkUpEvent else s)
  else .next s

end Sys2Proof.Machine
end

