-- ==== Sys2Proof/Machine/Dispatch.lean ====
section
/-!
DEFINITION. One arm per command: the meaning it calls.
-/

namespace Sys2Proof.Machine

/-- The effect of a command on everything but the queue. -/
def exec (i : Instr) (s : State) : Host.Outcome State Fault Refusal :=
  match i with
  | .requestOnPLink msg => Sys2Proof.Machine.execRequestOnPLink msg s
  | .requestOnBLink msg => Sys2Proof.Machine.execRequestOnBLink msg s
  | .bLinkResponse msg => Sys2Proof.Machine.execBLinkResponse msg s
  | .remoteResponseTimerExpiry entry => Sys2Proof.Machine.execRemoteResponseTimerExpiry entry s
  | .grant port => Sys2Proof.Machine.execGrant port s
  | .targetDone port msg => Sys2Proof.Machine.execTargetDone port msg s
  | .targetDefer port msg => Sys2Proof.Machine.execTargetDefer port msg s
  | .targetFault port msg => Sys2Proof.Machine.execTargetFault port msg s
  | .responseTimerExpiry entry => Sys2Proof.Machine.execResponseTimerExpiry entry s
  | .retryTimerExpiry entry => Sys2Proof.Machine.execRetryTimerExpiry entry s
  | .holdTimerExpiry port => Sys2Proof.Machine.execHoldTimerExpiry port s
  | .unitStartDecision channel => Sys2Proof.Machine.execUnitStartDecision channel s
  | .commit => Sys2Proof.Machine.execCommit s
  | .copyBack => Sys2Proof.Machine.execCopyBack s
  | .portResume => Sys2Proof.Machine.execPortResume s
  | .portOffline => Sys2Proof.Machine.execPortOffline s
  | .channelStartLoaded => Sys2Proof.Machine.execChannelStartLoaded s
  | .channelStartFetch => Sys2Proof.Machine.execChannelStartFetch s
  | .channelPause => Sys2Proof.Machine.execChannelPause s
  | .channelContinue => Sys2Proof.Machine.execChannelContinue s
  | .channelStop => Sys2Proof.Machine.execChannelStop s
  | .cardResetCommand => Sys2Proof.Machine.execCardResetCommand s
  | .stagingWrite => Sys2Proof.Machine.execStagingWrite s
  | .loadedDescriptorWrite => Sys2Proof.Machine.execLoadedDescriptorWrite s
  | .portConfigurationWrite => Sys2Proof.Machine.execPortConfigurationWrite s
  | .settingWrite => Sys2Proof.Machine.execSettingWrite s
  | .remoteManagementWrite => Sys2Proof.Machine.execRemoteManagementWrite s
  | .attentionEnablesWrite => Sys2Proof.Machine.execAttentionEnablesWrite s
  | .commandArgumentWrite => Sys2Proof.Machine.execCommandArgumentWrite s
  | .mgmtWrite => Sys2Proof.Machine.execMgmtWrite s
  | .targetCode port msg => Sys2Proof.Machine.execTargetCode port msg s
  | .targetPass port msg => Sys2Proof.Machine.execTargetPass port msg s
  | .askTimerExpiry => Sys2Proof.Machine.execAskTimerExpiry s
  | .targetAttentionLineChange port asserted => Sys2Proof.Machine.execTargetAttentionLineChange port asserted s
  | .pacePulse port => Sys2Proof.Machine.execPacePulse port s
  | .palertAssert => Sys2Proof.Machine.execPalertAssert s
  | .palertDeassert => Sys2Proof.Machine.execPalertDeassert s
  | .holdOffTimerExpiry => Sys2Proof.Machine.execHoldOffTimerExpiry s
  | .tLinkUp port => Sys2Proof.Machine.execTLinkUp port s
  | .tLinkDown port => Sys2Proof.Machine.execTLinkDown port s
  | .bLinkUp => Sys2Proof.Machine.execBLinkUp s
  | .bLinkDown => Sys2Proof.Machine.execBLinkDown s
  | .cardReset => Sys2Proof.Machine.execCardReset s
  | .powerOnReset slot bootp bootw => Sys2Proof.Machine.execPowerOnReset slot bootp bootw s
  | .porstRelease => Sys2Proof.Machine.execPorstRelease s
  | .crstRelease => Sys2Proof.Machine.execCrstRelease s
  | .pLinkDown => Sys2Proof.Machine.execPLinkDown s
  | .pLinkUp => Sys2Proof.Machine.execPLinkUp s

end Sys2Proof.Machine
end

