-- ==== Sys2Proof/Safety.lean ====
section
/-!
DEFINITION. Predicates over states that the laws and the statements use: the invariants that the manual
states as laws of the part, and which pieces of the state an event leaves alone.
-/

namespace Sys2Proof.Machine

/-! ## Invariants -/

/-- The arrival order lists each entry that is not FREE once and nothing else (R44). -/
def State.TableOk (s : State) : Prop :=
  s.order.Nodup ∧ ∀ i : EntryNo, i ∈ s.order ↔ s.entries[i].isSome = true

/-- The quotas: the P origin owns at most 8 entries, the B origin at most 8, each move channel at most
2 (R49). -/
def State.QuotaOk (s : State) : Prop :=
  (s.owned fun o => decide (o = .p)) ≤ 8 ∧ s.owned Origin.isB ≤ 8 ∧ ∀ c, s.ownedM c ≤ 2

/-- No two unanswered requests of one requester have the same tag (R6): entries of one origin that
carry a tag and are not ORPHANED differ in it. -/
def State.TagsOk (s : State) : Prop :=
  ∀ i j : EntryNo, ∀ e f : Entry, s.entries[i] = some e → s.entries[j] = some f → i ≠ j →
    e.origin = f.origin → e.tag.isSome = true → e.state ≠ .orphaned → f.state ≠ .orphaned →
      e.tag ≠ f.tag

/-- At each port the issued pieces never number more than 4 (R82). -/
def State.IssuedOk (s : State) : Prop := ∀ p, s.issuedCount p ≤ 4

/-- The attention queue: at most 16 records, no two with the same source and kind, counts 1 to 255
(R137, R138). -/
def Attention.Ok (a : Attention) : Prop :=
  a.queue.length ≤ 16 ∧
    a.queue.Pairwise (fun r t => ¬ (r.source = t.source ∧ r.kind = t.kind)) ∧
    ∀ r ∈ a.queue, 1 ≤ r.count ∧ r.count ≤ 255

/-- ATTN_OUT follows the pending condition (R141). -/
def State.OutOk (s : State) : Prop := s.attention.out = s.pendingCondition

/-- A valid live window has no limit page below its base page and defined rights (R38). -/
def State.LiveOk (s : State) : Prop :=
  ∀ i : Fin 32, s.setup.live[i].valid = true →
    s.setup.live[i].base ≤ s.setup.live[i].limit ∧ s.setup.live[i].localRights ≠ .noRight ∧
      s.setup.live[i].remoteRights ≠ .noRight

/-- The configuration of a port is in range (R67, R69). -/
def PortConfig.Ok (c : PortConfig) : Prop :=
  (1 ≤ c.credit ∧ c.credit ≤ 4) ∧ (1 ≤ c.responseLimit ∧ c.responseLimit ≤ 1000) ∧
    c.retryLimit ≤ 15 ∧ (1 ≤ c.retryInterval ∧ c.retryInterval ≤ 255) ∧
    (1 ≤ c.offlineThreshold ∧ c.offlineThreshold ≤ 7)

/-- The settings are in range (R155). -/
def Settings.Ok (t : Settings) : Prop := t.holdLimit ≠ 0 ∧ t.holdOff ≠ 0 ∧ t.remoteLimit ≠ 0

/-- Every port configuration and every setting is in range (R69, R155). -/
def State.ConfigOk (s : State) : Prop :=
  (∀ p : PortNo, s.setup.portConfig[p].Ok) ∧ s.setup.settings.Ok

/-- The B link state of a standalone card is DOWN (R3, R19). -/
def State.StandaloneOk (s : State) : Prop := s.setup.straps.slot = 0 → s.bLinkUp = false

/-- What a record of the Transaction Table always satisfies: only P and B entries are SERVING, only P
entries FORWARDED or COMPLETE, only B entries ORPHANED (R46); a FORWARDED entry is routed to the B
port (R20); the final status is present in
COMPLETE alone (R42, R60); an entry at a port has a decode record that names the port, and its
pieces total is that of its plan (R31, R78); the skip count is at most 16 (R83). -/
structure Entry.Ok (e : Entry) : Prop where
  serving : e.state = .serving → e.origin.isM = false
  forwarded : e.state = .forwarded → e.origin = .p
  remote : e.state = .forwarded → e.route = some .remote
  complete : e.state = .complete → e.origin = .p
  orphaned : e.state = .orphaned → e.origin.isB = true
  final : e.finalStatus.isSome = true ↔ e.state = .complete
  atPort : e.state = .waiting ∨ e.state = .issued ∨ e.state = .backoff ∨ e.state = .orphaned →
    ∃ d, e.decode = some d ∧ e.route = some (.port d.port) ∧ e.piecesTotal = e.plan.length
  skip : e.skipCount ≤ 16

/-- Every record of the table satisfies it. -/
def State.EntriesOk (s : State) : Prop := ∀ i : EntryNo, ∀ e, s.entries[i] = some e → e.Ok

/-- The retry count of an entry on a port's wait list is never above the port's retry limit (R42,
R69). -/
def State.RetryOk (s : State) : Prop :=
  ∀ i : EntryNo, ∀ e, s.entries[i] = some e → ∀ p, e.onWaitList p = true →
    e.retryCount ≤ s.setup.portConfig[p].retryLimit

/-- The saturating counters and the unit lists keep their ranges (R67, R105). -/
def State.RangesOk (s : State) : Prop :=
  (∀ p : PortNo, s.ports[p].noAnswer ≤ 7) ∧
    ∀ c : ChannelNo, s.channels[c].paceCredit ≤ 15 ∧ s.channels[c].units.length ≤ 2

/-! ## Holds -/

/-- An entry of this holder and this hold operation that is at its port: WAITING, ISSUED or BACKOFF
(R95). -/
def Entry.AtWork (op : Op) (h : Holder) (e : Entry) : Prop :=
  e.origin = h.origin ∧ e.op = op ∧ (e.state = .waiting ∨ e.state = .issued ∨ e.state = .backoff)

/-- The laws of the hold records and the broken notes. -/
structure State.HoldsOk (s : State) : Prop where
  /-- An origin holds at most one port (R93). -/
  one : ∀ (p q : PortNo) (x y : Hold), s.ports[p].hold = some x → s.ports[q].hold = some y →
    x.holder = y.holder → p = q
  /-- The hold read of a record is a READ_HOLD of the holder at that port (R93, R96). -/
  read : ∀ (p : PortNo) (x : Hold) (i : EntryNo), s.ports[p].hold = some x →
    x.phase = .awaitingRead i →
      ∃ e, s.entries[i] = some e ∧ e.AtWork .readHold x.holder ∧ e.route = some (.port p)
  /-- The release of a record is a WRITE_RELEASE of the holder at that port (R93, R100). -/
  release : ∀ (p : PortNo) (x : Hold) (i : EntryNo), s.ports[p].hold = some x →
    x.phase = .awaitingRelease i →
      ∃ e, s.entries[i] = some e ∧ e.AtWork .writeRelease x.holder ∧ e.route = some (.port p)
  /-- A holder has at most one READ_HOLD at a port (R95). -/
  single : ∀ (i j : EntryNo) (e f : Entry) (h : Holder), s.entries[i] = some e →
    s.entries[j] = some f → e.AtWork .readHold h → f.AtWork .readHold h → i = j
  /-- While a READ_HOLD of a holder is at a port, the holder holds nothing but what it has taken
  (R95, R96). -/
  reading : ∀ (i : EntryNo) (e : Entry) (h : Holder), s.entries[i] = some e →
    e.AtWork .readHold h → ∀ (p : PortNo) (x : Hold), s.ports[p].hold = some x → x.holder = h →
      x.phase = .awaitingRead i
  /-- A WRITE_RELEASE at a port is named by a hold of its holder (R95, R100). -/
  releasing : ∀ (i : EntryNo) (e : Entry) (h : Holder), s.entries[i] = some e →
    e.AtWork .writeRelease h → ∃ (p : PortNo) (x : Hold), s.ports[p].hold = some x ∧
      x.holder = h ∧ x.phase = .awaitingRelease i
  /-- A holder with a set note holds no port and has no READ_HOLD at one (R94, R95). -/
  note : ∀ h : Holder, s.note h ≠ none →
    (∀ (p : PortNo) (x : Hold), s.ports[p].hold = some x → x.holder ≠ h) ∧
      ∀ (i : EntryNo) (e : Entry), s.entries[i] = some e → ¬ e.AtWork .readHold h

/-! ## What an event leaves alone -/

/-- The parts of the state that no delivery, end, report, ask, management read or card reset changes:
straps, settings, tables and port configuration, the line levels, the rounds, the B link state and
the queue of commands. -/
structure Untouched (s t : State) : Prop where
  setup : t.setup = s.setup
  lines : t.lines = s.lines
  rounds : t.rounds = s.rounds
  bLinkUp : t.bLinkUp = s.bLinkUp
  pending : t.pending = s.pending

/-! ## A state at rest -/

/-- Nothing is left to follow within the event: no guarded write is due for refusal (R133), the head of
the management request queue is no read (R151), no ask waits without a walk in progress (R143), and
no CARD RESET command has reached the head of the P response list (R64). -/
structure State.Calm (s : State) : Prop where
  guard : ∀ i e, (i, e) ∈ s.table → s.guardDue i e = false
  reads : ∀ i e rest, s.mgmtQueue = (i, e) :: rest → e.op ≠ .read
  asks : s.attention.walk.isSome = true ∨ s.asks = []
  reset : s.resetDue = false

/-- The head of the P response list has not ended: an ended one would have left (R53, R64). -/
def State.HeadOk (s : State) : Prop :=
  ∀ x rest, s.pList = x :: rest → x.2.state ≠ .complete

/-- Between two events: nothing is left to follow; the head of the P response list has not ended (R53);
an entry on a wait list is at a port that is ONLINE (R31, R72, R73); a walk waits at a port that is
not ABSENT (R146, R148); and while PORST is asserted every entry is FREE (R65). -/
structure State.Resting (s : State) : Prop where
  calm : s.Calm
  head : s.HeadOk
  online : ∀ (i : EntryNo) (e : Entry) (p : PortNo), s.entries[i] = some e →
    e.onWaitList p = true → s.ports[p].state = .online
  walk : ∀ w, s.attention.walk = some w → s.ports[w.port].state ≠ .absent
  porst : s.lines.porst = true → s.order = []

/-! ## Requests -/

/-- The command in which a message arrives on a link as a request. -/
def requestCommand (l : Link) (msg : List Byte) : Instr :=
  match l with
  | .p => .requestOnPLink msg
  | .b => .requestOnBLink msg

/-- The requester of a request on a link: the processor, or the card at its source node. -/
def requester (l : Link) (r : Request) : Holder :=
  match l with
  | .p => .p
  | .b => .b r.source

/-- The entry that an accepted request is given, as R42 has it at creation, with this buffer. Its
routing sets the state and the route. R42 gives the pieces total no value before the decode record is
set (log entry 32). -/
def requestEntry (l : Link) (r : Request) (buffer : Vector Byte 64) : Entry :=
  { state := .serving, origin := (requester l r).origin, tag := some r.tag
    returnStamp := match l with | .p => none | .b => some r.stamp
    node := match l with | .p => some r.node | .b => none
    space := r.space.getD .data, op := r.op, address := r.address, length := r.length.toNat
    route := none, decode := none, piecesTotal := 0, nextPiece := 0, retryCount := 0
    skipCount := 0, timer := none, buffer, finalStatus := none, faultAddress := none
    detail := none }

/-- The buffer begins with these bytes. -/
def begins (buffer : Vector Byte 64) (data : List Byte) : Prop :=
  ∀ k : Fin 64, k.val < data.length → data[k.val]? = some buffer[k]

/-! ## Takes of the management block -/

/-- The command that takes a write of a row. -/
def MgmtRow.command : MgmtRow → Instr
  | .commit => .commit
  | .copyBack => .copyBack
  | .portResume => .portResume
  | .portOffline => .portOffline
  | .channelStartLoaded => .channelStartLoaded
  | .channelStartFetch => .channelStartFetch
  | .channelPause => .channelPause
  | .channelContinue => .channelContinue
  | .channelStop => .channelStop
  | .cardResetCommand => .cardResetCommand
  | .stagingWrite => .stagingWrite
  | .loadedDescriptorWrite => .loadedDescriptorWrite
  | .portConfigurationWrite => .portConfigurationWrite
  | .settingWrite => .settingWrite
  | .remoteManagementWrite => .remoteManagementWrite
  | .attentionEnablesWrite => .attentionEnablesWrite
  | .commandArgumentWrite => .commandArgumentWrite
  | .mgmtWrite => .mgmtWrite

/-- Entry i, with record e, is a write of this row at the head of the management request queue; PORST is
not asserted, and check 1 of R152 passes: the entry is no B entry, or remote management is on. -/
structure State.Takes (s : State) (row : MgmtRow) (i : EntryNo) (e : Entry) : Prop where
  porst : s.lines.porst = false
  head : ∃ rest, s.mgmtQueue = (i, e) :: rest
  write : e.op = .write
  row : e.mgmtRow = row
  allowed : e.origin.isB = false ∨ s.setup.settings.remoteManagement = true

/-- The state in which the management block has ended entry i with this status and detail (R150, R152),
and what follows in the event has followed. -/
def State.answered (s : State) (i : EntryNo) (status : Status) (detail : Option Detail) : State :=
  (s.endEntry i status none detail).settle

/-- No reset line is asserted. -/
def State.Running (s : State) : Prop := s.lines.porst = false ∧ s.lines.crst = false

/-- The B port takes requests: no reset is asserted, the card is a rack member and the B link state is
UP (R1, R3, R19). -/
def State.BTakes (s : State) : Prop :=
  s.Running ∧ s.setup.straps.slot ≠ 0 ∧ s.bLinkUp = true

/-- The message is a request that is accepted on its link, whatever its node (R1, R5 to R7). -/
def State.Admits (s : State) (l : Link) (msg : List Byte) (r : Request) : Prop :=
  parseRequest l msg = some r ∧ s.refusal l (requester l r).origin r = none ∧
    match l with
    | .p => s.Running
    | .b => s.BTakes ∧ r.source ≠ 0

/-- The message is a request for this card that is accepted on its link (R4, R10, R11). -/
def State.Accepts (s : State) (l : Link) (msg : List Byte) (r : Request) : Prop :=
  s.Admits l msg r ∧ (r.node = s.setup.straps.slot ∨ l = .p ∧ r.node = 0)

/-- What becomes of an accepted request in its acceptance event, by its link (R10, R11). -/
def State.routed (s : State) (l : Link) (space : Space) (r : Request) : Routing :=
  match l with
  | .p => s.routeP space r
  | .b => s.routeB space r

end Sys2Proof.Machine
end

