-- ==== Sys2Proof/Certificates/Slice0/Obligations.lean ====
section
/-!
DEFINITION. The statements for the provers. Each says in its name what it states; OBLIGATIONS.json gives the rules
each one rests on.
-/

open Sys2Proof Sys2Proof.Machine

/-! ## The step -/

/-- A step runs the command at the front of the queue on the state with the queue's rest; on an empty
queue the block idles (the model's choice, log entry 4). -/
def Obligations.StepRunsTheFrontCommand : Prop :=
  (∀ (c : Instr) (rest : List Instr) (s : State), s.pending = c :: rest →
    step s = exec c { s with pending := rest }) ∧
  ∀ s : State, s.pending = [] → step s = .next s

/-- Every command answers a next state: no rule has an event that stops the bridge. That it leaves the
queue of commands alone is the model's choice (log entry 4, DESIGN CHOICE); no rule speaks of the
queue. -/
def Obligations.EveryCommandAnswersANextState : Prop :=
  ∀ (c : Instr) (s : State), ∃ t, exec c s = .next t ∧ t.pending = s.pending

/-! ## Resets -/

/-- POWER_ON_RESET: every piece of state at its default, the straps as sampled, nothing sent (R19, R25, R65,
R68, R94, R106, R149), and the words that the management space then reads (R154, R155, section 9.5).
Two parts are the model's and no rule's: the guard state OPEN while PORST is asserted (log entry 29,
DESIGN CHOICE; R128 gives it none until the release), and the levels of the other lines and the
messages already sent, which are kept (log entry 28). -/
def Obligations.PowerOnResetSetsDefaults : Prop :=
  (∀ (s : State) (slot : BitVec 4) (bootp bootw : BitVec 2), ∃ t,
     exec (.powerOnReset slot bootp bootw) s = .next t ∧
     t.setup.straps = { slot, bootp, bootw } ∧ t.setup.generation = 0 ∧
     (∀ i : EntryNo, t.entries[i] = none ∧ t.rounds[i] = 0) ∧ t.order = [] ∧
     (∀ p : PortNo, t.ports[p] = { state := .absent, noAnswer := 0, askNumber := 0, hold := none }) ∧
     (∀ h, t.note h = none) ∧ t.bLinkUp = false ∧
     (∀ c : ChannelNo, t.channels[c] =
       { state := .idle, outcome := .none, faultStatus := none, faultAddress := none,
         faultDetail := none,
         descriptor := { source := 0, destination := 0, count := 0, unit := .one,
                         sourceFixed := false, destinationFixed := false, pace := 0,
                         notify := false, link := 0 },
         fetchAddress := none, remaining := 0, started := 0, sourceCursor := 0,
         destinationCursor := 0, units := [], paceCredit := 0, completed := 0 }) ∧
     t.guard = .opened ∧
     t.attention = { queue := [], overflow := false, walk := none, out := false } ∧
     t.lines = { s.lines with porst := true } ∧
     t.pSent = s.pSent ∧ t.bSent = s.bSent ∧ t.tSent = s.tSent) ∧
  (∀ (s : State) (slot : BitVec 4) (bootp bootw : BitVec 2), ∃ t,
     exec (.powerOnReset slot bootp bootw) s = .next t ∧
     t.readObject .identity0 = some 0x10F32416#32 ∧
     t.readObject .identity1 =
       some (BitVec.ofNat 32 (slot.toNat + 16 * bootp.toNat + 256 * bootw.toNat)) ∧
     t.readObject .remoteManagement = some 0 ∧ t.readObject .nodeMask = some 0x0000FFFE ∧
     t.readObject .timers = some 0x00001432 ∧ t.readObject .remoteLimit = some 0x000007D0 ∧
     t.readObject .attentionEnables = some 0x000001FF ∧ t.readObject .argument = some 0 ∧
     (∀ p : PortNo, p ≠ bootp.toFin → t.readObject (.portConfig p 0) = some 0x00008314) ∧
     t.readObject (.portConfig bootp.toFin 0) =
       some (if bootw = 0 then 0x00008311 else if bootw = 1 then 0x00008312 else 0x00008314) ∧
     (∀ p : PortNo, t.readObject (.portConfig p 1) = some 0x00000064 ∧
       t.readObject (.portConfig p 2) = some 0x0000000A) ∧
     (∀ i : Fin 32, ∀ k : Fin 4, i ≠ 0 →
       t.readObject (.staging i k) = some 0 ∧ t.readObject (.live i k) = some 0) ∧
     (∀ k : Fin 4, t.readObject (.staging 0 k) = t.readObject (.live 0 k)) ∧
     t.readObject (.live 0 0) = some 0x80000000 ∧ t.readObject (.live 0 1) = some 0x000000FF ∧
     t.readObject (.live 0 2) = some (BitVec.ofNat 32 (bootp.toNat * 2 ^ 28)) ∧
     t.readObject (.live 0 3) = some 0x00000002)

/-- PORST_RELEASE: the guard samples PALERT without raising attention, each ABSENT port whose link is up
becomes ONLINE, and on a rack member in DOWN the B port takes a link-up event if the B link is up
(R19, R68, R71, R128). That the command changes nothing where PORST is not asserted is the model's
reading (log entry 5), no rule's. -/
def Obligations.PorstReleaseTakesLinkUps : Prop :=
  (∀ s : State, s.lines.porst = false → exec .porstRelease s = .next s) ∧
  ∀ s : State, s.lines.porst = true → ∃ t, exec .porstRelease s = .next t ∧
    t.lines = { s.lines with porst := false } ∧
    t.guard = (if s.lines.palert then .guarded else .opened) ∧
    (∀ p : PortNo, t.ports[p] =
      if s.lines.tLink[p] = true ∧ s.ports[p].state = .absent then
        { s.ports[p] with state := .online, noAnswer := 0, hold := none } else s.ports[p]) ∧
    t.bLinkUp = (s.bLinkUp || (s.lines.bLink && decide (s.setup.straps.slot ≠ 0))) ∧
    (s.lines.bLink = true → s.setup.straps.slot ≠ 0 → s.bLinkUp = false →
      t.attention = (s.raise .backplane .blinkUp none).attention ∧
        t.pSent = (s.raise .backplane .blinkUp none).pSent) ∧
    (s.lines.bLink = false ∨ s.setup.straps.slot = 0 ∨ s.bLinkUp = true →
      t.attention = s.attention ∧ t.pSent = s.pSent) ∧
    t.setup = s.setup ∧ t.entries = s.entries ∧ t.order = s.order ∧ t.rounds = s.rounds ∧
    t.notes = s.notes ∧ t.channels = s.channels ∧ t.bSent = s.bSent ∧ t.tSent = s.tSent

/-- CARD_RESET at the assertion of CRST: every entry becomes FREE, the live B entries are answered
ABORTED in arrival order, ports, holds, notes, channels, guard and attention unit are reset, and
rounds, setup, B link state and lines are kept (R25, R43, R62, R63, R77, R103, R106, R132, R149). That
the command does the same where CRST is already asserted is the model's choice (log entry 22, DESIGN
CHOICE). -/
def Obligations.CardResetFreesEverything : Prop :=
  ∀ s : State, s.lines.porst = false → ∃ t, exec .cardReset s = .next t ∧
    (∀ i : EntryNo, t.entries[i] = none) ∧ t.order = [] ∧ t.rounds = s.rounds ∧
    t.setup = s.setup ∧ t.bLinkUp = s.bLinkUp ∧ t.lines = { s.lines with crst := true } ∧
    (∀ p : PortNo, t.ports[p] =
      { state := if s.ports[p].state = .absent then .absent else .online,
        noAnswer := 0, askNumber := 0, hold := none }) ∧
    (∀ p : PortNo, t.tSent[p] =
      if s.ports[p].state = .absent then s.tSent[p] else s.tSent[p] ++ [.portReset]) ∧
    (∀ h, t.note h = none) ∧ (∀ c : ChannelNo, t.channels[c] = Channel.atReset) ∧
    t.guard = (if s.lines.palert then .guarded else if s.guard = .opened then .opened
      else .releasing s.setup.settings.holdOff.toNat) ∧
    t.attention.queue = [] ∧ t.attention.overflow = false ∧ t.attention.walk = none ∧
    t.attention.out = (List.finRange 4).any s.lineWants ∧
    t.pSent = (if (List.finRange 4).any s.lineWants && s.lines.pLink then s.pSent ++ [.notice 0]
      else s.pSent) ∧
    t.bSent = (if s.lines.bLink then
        s.bSent ++ s.table.filterMap fun ie =>
          match ie.2.origin with
          | .b source =>
            if ie.2.state = .waiting ∨ ie.2.state = .issued ∨ ie.2.state = .backoff ∨
                ie.2.state = .serving then
              some (.response source s.setup.straps.slot (ie.2.returnStamp.getD 0)
                { tag := ie.2.tag.getD 0, status := .aborted, data := none, faultAddress := none,
                  detail := none })
            else none
          | .p => none
          | .m _ => none
      else s.bSent)

/-- CRST_RELEASE, P_LINK_DOWN and P_LINK_UP change their line and nothing else (R1, R62). -/
def Obligations.LineOnlyCommands : Prop :=
  ∀ s : State,
    exec .crstRelease s = .next { s with lines := { s.lines with crst := false } } ∧
    exec .pLinkDown s = .next { s with lines := { s.lines with pLink := false } } ∧
    exec .pLinkUp s = .next { s with lines := { s.lines with pLink := true } }

/-! ## Acceptance -/

/-- The form checks are made in the order of R5, the first that fails refuses the request with status
FORM and its detail, and a B request whose source node is 0 is discarded. -/
def Obligations.FormChecksRefuseInOrder : Prop :=
  (∀ (l : Link) (r : Request),
    let n := r.length.toNat
    let c1 := r.space ≠ none ∧ (l = .b → r.node ≠ 0) ∧
      r.data.length = if r.op = .write ∨ r.op = .writeRelease then n else 0
    let c2 := 1 ≤ n ∧ n ≤ 64
    let c3 := r.address.toNat / 64 = (r.address.toNat + n - 1) / 64
    let c4 := r.op = .readHold ∨ r.op = .writeRelease →
      (n = 1 ∨ n = 2 ∨ n = 4) ∧ r.address.toNat % n = 0 ∧ r.space = some .data
    let c5 := r.space = some .mgmt →
      (r.op = .read ∨ r.op = .write) ∧ n = 4 ∧ r.address.toNat % 4 = 0
    let c6 := r.space = some .attn → r.op = .read ∧ n = 16 ∧ r.address = 0
    (¬ c1 → Request.formCheck l r = some 64) ∧ (c1 → ¬ c2 → Request.formCheck l r = some 65) ∧
    (c1 → c2 → ¬ c3 → Request.formCheck l r = some 66) ∧
    (c1 → c2 → c3 → ¬ c4 → Request.formCheck l r = some 67) ∧
    (c1 → c2 → c3 → c4 → ¬ c5 → Request.formCheck l r = some 68) ∧
    (c1 → c2 → c3 → c4 → c5 → ¬ c6 → Request.formCheck l r = some 69) ∧
    (c1 → c2 → c3 → c4 → c5 → c6 → Request.formCheck l r = none)) ∧
  (∀ (s : State) (msg : List Byte) (r : Request) (d : Detail), s.Running →
    parseRequest .p msg = some r → Request.formCheck .p r = some d →
      exec (.requestOnPLink msg) s = .next (s.sendP (.response
        { tag := r.tag, status := .form, data := none, faultAddress := none, detail := some d }))) ∧
  (∀ (s : State) (msg : List Byte) (r : Request) (d : Detail), s.BTakes →
    parseRequest .b msg = some r → r.source ≠ 0 → Request.formCheck .b r = some d →
      exec (.requestOnBLink msg) s = .next (s.sendB (.response r.source s.setup.straps.slot r.stamp
        { tag := r.tag, status := .form, data := none, faultAddress := none, detail := some d }))) ∧
  (∀ (s : State) (msg : List Byte) (r : Request), parseRequest .b msg = some r → r.source = 0 →
    exec (.requestOnBLink msg) s = .next s)

/-- A tag of an unanswered request of the same requester refuses the next request with FORM and TAG_IN_USE
(R6); a request past that check is refused FULL when its origin owns its full quota and accepted
otherwise (R7). -/
def Obligations.TagsAndQuotasRefuseRequests : Prop :=
  ((∀ (s : State) (r : Request), s.TableOk → s.EntriesOk → Request.formCheck .p r = none →
     (s.refusal .p .p r = some (.form, some 70) ↔
       ∃ i : EntryNo, ∃ e, s.entries[i] = some e ∧ e.origin = .p ∧ e.tag = some r.tag)) ∧
   (∀ (s : State) (r : Request), s.TableOk → Request.formCheck .b r = none →
     (s.refusal .b (.b r.source) r = some (.form, some 70) ↔
       ∃ i : EntryNo, ∃ e, s.entries[i] = some e ∧ e.origin = .b r.source ∧ e.tag = some r.tag ∧
         e.state ≠ .orphaned))) ∧
  ((∀ (s : State) (r : Request), Request.formCheck .p r = none → s.tagInUse .p r.tag = false →
     s.refusal .p .p r = if 8 ≤ s.owned (fun o => decide (o = .p)) then some (.full, none) else none) ∧
   (∀ (s : State) (r : Request), Request.formCheck .b r = none →
     s.tagInUse (.b r.source) r.tag = false →
       s.refusal .b (.b r.source) r = if 8 ≤ s.owned Origin.isB then some (.full, none) else none))

/-- A request within its origin's quota always finds a FREE entry, and so does a channel's creation
(R49, R50). -/
def Obligations.RoomMeansAFreeEntry : Prop :=
  ∀ s : State, s.TableOk → s.QuotaOk →
    (s.owned fun o => decide (o = .p)) < 8 ∨ s.owned Origin.isB < 8 ∨ (∃ c, s.ownedM c < 2) →
      ∃ i : EntryNo, s.lowestFree = some i ∧ s.entries[i] = none ∧
        ∀ j : EntryNo, j < i → (s.entries[j]).isSome = true

/-- A refusal at acceptance produces its response and changes nothing else (R8). -/
def Obligations.RefusedRequestLeavesNoTrace : Prop :=
  (∀ (s : State) (msg : List Byte) (r : Request) (status : Status) (d : Option Detail), s.Running →
    parseRequest .p msg = some r → s.refusal .p .p r = some (status, d) →
      exec (.requestOnPLink msg) s = .next { s with
        pSent := if s.lines.pLink then
            s.pSent ++ [.response { tag := r.tag, status, data := none, faultAddress := none,
                                    detail := d }]
          else s.pSent }) ∧
  (∀ (s : State) (msg : List Byte) (r : Request) (status : Status) (d : Option Detail), s.BTakes →
    parseRequest .b msg = some r → r.source ≠ 0 →
      s.refusal .b (.b r.source) r = some (status, d) →
        exec (.requestOnBLink msg) s = .next { s with
          bSent := if s.lines.bLink then
              s.bSent ++ [.response r.source s.setup.straps.slot r.stamp
                { tag := r.tag, status, data := none, faultAddress := none, detail := d }]
            else s.bSent })

/-- An accepted READ or WRITE for this card, from P or B, that its decode passes is given the lowest FREE
entry and the youngest place, and waits at its port with its decode record (R9, R12, R31, R42,
R44; the hold operations are in ReadHoldIsCheckedAtItsDecode and WriteReleaseCases). An accepted MGMT
request is given an entry likewise and joins the management request queue, SERVING (R10, R11, R48,
R150); that its pieces total reads 0 is the model's choice (log entry 32). -/
def Obligations.AcceptedDataRequestWaitsAtItsPort : Prop :=
  (∀ (s : State) (msg : List Byte) (r : Request) (d : DecodeRecord) (i : EntryNo), s.Running →
    parseRequest .p msg = some r → s.refusal .p .p r = none → r.space = some .data →
    r.node = 0 ∨ r.node = s.setup.straps.slot → r.op = .read ∨ r.op = .write →
    s.decodeAddress .p r.op r.address = .ok d → s.lowestFree = some i →
      ∃ b : Vector Byte 64, (∀ k : Fin 64, k.val < r.data.length → r.data[k.val]? = some b[k]) ∧
        exec (.requestOnPLink msg) s = .next ({ s with
          entries := s.entries.set i (some
            { state := .waiting, origin := .p, tag := some r.tag, returnStamp := none,
              node := some r.node, space := .data, op := r.op, address := r.address,
              length := r.length.toNat, route := some (.port d.port), decode := some d,
              piecesTotal := (piecePlan d.target r.length.toNat d.width).length, nextPiece := 0,
              retryCount := 0, skipCount := 0, timer := none, buffer := b, finalStatus := none,
              faultAddress := none, detail := none })
          order := s.order ++ [i], freshCount := s.freshCount + 1 }).settle) ∧
  (∀ (s : State) (msg : List Byte) (r : Request) (d : DecodeRecord) (i : EntryNo), s.BTakes →
    parseRequest .b msg = some r → r.source ≠ 0 → s.refusal .b (.b r.source) r = none →
    r.space = some .data → r.node = s.setup.straps.slot → r.op = .read ∨ r.op = .write →
    s.decodeAddress (.b r.source) r.op r.address = .ok d → s.lowestFree = some i →
      ∃ b : Vector Byte 64, (∀ k : Fin 64, k.val < r.data.length → r.data[k.val]? = some b[k]) ∧
        exec (.requestOnBLink msg) s = .next ({ s with
          entries := s.entries.set i (some
            { state := .waiting, origin := .b r.source, tag := some r.tag,
              returnStamp := some r.stamp, node := none, space := .data, op := r.op,
              address := r.address, length := r.length.toNat, route := some (.port d.port),
              decode := some d,
              piecesTotal := (piecePlan d.target r.length.toNat d.width).length, nextPiece := 0,
              retryCount := 0, skipCount := 0, timer := none, buffer := b, finalStatus := none,
              faultAddress := none, detail := none })
          order := s.order ++ [i], freshCount := s.freshCount + 1 }).settle) ∧
  (∀ (s : State) (l : Link) (msg : List Byte) (r : Request) (i : EntryNo), s.Accepts l msg r →
    r.space = some .mgmt → s.lowestFree = some i →
      ∃ b : Vector Byte 64, begins b r.data ∧
        exec (requestCommand l msg) s = .next (State.settle { s with
          entries := s.entries.set i (some { requestEntry l r b with route := some .mgmt })
          order := s.order ++ [i], freshCount := s.freshCount + 1 }))

/-- A P request for another node that the mask allows while the B link state is UP is FORWARDED in its
acceptance event, with a fresh stamp, whatever its operation: a forwarded READ_HOLD or WRITE_RELEASE
touches no hold and no note of this card (R4, R10, R20, R43, R57). That the request is discarded where
the link itself is down (log entry 33) and that the pieces total of an entry that is not decoded reads
0 (log entry 32) are the model's choices. -/
def Obligations.RemoteRequestIsForwarded : Prop :=
  ∀ (s : State) (msg : List Byte) (r : Request) (space : Space) (i : EntryNo), s.Running →
    parseRequest .p msg = some r → s.refusal .p .p r = none → r.space = some space →
    r.node ≠ 0 → s.setup.straps.slot ≠ 0 → r.node ≠ s.setup.straps.slot →
    s.setup.settings.nodeMask.getLsbD r.node.toNat = true → s.bLinkUp = true →
    s.lowestFree = some i →
      ∃ b : Vector Byte 64, (∀ k : Fin 64, k.val < r.data.length → r.data[k.val]? = some b[k]) ∧
        exec (.requestOnPLink msg) s = .next ({ s with
          entries := s.entries.set i (some
            { state := .forwarded, origin := .p, tag := some r.tag, returnStamp := none,
              node := some r.node, space, op := r.op, address := r.address,
              length := r.length.toNat, route := some .remote, decode := none, piecesTotal := 0,
              nextPiece := 0, retryCount := 0, skipCount := 0,
              timer := some s.setup.settings.remoteLimit.toNat, buffer := b, finalStatus := none,
              faultAddress := none, detail := none })
          order := s.order ++ [i], freshCount := s.freshCount + 1
          rounds := s.rounds.set i (s.rounds[i] + 1)
          bSent := if s.lines.bLink then
              s.bSent ++ [BMessage.request { r with
                source := s.setup.straps.slot,
                stamp := BitVec.ofNat 16 (i.val * 256 + (s.rounds[i] + 1).toNat) }]
            else s.bSent }).settle

/-- The checks of routing that end an entry: node and mask and link on P (R10), node and space on B
(R11), in their order; the rest is routed to the management block, the attention unit, the B port or
the decode. A DATA request that the decode ends, and an accepted request that routing or the decode
ends, is given the lowest FREE entry and ends in its acceptance event with that status and detail and
no fault address; of the rest of the state only the broken note of a release answered HOLD_BROKEN
changes (R9 to R12, R31, R100). That the ended entry's pieces total reads 0 is the model's choice (log
entry 32). -/
def Obligations.RoutingFollowsTheTables : Prop :=
  (∀ (s : State) (space : Space) (r : Request),
    let slot := s.setup.straps.slot
    let here := r.node = 0 ∨ r.node = slot
    let allowed := s.setup.settings.nodeMask.getLsbD r.node.toNat = true
    (here → space = .mgmt → s.routeP space r = .mgmt) ∧
    (here → space = .attn → s.routeP space r = .attn) ∧
    (here → space = .data → s.routeP space r = s.routeData .p r.op r.address) ∧
    (¬ here → slot = 0 → s.routeP space r = .ended .noRoute none) ∧
    (¬ here → slot ≠ 0 → ¬ allowed → s.routeP space r = .ended .denied none) ∧
    (¬ here → slot ≠ 0 → allowed → s.bLinkUp = false → s.routeP space r = .ended .noRoute none) ∧
    (¬ here → slot ≠ 0 → allowed → s.bLinkUp = true → s.routeP space r = .remote)) ∧
  (∀ (s : State) (space : Space) (r : Request),
    let here := r.node = s.setup.straps.slot
    (¬ here → s.routeB space r = .ended .noRoute none) ∧
    (here → space = .attn → s.routeB space r = .ended .denied none) ∧
    (here → space = .data → s.routeB space r = s.routeData (.b r.source) r.op r.address) ∧
    (here → space = .mgmt → s.routeB space r = .mgmt)) ∧
  (∀ (s : State) (h : Holder) (op : Op) (a : Word) (status : Status) (detail : Option Detail),
    s.decodeAddress h.origin op a = .error (status, detail) →
      s.routeData h op a = .ended status detail) ∧
  (∀ (s : State) (l : Link) (msg : List Byte) (r : Request) (space : Space) (i : EntryNo)
      (status : Status) (detail : Option Detail), s.Admits l msg r → r.space = some space →
    s.lowestFree = some i → s.routed l space r = .ended status detail →
      ∃ b : Vector Byte 64, begins b r.data ∧
        exec (requestCommand l msg) s = .next (State.settle (State.endEntry { s with
          entries := s.entries.set i (some (requestEntry l r b))
          order := s.order ++ [i], freshCount := s.freshCount + 1
          notes := if r.op = .writeRelease ∧ status = .holdBroken then
              s.notes.set (requester l r).code none else s.notes } i status none detail)))

/-- The decode: UNMAPPED without a window, else the checks of the lowest matching window alone, rights
before port state, and the target address with its offset kept (R27 to R31). -/
def Obligations.DecodeChecksTheLowestWindow : Prop :=
  ∀ (s : State) (o : Origin) (op : Op) (a : Word),
    let page := a.toNat / 4096
    let holds (i : Fin 32) : Prop := s.setup.live[i].valid = true ∧
      s.setup.live[i].base.toNat ≤ page ∧ page ≤ s.setup.live[i].limit.toNat
    ((∀ i, ¬ holds i) → s.decodeAddress o op a = .error (.unmapped, none)) ∧
    ∀ i : Fin 32, holds i → (∀ j : Fin 32, j < i → ¬ holds j) →
      let w := s.setup.live[i]
      let rights := if o.isB then w.remoteRights else w.localRights
      let allowed := rights = .readWrite ∨ (rights = .read ∧ op = .read)
      let index : Detail := BitVec.ofNat 8 i.val
      (¬ allowed → s.decodeAddress o op a = .error (.denied, some index)) ∧
      (allowed → s.ports[w.port].state ≠ .online →
        s.decodeAddress o op a = .error (.noTarget, some index)) ∧
      (allowed → s.ports[w.port].state = .online → ∃ d, s.decodeAddress o op a = .ok d ∧
        d.window = i ∧ d.generation = s.setup.generation ∧ d.port = w.port ∧
        d.guarded = w.guarded ∧ d.width = s.setup.portConfig[w.port].width ∧
        d.target.toNat % 4096 = a.toNat % 4096 ∧
        d.target.toNat / 4096 =
          (w.targetPage.toNat + (page - w.base.toNat)) % 2 ^ 20)

/-- The checks of a READ_HOLD at its decode (R95). One that passes them, on either link, is given the
lowest FREE entry, waits at its port with its decode record, and clears its requester's broken note
(R9, R31, R42, R44, R95); one that fails them is answered FORM with the check's detail in its order
among the requester's responses (that its pieces total reads 0 is the model's choice, log entry
32). -/
def Obligations.ReadHoldIsCheckedAtItsDecode : Prop :=
  ∀ (s : State) (h : Holder) (a : Word) (d : DecodeRecord),
    s.decodeAddress h.origin .readHold a = .ok d →
    let holding := ∃ p : PortNo, ∃ x, s.ports[p].hold = some x ∧ x.holder = h
    let pending (op : Op) := ∃ jf ∈ s.table, jf.2.origin = h.origin ∧ jf.2.op = op ∧
      (jf.2.state = .waiting ∨ jf.2.state = .issued ∨ jf.2.state = .backoff)
    (holding → s.routeData h .readHold a = .ended .form (some 71)) ∧
    (¬ holding → pending .readHold → s.routeData h .readHold a = .ended .form (some 72)) ∧
    (¬ holding → ¬ pending .readHold → pending .writeRelease →
      s.routeData h .readHold a = .ended .form (some 73)) ∧
    (¬ holding → ¬ pending .readHold → ¬ pending .writeRelease →
      s.routeData h .readHold a = .port d ∧
      ∀ i, s.holdAtDecode h .readHold i (.port d) = { s with notes := s.notes.set h.code none }) ∧
    ∀ (l : Link) (msg : List Byte) (r : Request) (i : EntryNo), s.Accepts l msg r →
      r.space = some .data → r.op = .readHold → r.address = a → requester l r = h →
      s.lowestFree = some i →
        ∃ b : Vector Byte 64,
          (¬ holding → ¬ pending .readHold → ¬ pending .writeRelease →
            exec (requestCommand l msg) s = .next (State.settle { s with
              entries := s.entries.set i (some { requestEntry l r b with
                state := .waiting, route := some (.port d.port), decode := some d
                piecesTotal := (piecePlan d.target r.length.toNat d.width).length })
              order := s.order ++ [i], freshCount := s.freshCount + 1
              notes := s.notes.set h.code none })) ∧
          (∀ check, holding ∧ check = 71 ∨ ¬ holding ∧ pending .readHold ∧ check = 72 ∨
              ¬ holding ∧ ¬ pending .readHold ∧ pending .writeRelease ∧ check = 73 →
            exec (requestCommand l msg) s = .next (State.settle (State.endEntry { s with
              entries := s.entries.set i (some (requestEntry l r b))
              order := s.order ++ [i], freshCount := s.freshCount + 1 } i .form none (some check))))

/-- The seven cases of a WRITE_RELEASE at its decode and what each changes (R100). One that is accepted,
on either link, is given the lowest FREE entry and waits at its port with its decode record, named by
the hold record, whose timer stops; one of the other cases is given the lowest FREE entry and ends in
the same event with the status and detail of its case, and HOLD_BROKEN clears the note (R9, R31, R42,
R44, R100). That the ended entry's pieces total reads 0 is the model's choice (log entry 32). -/
def Obligations.WriteReleaseCases : Prop :=
  ∀ (s : State) (h : Holder) (a : Word) (d : DecodeRecord) (i : EntryNo),
    s.decodeAddress h.origin .writeRelease a = .ok d →
    let route := s.routeData h .writeRelease a
    let change (r : Routing) := s.holdAtDecode h .writeRelease i r
    let holds (p : PortNo) (x : Hold) := s.ports[p].hold = some x ∧ x.holder = h ∧
      ∀ q : PortNo, q < p → ∀ y, s.ports[q].hold = some y → y.holder ≠ h
    let none' := ∀ (p : PortNo) (x : Hold), s.ports[p].hold = some x → x.holder ≠ h
    let waiting := ∃ jf ∈ s.table, jf.2.origin = h.origin ∧ jf.2.op = .readHold ∧
      (jf.2.state = .waiting ∨ jf.2.state = .backoff)
    (∀ x n, holds d.port x → x.phase = .timing n →
      route = .port d ∧ change route = { s with
        ports := s.ports.set d.port { s.ports[d.port] with
          hold := some { x with phase := .awaitingRelease i } } }) ∧
    (∀ p x, holds p x → p ≠ d.port →
      route = .ended .form (some 74) ∧ change route = s) ∧
    (∀ x j, holds d.port x → x.phase = .awaitingRead j →
      route = .ended .form (some 72) ∧ change route = s) ∧
    (∀ x j, holds d.port x → x.phase = .awaitingRelease j →
      route = .ended .form (some 73) ∧ change route = s) ∧
    (none' → waiting → route = .ended .form (some 72) ∧ change route = s) ∧
    (∀ q, none' → ¬ waiting → s.note h = some q →
      route = .ended .holdBroken (some (BitVec.ofNat 8 q.val)) ∧
        change route = { s with notes := s.notes.set h.code none }) ∧
    (none' → ¬ waiting → s.note h = none →
      route = .ended .form (some 75) ∧ change route = s) ∧
    (∀ (l : Link) (msg : List Byte) (r : Request) (status : Status) (detail : Option Detail),
      s.Accepts l msg r → r.space = some .data → r.op = .writeRelease → r.address = a →
      requester l r = h → s.lowestFree = some i → route = .ended status detail →
        ∃ b : Vector Byte 64, begins b r.data ∧
          exec (requestCommand l msg) s = .next (State.settle (State.endEntry { s with
            entries := s.entries.set i (some (requestEntry l r b))
            order := s.order ++ [i], freshCount := s.freshCount + 1
            notes := if status = .holdBroken then s.notes.set h.code none else s.notes }
            i status none detail))) ∧
    ∀ (l : Link) (msg : List Byte) (r : Request) (x : Hold) (n : Nat), s.Accepts l msg r →
      r.space = some .data → r.op = .writeRelease → r.address = a → requester l r = h →
      s.lowestFree = some i → holds d.port x → x.phase = .timing n →
        ∃ b : Vector Byte 64, begins b r.data ∧
          exec (requestCommand l msg) s = .next (State.settle { s with
            entries := s.entries.set i (some { requestEntry l r b with
              state := .waiting, route := some (.port d.port), decode := some d
              piecesTotal := (piecePlan d.target r.length.toNat d.width).length })
            order := s.order ++ [i], freshCount := s.freshCount + 1
            ports := s.ports.set d.port { s.ports[d.port] with
              hold := some { x with phase := .awaitingRelease i } } })

/-! ## Ends, deliveries and what follows in the event -/

/-- The end of a P entry: its port's hold changes as HoldChangesWithTheEndOfItsEntry says, it is
COMPLETE, and the responses of the ended entries at the head of the P response list leave in their
order, up to the first entry that has not ended or is a CARD RESET command; theirs are then FREE (R13,
R47, R52, R53). That the delivery stops at an
ended CARD RESET command, whose response leaves at the close of the event, is the model's reading of
R64 (log entry 9). -/
def Obligations.EndedProcessorEntriesLeaveInOrder : Prop :=
  ∀ (s : State) (i : EntryNo) (e : Entry) (status : Status) (a : Option Word) (d : Option Detail),
    s.TableOk → s.entries[i] = some e → e.origin = .p → e.state ≠ .complete →
    e.state ≠ .orphaned →
      let ended : Entry := { e with
        state := .complete, finalStatus := some status, faultAddress := a, detail := d,
        timer := none }
      let list := s.pList.map fun jf => if jf.1 = i then (i, ended) else jf
      let leaving := list.takeWhile fun jf =>
        decide (jf.2.state = .complete) && !jf.2.isCardReset
      let t := s.endEntry i status a d
      t = { s.holdAtEnd i e status with
        entries := t.entries
        order := s.order.filter fun j => j ∉ leaving.map Prod.fst
        pSent := if s.lines.pLink = true then
            s.pSent ++ leaving.map fun jf => .response jf.2.response else s.pSent } ∧
      (∀ j : EntryNo, j ∈ leaving.map Prod.fst → t.entries[j] = none) ∧
      (∀ j : EntryNo, j ∉ leaving.map Prod.fst →
        t.entries[j] = if j = i then some ended else s.entries[j]) ∧
      ended.response =
        { tag := e.tag.getD 0, status,
          data := if status = .ok ∧ (e.op = .read ∨ e.op = .readHold) then
              some (e.buffer.toList.take e.length) else none,
          faultAddress := a, detail := d }

/-- The end of a B entry: its port's hold changes as HoldChangesWithTheEndOfItsEntry says, its response
leaves addressed to its source node and it is FREE in the same event. The end of a move entry: FREE,
and then reported to its channel (R13, R54, R55). -/
def Obligations.EndedBackplaneAndMoveEntries : Prop :=
  ∀ (s : State) (i : EntryNo) (e : Entry) (status : Status) (a : Option Word) (d : Option Detail),
    s.entries[i] = some e → e.state ≠ .complete → e.state ≠ .orphaned →
      let v : State := { s.holdAtEnd i e status with
        entries := s.entries.set i none, order := s.order.filter fun j => j ≠ i }
      (∀ source, e.origin = .b source → s.endEntry i status a d = { v with
        bSent := if s.lines.bLink then
            s.bSent ++ [.response source s.setup.straps.slot (e.returnStamp.getD 0)
              { tag := e.tag.getD 0, status,
                data := if status = .ok ∧ (e.op = .read ∨ e.op = .readHold) then
                    some (e.buffer.toList.take e.length) else none,
                faultAddress := a, detail := d }]
          else s.bSent }) ∧
      (∀ c, e.origin = .m c → s.endEntry i status a d =
        v.report c i e.address status a d (e.buffer.toList.take e.length))

/-- The end of an entry that holds its port, or that is to release it: a READ_HOLD that ends OK starts the
hold timer with the hold limit, any other status and the end of the release make the record absent,
and no broken note is set (R99, R101). `holdAtEnd`, which the statements of ends name, does this and
nothing else, and does nothing for any other entry. -/
def Obligations.HoldChangesWithTheEndOfItsEntry : Prop :=
  (∀ (s : State) (i : EntryNo) (e : Entry) (status : Status),
    (∀ (p : PortNo) (x : Hold), e.route = some (.port p) → s.ports[p].hold = some x →
      let becomes (hold : Option Hold) : State := { s with
        ports := s.ports.set p { s.ports[p] with hold := hold } }
      (x.phase = .awaitingRead i → s.holdAtEnd i e status = becomes (if status = .ok then
        some { holder := x.holder, phase := .timing s.setup.settings.holdLimit.toNat } else none)) ∧
      (x.phase = .awaitingRelease i → s.holdAtEnd i e status = becomes none)) ∧
    ((∀ (p : PortNo) (x : Hold), e.route = some (.port p) → s.ports[p].hold = some x →
        x.phase ≠ .awaitingRead i ∧ x.phase ≠ .awaitingRelease i) →
      s.holdAtEnd i e status = s)) ∧
  ∀ (s : State) (i : EntryNo) (e : Entry) (p : PortNo) (x : Hold) (status : Status)
      (a : Option Word) (d : Option Detail),
    s.entries[i] = some e → e.origin.isM = false → e.state ≠ .complete → e.state ≠ .orphaned →
    e.route = some (.port p) → s.ports[p].hold = some x →
      (x.phase = .awaitingRead i → (s.endEntry i status a d).ports[p].hold =
        if status = .ok then
          some { holder := x.holder, phase := .timing s.setup.settings.holdLimit.toNat } else none) ∧
      (x.phase = .awaitingRelease i → (s.endEntry i status a d).ports[p].hold = none) ∧
      (s.endEntry i status a d).notes = s.notes

/-- An entry ends at most once: an end finds it FREE, COMPLETE or ORPHANED and does nothing (R47). Ends,
deliveries, reports and what follows in an event change no setting, table, line, round or B link
state. -/
def Obligations.EndsHappenOnceAndKeepTheSetup : Prop :=
  (∀ (s : State) (i : EntryNo) (status : Status) (a : Option Word) (d : Option Detail),
    (∀ e, s.entries[i] = some e → e.state = .complete ∨ e.state = .orphaned) →
      s.endEntry i status a d = s) ∧
  (∀ (s : State) (i : EntryNo) (status : Status) (a : Option Word) (d : Option Detail),
    Untouched s (s.endEntry i status a d)) ∧
  (∀ s : State, Untouched s s.settle)

/-- What `settle`, with which the commands that move entries close, does: a state at rest it leaves as it
stands; it leaves nothing to follow (no guarded write that is due, no read at the head of the
management queue, no ask that could be taken, no CARD RESET command at the head of the P response
list: R64, R133, R143, R151); and while a guarded write is due at its port it ends the oldest such
write GUARDED, with the request-side address of its next piece and no detail (R133). The choice of
the oldest is the model's (log entry 12), and so are that a CARD RESET command at the head comes first
(log entry 9), that the refusals stand before the asks (log entry 31), and that the reads at the head
are taken here at all (log entry 1; all four DESIGN CHOICE). What a settle with the reset due does is
stated in CardResetCommandResetsAtItsDelivery, with an ask to take in AskIsAnsweredOrWalks, with a read
at the head in ManagementReadsAnswerTheObject. -/
def Obligations.SettlingLeavesNothingDue : Prop :=
  (∀ s : State, s.Calm → s.settle = s) ∧
  (∀ s : State, s.TableOk → s.EntriesOk → s.settle.Calm) ∧
  (∀ (s : State) (i : EntryNo) (e : Entry) (x y : List EntryNo), s.TableOk → s.resetDue = false →
    let due (j : EntryNo) (f : Entry) (p : PortNo) : Prop :=
      f.state = .waiting ∧ f.route = some (.port p) ∧ s.ports[p].state = .online ∧
      (f.op = .write ∨ f.op = .writeRelease) ∧ (∃ d, f.decode = some d ∧ d.guarded = true) ∧
      s.guard ≠ .opened ∧
      (∀ (k : EntryNo) (g : Entry) (a b c : List EntryNo), s.order = a ++ k :: b ++ j :: c →
        s.entries[k] = some g → g.origin = f.origin → g.route = some (.port p) →
          g.state ≠ .waiting ∧ g.state ≠ .backoff) ∧
      ∀ h, s.ports[p].hold = some h → h.holder.origin = f.origin
    s.order = x ++ i :: y → s.entries[i] = some e → (∃ p, due i e p) →
    (∀ j ∈ x, ∀ f, s.entries[j] = some f → ∀ p, ¬ due j f p) →
      s.settle =
        (s.endEntry i .guarded (some (e.address + BitVec.ofNat 32 e.piece.1)) none).settle)

/-! ## The backplane -/

/-- A response on the B link that names a FORWARDED entry by node, return stamp and source node, and
that is well formed, ends it with the response's status, data, fault address and detail. Every other
message is discarded without effect: no response, no FORWARDED entry under its stamp, another node
or source node, read data of another length, a standalone card, PORST (R1, R3, R21, R59, R161). The
bits a response is read by are in LayoutsReadBackTheirFields. The model's readings here: a response with
status 15 or without the fault address word it announces is discarded, and bytes that no present bit
announces are ignored (log entry 15); the data of a response with another status than OK are not kept
(log entry 18). -/
def Obligations.BackplaneResponseEndsItsEntry : Prop :=
  (∀ (s : State) (msg : List Byte) (x : BResponse) (i : EntryNo) (e : Entry),
    s.lines.porst = false → s.setup.straps.slot ≠ 0 → parseResponse msg = some x →
    x.node = s.setup.straps.slot → x.stamp.toNat = i.val * 256 + s.rounds[i].toNat →
    s.entries[i] = some e → e.state = .forwarded → e.node = some x.source →
      ((x.body.status ≠ .ok ∨ e.op = .write ∨ e.op = .writeRelease) →
        exec (.bLinkResponse msg) s =
          .next (s.endEntry i x.body.status x.body.faultAddress x.body.detail).settle) ∧
      (∀ data, x.body.status = .ok → e.op = .read ∨ e.op = .readHold → x.body.data = some data →
        data.length = e.length →
          ∃ b : Vector Byte 64, (∀ k : Fin 64, b[k] = data.getD k.val e.buffer[k]) ∧
            exec (.bLinkResponse msg) s =
              .next (({ s with entries := s.entries.set i (some { e with buffer := b }) }).endEntry i
                .ok x.body.faultAddress x.body.detail).settle)) ∧
  (∀ (s : State) (msg : List Byte),
    (s.lines.porst = true ∨ s.setup.straps.slot = 0 ∨ parseResponse msg = none ∨
      ∃ x, parseResponse msg = some x ∧
        (x.node ≠ s.setup.straps.slot ∨ 6144 ≤ x.stamp.toNat ∨
          ∀ i : EntryNo, x.stamp.toNat / 256 = i.val → ∀ e, s.entries[i] = some e →
            e.state ≠ .forwarded ∨ s.rounds[i].toNat ≠ x.stamp.toNat % 256 ∨
              e.node ≠ some x.source ∨
              (x.body.status = .ok ∧ (e.op = .read ∨ e.op = .readHold) ∧
                (x.body.data.getD []).length ≠ e.length))) →
      exec (.bLinkResponse msg) s = .next s)

/-- The remote response timer of a FORWARDED entry: the entry ends NO_ANSWER with the request's address;
without such a timer nothing happens (R21; log entry 5). -/
def Obligations.RemoteTimerExpiryEndsTheForward : Prop :=
  ∀ (s : State) (i : EntryNo),
    (∀ e, s.lines.porst = false → s.entries[i] = some e → e.state = .forwarded →
      e.timer.isSome = true →
        exec (.remoteResponseTimerExpiry i) s =
          .next (s.endEntry i .noAnswer (some e.address) none).settle) ∧
    ((∀ e, s.entries[i] = some e → e.state ≠ .forwarded ∨ e.timer = none) →
      exec (.remoteResponseTimerExpiry i) s = .next s)

/-- B_LINK_UP: on a rack member in DOWN the state becomes UP and BLINK_UP is raised; otherwise only the
link changes (R3, R19). B_LINK_DOWN: what becomes of every entry, of the order, of the holds and
notes and of the messages, before what follows in the event; on a standalone card and in DOWN only
the link changes (R22, R53, R60, R66, R103), and so it does ahead of its event (R54; log entry 17). The
parts of the event stand in the order of R22 (log entry 26). That the deliveries stop at an ended CARD RESET command, and that BLINK_DOWN is raised
before its response, which leaves at the close of the event, is the model's choice (log entry 9). -/
def Obligations.BackplaneLinkChanges : Prop :=
  (∀ s : State, s.lines.porst = false →
     let u := { s with lines := { s.lines with bLink := true } }
     (s.setup.straps.slot ≠ 0 → s.bLinkUp = false →
       exec .bLinkUp s = .next ({ u with bLinkUp := true }.raise .backplane .blinkUp none)) ∧
     (s.setup.straps.slot = 0 ∨ s.bLinkUp = true → exec .bLinkUp s = .next u)) ∧
  (∀ s : State,
     let u := { s with lines := { s.lines with bLink := false, early := s.lines.early.tail } }
     (s.lines.early.head? = some true ∨ s.setup.straps.slot = 0 ∨ s.bLinkUp = false →
       exec .bLinkDown s = .next u) ∧
     (s.lines.early.head? ≠ some true → s.lines.porst = false → s.setup.straps.slot ≠ 0 →
      s.bLinkUp = true → s.TableOk → s.EntriesOk → s.HeadOk →
       let lost (e : Entry) : Entry := { e with
         state := .complete, finalStatus := some .linkDown, faultAddress := none, detail := none
         timer := none }
       let list := s.pList.map fun jf =>
         if jf.2.state = .forwarded then (jf.1, lost jf.2) else jf
       let leaving := list.takeWhile fun jf =>
         decide (jf.2.state = .complete) && !jf.2.isCardReset
       ∃ v : State, exec .bLinkDown s = .next v.settle ∧
         (∀ i : EntryNo, s.entries[i] = none → v.entries[i] = none) ∧
         (∀ i : EntryNo, ∀ e, s.entries[i] = some e →
           (e.origin.isB = true → v.entries[i] =
             if e.state = .issued then some { e with state := .orphaned }
             else if e.state = .orphaned then some e else none) ∧
           (e.origin.isM = true → v.entries[i] = some e) ∧
           (e.origin = .p → v.entries[i] =
             if i ∈ leaving.map Prod.fst then none
             else if e.state = .forwarded then some (lost e) else some e)) ∧
         (∀ p : PortNo, v.ports[p] =
           if s.ports[p].hold.any (fun x => decide (x.holder ≠ .p)) then
             { s.ports[p] with hold := none } else s.ports[p]) ∧
         (∀ source, v.note (.b source) = none) ∧ v.note .p = s.note .p ∧
         let sent : State := { u with
           pSent := if s.lines.pLink = true then
               s.pSent ++ leaving.map fun jf => .response jf.2.response else s.pSent }
         v = { sent.raise .backplane .blinkDown none with
           bLinkUp := false, entries := v.entries, ports := v.ports, notes := v.notes
           order := s.order.filter fun j => (v.entries[j]).isSome }))

/-! ## The target ports -/

/-- The piece plan: contiguous pieces in ascending order that cover the range, each the largest of 1, 2
and 4 bytes that is not larger than the width or the bytes left and divides its address (R78). -/
def Obligations.PiecePlanCoversTheRange : Prop :=
  ∀ (a : Word) (length : Nat) (w : Width),
    ((piecePlan a length w).map Prod.snd).sum = length ∧
    ∀ k dist size, (piecePlan a length w)[k]? = some (dist, size) →
      dist = (((piecePlan a length w).take k).map Prod.snd).sum ∧
      (size = 1 ∨ size = 2 ∨ size = 4) ∧ size ≤ w.bytes ∧ dist + size ≤ length ∧
      (a.toNat + dist) % size = 0 ∧
      ∀ m, m = 1 ∨ m = 2 ∨ m = 4 → m ≤ w.bytes → dist + m ≤ length → (a.toNat + dist) % m = 0 →
        m ≤ size

/-- Which entries of a port are eligible: WAITING at the port, with no older entry of the same origin
WAITING or BACKOFF there, not held back by a hold, and no guarded write while the guard is not OPEN
(R51, R81, R97, R133). -/
def Obligations.EligibleEntriesOfAPort : Prop :=
  ∀ (s : State) (p : PortNo) (i : EntryNo) (e : Entry), s.TableOk → s.entries[i] = some e →
    ((i, e) ∈ s.eligibleAt p ↔
      e.state = .waiting ∧ e.route = some (.port p) ∧
      (∀ (j : EntryNo) (f : Entry) (x y z : List EntryNo), s.order = x ++ j :: y ++ i :: z →
        s.entries[j] = some f → f.origin = e.origin → f.route = some (.port p) →
          f.state ≠ .waiting ∧ f.state ≠ .backoff) ∧
      (∀ h, s.ports[p].hold = some h →
        h.holder.origin = e.origin ∧ (e.op = .readHold → h.phase = .awaitingRead i)) ∧
      (s.guard = .opened ∨ e.op = .read ∨ e.op = .readHold ∨
        ∀ d, e.decode = some d → d.guarded = false))

/-- The arbiter's choice among eligible entries, listed oldest first: the oldest aged entry, else the
oldest B entry, else the oldest P entry, else the oldest move entry (R83). -/
def Obligations.ArbiterChoosesByAgeAndClass : Prop :=
  ∀ (l : List (EntryNo × Entry)) (c : EntryNo × Entry),
    let first (q : Entry → Prop) :=
      ∃ before after, l = before ++ c :: after ∧ q c.2 ∧ ∀ x ∈ before, ¬ q x.2
    let no (q : Entry → Prop) := ∀ x ∈ l, ¬ q x.2
    let aged (e : Entry) := 16 ≤ e.skipCount
    let ofB (e : Entry) := e.origin.isB = true
    let ofP (e : Entry) := e.origin = .p
    let ofM (e : Entry) := e.origin.isM = true
    (l = [] → choose l = none) ∧ (first aged → choose l = some c) ∧
    (no aged → first ofB → choose l = some c) ∧
    (no aged → no ofB → first ofP → choose l = some c) ∧
    (no aged → no ofB → no ofP → first ofM → choose l = some c)

/-- GRANT: the chosen entry is ISSUED with a fresh round, the response timer and its piece on the link;
each other eligible entry has been passed over once more; a READ_HOLD's first piece takes the hold of
an unheld port (R79, R82, R83, R84, R96). Without the conditions of R82 nothing happens (log entry 5). -/
def Obligations.GrantIssuesTheNextPiece : Prop :=
  ∀ (s : State) (p : PortNo),
    (∀ (i : EntryNo) (e : Entry) (d : DecodeRecord) (dist size : Nat), s.lines.porst = false →
      s.ports[p].state = .online → s.issuedCount p < s.setup.portConfig[p].credit → s.TableOk →
      choose (s.eligibleAt p) = some (i, e) → e.decode = some d →
      e.plan[e.nextPiece]? = some (dist, size) →
        let holds := e.origin.isM = false ∧ e.op = .readHold ∧ e.nextPiece = 0 ∧
          s.ports[p].hold = none
        let isWrite : Bool := decide (e.op = .write) || decide (e.op = .writeRelease)
        ∃ v : State, exec (.grant p) s = .next v.settle ∧
          v = { s with entries := v.entries, rounds := s.rounds.set i (s.rounds[i] + 1),
                       ports := v.ports,
                       tSent := s.tSent.set p (s.tSent[p] ++
                         [.piece i (s.rounds[i] + 1) isWrite (d.target + BitVec.ofNat 32 dist) size
                           (if isWrite = true then (e.buffer.toList.drop dist).take size else [])]) } ∧
          v.entries[i] = some { e with
            state := .issued, skipCount := 0,
            timer := some s.setup.portConfig[p].responseLimit } ∧
          (∀ j : EntryNo, j ≠ i → s.entries[j] = none → v.entries[j] = none) ∧
          (∀ (j : EntryNo) (f : Entry), j ≠ i → s.entries[j] = some f →
            ((j, f) ∈ s.eligibleAt p →
              v.entries[j] = some { f with skipCount := min 16 (f.skipCount + 1) }) ∧
            ((j, f) ∉ s.eligibleAt p → v.entries[j] = some f)) ∧
          (¬ holds → v.ports = s.ports) ∧
          (∀ h : Holder, holds → h.origin = e.origin →
            v.ports = s.ports.set p { s.ports[p] with
              hold := some { holder := h, phase := .awaitingRead i } })) ∧
    (s.lines.porst = true ∨ s.ports[p].state ≠ .online ∨
        s.setup.portConfig[p].credit ≤ s.issuedCount p ∨ s.eligibleAt p = [] →
      exec (.grant p) s = .next s)

/-- DONE for an ISSUED piece: read data are placed at the piece's positions, the next piece index
advances, the retry count becomes 0; the entry waits for its next piece or ends OK after its last;
for an ORPHANED entry it is freed. The port's no-answer count becomes 0. A malformed DONE is
discarded (R18, R58, R61, R85). -/
def Obligations.DoneAdvancesOrEndsItsEntry : Prop :=
  ∀ (s : State) (p : PortNo) (msg data : List Byte) (index : BitVec 5) (round : BitVec 8)
      (i : EntryNo) (e : Entry), s.lines.porst = false →
    parseAnswer 8 msg = some (index, round, data) → index.toNat = i.val → s.rounds[i] = round →
    s.entries[i] = some e → e.route = some (.port p) →
      let isRead := e.op = .read ∨ e.op = .readHold
      let formed := (isRead → data.length = e.piece.2) ∧ (¬ isRead → data = [])
      let ports := s.ports.set p { s.ports[p] with noAnswer := 0 }
      (¬ formed → e.state = .issued ∨ e.state = .orphaned →
        exec (.targetDone p msg) s = .next s) ∧
      (formed → e.state = .issued →
        ∃ b : Vector Byte 64,
          (∀ k : Fin 64, b[k] =
            if isRead ∧ e.piece.1 ≤ k.val then data.getD (k.val - e.piece.1) e.buffer[k]
            else e.buffer[k]) ∧
          let v := { s with ports, entries := s.entries.set i (some { e with
              state := .waiting, timer := none, buffer := b, nextPiece := e.nextPiece + 1,
              retryCount := 0 }) }
          (e.nextPiece + 1 < e.piecesTotal → exec (.targetDone p msg) s = .next v.settle) ∧
          (e.piecesTotal ≤ e.nextPiece + 1 →
            exec (.targetDone p msg) s = .next (v.endEntry i .ok none none).settle)) ∧
      (formed → e.state = .orphaned → exec (.targetDone p msg) s =
        .next (State.settle { s with
          ports, entries := s.entries.set i none, order := s.order.filter fun j => j ≠ i }))

/-- DEFER and FAULT for an ISSUED piece: DEFER backs the entry off with one more retry and the retry
interval, or ends it RETRY_OUT when its retries are used up; FAULT ends it TARGET_FAULT; either with
the address of the piece. For an ORPHANED entry either frees it. The port's no-answer count becomes
0 (R58, R61, R86, R88). That bytes after the header word of a DEFER or FAULT are ignored is the
model's reading (log entry 16). -/
def Obligations.DeferAndFaultAnswerThePiece : Prop :=
  ∀ (s : State) (p : PortNo) (msg data : List Byte) (index : BitVec 5) (round : BitVec 8)
      (i : EntryNo) (e : Entry), s.lines.porst = false → index.toNat = i.val →
    s.rounds[i] = round → s.entries[i] = some e → e.route = some (.port p) →
      let v := { s with ports := s.ports.set p { s.ports[p] with noAnswer := 0 } }
      let freed := { v with entries := s.entries.set i none, order := s.order.filter fun j => j ≠ i }
      let address := e.address + BitVec.ofNat 32 e.piece.1
      (parseAnswer 9 msg = some (index, round, data) →
        (e.state = .orphaned → exec (.targetDefer p msg) s = .next freed.settle) ∧
        (e.state = .issued → e.retryCount < s.setup.portConfig[p].retryLimit →
          exec (.targetDefer p msg) s = .next (State.settle { v with
            entries := s.entries.set i (some { e with
              state := .backoff, retryCount := e.retryCount + 1,
              timer := some s.setup.portConfig[p].retryInterval }) })) ∧
        (e.state = .issued → s.setup.portConfig[p].retryLimit ≤ e.retryCount →
          exec (.targetDefer p msg) s =
            .next (v.endEntry i .retryOut (some address) none).settle)) ∧
      (parseAnswer 10 msg = some (index, round, data) →
        (e.state = .orphaned → exec (.targetFault p msg) s = .next freed.settle) ∧
        (e.state = .issued → exec (.targetFault p msg) s =
          .next (v.endEntry i .targetFault (some address) none).settle))

/-- An answer on a target link that is not a DONE, DEFER or FAULT of its row, or that names no piece out
at that port under its round, is discarded; so is every answer while PORST is asserted (R1, R18,
R58). -/
def Obligations.StrayAnswersAreDiscarded : Prop :=
  ∀ (s : State) (p : PortNo) (msg : List Byte) (kind : BitVec 4) (c : Instr),
    (kind = 8 ∧ c = .targetDone p msg) ∨ (kind = 9 ∧ c = .targetDefer p msg) ∨
      (kind = 10 ∧ c = .targetFault p msg) →
    (s.lines.porst = true ∨ parseAnswer kind msg = none ∨
      ∃ index round data, parseAnswer kind msg = some (index, round, data) ∧
        ∀ i : EntryNo, index.toNat = i.val → ∀ e, s.entries[i] = some e →
          e.route ≠ some (.port p) ∨ (e.state ≠ .issued ∧ e.state ≠ .orphaned) ∨
            s.rounds[i] ≠ round) →
      exec c s = .next s

/-- The response, retry and hold timers: the entry ends NO_ANSWER (an ORPHANED one is freed) and the
port's silence is counted and may take it OFFLINE; the backed-off entry waits again; the hold is
broken, noted and raised (R61, R87, R89, R99). The model's readings and choices here: where no such
timer runs, and while PORST is asserted, nothing happens (log entries 5 and 6); guarded writes are
looked at only after the port has gone OFFLINE, where R89 does not order R133 among its steps (log
entry 30, DESIGN CHOICE). -/
def Obligations.PortTimersExpire : Prop :=
  ∀ s : State,
    (∀ (i : EntryNo) (e : Entry) (p : PortNo), s.lines.porst = false → s.entries[i] = some e →
      e.route = some (.port p) → e.timer.isSome = true → e.state = .issued ∨ e.state = .orphaned →
        let v := if e.state = .orphaned then
            { s with entries := s.entries.set i none, order := s.order.filter fun j => j ≠ i }
          else s.endEntry i .noAnswer (some (e.address + BitVec.ofNat 32 e.piece.1)) none
        let n := min 7 (s.ports[p].noAnswer + 1)
        let w := { v with ports := v.ports.set p { v.ports[p] with noAnswer := n } }
        exec (.responseTimerExpiry i) s =
          .next (if s.ports[p].state = .online ∧ s.setup.portConfig[p].offlineThreshold ≤ n then
            w.goOffline p else w).settle) ∧
    (∀ (i : EntryNo) (e : Entry), s.lines.porst = false → s.entries[i] = some e →
      e.state = .backoff → e.timer.isSome = true →
        exec (.retryTimerExpiry i) s = .next (State.settle { s with
          entries := s.entries.set i (some { e with state := .waiting, timer := none }) })) ∧
    (∀ (p : PortNo) (h : Hold) (n : Nat), s.lines.porst = false → s.ports[p].hold = some h →
      h.phase = .timing n →
        let v : State := { s with
          ports := s.ports.set p { s.ports[p] with hold := none }
          notes := s.notes.set h.holder.code (some p) }
        exec (.holdTimerExpiry p) s = .next (v.raise (.port p) .holdBroken none).settle) ∧
    (∀ i : EntryNo, (s.lines.porst = true ∨ ∀ e, s.entries[i] = some e → e.timer = none ∨
        (e.state ≠ .issued ∧ e.state ≠ .orphaned) ∨ ∀ p, e.route ≠ some (.port p)) →
      exec (.responseTimerExpiry i) s = .next s) ∧
    (∀ i : EntryNo, (s.lines.porst = true ∨ ∀ e, s.entries[i] = some e → e.timer = none ∨
        e.state ≠ .backoff) →
      exec (.retryTimerExpiry i) s = .next s) ∧
    (∀ p : PortNo, (s.lines.porst = true ∨ ∀ h, s.ports[p].hold = some h →
        ∀ n, h.phase ≠ .timing n) →
      exec (.holdTimerExpiry p) s = .next s)

/-- What the loss of a port does before attention is raised for it, whether it goes OFFLINE or its link
goes down from ONLINE: its entries end NO_TARGET one after another in ascending arrival order, with
their B responses, P deliveries and move reports in that order, its ORPHANED entries are FREE, a hold
left over is broken and noted, other ports keep their records (R61, R72, R73, R102). -/
def Obligations.LossOfAPortEndsItsEntries : Prop :=
  ∀ (s : State) (p : PortNo) (state : PortState) (kind : AttnKind) (t : State), s.TableOk →
    s.EntriesOk → s.ports[p].state = .online →
    (state = .offline ∧ kind = .portOffline ∧ t = s.goOffline p) ∨
      (state = .absent ∧ kind = .portLost ∧ t = s.loseLink p) →
    ∃ v : State, t = v.raise (.port p) kind none ∧
      v.ports = s.ports.set p { s.ports[p] with state := state, hold := none } ∧
      (∀ (i : EntryNo) (e : Entry), s.entries[i] = some e →
        e.onWaitList p = true ∨ e.pieceOutAt p = true →
          v.entries[i] = none ∨ (e.origin = .p ∧ v.entries[i] = some { e with
            state := .complete, finalStatus := some .noTarget, faultAddress := none, detail := none,
            timer := none })) ∧
      (∀ (i : EntryNo) (e : Entry), s.entries[i] = some e →
        e.onWaitList p = false → e.pieceOutAt p = false →
          v.entries[i] = some e ∨
            (e.origin = .p ∧ e.state = .complete ∧ v.entries[i] = none)) ∧
      (∀ i : EntryNo, s.entries[i] = none → v.entries[i] = none) ∧
      (s.ports[p].hold = none → v.notes = s.notes) ∧
      (∀ h n, s.ports[p].hold = some h → h.phase = .timing n →
        v.notes = s.notes.set h.holder.code (some p)) ∧
      (∀ h i e, s.ports[p].hold = some h →
        h.phase = .awaitingRead i ∨ h.phase = .awaitingRelease i → s.entries[i] = some e →
        e.onWaitList p = true → v.notes = s.notes) ∧
      ((s.waitList p).map Prod.fst = s.order.filter fun j => s.entries[j].any (Entry.onWaitList p)) ∧
      (let ended : State := (s.waitList p).foldl (fun u je => u.endEntry je.1 .noTarget none none)
        { s with ports := s.ports.set p { s.ports[p] with state := state } }
       v.channels = ended.channels ∧ v.pSent = ended.pSent ∧ v.attention = ended.attention) ∧
      v.bSent = (if s.lines.bLink = true then s.bSent ++ (s.waitList p).filterMap fun je =>
          match je.2.origin with
          | .b source => some (.response source s.setup.straps.slot (je.2.returnStamp.getD 0)
              { tag := je.2.tag.getD 0, status := .noTarget, data := none, faultAddress := none,
                detail := none })
          | .p => none
          | .m _ => none
        else s.bSent) ∧
      v.setup = s.setup ∧ v.lines = s.lines ∧ v.rounds = s.rounds ∧ v.tSent = s.tSent ∧
      v.bLinkUp = s.bLinkUp ∧ v.guard = s.guard

/-- T_LINK_UP and T_LINK_DOWN: an ABSENT port becomes ONLINE with no-answer count 0 and no hold; a link
down makes an ONLINE or OFFLINE port ABSENT with its loss raised, and a walk with an ASK there passes
it (R71, R72, R148). That the loss stands before the passing is the model's choice (log entry 13,
DESIGN CHOICE). In the other states of the port, and while PORST is asserted, only the line changes.
What the loss does is stated in LossOfAPortEndsItsEntries, what the passing does in
AskAnswersEndOrMoveTheWalk. -/
def Obligations.TargetLinkChanges : Prop :=
  ∀ (s : State) (p : PortNo),
    let up := { s with lines := { s.lines with tLink := s.lines.tLink.set p true } }
    let down := { s with lines := { s.lines with tLink := s.lines.tLink.set p false } }
    (s.lines.porst = false → s.ports[p].state = .absent →
      exec (.tLinkUp p) s = .next { up with
        ports := s.ports.set p
          { s.ports[p] with state := .online, noAnswer := 0, hold := none } }) ∧
    (s.lines.porst = true ∨ s.ports[p].state ≠ .absent → exec (.tLinkUp p) s = .next up) ∧
    (s.lines.porst = false → s.ports[p].state = .online →
      exec (.tLinkDown p) s = .next ((down.loseLink p).passPort p).settle) ∧
    (s.lines.porst = false → s.ports[p].state = .offline →
      let absent : State := { down with
        ports := s.ports.set p { s.ports[p] with state := .absent } }
      exec (.tLinkDown p) s =
        .next ((absent.raise (.port p) .portLost none).passPort p).settle) ∧
    (s.lines.porst = false → s.ports[p].state = .absent → s.Resting →
      exec (.tLinkDown p) s = .next down) ∧
    (s.lines.porst = true → exec (.tLinkDown p) s = .next down)

/-! ## The move channels -/

/-- The checks of a descriptor in their order, with the detail of the first that fails (R108). -/
def Obligations.DescriptorValidation : Prop :=
  ∀ d : Descriptor,
    let size := match d.unit with | .one => 1 | .two => 2 | .four => 4 | .sixteen => 16
    (d.count = 0 → d.invalid = some 76) ∧
    (d.count ≠ 0 → 5 ≤ d.pace.toNat → d.invalid = some 64) ∧
    (d.count ≠ 0 → d.pace.toNat < 5 → d.source.toNat % size ≠ 0 → d.invalid = some 77) ∧
    (d.count ≠ 0 → d.pace.toNat < 5 → d.source.toNat % size = 0 →
      d.destination.toNat % size ≠ 0 → d.invalid = some 78) ∧
    (d.count ≠ 0 → d.pace.toNat < 5 → d.source.toNat % size = 0 →
      d.destination.toNat % size = 0 → d.link.toNat % 16 ≠ 0 → d.invalid = some 79) ∧
    (d.count ≠ 0 → d.pace.toNat < 5 → d.source.toNat % size = 0 →
      d.destination.toNat % size = 0 → d.link.toNat % 16 = 0 → d.invalid = none)

/-- UNIT_START_DECISION: the unit's read is created at the source cursor, its record appended, units
started, credit and cursor move; a read that its decode ends at once fails the unit. Without the
conditions of R113 there is no decision (R33, R50, R113, R118, R123; log entry 5). -/
def Obligations.UnitStartCreatesARead : Prop :=
  ∀ (s : State) (c : ChannelNo),
    let ch := s.channels[c]
    let size := ch.descriptor.unit.bytes
    let started : Channel := { ch with
      started := ch.started + 1
      paceCredit := if ch.descriptor.pacePort = none then ch.paceCredit else ch.paceCredit - 1
      sourceCursor := if ch.descriptor.sourceFixed = true then ch.sourceCursor
        else ch.sourceCursor + BitVec.ofNat 32 size }
    let can := ch.state = .running ∧ ch.started < ch.descriptor.count ∧ ch.units.length < 2 ∧
      s.ownedM c < 2 ∧ (ch.descriptor.pacePort = none ∨ 1 ≤ ch.paceCredit)
    (∀ (i : EntryNo) (d : DecodeRecord), s.lines.porst = false → can → s.lowestFree = some i →
      s.decodeAddress (.m c) .read ch.sourceCursor = .ok d →
        ∃ b : Vector Byte 64, exec (.unitStartDecision c) s = .next (State.settle { s with
          entries := s.entries.set i (some
            { state := .waiting, origin := .m c, tag := none, returnStamp := none, node := none,
              space := .data, op := .read, address := ch.sourceCursor, length := size,
              route := some (.port d.port), decode := some d,
              piecesTotal := (piecePlan d.target size d.width).length, nextPiece := 0,
              retryCount := 0, skipCount := 0, timer := none, buffer := b, finalStatus := none,
              faultAddress := none, detail := none })
          order := s.order ++ [i], freshCount := s.freshCount + 1
          channels := s.channels.set c { started with
            units := ch.units ++ [{ number := ch.started.toNat, phase := .reading i }] } })) ∧
    (∀ (i : EntryNo) (status : Status) (detail : Option Detail), s.lines.porst = false → can →
      s.lowestFree = some i →
      s.decodeAddress (.m c) .read ch.sourceCursor = .error (status, detail) →
        exec (.unitStartDecision c) s = .next (State.restChannel { s with
          channels := s.channels.set c { started with
            faultStatus := some status, faultAddress := some ch.sourceCursor,
            faultDetail := detail, units := dropLater ch.units,
            state := .stopping .fault } } c).settle) ∧
    (s.lines.porst = true ∨ ¬ can → exec (.unitStartDecision c) s = .next s)

/-- A channel whose unit list has become empty comes to rest: PAUSED from PAUSING, IDLE STOPPED or IDLE
FAULTED with CHANNEL_FAULT raised from STOPPING once it owns no entry (R119, R122, R124). -/
def Obligations.EmptyChannelComesToRest : Prop :=
  ∀ (s : State) (c : ChannelNo),
    let ch := s.channels[c]
    let idle (outcome : RunOutcome) : State := { s with channels := s.channels.set c { ch with
      state := .idle, outcome, paceCredit := 0, fetchAddress := none } }
    (ch.units = [] → ch.state = .pausing →
      s.restChannel c = { s with channels := s.channels.set c { ch with state := .paused } }) ∧
    (ch.units = [] → ch.state = .stopping .stop → s.ownedM c = 0 →
      s.restChannel c = idle .stopped) ∧
    (∀ status a, ch.units = [] → ch.state = .stopping .fault → s.ownedM c = 0 →
      ch.faultStatus = some status → ch.faultAddress = some a →
        s.restChannel c = (idle .faulted).raise (.channel c) .channelFault (some (status, a))) ∧
    (ch.units ≠ [] ∨ (ch.state ≠ .pausing ∧ ∀ cause, ch.state ≠ .stopping cause) ∨
        (s.ownedM c ≠ 0 ∧ ch.state ≠ .pausing) →
      s.restChannel c = s)

/-- What a channel does with the report of a unit's entry. An OK read creates the unit's WRITE of the unit
size at the destination cursor, with the unit's bytes, if its record is first, and is STAGED if it is
second (R114). An OK write moves the counts and the cursor, lets a STAGED successor write, and
completes the descriptor with the last unit, by state and link (R115, R116, R122). A failure, a
write's decode included, sets the fault fields, drops or discards the other records and stops the
channel with cause FAULT; a second failure leaves the fault fields (R123, R124). A DISCARDING
record's report drops the record (R114, R122, R124). -/
def Obligations.UnitReportsMoveTheChannel : Prop :=
  ∀ (s : State) (c : ChannelNo) (k : EntryNo) (a : Word) (status : Status) (fa : Option Word)
      (d : Option Detail) (data : List Byte),
    let ch := s.channels[c]
    let report := s.report c k a status fa d data
    let active := ch.state = .running ∨ ch.state = .pausing
    let stopping := ch.state = .stopping .stop
    let with' (x : Channel) : State := { s with channels := s.channels.set c x }
    let unit (n : Nat) (phase : UnitPhase) : UnitRecord := { number := n, phase }
    let moved : Channel := { ch with
      remaining := ch.remaining - 1
      destinationCursor := if ch.descriptor.destinationFixed = true then ch.destinationCursor
        else ch.destinationCursor + BitVec.ofNat 32 ch.descriptor.unit.bytes }
    let fault (units : List UnitRecord) : Channel := { ch with
      faultStatus := some status, faultAddress := some (fa.getD a), faultDetail := d, units,
      state := .stopping .fault }
    let entry (op : Op) (address : Word) (length : Nat) (w : DecodeRecord) (b : Vector Byte 64) :
        Entry :=
      { state := .waiting, origin := .m c, tag := none, returnStamp := none, node := none,
        space := .data, op, address, length, route := some (.port w.port), decode := some w,
        piecesTotal := (piecePlan w.target length w.width).length, nextPiece := 0,
        retryCount := 0, skipCount := 0, timer := none, buffer := b, finalStatus := none,
        faultAddress := none, detail := none }
    let writes (x : Channel) (n : Nat) (rest : List UnitRecord) (bytes : List Byte) : Prop :=
      (∀ i w, s.ownedM c < 2 → s.lowestFree = some i →
        s.decodeAddress (.m c) .write x.destinationCursor = .ok w →
          ∃ b : Vector Byte 64, begins b bytes ∧ report = { s with
            entries := s.entries.set i (some
              (entry .write x.destinationCursor ch.descriptor.unit.bytes w b))
            order := s.order ++ [i], freshCount := s.freshCount + 1
            channels := s.channels.set c { x with units := unit n (.writing i) :: rest } }) ∧
      (∀ i st detail, s.ownedM c < 2 → s.lowestFree = some i →
        s.decodeAddress (.m c) .write x.destinationCursor = .error (st, detail) →
          report = (with' { x with
            faultStatus := some st, faultAddress := some x.destinationCursor, faultDetail := detail
            units := dropLater rest, state := .stopping .fault }).restChannel c)
    let done : Channel := { moved with units := [], completed := ch.completed + 1 }
    let notified : State :=
      if ch.descriptor.notify = true then (with' done).raise (.channel c) .channelDone none
      else with' done
    let closes (x : Channel) : State := { notified with channels := notified.channels.set c x }
    let idle (outcome : RunOutcome) : Channel := { done with
      state := .idle, outcome, paceCredit := 0, fetchAddress := none }
    let link := ch.descriptor.link
    (∀ n rest, ch.units = unit n (.reading k) :: rest → active → status = .ok →
      writes ch n rest data) ∧
    (∀ u n, ch.units = [u, unit n (.reading k)] → u.owns k = false → active → status = .ok →
      report = with' { ch with units := [u, unit n (.staged data)] }) ∧
    (∀ n, ch.units = [unit n (.writing k)] → ch.state = .running → ch.remaining ≠ 1 →
      status = .ok → report = with' { moved with units := [] }) ∧
    (∀ n, ch.units = [unit n (.writing k)] → status = .ok →
      (ch.state = .pausing ∨ stopping) ∧ ch.remaining ≠ 1 ∨ ch.state = .stopping .fault →
        report = (with' { moved with units := [] }).restChannel c) ∧
    (∀ n m bytes, ch.units = [unit n (.writing k), unit m (.staged bytes)] → active ∨ stopping →
      ch.remaining ≠ 1 → status = .ok → writes moved m [] bytes) ∧
    (∀ n m j, ch.units = [unit n (.writing k), unit m (.reading j)] → active →
      ch.remaining ≠ 1 → status = .ok → report = with' { moved with units := [unit m (.reading j)] }) ∧
    (∀ n m j, ch.units = [unit n (.writing k), unit m (.discarding j)] → status = .ok →
      stopping ∧ ch.remaining ≠ 1 ∨ ch.state = .stopping .fault →
        report = with' { moved with units := [unit m (.discarding j)] }) ∧
    (∀ n, ch.units = [unit n (.writing k)] → ch.remaining = 1 → status = .ok →
      (active → link = 0 → report = closes (idle .complete)) ∧
      (ch.state = .pausing → link ≠ 0 → report = closes { done with state := .paused }) ∧
      (stopping → report = closes (idle .stopped)) ∧
      (∀ i, ch.state = .running → link ≠ 0 → s.ownedM c < 2 → s.lowestFree = some i →
        (∀ w, s.decodeAddress (.m c) .read link = .ok w → ∃ b : Vector Byte 64,
          report = { closes { done with state := .fetching, fetchAddress := some link } with
            entries := s.entries.set i (some (entry .read link 16 w b))
            order := s.order ++ [i], freshCount := s.freshCount + 1 }) ∧
        (∀ st detail, s.decodeAddress (.m c) .read link = .error (st, detail) →
          report = (closes { idle .faulted with
            faultStatus := some st, faultAddress := some link, faultDetail := detail }).raise
              (.channel c) .channelFault (some (st, link))))) ∧
    (∀ n rest, status ≠ .ok → ch.units = unit n (.reading k) :: rest → active →
      report = (with' (fault (dropLater rest))).restChannel c) ∧
    (∀ n rest, status ≠ .ok → ch.units = unit n (.writing k) :: rest → active ∨ stopping →
      report = (with' (fault (dropLater rest))).restChannel c) ∧
    (∀ u n, status ≠ .ok → ch.units = [u, unit n (.reading k)] → u.owns k = false → active →
      report = (with' (fault (dropLater [u]))).restChannel c) ∧
    (∀ n rest, status ≠ .ok → ch.units = unit n (.writing k) :: rest →
      ch.state = .stopping .fault → report = (with' { ch with units := rest }).restChannel c) ∧
    (∀ n x y, ch.units = x ++ unit n (.discarding k) :: y → (∀ u ∈ x, u.owns k = false) →
      report = (with' { ch with units := x ++ y }).restChannel c) ∧
    (∀ n j bytes, dropLater [] = [] ∧
      dropLater [unit n (.reading j)] = [unit n (.discarding j)] ∧
      dropLater [unit n (.staged bytes)] = [] ∧
      dropLater [unit n (.writing j)] = [unit n (.writing j)] ∧
      dropLater [unit n (.discarding j)] = [unit n (.discarding j)])

/-- PACE_PULSE: the pulse credits the lowest-numbered channel in RUNNING, PAUSING or PAUSED that the port
paces, saturating at 15, or is dropped (R117). -/
def Obligations.PacePulseCreditsTheLowestChannel : Prop :=
  ∀ (s : State) (p : PortNo), s.lines.porst = false →
    let qualifies (c : ChannelNo) :=
      (s.channels[c].state = .running ∨ s.channels[c].state = .pausing ∨
        s.channels[c].state = .paused) ∧ s.channels[c].descriptor.pace.toNat = p.val + 1
    ((∀ c, ¬ qualifies c) → exec (.pacePulse p) s = .next s) ∧
    ∀ c, qualifies c → (∀ x, x < c → ¬ qualifies x) →
      exec (.pacePulse p) s = .next { s with
        channels := s.channels.set c { s.channels[c] with
          paceCredit := min 15 (s.channels[c].paceCredit + 1) } }

/-! ## The management block -/

/-- Which row takes a write, by its offset and its word, a read-only or unassigned offset belonging to
MGMT_WRITE (R158, section 9.5); a write that is not at the head of the management request queue, or is
of another row, is not taken, and none is while PORST is asserted (log entries 1 and 5); a B write
while remote management is off is DENIED before any other check (R150, R152). -/
def Obligations.ManagementWritesAreTakenByTheirRow : Prop :=
  (∀ e : Entry,
    let a := e.address.toNat
    let code := e.word.toNat % 256
    let other := a % 4 ≠ 0 ∨ a < 0x40 ∨ (0x50 < a ∧ a < 0x80) ∨ (0x84 < a ∧ a < 0x100) ∨
      (0x100 ≤ a ∧ a < 0x140 ∧ a / 4 % 4 = 3) ∨ (0x140 ≤ a ∧ a < 0x200) ∨
      (0x240 ≤ a ∧ a < 0x400) ∨ 0x600 ≤ a
    (other → e.mgmtRow = .mgmtWrite) ∧
    (a = 0x80 → e.mgmtRow =
      if code = 1 then .commit else if code = 2 then .copyBack else if code = 3 then .portResume
      else if code = 4 then .portOffline
      else if code = 5 then
        (if e.word.getLsbD 12 = true then .channelStartFetch else .channelStartLoaded)
      else if code = 6 then .channelPause else if code = 7 then .channelContinue
      else if code = 8 then .channelStop else if code = 9 then .cardResetCommand
      else .mgmtWrite) ∧
    (a % 4 = 0 → 0x400 ≤ a → a < 0x600 → e.mgmtRow = .stagingWrite) ∧
    (a % 4 = 0 → 0x200 ≤ a → a < 0x240 → e.mgmtRow = .loadedDescriptorWrite) ∧
    (a % 4 = 0 → 0x100 ≤ a → a < 0x140 → a / 4 % 4 ≠ 3 → e.mgmtRow = .portConfigurationWrite) ∧
    (a = 0x44 ∨ a = 0x48 ∨ a = 0x4C → e.mgmtRow = .settingWrite) ∧
    (a = 0x40 → e.mgmtRow = .remoteManagementWrite) ∧
    (a = 0x50 → e.mgmtRow = .attentionEnablesWrite) ∧
    (a = 0x84 → e.mgmtRow = .commandArgumentWrite)) ∧
  (∀ (s : State) (row : MgmtRow),
    (s.lines.porst = true ∨ s.mgmtQueue = [] ∨
      ∃ i e rest, s.mgmtQueue = (i, e) :: rest ∧ (e.op ≠ .write ∨ e.mgmtRow ≠ row)) →
        exec row.command s = .next s) ∧
  (∀ (s : State) (row : MgmtRow) (i : EntryNo) (e : Entry) (rest : List (EntryNo × Entry)),
    s.lines.porst = false → s.mgmtQueue = (i, e) :: rest → e.op = .write → e.mgmtRow = row →
    e.origin.isB = true → s.setup.settings.remoteManagement = false →
      exec row.command s = .next (s.answered i .denied none))

/-- A management read: DENIED for the B origin while remote management is off, UNMAPPED where the map
assigns no object, DENIED for the command word, and otherwise OK with the object's word. It is taken
when it is at the head of the queue, of either origin and with any other entries live: with its
acceptance (AcceptedDataRequestWaitsAtItsPort) or after the end of the one before it, once the other
effects of that event are done (R150, R151, R154; log entry 1). Which object stands at which byte offset,
the whole map, and that every other offset is assigned to none. And what each object reads as, field by
field: settings, generation with the earlier-generation count, occupancy, port, channel, attention, guard and
backplane status, descriptors and windows (R19, R34, R35, R41, R49, R70, R127, R128, R140, R155 to
R157, R162 to R165, section 9.5). -/
def Obligations.ManagementReadsAnswerTheObject : Prop :=
  (∀ (s : State) (e : Entry),
    let off := e.origin.isB = true ∧ s.setup.settings.remoteManagement = false
    (off → s.serveRead e = .error .denied) ∧
    (¬ off → objectAt e.address.toNat = none → s.serveRead e = .error .unmapped) ∧
    (¬ off → e.address = 0x80 → s.serveRead e = .error .denied) ∧
    (∀ o, ¬ off → objectAt e.address.toNat = some o → o ≠ .command →
      ∃ w, s.readObject o = some w ∧ s.serveRead e = .ok w)) ∧
  (∀ (s : State) (msg : List Byte) (r : Request) (o : MgmtObject), s.Running → s.TableOk →
    s.order = [] → parseRequest .p msg = some r → s.refusal .p .p r = none → r.space = some .mgmt →
    r.node = 0 ∨ r.node = s.setup.straps.slot → r.op = .read →
    objectAt r.address.toNat = some o → o ≠ .command →
    o ≠ .occupancy →
      ∃ w, s.readObject o = some w ∧ exec (.requestOnPLink msg) s = .next { s with
        freshCount := s.freshCount + 1
        pSent := if s.lines.pLink = true then
            s.pSent ++ [.response { tag := r.tag, status := .ok, data := some (wordBytes w),
                                    faultAddress := none, detail := none }]
          else s.pSent }) ∧
  (∀ (s : State) (i : EntryNo) (e : Entry) (rest : List (EntryNo × Entry)), s.TableOk →
    s.EntriesOk → s.resetDue = false → (∀ j f, (j, f) ∈ s.table → s.guardDue j f = false) →
    s.attention.walk.isSome = true ∨ s.asks = [] → s.mgmtQueue = (i, e) :: rest → e.op = .read →
      (∀ status, s.serveRead e = .error status →
        s.settle = (s.endEntry i status none none).settle) ∧
      (∀ w, s.serveRead e = .ok w → ∃ b : Vector Byte 64, b.toList.take 4 = wordBytes w ∧
        s.settle = (State.endEntry { s with
          entries := s.entries.set i (some { e with buffer := b }) } i .ok none none).settle)) ∧
  (let offset (o : MgmtObject) : Nat :=
     match o with
     | .identity0 => 0x000 | .identity1 => 0x004 | .backplane => 0x010
     | .remoteManagement => 0x040 | .nodeMask => 0x044 | .timers => 0x048 | .remoteLimit => 0x04C
     | .attentionEnables => 0x050 | .command => 0x080 | .argument => 0x084
     | .generation => 0x0C0 | .occupancy => 0x0C4 | .attentionStatus => 0x0C8 | .guardState => 0x0CC
     | .portConfig n k => 0x100 + 16 * n.val + 4 * k.val
     | .portStatus n k => 0x140 + 8 * n.val + 4 * k.val
     | .descriptor n k => 0x200 + 16 * n.val + 4 * k.val
     | .channelStatus n k => 0x240 + 16 * n.val + 4 * k.val
     | .staging i k => 0x400 + 16 * i.val + 4 * k.val
     | .live i k => 0x600 + 16 * i.val + 4 * k.val
   (∀ o, objectAt (offset o) = some o) ∧
   (∀ p : PortNo, objectAt (0x10C + 16 * p.val) = none) ∧
   ∀ a, (∀ o, a ≠ offset o) → objectAt a = none) ∧
  (∀ s : State, s.TableOk → s.QuotaOk → s.EntriesOk → s.IssuedOk → s.ConfigOk → s.RangesOk →
    s.attention.Ok →
    let reads (o : MgmtObject) (n : Nat) : Prop := s.readObject o = some (BitVec.ofNat 32 n)
    let t := s.setup.settings
    let count (q : Entry → Bool) : Nat := (s.table.filter fun ie => q ie.2).length
    let atPort (p : PortNo) (e : Entry) : Bool := decide (e.route = some (.port p)) &&
      (decide (e.state = .issued) || decide (e.state = .orphaned))
    let earlier (e : Entry) : Bool :=
      (decide (e.state = .waiting) || decide (e.state = .issued) || decide (e.state = .backoff) ||
        decide (e.state = .orphaned)) &&
      e.decode.any fun d => decide (d.generation ≠ s.setup.generation)
    let ownedBy (c : ChannelNo) : Nat := count fun e => decide (e.origin = .m c)
    let ofP : Nat := count fun e => decide (e.origin = .p)
    let rights (x : Rights) : Nat :=
      match x with | .none => 0 | .read => 1 | .readWrite => 2 | .noRight => 3
    let status (x : Status) : Nat :=
      match x with
      | .ok => 0 | .full => 1 | .form => 2 | .unmapped => 3 | .denied => 4 | .noRoute => 5
      | .noTarget => 6 | .targetFault => 7 | .noAnswer => 8 | .retryOut => 9 | .guarded => 10
      | .holdBroken => 11 | .linkDown => 12 | .busy => 13 | .aborted => 14
    reads .identity0 0x10F32416 ∧
    reads .identity1 (s.setup.straps.slot.toNat + 2 ^ 4 * s.setup.straps.bootp.toNat +
      2 ^ 8 * s.setup.straps.bootw.toNat) ∧
    reads .backplane s.bLinkUp.toNat ∧ reads .remoteManagement t.remoteManagement.toNat ∧
    reads .nodeMask t.nodeMask.toNat ∧
    reads .timers (t.holdLimit.toNat + 2 ^ 8 * t.holdOff.toNat) ∧
    reads .remoteLimit t.remoteLimit.toNat ∧
    reads .attentionEnables (t.kindEnables.toNat + 2 ^ 16 * t.portEnables.toNat) ∧
    reads .argument t.argument.toNat ∧ s.readObject .command = none ∧
    reads .generation (s.setup.generation.toNat + 2 ^ 16 * count earlier) ∧
    reads .occupancy (ofP + 2 ^ 4 * (count fun e => e.origin.isB) + 2 ^ 8 * ownedBy 0 +
      2 ^ 10 * ownedBy 1 + 2 ^ 12 * ownedBy 2 + 2 ^ 14 * ownedBy 3 +
      2 ^ 16 * (count fun e => decide (e.state = .orphaned)) + 2 ^ 20 * ofP) ∧
    reads .attentionStatus (s.attention.queue.length + 2 ^ 8 * s.attention.overflow.toNat) ∧
    reads .guardState
      (match s.guard with | .opened => 0 | .guarded => 1 | .releasing _ => 2) ∧
    (∀ p : PortNo,
      let x := s.setup.portConfig[p]
      let width := match x.width with | .one => 1 | .two => 2 | .four => 4
      reads (.portConfig p 0) (width + 2 ^ 4 * x.credit + 2 ^ 8 * x.offlineThreshold +
        2 ^ 12 * x.retryLimit) ∧
      reads (.portConfig p 1) x.responseLimit ∧ reads (.portConfig p 2) x.retryInterval ∧
      reads (.portStatus p 0)
        ((match s.ports[p].state with | .absent => 0 | .online => 1 | .offline => 2) +
          2 ^ 4 * count (atPort p) + 2 ^ 8 * s.ports[p].noAnswer) ∧
      reads (.portStatus p 1)
        (match s.ports[p].hold with
          | none => 0
          | some h => match h.holder with | .p => 16 | .b source => source.toNat)) ∧
    (∀ c : ChannelNo,
      let ch := s.channels[c]
      let d := ch.descriptor
      let unit := match d.unit with | .one => 0 | .two => 1 | .four => 2 | .sixteen => 3
      reads (.descriptor c 0) d.source.toNat ∧ reads (.descriptor c 1) d.destination.toNat ∧
      reads (.descriptor c 2) (d.count.toNat + 2 ^ 16 * unit + 2 ^ 18 * d.sourceFixed.toNat +
        2 ^ 19 * d.destinationFixed.toNat + 2 ^ 20 * d.pace.toNat + 2 ^ 23 * d.notify.toNat) ∧
      reads (.descriptor c 3) d.link.toNat ∧
      reads (.channelStatus c 0)
        ((match ch.state with
            | .idle => 0 | .fetching => 1 | .running => 2 | .pausing => 3 | .paused => 4
            | .stopping _ => 5) +
          2 ^ 4 * (match ch.outcome with
            | .none => 0 | .complete => 1 | .stopped => 2 | .faulted => 3) +
          2 ^ 8 * ch.units.length + 2 ^ 12 * ch.paceCredit +
          2 ^ 16 * (match ch.faultStatus with | none => 15 | some x => status x) +
          2 ^ 24 * (match ch.faultDetail with | none => 255 | some x => x.toNat)) ∧
      reads (.channelStatus c 1) (ch.remaining.toNat + 2 ^ 16 * ch.completed.toNat) ∧
      reads (.channelStatus c 2) (match ch.faultAddress with | none => 0 | some x => x.toNat) ∧
      reads (.channelStatus c 3) ch.destinationCursor.toNat) ∧
    (∀ (i : Fin 32) (k : Fin 4), s.readObject (.staging i k) = some s.setup.staging[i][k]) ∧
    (∀ i : Fin 32,
      let w := s.setup.live[i]
      reads (.live i 0) (w.base.toNat + 2 ^ 31 * w.valid.toNat) ∧
      reads (.live i 1) w.limit.toNat ∧
      reads (.live i 2) (w.targetPage.toNat + 2 ^ 28 * w.port.val) ∧
      reads (.live i 3) (rights w.localRights + 2 ^ 2 * rights w.remoteRights +
        2 ^ 8 * w.guarded.toNat)))

/-- COMMIT: with every staging entry sound, the live table becomes the fields of the staging words and
the generation advances; else FORM with the lowest bad index and nothing changed. Which bits of the
staging words make which field, whatever their other bits, is in LayoutsReadBackTheirFields. COPY BACK: each
staging word becomes the live word as it reads (R36, R37, R38, R40, R162). -/
def Obligations.CommitAndCopyBackCopyTheTables : Prop :=
  ∀ (s : State) (i : EntryNo) (e : Entry),
    let bad (k : Fin 32) := s.setup.staging[k][(0 : Fin 4)].getLsbD 31 = true ∧
      ((s.setup.staging[k][(1 : Fin 4)].toNat % 2 ^ 20 <
          s.setup.staging[k][(0 : Fin 4)].toNat % 2 ^ 20) ∨
        s.setup.staging[k][(3 : Fin 4)].toNat % 4 = 3 ∨
        s.setup.staging[k][(3 : Fin 4)].toNat / 4 % 4 = 3)
    (s.Takes .commit i e → (∀ k, ¬ bad k) →
      exec .commit s = .next (State.answered { s with setup := { s.setup with
        live := s.setup.staging.map Window.ofWords
        generation := s.setup.generation + 1 } } i .ok none)) ∧
    (∀ k, s.Takes .commit i e → bad k → (∀ j, j < k → ¬ bad j) →
      exec .commit s = .next (s.answered i .form (some (BitVec.ofNat 8 k.val)))) ∧
    (s.Takes .copyBack i e →
      exec .copyBack s = .next (State.answered { s with setup := { s.setup with
        staging := s.setup.live.map Window.words } } i .ok none))

/-- PORT RESUME of an OFFLINE port sends PORT RESET and puts it ONLINE with no-answer count 0; PORT
OFFLINE of an ONLINE port takes it offline; each is BUSY in any other state of the port (R73, R74,
R75, R148, R158). That the effect, with the ends and the attention of goOffline and the passing of the
walk, stands before the command's own answer is the model's reading (log entry 14); that the port is
ONLINE before the walk passes it is its choice (log entry 13). -/
def Obligations.PortCommandsActOnTheirPort : Prop :=
  ∀ (s : State) (i : EntryNo) (e : Entry) (p : PortNo), p.val = e.word.toNat / 256 % 4 →
    (s.Takes .portResume i e → s.ports[p].state = .offline →
      let v : State := { s with
        ports := s.ports.set p { s.ports[p] with state := .online, noAnswer := 0 }
        tSent := s.tSent.set p (s.tSent[p] ++ [.portReset]) }
      exec .portResume s = .next ((v.passPort p).answered i .ok none)) ∧
    (s.Takes .portResume i e → s.ports[p].state ≠ .offline →
      exec .portResume s = .next (s.answered i .busy none)) ∧
    (s.Takes .portOffline i e → s.ports[p].state = .online →
      exec .portOffline s = .next ((s.goOffline p).answered i .ok none)) ∧
    (s.Takes .portOffline i e → s.ports[p].state ≠ .online →
      exec .portOffline s = .next (s.answered i .busy none))

/-- CHANNEL START of an IDLE channel: the loaded form makes a valid descriptor current and the channel
RUNNING, or answers FORM; the fetch form creates a 16-byte read at the command argument and the
channel is FETCHING, or faults when its decode ends it, or answers FORM for a misaligned argument.
In any other state BUSY (R110, R111, R112, R157). That CHANNEL_FAULT and its notice stand before the
command's own answer is the model's reading (log entry 14). -/
def Obligations.ChannelStartsRunOrFetch : Prop :=
  ∀ (s : State) (i : EntryNo) (e : Entry) (c : ChannelNo), c.val = e.word.toNat / 256 % 4 →
    let ch := s.channels[c]
    let a := s.setup.settings.argument
    let cleared : Channel := { ch with
      outcome := .none, faultStatus := none, faultAddress := none, faultDetail := none,
      remaining := 0, started := 0, units := [], paceCredit := 0 }
    (s.Takes .channelStartLoaded i e → ch.state = .idle → ch.descriptor.invalid = none →
      exec .channelStartLoaded s = .next (State.answered { s with
        channels := s.channels.set c { cleared with
          remaining := ch.descriptor.count, sourceCursor := ch.descriptor.source,
          destinationCursor := ch.descriptor.destination, state := .running } } i .ok none)) ∧
    (∀ d, s.Takes .channelStartLoaded i e → ch.state = .idle → ch.descriptor.invalid = some d →
      exec .channelStartLoaded s = .next (s.answered i .form (some d))) ∧
    (s.Takes .channelStartLoaded i e → ch.state ≠ .idle →
      exec .channelStartLoaded s = .next (s.answered i .busy none)) ∧
    (∀ k d, s.Takes .channelStartFetch i e → ch.state = .idle → a.toNat % 16 = 0 →
      s.ownedM c < 2 → s.lowestFree = some k → s.decodeAddress (.m c) .read a = .ok d →
        ∃ b : Vector Byte 64, exec .channelStartFetch s = .next (State.answered { s with
          entries := s.entries.set k (some
            { state := .waiting, origin := .m c, tag := none, returnStamp := none, node := none,
              space := .data, op := .read, address := a, length := 16,
              route := some (.port d.port), decode := some d,
              piecesTotal := (piecePlan d.target 16 d.width).length, nextPiece := 0,
              retryCount := 0, skipCount := 0, timer := none, buffer := b, finalStatus := none,
              faultAddress := none, detail := none })
          order := s.order ++ [k], freshCount := s.freshCount + 1
          channels := s.channels.set c { cleared with
            state := .fetching, fetchAddress := some a } } i .ok none)) ∧
    (∀ k status d, s.Takes .channelStartFetch i e → ch.state = .idle → a.toNat % 16 = 0 →
      s.ownedM c < 2 → s.lowestFree = some k →
      s.decodeAddress (.m c) .read a = .error (status, d) →
        let v : State := { s with
          channels := s.channels.set c { cleared with
            state := .idle, outcome := .faulted, faultStatus := some status,
            faultAddress := some a, faultDetail := d, fetchAddress := none } }
        exec .channelStartFetch s =
          .next ((v.raise (.channel c) .channelFault (some (status, a))).answered i .ok none)) ∧
    (s.Takes .channelStartFetch i e → ch.state = .idle → a.toNat % 16 ≠ 0 →
      exec .channelStartFetch s = .next (s.answered i .form (some 79))) ∧
    (s.Takes .channelStartFetch i e → ch.state ≠ .idle →
      exec .channelStartFetch s = .next (s.answered i .busy none))

/-- What a channel does with the report of its fetch: valid words become the current descriptor, invalid
ones fault it FORM, a failed fetch faults it with the report's status; under a STOP the report is
discarded (R112, R122). -/
def Obligations.FetchReportsLoadTheDescriptor : Prop :=
  ∀ (s : State) (c : ChannelNo) (k : EntryNo) (a fetch : Word) (status : Status) (fa : Option Word)
      (d : Option Detail) (data : List Byte),
    let ch := s.channels[c]
    let loaded : Descriptor := Descriptor.ofBytes data
    let fault (x : Channel) (st : Status) (at' : Word) (detail : Option Detail) : State :=
      State.raise { s with channels := s.channels.set c { x with
        state := .idle, outcome := .faulted, paceCredit := 0, fetchAddress := none,
        faultStatus := some st, faultAddress := some at', faultDetail := detail } }
        (.channel c) .channelFault (some (st, at'))
    ch.units = [] → ch.fetchAddress = some fetch →
      (ch.state = .fetching → status = .ok → loaded.invalid = none →
        s.report c k a status fa d data = { s with channels := s.channels.set c { ch with
          descriptor := loaded, fetchAddress := none, remaining := loaded.count, started := 0,
          sourceCursor := loaded.source, destinationCursor := loaded.destination, units := [],
          paceCredit := 0, state := .running } }) ∧
      (∀ check, ch.state = .fetching → status = .ok → loaded.invalid = some check →
        s.report c k a status fa d data =
          fault { ch with descriptor := loaded } .form fetch (some check)) ∧
      (ch.state = .fetching → status ≠ .ok →
        s.report c k a status fa d data = fault ch status (fa.getD fetch) d) ∧
      (ch.state = .stopping .stop → s.report c k a status fa d data =
        State.restChannel { s with channels := s.channels.set c { ch with
          fetchAddress := none } } c)

/-- CHANNEL PAUSE, CONTINUE and STOP, state by state, and BUSY elsewhere (R119, R120, R121). CONTINUE of a
channel paused with no units remaining fetches the descriptor at the link address: the fetch entry is
given and the channel FETCHING, or the channel faults and CHANNEL_FAULT is raised when the decode ends
the fetch (R50, R112, R120). That CHANNEL_FAULT and its notice stand before the command's own answer is
the model's reading (log entry 14). -/
def Obligations.ChannelPauseContinueStop : Prop :=
  ∀ (s : State) (i : EntryNo) (e : Entry) (c : ChannelNo), c.val = e.word.toNat / 256 % 4 →
    let ch := s.channels[c]
    let with' (x : Channel) : State := { s with channels := s.channels.set c x }
    let stopped : Channel := { ch with
      state := .idle, outcome := .stopped, paceCredit := 0, fetchAddress := none }
    let active := ch.state = .running ∨ ch.state = .pausing
    (s.Takes .channelPause i e → ch.state = .running →
      exec .channelPause s = .next ((with' { ch with
        state := if ch.units = [] then .paused else .pausing }).answered i .ok none)) ∧
    (s.Takes .channelPause i e → ch.state ≠ .running →
      exec .channelPause s = .next (s.answered i .busy none)) ∧
    (s.Takes .channelContinue i e →
      ch.state = .pausing ∨ (ch.state = .paused ∧ ch.remaining ≠ 0) →
        exec .channelContinue s =
          .next ((with' { ch with state := .running }).answered i .ok none)) ∧
    (s.Takes .channelContinue i e → ch.state = .paused → ch.remaining = 0 →
      exec .channelContinue s = .next ((s.startFetch c ch.descriptor.link).answered i .ok none)) ∧
    (∀ k d, s.Takes .channelContinue i e → ch.state = .paused → ch.remaining = 0 →
      s.ownedM c < 2 → s.lowestFree = some k →
      s.decodeAddress (.m c) .read ch.descriptor.link = .ok d →
        ∃ b : Vector Byte 64, exec .channelContinue s = .next (State.answered { s with
          entries := s.entries.set k (some
            { state := .waiting, origin := .m c, tag := none, returnStamp := none, node := none,
              space := .data, op := .read, address := ch.descriptor.link, length := 16,
              route := some (.port d.port), decode := some d,
              piecesTotal := (piecePlan d.target 16 d.width).length, nextPiece := 0,
              retryCount := 0, skipCount := 0, timer := none, buffer := b, finalStatus := none,
              faultAddress := none, detail := none })
          order := s.order ++ [k], freshCount := s.freshCount + 1
          channels := s.channels.set c { ch with
            state := .fetching, fetchAddress := some ch.descriptor.link } } i .ok none)) ∧
    (∀ k status d, s.Takes .channelContinue i e → ch.state = .paused → ch.remaining = 0 →
      s.ownedM c < 2 → s.lowestFree = some k →
      s.decodeAddress (.m c) .read ch.descriptor.link = .error (status, d) →
        let v := with' { ch with
          state := .idle, outcome := .faulted, paceCredit := 0, fetchAddress := none
          faultStatus := some status, faultAddress := some ch.descriptor.link, faultDetail := d }
        exec .channelContinue s = .next ((v.raise (.channel c) .channelFault
          (some (status, ch.descriptor.link))).answered i .ok none)) ∧
    (s.Takes .channelContinue i e → ch.state ≠ .pausing → ch.state ≠ .paused →
      exec .channelContinue s = .next (s.answered i .busy none)) ∧
    (s.Takes .channelStop i e → ch.state = .fetching →
      exec .channelStop s =
        .next ((with' { ch with state := .stopping .stop }).answered i .ok none)) ∧
    (s.Takes .channelStop i e → ch.state = .paused ∨ (active ∧ ch.units = []) →
      exec .channelStop s = .next ((with' stopped).answered i .ok none)) ∧
    (s.Takes .channelStop i e → active → ch.units ≠ [] →
      exec .channelStop s = .next ((with' { ch with
        state := .stopping .stop, units := stopUnits ch.units }).answered i .ok none)) ∧
    (∀ n m j k b,
      let reading (n : Nat) (k : EntryNo) : UnitRecord := { number := n, phase := .reading k }
      let discarding (n : Nat) (k : EntryNo) : UnitRecord := { number := n, phase := .discarding k }
      let writing : UnitRecord := { number := n, phase := .writing j }
      let staged : UnitRecord := { number := m, phase := .staged b }
      stopUnits [reading n j] = [discarding n j] ∧
      stopUnits [reading n j, reading m k] = [discarding n j, discarding m k] ∧
      stopUnits [reading n j, staged] = [discarding n j] ∧ stopUnits [writing] = [writing] ∧
      stopUnits [writing, reading m k] = [writing, discarding m k] ∧
      stopUnits [writing, staged] = [writing, staged]) ∧
    (s.Takes .channelStop i e → ch.state = .idle ∨ (∃ cause, ch.state = .stopping cause) →
      exec .channelStop s = .next (s.answered i .busy none))

/-- CARD RESET: DENIED from the B origin; from P it ends OK, and where it is the oldest P entry its
response leaves and the card reset is taken in the same event; and whenever the ended command has come
to the head of the P response list, the close of that event sends its response and takes the card
reset (R64, R159; the model's reading of that event, log entry 9). -/
def Obligations.CardResetCommandResetsAtItsDelivery : Prop :=
  (∀ (s : State) (i : EntryNo) (e : Entry) (rest : List (EntryNo × Entry)),
    s.pList = (i, e) :: rest → e.state = .complete → e.finalStatus = some .ok →
    e.route = some .mgmt → e.op = .write → e.address = 0x80 → e.word.toNat % 256 = 9 →
      s.settle = State.cardReset { s with
        entries := s.entries.set i none
        order := s.order.filter fun j => j ≠ i
        pSent := if s.lines.pLink = true then
            s.pSent ++ [.response { tag := e.tag.getD 0, status := .ok, data := none,
                                    faultAddress := e.faultAddress, detail := e.detail }]
          else s.pSent }) ∧
  ∀ (s : State) (i : EntryNo) (e : Entry), s.Takes .cardResetCommand i e →
    (e.origin.isB = true → exec .cardResetCommand s = .next (s.answered i .denied none)) ∧
    (e.origin.isB = false → exec .cardResetCommand s = .next (s.answered i .ok none)) ∧
    (∀ rest, s.TableOk → e.origin = .p → s.pList = (i, e) :: rest →
      exec .cardResetCommand s = .next (State.cardReset { s with
        entries := s.entries.set i none
        order := s.order.filter fun j => j ≠ i
        pSent := if s.lines.pLink = true then
            s.pSent ++ [.response { tag := e.tag.getD 0, status := .ok, data := none,
                                    faultAddress := none, detail := none }]
          else s.pSent }))

/-- Writes to staging words, loaded descriptor words and port configuration words: a staging word is
stored as written; a descriptor word is stored in IDLE and BUSY otherwise; a port configuration word
in range replaces its fields and lowers the retry counts at the port, one out of range is FORM (R24,
R69, R109, R152, R162, R164). Of a descriptor word the fields of section 9.5 are stored; that bits 31
to 24 of word 2, named for no field, are not kept is the model's reading of R160 beside R109 (log
entry 19). -/
def Obligations.WordWritesStoreTheirFields : Prop :=
  ∀ (s : State) (i : EntryNo) (e : Entry),
    let w := e.word.toNat
    (∀ (n : Fin 32) (k : Fin 4), s.Takes .stagingWrite i e →
      e.address.toNat = 0x400 + 16 * n.val + 4 * k.val →
        exec .stagingWrite s = .next (State.answered { s with setup := { s.setup with
          staging := s.setup.staging.set n (s.setup.staging[n].set k e.word) } } i .ok none)) ∧
    (∀ (c : ChannelNo) (k : Fin 4), s.Takes .loadedDescriptorWrite i e →
      e.address.toNat = 0x200 + 16 * c.val + 4 * k.val →
        (s.channels[c].state = .idle →
          exec .loadedDescriptorWrite s = .next (State.answered { s with
            channels := s.channels.set c { s.channels[c] with
              descriptor := s.channels[c].descriptor.setWord k e.word } } i .ok none)) ∧
        (s.channels[c].state ≠ .idle →
          exec .loadedDescriptorWrite s = .next (s.answered i .busy none))) ∧
    (∀ old : Descriptor,
      old.setWord 0 e.word = { old with source := e.word } ∧
      old.setWord 1 e.word = { old with destination := e.word } ∧
      old.setWord 2 e.word = { old with
        count := BitVec.ofNat 16 w
        unit := if w / 2 ^ 16 % 4 = 0 then .one else if w / 2 ^ 16 % 4 = 1 then .two
          else if w / 2 ^ 16 % 4 = 2 then .four else .sixteen
        sourceFixed := decide (w / 2 ^ 18 % 2 = 1), destinationFixed := decide (w / 2 ^ 19 % 2 = 1)
        pace := BitVec.ofNat 3 (w / 2 ^ 20), notify := decide (w / 2 ^ 23 % 2 = 1) } ∧
      old.setWord 3 e.word = { old with link := e.word }) ∧
    (∀ (p : PortNo) (k : Fin 3), s.Takes .portConfigurationWrite i e →
      e.address.toNat = 0x100 + 16 * p.val + 4 * k.val →
        let old := s.setup.portConfig[p]
        let ranged (k : Fin 3) := match k with
          | 0 => (w % 8 = 1 ∨ w % 8 = 2 ∨ w % 8 = 4) ∧ (1 ≤ w / 16 % 8 ∧ w / 16 % 8 ≤ 4) ∧
              1 ≤ w / 256 % 8
          | 1 => 1 ≤ w % 1024 ∧ w % 1024 ≤ 1000
          | 2 => 1 ≤ w % 256
        (¬ ranged k → exec .portConfigurationWrite s = .next (s.answered i .form none)) ∧
        (ranged k → ∃ (c : PortConfig) (v : State),
          exec .portConfigurationWrite s = .next (v.answered i .ok none) ∧
          (k = 0 → c.width.bytes = w % 8 ∧ c = { old with
            width := c.width, credit := w / 16 % 8, offlineThreshold := w / 256 % 8,
            retryLimit := w / 4096 % 16 }) ∧
          (k = 1 → c = { old with responseLimit := w % 1024 }) ∧
          (k = 2 → c = { old with retryInterval := w % 256 }) ∧
          v = { s with
            setup := { s.setup with portConfig := s.setup.portConfig.set p c }
            entries := v.entries } ∧
          (s.TableOk → ∀ j : EntryNo, v.entries[j] = s.entries[j].map fun f =>
            if f.onWaitList p = true then { f with retryCount := min c.retryLimit f.retryCount }
            else f)))

/-- Writes to the setting words, the remote management word, the attention enables, the command argument
and every other offset (R140, R141, R152, R153, R155, R157, R158). The model's readings here: bit 0
of the node mask is not kept (log entry 20, from R160), and the notice of an enables write leaves
before the write's own answer (log entry 14). -/
def Obligations.SettingWritesTakeEffectAtTheTake : Prop :=
  ∀ (s : State) (i : EntryNo) (e : Entry),
    let a := e.address.toNat
    let w := e.word
    let with' (t : Settings) : State := { s with setup := { s.setup with settings := t } }
    let old := s.setup.settings
    let readOnly := a % 4 = 0 ∧ (a = 0x000 ∨ a = 0x004 ∨ a = 0x010 ∨ (0x0C0 ≤ a ∧ a < 0x0D0) ∨
      (0x140 ≤ a ∧ a < 0x160) ∨ (0x240 ≤ a ∧ a < 0x280) ∨ (0x600 ≤ a ∧ a < 0x800))
    let writable := a % 4 = 0 ∧ ((0x040 ≤ a ∧ a ≤ 0x050) ∨ a = 0x080 ∨ a = 0x084 ∨
      (0x100 ≤ a ∧ a < 0x140 ∧ a / 4 % 4 ≠ 3) ∨ (0x200 ≤ a ∧ a < 0x240) ∨
      (0x400 ≤ a ∧ a < 0x600))
    (s.Takes .settingWrite i e → a = 0x044 →
      exec .settingWrite s = .next ((with' { old with
        nodeMask := w.extractLsb' 0 16 &&& 0xFFFE }).answered i .ok none)) ∧
    (s.Takes .settingWrite i e → a = 0x048 →
      (w.extractLsb' 0 8 = 0 ∨ w.extractLsb' 8 8 = 0 →
        exec .settingWrite s = .next (s.answered i .form none)) ∧
      (w.extractLsb' 0 8 ≠ 0 → w.extractLsb' 8 8 ≠ 0 →
        exec .settingWrite s = .next ((with' { old with
          holdLimit := w.extractLsb' 0 8, holdOff := w.extractLsb' 8 8 }).answered i .ok none))) ∧
    (s.Takes .settingWrite i e → a = 0x04C →
      (w.extractLsb' 0 16 = 0 → exec .settingWrite s = .next (s.answered i .form none)) ∧
      (w.extractLsb' 0 16 ≠ 0 → exec .settingWrite s = .next ((with' { old with
        remoteLimit := w.extractLsb' 0 16 }).answered i .ok none))) ∧
    (s.Takes .remoteManagementWrite i e →
      (e.origin.isB = true → exec .remoteManagementWrite s = .next (s.answered i .denied none)) ∧
      (e.origin.isB = false → exec .remoteManagementWrite s = .next ((with' { old with
        remoteManagement := w.getLsbD 0 }).answered i .ok none))) ∧
    (s.Takes .attentionEnablesWrite i e →
      exec .attentionEnablesWrite s = .next ((with' { old with
        kindEnables := w.extractLsb' 0 9
        portEnables := w.extractLsb' 16 4 }).evalPending.answered i .ok none)) ∧
    (s.Takes .commandArgumentWrite i e →
      exec .commandArgumentWrite s = .next ((with' { old with argument := w }).answered i .ok none)) ∧
    (s.Takes .mgmtWrite i e →
      (a = 0x080 → exec .mgmtWrite s = .next (s.answered i .form (some 80))) ∧
      (readOnly → exec .mgmtWrite s = .next (s.answered i .denied none)) ∧
      (¬ readOnly → ¬ writable → exec .mgmtWrite s = .next (s.answered i .unmapped none)))

/-! ## The attention unit -/

/-- Raising attention: a kind that is disabled records nothing; a record of the same source and kind
counts up to 255; else a record joins the tail, or the overflow flag is set at 16 records. ATTN_OUT
follows the pending condition, and its rise sends one notice (R138, R140, R141, R142). -/
def Obligations.RaisedAttentionIsRecordedAndNotified : Prop :=
  ∀ (s : State) (source : AttnSource) (kind : AttnKind) (detail : Option (Status × Word)),
    let a := s.attention
    let t := s.raise source kind detail
    let enabled := s.setup.settings.kindEnables.getLsbD kind.code.val = true
    let same (r : AttnRecord) := r.source = source ∧ r.kind = kind
    (¬ enabled → t.attention.queue = a.queue ∧ t.attention.overflow = a.overflow) ∧
    (∀ x r y, enabled → a.Ok → a.queue = x ++ r :: y → same r →
      t.attention.queue = x ++ { r with count := min 255 (r.count + 1) } :: y ∧
        t.attention.overflow = a.overflow) ∧
    (enabled → (∀ r ∈ a.queue, ¬ same r) → a.queue.length < 16 →
      t.attention.queue = a.queue ++ [{ source, kind, count := 1, detail }] ∧
        t.attention.overflow = a.overflow) ∧
    (enabled → (∀ r ∈ a.queue, ¬ same r) → 16 ≤ a.queue.length →
      t.attention.queue = a.queue ∧ t.attention.overflow = true) ∧
    t.attention.walk = a.walk ∧ t.attention.out = t.pendingCondition ∧
    t = { s with
      attention := t.attention
      pSent := if t.attention.out = true ∧ a.out = false ∧ s.lines.pLink = true then
          s.pSent ++ [.notice t.attention.queue.length] else s.pSent }

/-- TARGET_ATTENTION_LINE_CHANGE: the line takes the level, ATTN_OUT becomes the pending condition (the
queue is not empty, or the overflow flag is set, or an enabled line is asserted), and its rise sends
one notice (R141, R142). -/
def Obligations.LineChangeEvaluatesThePendingCondition : Prop :=
  ∀ (s : State) (p : PortNo) (level : Bool),
    let tattn := s.lines.tattn.set p level
    ∃ out : Bool,
      (out = true ↔ s.attention.queue ≠ [] ∨ s.attention.overflow = true ∨
        ∃ q : PortNo, s.setup.settings.portEnables.getLsbD q.val = true ∧ tattn[q] = true) ∧
      exec (.targetAttentionLineChange p level) s = .next { s with
        lines := { s.lines with tattn }
        attention := { s.attention with out }
        pSent := if out = true ∧ s.attention.out = false ∧ s.lines.pLink = true then
            s.pSent ++ [.notice s.attention.queue.length] else s.pSent }

/-- An ask that finds the attention unit idle: the head record, else the overflow flag, else the walk to
the first port that is enabled, asserted and not ABSENT, else EMPTY (R143, R145, R146). An accepted ask
is given the lowest FREE entry; the oldest ask is taken whenever none is in service, with any other
entries live: with its acceptance or with the end of the ask before it, after the guarded refusals of
the event (log entry 31) and not where a CARD RESET command has reached the head (log entry 9). With no
other entry live, the whole next state. That an ask's pieces total reads 0 is the model's choice (log
entry 32). -/
def Obligations.AskIsAnsweredOrWalks : Prop :=
  (∀ (s : State) (msg : List Byte) (r : Request) (i : EntryNo), s.Accepts .p msg r →
    r.space = some .attn → s.lowestFree = some i →
      ∃ b : Vector Byte 64,
        exec (.requestOnPLink msg) s = .next (State.settle { s with
          entries := s.entries.set i (some { requestEntry .p r b with route := some .attn })
          order := s.order ++ [i], freshCount := s.freshCount + 1 })) ∧
  (∀ (s : State) (i : EntryNo) (e : Entry) (rest : List (EntryNo × Entry)), s.TableOk →
    s.EntriesOk → s.OutOk → s.resetDue = false →
    (∀ j f, (j, f) ∈ s.table → s.guardDue j f = false) →
    s.attention.walk = none → s.asks = (i, e) :: rest →
      let ends (v : State) (bytes : List Byte) : Prop := ∃ b : Vector Byte 64,
        b.toList.take 16 = bytes ∧ s.settle = (State.endEntry { v with
          entries := s.entries.set i (some { e with buffer := b }) } i .ok none none).settle
      (∀ x queue, s.attention.queue = x :: queue →
        let v : State := { s with attention := { s.attention with queue } }
        ends { v with attention := { v.attention with out := v.pendingCondition } }
          (Answer.bytes (.record x) queue.length s.attention.overflow)) ∧
      (s.attention.queue = [] → s.attention.overflow = true →
        let v : State := { s with attention := { s.attention with overflow := false } }
        ends { v with attention := { v.attention with out := v.pendingCondition } }
          (Answer.bytes .overflow 0 false)) ∧
      (s.attention.queue = [] → s.attention.overflow = false →
        s.settle = (s.walkOn i (List.finRange 4)).settle)) ∧
  ∀ (s : State) (msg : List Byte) (r : Request), s.Running → s.TableOk → s.OutOk → s.order = [] →
    s.attention.walk = none → parseRequest .p msg = some r → s.refusal .p .p r = none →
    r.space = some .attn → r.node = 0 ∨ r.node = s.setup.straps.slot →
      let wants (p : PortNo) := s.setup.settings.portEnables.getLsbD p.val = true ∧
        s.lines.tattn[p] = true ∧ s.ports[p].state ≠ .absent
      let answered (v : State) (bytes : List Byte) : State := { v with
        freshCount := s.freshCount + 1
        pSent := if s.lines.pLink = true then
            s.pSent ++ [.response { tag := r.tag, status := .ok, data := some bytes,
                                    faultAddress := none, detail := none }]
          else s.pSent }
      (∀ x queue, s.attention.queue = x :: queue →
        let v : State := { s with attention := { s.attention with queue } }
        exec (.requestOnPLink msg) s = .next (answered
          { v with attention := { v.attention with out := v.pendingCondition } }
          (Answer.bytes (.record x) queue.length s.attention.overflow))) ∧
      (s.attention.queue = [] → s.attention.overflow = true →
        let v : State := { s with attention := { s.attention with overflow := false } }
        exec (.requestOnPLink msg) s = .next (answered
          { v with attention := { v.attention with out := v.pendingCondition } }
          (Answer.bytes .overflow 0 false))) ∧
      (s.attention.queue = [] → s.attention.overflow = false → (∀ p, ¬ wants p) →
        exec (.requestOnPLink msg) s = .next (answered s (Answer.bytes .empty 0 false))) ∧
      (∀ p, s.attention.queue = [] → s.attention.overflow = false → wants p →
        (∀ q, q < p → ¬ wants q) →
          ∃ e : Entry, e.origin = .p ∧ e.tag = some r.tag ∧ e.route = some .attn ∧
            e.state = .serving ∧ e.op = .read ∧ e.length = 16 ∧
            let number := s.ports[p].askNumber + 1
            let walk : Walk := { ask := 0, port := p, number,
                                 timer := s.setup.portConfig[p].responseLimit }
            exec (.requestOnPLink msg) s = .next { s with
              entries := s.entries.set 0 (some e), order := [0], freshCount := s.freshCount + 1
              ports := s.ports.set p { s.ports[p] with askNumber := number }
              tSent := s.tSent.set p (s.tSent[p] ++ [.ask number])
              attention := { s.attention with walk := some walk } })

/-- CODE ends the walk's ask with a PORT_CODE answer; PASS and the ask timer pass the port and the walk
goes on to the ports above it; any other answer is discarded (R18, R145, R146, R147). The model's
readings here: an ask timer expiry without a walk changes nothing (log entry 5), and bytes after the
header word of CODE and PASS are ignored (log entry 16). How a walk passes a port and goes on: to the
first of the ports left that is enabled, asserted and not ABSENT an ASK is sent with the next ask
number, and with none left the ask ends EMPTY (R146, R148). -/
def Obligations.AskAnswersEndOrMoveTheWalk : Prop :=
  (∀ (s : State) (p : PortNo),
    ((∀ w, s.attention.walk = some w → w.port ≠ p) → s.passPort p = s) ∧
    (∀ w, s.attention.walk = some w → w.port = p → s.passPort p =
      ({ s with attention := { s.attention with walk := none } }.walkOn w.ask
        ((List.finRange 4).filter fun q => p < q)))) ∧
  (∀ (s : State) (i : EntryNo) (ports : List PortNo),
    let wants (p : PortNo) := s.setup.settings.portEnables.getLsbD p.val = true ∧
      s.lines.tattn[p] = true ∧ s.ports[p].state ≠ .absent
    (∀ e, s.entries[i] = some e → (∀ p ∈ ports, ¬ wants p) → ∃ b : Vector Byte 64,
      b.toList.take 16 = Answer.bytes .empty s.attention.queue.length s.attention.overflow ∧
      s.walkOn i ports = State.endEntry { s with
        entries := s.entries.set i (some { e with buffer := b }) } i .ok none none) ∧
    (∀ x p y, ports = x ++ p :: y → (∀ q ∈ x, ¬ wants q) → wants p →
      let number := s.ports[p].askNumber + 1
      s.walkOn i ports = { s with
        ports := s.ports.set p { s.ports[p] with askNumber := number }
        tSent := s.tSent.set p (s.tSent[p] ++ [.ask number])
        attention := { s.attention with
          walk := some { ask := i, port := p, number
                         timer := s.setup.portConfig[p].responseLimit } } })) ∧
  ∀ (s : State) (p : PortNo) (msg : List Byte),
    let idle : State := { s with attention := { s.attention with walk := none } }
    (∀ w e number code, s.lines.porst = false → parseAskAnswer 11 msg = some (number, code) →
      code ≠ 0 → s.attention.walk = some w → w.port = p → w.number = number →
      s.entries[w.ask] = some e →
        ∃ b : Vector Byte 64,
          b.toList.take 16 = Answer.bytes (.portCode p code) s.attention.queue.length
            s.attention.overflow ∧
          let v : State := { idle with entries := s.entries.set w.ask (some { e with buffer := b }) }
          exec (.targetCode p msg) s = .next (v.endEntry w.ask .ok none none).settle) ∧
    (∀ w number code, s.lines.porst = false → parseAskAnswer 12 msg = some (number, code) →
      s.attention.walk = some w → w.port = p → w.number = number →
        exec (.targetPass p msg) s =
          .next (idle.walkOn w.ask ((List.finRange 4).filter fun q => p < q)).settle) ∧
    (∀ w, s.lines.porst = false → s.attention.walk = some w →
      exec .askTimerExpiry s =
        .next (idle.walkOn w.ask ((List.finRange 4).filter fun q => w.port < q)).settle) ∧
    (s.lines.porst = true ∨ s.attention.walk = none → exec .askTimerExpiry s = .next s) ∧
    ((s.lines.porst = true ∨ parseAskAnswer 11 msg = none ∨
        ∃ number code, parseAskAnswer 11 msg = some (number, code) ∧
          (code = 0 ∨ ∀ w, s.attention.walk = some w → w.port ≠ p ∨ w.number ≠ number)) →
      exec (.targetCode p msg) s = .next s) ∧
    ((s.lines.porst = true ∨ parseAskAnswer 12 msg = none ∨
        ∃ number code, parseAskAnswer 12 msg = some (number, code) ∧
          ∀ w, s.attention.walk = some w → w.port ≠ p ∨ w.number ≠ number) →
      exec (.targetPass p msg) s = .next s)

/-! ## The guard -/

/-- PALERT_ASSERT, PALERT_DEASSERT and HOLD_OFF_TIMER_EXPIRY complete in every state: PALERT_ASSERT closes
the guard, raises GUARD_ON and takes the sweep; PALERT_DEASSERT starts the hold-off; its expiry opens
the guard and raises GUARD_OFF; in other guard states, and while PORST is asserted, PALERT changes only
the line (R128 to R131). The sweep ends every guarded write WAITING or BACKOFF at any port, blocked or
not, one after another in ascending arrival order, GUARDED with the address of its next piece: a B write
is answered and FREE, a P write COMPLETE and delivered in its turn, a move write FREE and reported, a
hold that waits for a swept release is absent with no note; every other entry stands but for P entries
that have ended and can now leave (R44, R53, R54, R55, R101, R134). The model's readings here: a line
that moves ahead of its event changes alone (log entry 17), a hold-off expiry outside RELEASING changes
nothing (log entry 5), and deliveries stop at an ended CARD RESET command (log entry 9). -/
def Obligations.GuardClosesReleasesAndOpens : Prop :=
  (∀ s : State,
     let early := s.lines.early.head? = some true
     let on : State := { s with
       lines := { s.lines with palert := true, early := s.lines.early.tail } }
     let off : State := { s with
       lines := { s.lines with palert := false, early := s.lines.early.tail } }
     (¬ early → s.lines.porst = false → s.guard ≠ .guarded → exec .palertAssert s = .next
       (State.raise { on with guard := .guarded } .guardUnit .guardOn none).sweep.settle) ∧
     (early ∨ s.lines.porst = true ∨ s.guard = .guarded → exec .palertAssert s = .next on) ∧
     (¬ early → s.lines.porst = false → s.guard = .guarded → exec .palertDeassert s =
       .next { off with guard := .releasing s.setup.settings.holdOff.toNat }) ∧
     (early ∨ s.lines.porst = true ∨ s.guard ≠ .guarded → exec .palertDeassert s = .next off) ∧
     (∀ n, s.lines.porst = false → s.guard = .releasing n → exec .holdOffTimerExpiry s =
       .next (State.raise { s with guard := .opened } .guardUnit .guardOff none).settle) ∧
     (s.lines.porst = true ∨ (∀ n, s.guard ≠ .releasing n) →
       exec .holdOffTimerExpiry s = .next s)) ∧
  (∀ s : State, s.TableOk → s.EntriesOk →
     (∀ (i : EntryNo) (e : Entry) (d : DecodeRecord), s.entries[i] = some e →
       e.state = .waiting ∨ e.state = .backoff → e.op = .write ∨ e.op = .writeRelease →
       e.decode = some d → d.guarded = true →
         s.sweep.entries[i] = none ∨ (e.origin = .p ∧ s.sweep.entries[i] = some { e with
           state := .complete, finalStatus := some .guarded,
           faultAddress := some (e.address + BitVec.ofNat 32 e.piece.1), detail := none,
           timer := none })) ∧
     (∀ (i : EntryNo) (e : Entry), s.entries[i] = some e →
       (e.state ≠ .waiting ∧ e.state ≠ .backoff) ∨ e.op = .read ∨ e.op = .readHold ∨
         (∀ d, e.decode = some d → d.guarded = false) →
       s.sweep.entries[i] = some e ∨
         (e.origin = .p ∧ e.state = .complete ∧ s.sweep.entries[i] = none)) ∧
     s.sweep.attention.queue.length ≤ s.attention.queue.length + 4 ∧
     Untouched s s.sweep ∧ s.sweep.guard = s.guard ∧ s.sweep.tSent = s.tSent) ∧
  ∀ s : State,
     let swept (e : Entry) : Bool :=
       (decide (e.state = .waiting) || decide (e.state = .backoff)) &&
         (decide (e.op = .write) || decide (e.op = .writeRelease)) &&
         e.decode.any fun d => d.guarded
     let list := s.table.filter fun je => swept je.2
     let address (e : Entry) : Word := e.address + BitVec.ofNat 32 e.piece.1
     let ended (e : Entry) : Entry := { e with
       state := .complete, finalStatus := some .guarded, faultAddress := some (address e),
       detail := none, timer := none }
     let leaving := (s.pList.map fun je => if swept je.2 = true then (je.1, ended je.2) else je).takeWhile
       fun je => decide (je.2.state = .complete) && !je.2.isCardReset
     let named (p : PortNo) (x : Hold) : Prop := ∃ je ∈ list, je.2.route = some (.port p) ∧
       (x.phase = .awaitingRead je.1 ∨ x.phase = .awaitingRelease je.1)
     (list.map Prod.fst = s.order.filter fun j => s.entries[j].any swept) ∧
     s.sweep = list.foldl
       (fun u je => u.endEntry je.1 .guarded (some (address je.2)) none) s ∧
     (s.TableOk → s.EntriesOk →
       s.sweep.bSent = (if s.lines.bLink = true then s.bSent ++ list.filterMap fun je =>
           match je.2.origin with
           | .b source => some (.response source s.setup.straps.slot (je.2.returnStamp.getD 0)
               { tag := je.2.tag.getD 0, status := .guarded, data := none,
                 faultAddress := some (address je.2), detail := none })
           | .p => none
           | .m _ => none
         else s.bSent) ∧
       (∀ p x, s.ports[p].hold = some x → named p x →
         s.sweep.ports[p] = { s.ports[p] with hold := none }) ∧
       (∀ p, (∀ x, s.ports[p].hold = some x → ¬ named p x) → s.sweep.ports[p] = s.ports[p]) ∧
       s.sweep.notes = s.notes ∧
       (s.HeadOk → (∀ je ∈ list, je.2.origin.isM = false) →
         s.sweep.channels = s.channels ∧ s.sweep.attention = s.attention ∧
         s.sweep.pSent = if s.lines.pLink = true then
             s.pSent ++ leaving.map fun je => .response je.2.response else s.pSent))

/-! ## Power-on reset held -/

/-- While PORST is asserted no event is taken (R1, R65, R68): each command of a line or a link sets the
level of that line or link, and all the others change nothing. The model's readings and choices here:
timers and decisions are held too (log entry 6), and PALERT_ASSERT, PALERT_DEASSERT and B_LINK_DOWN
also take the head off `early`, the model's own list of the lines that move ahead of their events (log
entry 17); beside the level that is all that a command changes. -/
def Obligations.AssertedPorstHoldsTheBridge : Prop :=
  (∀ s : State, s.lines.porst = true →
    let sets (c : Instr) (lines : Lines) : Prop := exec c s = .next { s with lines }
    let early := s.lines.early.tail
    sets .palertAssert { s.lines with palert := true, early } ∧
    sets .palertDeassert { s.lines with palert := false, early } ∧
    (∀ p, sets (.tLinkUp p) { s.lines with tLink := s.lines.tLink.set p true }) ∧
    (∀ p, sets (.tLinkDown p) { s.lines with tLink := s.lines.tLink.set p false }) ∧
    sets .bLinkUp { s.lines with bLink := true } ∧
    sets .bLinkDown { s.lines with bLink := false, early } ∧
    sets .pLinkUp { s.lines with pLink := true } ∧
    sets .pLinkDown { s.lines with pLink := false } ∧
    sets .cardReset { s.lines with crst := true } ∧
    sets .crstRelease { s.lines with crst := false }) ∧
  ∀ (s : State) (c : Instr), s.lines.porst = true →
    (match c with
      | .palertAssert | .palertDeassert | .tLinkUp _ | .tLinkDown _ | .bLinkUp | .bLinkDown
      | .pLinkUp | .pLinkDown | .cardReset | .crstRelease | .powerOnReset _ _ _ | .porstRelease
      | .targetAttentionLineChange _ _ => False
      | _ => True) → exec c s = .next s

/-! ## Invariants -/

/-- Every step keeps the laws of the Transaction Table: the arrival order lists each entry once, the
quotas, no tag twice, the issued counts within the credits' range, and the laws of each record (R6,
R44, R46, R49, R69, R82). -/
def Obligations.StepKeepsTheTableLaws : Prop :=
  ∀ s t : State, s.TableOk → s.QuotaOk → s.TagsOk → s.ConfigOk → s.IssuedOk → s.EntriesOk →
    s.RetryOk → step s = .next t →
      t.TableOk ∧ t.QuotaOk ∧ t.TagsOk ∧ t.ConfigOk ∧ t.IssuedOk ∧ t.EntriesOk ∧ t.RetryOk

/-- Every step keeps the laws of the attention unit, the live table and the unit lists: at most 16
records, no two of one source and kind, counts 1 to 255; ATTN_OUT equal to the pending condition;
valid windows sound; no-answer counts, pace credits and unit lists in range; a standalone card's B
port DOWN (R3, R19, R38, R67, R105, R137, R138, R141). And, between two events of a table that keeps
its laws, the laws of the hold records and broken notes: an origin holds at most one port, the entry a
hold awaits is its holder's and at that port, and a holder with a set note holds no port (R93 to R96,
R100). -/
def Obligations.StepKeepsTheUnitLaws : Prop :=
  ∀ s t : State, s.attention.Ok → s.OutOk → s.LiveOk → s.RangesOk → s.StandaloneOk →
    step s = .next t →
      t.attention.Ok ∧ t.OutOk ∧ t.LiveOk ∧ t.RangesOk ∧ t.StandaloneOk ∧
        (s.TableOk → s.Resting → s.HoldsOk → t.HoldsOk)

/-- The state after reset has all these laws and is at rest. -/
def Obligations.ResetMeetsTheLaws : Prop :=
  State.reset.TableOk ∧ State.reset.QuotaOk ∧ State.reset.TagsOk ∧ State.reset.ConfigOk ∧
    State.reset.IssuedOk ∧ State.reset.EntriesOk ∧ State.reset.RetryOk ∧
    State.reset.attention.Ok ∧ State.reset.OutOk ∧ State.reset.LiveOk ∧ State.reset.RangesOk ∧
    State.reset.StandaloneOk ∧ State.reset.Resting ∧ State.reset.HoldsOk

/-! ## Layouts -/

/-- Reading what the layouts spell gives the fields back: requests on both links, responses, answers of
the target links, window words and descriptor words (R160 to R163, section 9.5). And the bits
themselves: of a word in bytes, both ways; of a message that arrives as any words, as a request, as an
answer to a piece or to an ASK; of a management write's word and of the descriptor that 16 fetched
bytes hold; of a response that arrives on the B link as any words: its kind, its status 0 to 14, what its
present bits announce, with every unnamed bit ignored; of the fields of any four window words, whatever
their unnamed bits, which is what a COMMIT reads; of the requests and responses of both links, PIECE, ASK, PORT RESET, the attention notice
and the attention answer record (R16, R17, R24, R145, R160 to R163, R165, section 9.5). That a
response of status 15 or without the fault address word it announces is no response, and that bytes no
present bit announces are ignored, is the model's reading (log entry 15); that bytes after the header
word of CODE and PASS are ignored is another (log entry 16). -/
def Obligations.LayoutsReadBackTheirFields : Prop :=
  (∀ r : Request, parseRequest .b (r.encode .b) = some r) ∧
  (∀ r : Request, parseRequest .p (r.encode .p) = some { r with source := 0, stamp := 0 }) ∧
  (∀ (node source : BitVec 4) (stamp : BitVec 16) (r : Response),
    parseResponse (BMessage.response node source stamp r).encode =
      some { node, source, stamp, body := r }) ∧
  (∀ (kind : BitVec 4) (index : BitVec 5) (round : BitVec 8) (data : List Byte),
    parseAnswer kind (wordBytes (kind ++ 0#12 ++ round ++ 0#3 ++ index) ++ data) =
      some (index, round, data)) ∧
  (∀ (kind : BitVec 4) (number code : BitVec 8) (rest : List Byte),
    parseAskAnswer kind (wordBytes (kind ++ 0#4 ++ code ++ number ++ 0#8) ++ rest) =
      some (number, code)) ∧
  (∀ w : Window, Window.ofWords w.words = w) ∧
  (∀ words : FourWords,
    let w := Window.ofWords words
    let field (k : Fin 4) (at' width : Nat) : Nat := words[k].toNat / 2 ^ at' % 2 ^ width
    let rights (n : Nat) : Rights :=
      match n with | 0 => .none | 1 => .read | 2 => .readWrite | _ => .noRight
    w.base.toNat = field 0 0 20 ∧ w.valid = decide (field 0 31 1 = 1) ∧ w.limit.toNat = field 1 0 20 ∧
    w.targetPage.toNat = field 2 0 20 ∧ w.port.val = field 2 28 2 ∧
    w.localRights = rights (field 3 0 2) ∧ w.remoteRights = rights (field 3 2 2) ∧
    w.guarded = decide (field 3 8 1 = 1)) ∧
  (∀ d : Descriptor, Descriptor.ofWords (d.word 0) (d.word 1) (d.word 2) (d.word 3) = d) ∧
  (∀ w : Word, wordBytes w = (List.range 4).map fun k => BitVec.ofNat 8 (w.toNat / 256 ^ k)) ∧
  (∀ (bytes : List Byte) (i : Nat),
    let byte (k : Nat) : Nat := (bytes.getD (i + k) 0).toNat
    (wordAt bytes i).toNat = byte 0 + 2 ^ 8 * byte 1 + 2 ^ 16 * byte 2 + 2 ^ 24 * byte 3) ∧
  (∀ (e : Entry) (w : Word), begins e.buffer (wordBytes w) → e.word = w) ∧
  (∀ w0 w1 w2 w3 : Word,
    let d := Descriptor.ofBytes (wordBytes w0 ++ wordBytes w1 ++ wordBytes w2 ++ wordBytes w3)
    let bit (k : Nat) : Bool := decide (w2.toNat / 2 ^ k % 2 = 1)
    d.source = w0 ∧ d.destination = w1 ∧ d.link = w3 ∧ d.count.toNat = w2.toNat % 2 ^ 16 ∧
    d.unit = (match w2.toNat / 2 ^ 16 % 4 with
      | 0 => .one | 1 => .two | 2 => .four | _ => .sixteen) ∧
    d.sourceFixed = bit 18 ∧ d.destinationFixed = bit 19 ∧
    d.pace.toNat = w2.toNat / 2 ^ 20 % 8 ∧ d.notify = bit 23) ∧
  (∀ (w a x : Word) (data : List Byte),
    let field (at' width : Nat) : Nat := w.toNat / 2 ^ at' % 2 ^ width
    let read (source : BitVec 4) (stamp : BitVec 16) : Request :=
      { tag := BitVec.ofNat 4 (field 0 4), node := BitVec.ofNat 4 (field 4 4)
        space := match field 8 2 with
          | 0 => some .data | 1 => some .mgmt | 2 => some .attn | _ => none
        op := match field 10 2 with
          | 0 => .read | 1 => .write | 2 => .readHold | _ => .writeRelease
        length := BitVec.ofNat 7 (field 12 7), source, address := a, stamp, data }
    parseRequest .p (wordBytes w ++ wordBytes a ++ data) =
      (if field 28 4 = 1 then some (read 0 0) else none) ∧
    parseRequest .b (wordBytes w ++ wordBytes a ++ wordBytes x ++ data) =
      (if field 28 4 = 1 then
        some (read (BitVec.ofNat 4 (field 20 4)) (BitVec.ofNat 16 (x.toNat % 2 ^ 16))) else none) ∧
    (∀ kind : BitVec 4, parseAnswer kind (wordBytes w ++ data) =
      if field 28 4 = kind.toNat then
        some (BitVec.ofNat 5 (field 0 5), BitVec.ofNat 8 (field 8 8), data) else none) ∧
    ∀ kind : BitVec 4, parseAskAnswer kind (wordBytes w ++ data) =
      if field 28 4 = kind.toNat then
        some (BitVec.ofNat 8 (field 8 8), BitVec.ofNat 8 (field 16 8)) else none) ∧
  (∀ (w a x : Word) (data : List Byte),
    let field (at' width : Nat) : Nat := w.toNat / 2 ^ at' % 2 ^ width
    let answer (faultAddress : Option Word) (rest : List Byte) (status : Status) : BResponse :=
      { node := BitVec.ofNat 4 (x.toNat % 2 ^ 4), source := BitVec.ofNat 4 (x.toNat / 2 ^ 4 % 2 ^ 4)
        stamp := BitVec.ofNat 16 (x.toNat / 2 ^ 16)
        body :=
          { tag := BitVec.ofNat 4 (field 0 4), status
            data := if field 10 1 = 1 then some rest else none, faultAddress
            detail := if field 9 1 = 1 then some (BitVec.ofNat 8 (field 16 8)) else none } }
    let status : Option Status :=
      match field 4 4 with
      | 0 => some .ok | 1 => some .full | 2 => some .form | 3 => some .unmapped | 4 => some .denied
      | 5 => some .noRoute | 6 => some .noTarget | 7 => some .targetFault | 8 => some .noAnswer
      | 9 => some .retryOut | 10 => some .guarded | 11 => some .holdBroken | 12 => some .linkDown
      | 13 => some .busy | 14 => some .aborted | _ => none
    let head := wordBytes w ++ wordBytes x
    (field 28 4 ≠ 2 → parseResponse (head ++ data) = none) ∧
    (field 28 4 = 2 → field 8 1 = 0 → parseResponse (head ++ data) = status.map (answer none data)) ∧
    (field 28 4 = 2 → field 8 1 = 1 →
      parseResponse (head ++ wordBytes a ++ data) = status.map (answer (some a) data)) ∧
    (field 28 4 = 2 → field 8 1 = 1 → data.length < 4 → parseResponse (head ++ data) = none)) ∧
  (∀ msg : List Byte,
    (msg.length < 8 → parseRequest .p msg = none) ∧ (msg.length < 12 → parseRequest .b msg = none) ∧
    (msg.length < 8 → parseResponse msg = none) ∧
    ∀ kind, msg.length < 4 → parseAnswer kind msg = none ∧ parseAskAnswer kind msg = none) ∧
  (let word (n : Nat) : List Byte := wordBytes (BitVec.ofNat 32 n)
   let status (x : Status) : Nat :=
     match x with
     | .ok => 0 | .full => 1 | .form => 2 | .unmapped => 3 | .denied => 4 | .noRoute => 5
     | .noTarget => 6 | .targetFault => 7 | .noAnswer => 8 | .retryOut => 9 | .guarded => 10
     | .holdBroken => 11 | .linkDown => 12 | .busy => 13 | .aborted => 14
   let source (x : AttnSource) : Nat :=
     match x with | .channel c => c.val | .port p => 4 + p.val | .guardUnit => 8 | .backplane => 9
   let kind (x : AttnKind) : Nat :=
     match x with
     | .channelDone => 0 | .channelFault => 1 | .portOffline => 2 | .portLost => 3
     | .holdBroken => 4 | .guardOn => 5 | .guardOff => 6 | .blinkDown => 7 | .blinkUp => 8
   (∀ (i : EntryNo) (round : BitVec 8) (isWrite : Bool) (a : Word) (size : Nat) (data : List Byte),
     size = 1 ∨ size = 2 ∨ size = 4 → TMessage.encode (.piece i round isWrite a size data) =
       word (i.val + 2 ^ 8 * round.toNat + 2 ^ 16 * isWrite.toNat + 2 ^ 17 * (size / 2) + 2 ^ 28) ++
         wordBytes a ++ data) ∧
   (∀ number : BitVec 8,
     TMessage.encode (.ask number) = word (2 ^ 8 * number.toNat + 2 ^ 28 * 2)) ∧
   TMessage.encode .portReset = word (2 ^ 28 * 3) ∧
   (∀ count : Nat, count < 32 → PMessage.encode (.notice count) = word (count + 2 ^ 28 * 3)) ∧
   (∀ r : Response,
     let header := word (r.tag.toNat + 2 ^ 4 * status r.status + 2 ^ 8 * r.faultAddress.isSome.toNat +
       2 ^ 9 * r.detail.isSome.toNat + 2 ^ 10 * r.data.isSome.toNat +
       2 ^ 16 * (r.detail.getD 0).toNat + 2 ^ 28 * 2)
     let tail := (match r.faultAddress with | none => [] | some a => wordBytes a) ++
       (match r.data with | none => [] | some data => data)
     PMessage.encode (.response r) = header ++ tail ∧
     ∀ (node source : BitVec 4) (stamp : BitVec 16),
       BMessage.encode (.response node source stamp r) =
         header ++ word (node.toNat + 2 ^ 4 * source.toNat + 2 ^ 16 * stamp.toNat) ++ tail) ∧
   (∀ r : Request,
     let header := word (r.tag.toNat + 2 ^ 4 * r.node.toNat +
       2 ^ 8 * (match r.space with
         | some .data => 0 | some .mgmt => 1 | some .attn => 2 | none => 3) +
       2 ^ 10 * (match r.op with
         | .read => 0 | .write => 1 | .readHold => 2 | .writeRelease => 3) +
       2 ^ 12 * r.length.toNat + 2 ^ 20 * r.source.toNat + 2 ^ 28)
     r.encode .p = header ++ wordBytes r.address ++ r.data ∧
     BMessage.encode (.request r) =
       header ++ wordBytes r.address ++ word r.stamp.toNat ++ r.data) ∧
   (∀ (remaining : Nat) (overflow : Bool), remaining < 32 →
     let left := remaining + 2 ^ 8 * overflow.toNat
     Answer.bytes .empty remaining overflow = word 0 ++ word left ++ word 0 ++ word 0 ∧
     Answer.bytes .overflow remaining overflow = word 2 ++ word left ++ word 0 ++ word 0 ∧
     (∀ (p : PortNo) (code : BitVec 8), Answer.bytes (.portCode p code) remaining overflow =
       word 3 ++ word (left + 2 ^ 16 * p.val + 2 ^ 24 * code.toNat) ++ word 0 ++ word 0) ∧
     ∀ x : AttnRecord, x.count < 256 → Answer.bytes (.record x) remaining overflow =
       word (1 + 2 ^ 4 * source x.source + 2 ^ 8 * kind x.kind + 2 ^ 16 * x.count) ++ word left ++
         (match x.detail with
           | none => word 0 ++ word 0
           | some (st, a) => word (status st) ++ wordBytes a)))

/-! ## Between events -/

/-- Every step leaves the bridge at rest: nothing is left to follow, the head of the P response list has
not ended, each entry on a wait list is at a port that is ONLINE, a walk waits at a port that is not
ABSENT, and while PORST is asserted every entry is FREE (R31, R53, R64, R65, R72, R73, R133, R143,
R148, R151). -/
def Obligations.StepLeavesTheBridgeAtRest : Prop :=
  ∀ s t : State, s.TableOk → s.QuotaOk → s.TagsOk → s.ConfigOk → s.IssuedOk → s.EntriesOk →
    s.RetryOk → s.Resting → step s = .next t → t.Resting
end

