-- ==== Sys2Proof/Laws/State.lean ====
section
/-!
SUPPORT. One equation per field that an elementary update of the state leaves alone, and one per field it
writes, so that no later proof unfolds a record update.
-/

namespace Sys2Proof.Machine

/-! ### mapCells -/

@[simp] theorem mapCells_eq_map {α β : Type} {n : Nat} (f : α → β) (v : Vector α n) :
    mapCells f v = v.map f := by
  apply Vector.toList_inj.mp
  simp [mapCells, Vector.toList, ← Array.toList_map]

variable (s : State)

/-! ### give -/

@[simp] theorem State.give_setup (i : EntryNo) (e : Entry) : (s.give i e).setup = s.setup := rfl
@[simp] theorem State.give_lines (i : EntryNo) (e : Entry) : (s.give i e).lines = s.lines := rfl
@[simp] theorem State.give_rounds (i : EntryNo) (e : Entry) : (s.give i e).rounds = s.rounds := rfl
@[simp] theorem State.give_ports (i : EntryNo) (e : Entry) : (s.give i e).ports = s.ports := rfl
@[simp] theorem State.give_notes (i : EntryNo) (e : Entry) : (s.give i e).notes = s.notes := rfl
@[simp] theorem State.give_bLinkUp (i : EntryNo) (e : Entry) : (s.give i e).bLinkUp = s.bLinkUp := rfl
@[simp] theorem State.give_channels (i : EntryNo) (e : Entry) : (s.give i e).channels = s.channels := rfl
@[simp] theorem State.give_guard (i : EntryNo) (e : Entry) : (s.give i e).guard = s.guard := rfl
@[simp] theorem State.give_attention (i : EntryNo) (e : Entry) : (s.give i e).attention = s.attention := rfl
@[simp] theorem State.give_pSent (i : EntryNo) (e : Entry) : (s.give i e).pSent = s.pSent := rfl
@[simp] theorem State.give_bSent (i : EntryNo) (e : Entry) : (s.give i e).bSent = s.bSent := rfl
@[simp] theorem State.give_tSent (i : EntryNo) (e : Entry) : (s.give i e).tSent = s.tSent := rfl
@[simp] theorem State.give_pending (i : EntryNo) (e : Entry) : (s.give i e).pending = s.pending := rfl

/-! ### modEntry -/

@[simp] theorem State.modEntry_setup (i : EntryNo) (f : Entry → Entry) : (s.modEntry i f).setup = s.setup := rfl
@[simp] theorem State.modEntry_lines (i : EntryNo) (f : Entry → Entry) : (s.modEntry i f).lines = s.lines := rfl
@[simp] theorem State.modEntry_rounds (i : EntryNo) (f : Entry → Entry) : (s.modEntry i f).rounds = s.rounds := rfl
@[simp] theorem State.modEntry_order (i : EntryNo) (f : Entry → Entry) : (s.modEntry i f).order = s.order := rfl
@[simp] theorem State.modEntry_ports (i : EntryNo) (f : Entry → Entry) : (s.modEntry i f).ports = s.ports := rfl
@[simp] theorem State.modEntry_notes (i : EntryNo) (f : Entry → Entry) : (s.modEntry i f).notes = s.notes := rfl
@[simp] theorem State.modEntry_bLinkUp (i : EntryNo) (f : Entry → Entry) : (s.modEntry i f).bLinkUp = s.bLinkUp := rfl
@[simp] theorem State.modEntry_channels (i : EntryNo) (f : Entry → Entry) : (s.modEntry i f).channels = s.channels := rfl
@[simp] theorem State.modEntry_guard (i : EntryNo) (f : Entry → Entry) : (s.modEntry i f).guard = s.guard := rfl
@[simp] theorem State.modEntry_attention (i : EntryNo) (f : Entry → Entry) : (s.modEntry i f).attention = s.attention := rfl
@[simp] theorem State.modEntry_pSent (i : EntryNo) (f : Entry → Entry) : (s.modEntry i f).pSent = s.pSent := rfl
@[simp] theorem State.modEntry_bSent (i : EntryNo) (f : Entry → Entry) : (s.modEntry i f).bSent = s.bSent := rfl
@[simp] theorem State.modEntry_tSent (i : EntryNo) (f : Entry → Entry) : (s.modEntry i f).tSent = s.tSent := rfl
@[simp] theorem State.modEntry_freshCount (i : EntryNo) (f : Entry → Entry) : (s.modEntry i f).freshCount = s.freshCount := rfl
@[simp] theorem State.modEntry_pending (i : EntryNo) (f : Entry → Entry) : (s.modEntry i f).pending = s.pending := rfl

/-! ### free -/

@[simp] theorem State.free_setup (i : EntryNo) : (s.free i).setup = s.setup := rfl
@[simp] theorem State.free_lines (i : EntryNo) : (s.free i).lines = s.lines := rfl
@[simp] theorem State.free_rounds (i : EntryNo) : (s.free i).rounds = s.rounds := rfl
@[simp] theorem State.free_ports (i : EntryNo) : (s.free i).ports = s.ports := rfl
@[simp] theorem State.free_notes (i : EntryNo) : (s.free i).notes = s.notes := rfl
@[simp] theorem State.free_bLinkUp (i : EntryNo) : (s.free i).bLinkUp = s.bLinkUp := rfl
@[simp] theorem State.free_channels (i : EntryNo) : (s.free i).channels = s.channels := rfl
@[simp] theorem State.free_guard (i : EntryNo) : (s.free i).guard = s.guard := rfl
@[simp] theorem State.free_attention (i : EntryNo) : (s.free i).attention = s.attention := rfl
@[simp] theorem State.free_pSent (i : EntryNo) : (s.free i).pSent = s.pSent := rfl
@[simp] theorem State.free_bSent (i : EntryNo) : (s.free i).bSent = s.bSent := rfl
@[simp] theorem State.free_tSent (i : EntryNo) : (s.free i).tSent = s.tSent := rfl
@[simp] theorem State.free_freshCount (i : EntryNo) : (s.free i).freshCount = s.freshCount := rfl
@[simp] theorem State.free_pending (i : EntryNo) : (s.free i).pending = s.pending := rfl

/-! ### bumpRound -/

@[simp] theorem State.bumpRound_setup (i : EntryNo) : (s.bumpRound i).setup = s.setup := rfl
@[simp] theorem State.bumpRound_lines (i : EntryNo) : (s.bumpRound i).lines = s.lines := rfl
@[simp] theorem State.bumpRound_entries (i : EntryNo) : (s.bumpRound i).entries = s.entries := rfl
@[simp] theorem State.bumpRound_order (i : EntryNo) : (s.bumpRound i).order = s.order := rfl
@[simp] theorem State.bumpRound_ports (i : EntryNo) : (s.bumpRound i).ports = s.ports := rfl
@[simp] theorem State.bumpRound_notes (i : EntryNo) : (s.bumpRound i).notes = s.notes := rfl
@[simp] theorem State.bumpRound_bLinkUp (i : EntryNo) : (s.bumpRound i).bLinkUp = s.bLinkUp := rfl
@[simp] theorem State.bumpRound_channels (i : EntryNo) : (s.bumpRound i).channels = s.channels := rfl
@[simp] theorem State.bumpRound_guard (i : EntryNo) : (s.bumpRound i).guard = s.guard := rfl
@[simp] theorem State.bumpRound_attention (i : EntryNo) : (s.bumpRound i).attention = s.attention := rfl
@[simp] theorem State.bumpRound_pSent (i : EntryNo) : (s.bumpRound i).pSent = s.pSent := rfl
@[simp] theorem State.bumpRound_bSent (i : EntryNo) : (s.bumpRound i).bSent = s.bSent := rfl
@[simp] theorem State.bumpRound_tSent (i : EntryNo) : (s.bumpRound i).tSent = s.tSent := rfl
@[simp] theorem State.bumpRound_freshCount (i : EntryNo) : (s.bumpRound i).freshCount = s.freshCount := rfl
@[simp] theorem State.bumpRound_pending (i : EntryNo) : (s.bumpRound i).pending = s.pending := rfl

/-! ### modPort -/

@[simp] theorem State.modPort_setup (p : PortNo) (f : Port → Port) : (s.modPort p f).setup = s.setup := rfl
@[simp] theorem State.modPort_lines (p : PortNo) (f : Port → Port) : (s.modPort p f).lines = s.lines := rfl
@[simp] theorem State.modPort_entries (p : PortNo) (f : Port → Port) : (s.modPort p f).entries = s.entries := rfl
@[simp] theorem State.modPort_rounds (p : PortNo) (f : Port → Port) : (s.modPort p f).rounds = s.rounds := rfl
@[simp] theorem State.modPort_order (p : PortNo) (f : Port → Port) : (s.modPort p f).order = s.order := rfl
@[simp] theorem State.modPort_notes (p : PortNo) (f : Port → Port) : (s.modPort p f).notes = s.notes := rfl
@[simp] theorem State.modPort_bLinkUp (p : PortNo) (f : Port → Port) : (s.modPort p f).bLinkUp = s.bLinkUp := rfl
@[simp] theorem State.modPort_channels (p : PortNo) (f : Port → Port) : (s.modPort p f).channels = s.channels := rfl
@[simp] theorem State.modPort_guard (p : PortNo) (f : Port → Port) : (s.modPort p f).guard = s.guard := rfl
@[simp] theorem State.modPort_attention (p : PortNo) (f : Port → Port) : (s.modPort p f).attention = s.attention := rfl
@[simp] theorem State.modPort_pSent (p : PortNo) (f : Port → Port) : (s.modPort p f).pSent = s.pSent := rfl
@[simp] theorem State.modPort_bSent (p : PortNo) (f : Port → Port) : (s.modPort p f).bSent = s.bSent := rfl
@[simp] theorem State.modPort_tSent (p : PortNo) (f : Port → Port) : (s.modPort p f).tSent = s.tSent := rfl
@[simp] theorem State.modPort_freshCount (p : PortNo) (f : Port → Port) : (s.modPort p f).freshCount = s.freshCount := rfl
@[simp] theorem State.modPort_pending (p : PortNo) (f : Port → Port) : (s.modPort p f).pending = s.pending := rfl

/-! ### modChannel -/

@[simp] theorem State.modChannel_setup (c : ChannelNo) (f : Channel → Channel) : (s.modChannel c f).setup = s.setup := rfl
@[simp] theorem State.modChannel_lines (c : ChannelNo) (f : Channel → Channel) : (s.modChannel c f).lines = s.lines := rfl
@[simp] theorem State.modChannel_entries (c : ChannelNo) (f : Channel → Channel) : (s.modChannel c f).entries = s.entries := rfl
@[simp] theorem State.modChannel_rounds (c : ChannelNo) (f : Channel → Channel) : (s.modChannel c f).rounds = s.rounds := rfl
@[simp] theorem State.modChannel_order (c : ChannelNo) (f : Channel → Channel) : (s.modChannel c f).order = s.order := rfl
@[simp] theorem State.modChannel_ports (c : ChannelNo) (f : Channel → Channel) : (s.modChannel c f).ports = s.ports := rfl
@[simp] theorem State.modChannel_notes (c : ChannelNo) (f : Channel → Channel) : (s.modChannel c f).notes = s.notes := rfl
@[simp] theorem State.modChannel_bLinkUp (c : ChannelNo) (f : Channel → Channel) : (s.modChannel c f).bLinkUp = s.bLinkUp := rfl
@[simp] theorem State.modChannel_guard (c : ChannelNo) (f : Channel → Channel) : (s.modChannel c f).guard = s.guard := rfl
@[simp] theorem State.modChannel_attention (c : ChannelNo) (f : Channel → Channel) : (s.modChannel c f).attention = s.attention := rfl
@[simp] theorem State.modChannel_pSent (c : ChannelNo) (f : Channel → Channel) : (s.modChannel c f).pSent = s.pSent := rfl
@[simp] theorem State.modChannel_bSent (c : ChannelNo) (f : Channel → Channel) : (s.modChannel c f).bSent = s.bSent := rfl
@[simp] theorem State.modChannel_tSent (c : ChannelNo) (f : Channel → Channel) : (s.modChannel c f).tSent = s.tSent := rfl
@[simp] theorem State.modChannel_freshCount (c : ChannelNo) (f : Channel → Channel) : (s.modChannel c f).freshCount = s.freshCount := rfl
@[simp] theorem State.modChannel_pending (c : ChannelNo) (f : Channel → Channel) : (s.modChannel c f).pending = s.pending := rfl

/-! ### setNote -/

@[simp] theorem State.setNote_setup (h : Holder) (v : Option PortNo) : (s.setNote h v).setup = s.setup := rfl
@[simp] theorem State.setNote_lines (h : Holder) (v : Option PortNo) : (s.setNote h v).lines = s.lines := rfl
@[simp] theorem State.setNote_entries (h : Holder) (v : Option PortNo) : (s.setNote h v).entries = s.entries := rfl
@[simp] theorem State.setNote_rounds (h : Holder) (v : Option PortNo) : (s.setNote h v).rounds = s.rounds := rfl
@[simp] theorem State.setNote_order (h : Holder) (v : Option PortNo) : (s.setNote h v).order = s.order := rfl
@[simp] theorem State.setNote_ports (h : Holder) (v : Option PortNo) : (s.setNote h v).ports = s.ports := rfl
@[simp] theorem State.setNote_bLinkUp (h : Holder) (v : Option PortNo) : (s.setNote h v).bLinkUp = s.bLinkUp := rfl
@[simp] theorem State.setNote_channels (h : Holder) (v : Option PortNo) : (s.setNote h v).channels = s.channels := rfl
@[simp] theorem State.setNote_guard (h : Holder) (v : Option PortNo) : (s.setNote h v).guard = s.guard := rfl
@[simp] theorem State.setNote_attention (h : Holder) (v : Option PortNo) : (s.setNote h v).attention = s.attention := rfl
@[simp] theorem State.setNote_pSent (h : Holder) (v : Option PortNo) : (s.setNote h v).pSent = s.pSent := rfl
@[simp] theorem State.setNote_bSent (h : Holder) (v : Option PortNo) : (s.setNote h v).bSent = s.bSent := rfl
@[simp] theorem State.setNote_tSent (h : Holder) (v : Option PortNo) : (s.setNote h v).tSent = s.tSent := rfl
@[simp] theorem State.setNote_freshCount (h : Holder) (v : Option PortNo) : (s.setNote h v).freshCount = s.freshCount := rfl
@[simp] theorem State.setNote_pending (h : Holder) (v : Option PortNo) : (s.setNote h v).pending = s.pending := rfl

/-! ### sendP -/

@[simp] theorem State.sendP_setup (m : PMessage) : (s.sendP m).setup = s.setup := rfl
@[simp] theorem State.sendP_lines (m : PMessage) : (s.sendP m).lines = s.lines := rfl
@[simp] theorem State.sendP_entries (m : PMessage) : (s.sendP m).entries = s.entries := rfl
@[simp] theorem State.sendP_rounds (m : PMessage) : (s.sendP m).rounds = s.rounds := rfl
@[simp] theorem State.sendP_order (m : PMessage) : (s.sendP m).order = s.order := rfl
@[simp] theorem State.sendP_ports (m : PMessage) : (s.sendP m).ports = s.ports := rfl
@[simp] theorem State.sendP_notes (m : PMessage) : (s.sendP m).notes = s.notes := rfl
@[simp] theorem State.sendP_bLinkUp (m : PMessage) : (s.sendP m).bLinkUp = s.bLinkUp := rfl
@[simp] theorem State.sendP_channels (m : PMessage) : (s.sendP m).channels = s.channels := rfl
@[simp] theorem State.sendP_guard (m : PMessage) : (s.sendP m).guard = s.guard := rfl
@[simp] theorem State.sendP_attention (m : PMessage) : (s.sendP m).attention = s.attention := rfl
@[simp] theorem State.sendP_bSent (m : PMessage) : (s.sendP m).bSent = s.bSent := rfl
@[simp] theorem State.sendP_tSent (m : PMessage) : (s.sendP m).tSent = s.tSent := rfl
@[simp] theorem State.sendP_freshCount (m : PMessage) : (s.sendP m).freshCount = s.freshCount := rfl
@[simp] theorem State.sendP_pending (m : PMessage) : (s.sendP m).pending = s.pending := rfl

/-! ### sendB -/

@[simp] theorem State.sendB_setup (m : BMessage) : (s.sendB m).setup = s.setup := rfl
@[simp] theorem State.sendB_lines (m : BMessage) : (s.sendB m).lines = s.lines := rfl
@[simp] theorem State.sendB_entries (m : BMessage) : (s.sendB m).entries = s.entries := rfl
@[simp] theorem State.sendB_rounds (m : BMessage) : (s.sendB m).rounds = s.rounds := rfl
@[simp] theorem State.sendB_order (m : BMessage) : (s.sendB m).order = s.order := rfl
@[simp] theorem State.sendB_ports (m : BMessage) : (s.sendB m).ports = s.ports := rfl
@[simp] theorem State.sendB_notes (m : BMessage) : (s.sendB m).notes = s.notes := rfl
@[simp] theorem State.sendB_bLinkUp (m : BMessage) : (s.sendB m).bLinkUp = s.bLinkUp := rfl
@[simp] theorem State.sendB_channels (m : BMessage) : (s.sendB m).channels = s.channels := rfl
@[simp] theorem State.sendB_guard (m : BMessage) : (s.sendB m).guard = s.guard := rfl
@[simp] theorem State.sendB_attention (m : BMessage) : (s.sendB m).attention = s.attention := rfl
@[simp] theorem State.sendB_pSent (m : BMessage) : (s.sendB m).pSent = s.pSent := rfl
@[simp] theorem State.sendB_tSent (m : BMessage) : (s.sendB m).tSent = s.tSent := rfl
@[simp] theorem State.sendB_freshCount (m : BMessage) : (s.sendB m).freshCount = s.freshCount := rfl
@[simp] theorem State.sendB_pending (m : BMessage) : (s.sendB m).pending = s.pending := rfl

/-! ### sendT -/

@[simp] theorem State.sendT_setup (p : PortNo) (m : TMessage) : (s.sendT p m).setup = s.setup := rfl
@[simp] theorem State.sendT_lines (p : PortNo) (m : TMessage) : (s.sendT p m).lines = s.lines := rfl
@[simp] theorem State.sendT_entries (p : PortNo) (m : TMessage) : (s.sendT p m).entries = s.entries := rfl
@[simp] theorem State.sendT_rounds (p : PortNo) (m : TMessage) : (s.sendT p m).rounds = s.rounds := rfl
@[simp] theorem State.sendT_order (p : PortNo) (m : TMessage) : (s.sendT p m).order = s.order := rfl
@[simp] theorem State.sendT_ports (p : PortNo) (m : TMessage) : (s.sendT p m).ports = s.ports := rfl
@[simp] theorem State.sendT_notes (p : PortNo) (m : TMessage) : (s.sendT p m).notes = s.notes := rfl
@[simp] theorem State.sendT_bLinkUp (p : PortNo) (m : TMessage) : (s.sendT p m).bLinkUp = s.bLinkUp := rfl
@[simp] theorem State.sendT_channels (p : PortNo) (m : TMessage) : (s.sendT p m).channels = s.channels := rfl
@[simp] theorem State.sendT_guard (p : PortNo) (m : TMessage) : (s.sendT p m).guard = s.guard := rfl
@[simp] theorem State.sendT_attention (p : PortNo) (m : TMessage) : (s.sendT p m).attention = s.attention := rfl
@[simp] theorem State.sendT_pSent (p : PortNo) (m : TMessage) : (s.sendT p m).pSent = s.pSent := rfl
@[simp] theorem State.sendT_bSent (p : PortNo) (m : TMessage) : (s.sendT p m).bSent = s.bSent := rfl
@[simp] theorem State.sendT_freshCount (p : PortNo) (m : TMessage) : (s.sendT p m).freshCount = s.freshCount := rfl
@[simp] theorem State.sendT_pending (p : PortNo) (m : TMessage) : (s.sendT p m).pending = s.pending := rfl

/-! ### evalPending -/

@[simp] theorem State.evalPending_setup : s.evalPending.setup = s.setup := rfl
@[simp] theorem State.evalPending_lines : s.evalPending.lines = s.lines := rfl
@[simp] theorem State.evalPending_entries : s.evalPending.entries = s.entries := rfl
@[simp] theorem State.evalPending_rounds : s.evalPending.rounds = s.rounds := rfl
@[simp] theorem State.evalPending_order : s.evalPending.order = s.order := rfl
@[simp] theorem State.evalPending_ports : s.evalPending.ports = s.ports := rfl
@[simp] theorem State.evalPending_notes : s.evalPending.notes = s.notes := rfl
@[simp] theorem State.evalPending_bLinkUp : s.evalPending.bLinkUp = s.bLinkUp := rfl
@[simp] theorem State.evalPending_channels : s.evalPending.channels = s.channels := rfl
@[simp] theorem State.evalPending_guard : s.evalPending.guard = s.guard := rfl
@[simp] theorem State.evalPending_bSent : s.evalPending.bSent = s.bSent := rfl
@[simp] theorem State.evalPending_tSent : s.evalPending.tSent = s.tSent := rfl
@[simp] theorem State.evalPending_freshCount : s.evalPending.freshCount = s.freshCount := rfl
@[simp] theorem State.evalPending_pending : s.evalPending.pending = s.pending := rfl

/-! ### raise -/

@[simp] theorem State.raise_setup (a : AttnSource) (k : AttnKind) (d : Option (Status × Word)) : (s.raise a k d).setup = s.setup := rfl
@[simp] theorem State.raise_lines (a : AttnSource) (k : AttnKind) (d : Option (Status × Word)) : (s.raise a k d).lines = s.lines := rfl
@[simp] theorem State.raise_entries (a : AttnSource) (k : AttnKind) (d : Option (Status × Word)) : (s.raise a k d).entries = s.entries := rfl
@[simp] theorem State.raise_rounds (a : AttnSource) (k : AttnKind) (d : Option (Status × Word)) : (s.raise a k d).rounds = s.rounds := rfl
@[simp] theorem State.raise_order (a : AttnSource) (k : AttnKind) (d : Option (Status × Word)) : (s.raise a k d).order = s.order := rfl
@[simp] theorem State.raise_ports (a : AttnSource) (k : AttnKind) (d : Option (Status × Word)) : (s.raise a k d).ports = s.ports := rfl
@[simp] theorem State.raise_notes (a : AttnSource) (k : AttnKind) (d : Option (Status × Word)) : (s.raise a k d).notes = s.notes := rfl
@[simp] theorem State.raise_bLinkUp (a : AttnSource) (k : AttnKind) (d : Option (Status × Word)) : (s.raise a k d).bLinkUp = s.bLinkUp := rfl
@[simp] theorem State.raise_channels (a : AttnSource) (k : AttnKind) (d : Option (Status × Word)) : (s.raise a k d).channels = s.channels := rfl
@[simp] theorem State.raise_guard (a : AttnSource) (k : AttnKind) (d : Option (Status × Word)) : (s.raise a k d).guard = s.guard := rfl
@[simp] theorem State.raise_bSent (a : AttnSource) (k : AttnKind) (d : Option (Status × Word)) : (s.raise a k d).bSent = s.bSent := rfl
@[simp] theorem State.raise_tSent (a : AttnSource) (k : AttnKind) (d : Option (Status × Word)) : (s.raise a k d).tSent = s.tSent := rfl
@[simp] theorem State.raise_freshCount (a : AttnSource) (k : AttnKind) (d : Option (Status × Word)) : (s.raise a k d).freshCount = s.freshCount := rfl
@[simp] theorem State.raise_pending (a : AttnSource) (k : AttnKind) (d : Option (Status × Word)) : (s.raise a k d).pending = s.pending := rfl

/-! ### commitTables -/

@[simp] theorem State.commitTables_lines : s.commitTables.lines = s.lines := rfl
@[simp] theorem State.commitTables_entries : s.commitTables.entries = s.entries := rfl
@[simp] theorem State.commitTables_rounds : s.commitTables.rounds = s.rounds := rfl
@[simp] theorem State.commitTables_order : s.commitTables.order = s.order := rfl
@[simp] theorem State.commitTables_ports : s.commitTables.ports = s.ports := rfl
@[simp] theorem State.commitTables_notes : s.commitTables.notes = s.notes := rfl
@[simp] theorem State.commitTables_bLinkUp : s.commitTables.bLinkUp = s.bLinkUp := rfl
@[simp] theorem State.commitTables_channels : s.commitTables.channels = s.channels := rfl
@[simp] theorem State.commitTables_guard : s.commitTables.guard = s.guard := rfl
@[simp] theorem State.commitTables_attention : s.commitTables.attention = s.attention := rfl
@[simp] theorem State.commitTables_pSent : s.commitTables.pSent = s.pSent := rfl
@[simp] theorem State.commitTables_bSent : s.commitTables.bSent = s.bSent := rfl
@[simp] theorem State.commitTables_tSent : s.commitTables.tSent = s.tSent := rfl
@[simp] theorem State.commitTables_freshCount : s.commitTables.freshCount = s.freshCount := rfl
@[simp] theorem State.commitTables_pending : s.commitTables.pending = s.pending := rfl

/-! ### copyBackTables -/

@[simp] theorem State.copyBackTables_lines : s.copyBackTables.lines = s.lines := rfl
@[simp] theorem State.copyBackTables_entries : s.copyBackTables.entries = s.entries := rfl
@[simp] theorem State.copyBackTables_rounds : s.copyBackTables.rounds = s.rounds := rfl
@[simp] theorem State.copyBackTables_order : s.copyBackTables.order = s.order := rfl
@[simp] theorem State.copyBackTables_ports : s.copyBackTables.ports = s.ports := rfl
@[simp] theorem State.copyBackTables_notes : s.copyBackTables.notes = s.notes := rfl
@[simp] theorem State.copyBackTables_bLinkUp : s.copyBackTables.bLinkUp = s.bLinkUp := rfl
@[simp] theorem State.copyBackTables_channels : s.copyBackTables.channels = s.channels := rfl
@[simp] theorem State.copyBackTables_guard : s.copyBackTables.guard = s.guard := rfl
@[simp] theorem State.copyBackTables_attention : s.copyBackTables.attention = s.attention := rfl
@[simp] theorem State.copyBackTables_pSent : s.copyBackTables.pSent = s.pSent := rfl
@[simp] theorem State.copyBackTables_bSent : s.copyBackTables.bSent = s.bSent := rfl
@[simp] theorem State.copyBackTables_tSent : s.copyBackTables.tSent = s.tSent := rfl
@[simp] theorem State.copyBackTables_freshCount : s.copyBackTables.freshCount = s.freshCount := rfl
@[simp] theorem State.copyBackTables_pending : s.copyBackTables.pending = s.pending := rfl

/-! ### modSettings -/

@[simp] theorem State.modSettings_lines (f : Settings → Settings) : (s.modSettings f).lines = s.lines := rfl
@[simp] theorem State.modSettings_entries (f : Settings → Settings) : (s.modSettings f).entries = s.entries := rfl
@[simp] theorem State.modSettings_rounds (f : Settings → Settings) : (s.modSettings f).rounds = s.rounds := rfl
@[simp] theorem State.modSettings_order (f : Settings → Settings) : (s.modSettings f).order = s.order := rfl
@[simp] theorem State.modSettings_ports (f : Settings → Settings) : (s.modSettings f).ports = s.ports := rfl
@[simp] theorem State.modSettings_notes (f : Settings → Settings) : (s.modSettings f).notes = s.notes := rfl
@[simp] theorem State.modSettings_bLinkUp (f : Settings → Settings) : (s.modSettings f).bLinkUp = s.bLinkUp := rfl
@[simp] theorem State.modSettings_channels (f : Settings → Settings) : (s.modSettings f).channels = s.channels := rfl
@[simp] theorem State.modSettings_guard (f : Settings → Settings) : (s.modSettings f).guard = s.guard := rfl
@[simp] theorem State.modSettings_attention (f : Settings → Settings) : (s.modSettings f).attention = s.attention := rfl
@[simp] theorem State.modSettings_pSent (f : Settings → Settings) : (s.modSettings f).pSent = s.pSent := rfl
@[simp] theorem State.modSettings_bSent (f : Settings → Settings) : (s.modSettings f).bSent = s.bSent := rfl
@[simp] theorem State.modSettings_tSent (f : Settings → Settings) : (s.modSettings f).tSent = s.tSent := rfl
@[simp] theorem State.modSettings_freshCount (f : Settings → Settings) : (s.modSettings f).freshCount = s.freshCount := rfl
@[simp] theorem State.modSettings_pending (f : Settings → Settings) : (s.modSettings f).pending = s.pending := rfl

/-! ### modLines -/

@[simp] theorem State.modLines_setup (f : Lines → Lines) : (s.modLines f).setup = s.setup := rfl
@[simp] theorem State.modLines_entries (f : Lines → Lines) : (s.modLines f).entries = s.entries := rfl
@[simp] theorem State.modLines_rounds (f : Lines → Lines) : (s.modLines f).rounds = s.rounds := rfl
@[simp] theorem State.modLines_order (f : Lines → Lines) : (s.modLines f).order = s.order := rfl
@[simp] theorem State.modLines_ports (f : Lines → Lines) : (s.modLines f).ports = s.ports := rfl
@[simp] theorem State.modLines_notes (f : Lines → Lines) : (s.modLines f).notes = s.notes := rfl
@[simp] theorem State.modLines_bLinkUp (f : Lines → Lines) : (s.modLines f).bLinkUp = s.bLinkUp := rfl
@[simp] theorem State.modLines_channels (f : Lines → Lines) : (s.modLines f).channels = s.channels := rfl
@[simp] theorem State.modLines_guard (f : Lines → Lines) : (s.modLines f).guard = s.guard := rfl
@[simp] theorem State.modLines_attention (f : Lines → Lines) : (s.modLines f).attention = s.attention := rfl
@[simp] theorem State.modLines_pSent (f : Lines → Lines) : (s.modLines f).pSent = s.pSent := rfl
@[simp] theorem State.modLines_bSent (f : Lines → Lines) : (s.modLines f).bSent = s.bSent := rfl
@[simp] theorem State.modLines_tSent (f : Lines → Lines) : (s.modLines f).tSent = s.tSent := rfl
@[simp] theorem State.modLines_freshCount (f : Lines → Lines) : (s.modLines f).freshCount = s.freshCount := rfl
@[simp] theorem State.modLines_pending (f : Lines → Lines) : (s.modLines f).pending = s.pending := rfl

/-! ### withDefaults -/

@[simp] theorem State.withDefaults_lines (x : Straps) : (s.withDefaults x).lines = s.lines := rfl
@[simp] theorem State.withDefaults_pSent (x : Straps) : (s.withDefaults x).pSent = s.pSent := rfl
@[simp] theorem State.withDefaults_bSent (x : Straps) : (s.withDefaults x).bSent = s.bSent := rfl
@[simp] theorem State.withDefaults_tSent (x : Straps) : (s.withDefaults x).tSent = s.tSent := rfl
@[simp] theorem State.withDefaults_freshCount (x : Straps) : (s.withDefaults x).freshCount = s.freshCount := rfl
@[simp] theorem State.withDefaults_pending (x : Straps) : (s.withDefaults x).pending = s.pending := rfl

/-! ### What each update writes -/

@[simp] theorem State.give_entries (i : EntryNo) (e : Entry) :
    (s.give i e).entries = s.entries.set i (some e) := rfl
@[simp] theorem State.give_order (i : EntryNo) (e : Entry) :
    (s.give i e).order = s.order ++ [i] := rfl
@[simp] theorem State.give_freshCount (i : EntryNo) (e : Entry) :
    (s.give i e).freshCount = s.freshCount + 1 := rfl
@[simp] theorem State.modEntry_entries (i : EntryNo) (f : Entry → Entry) :
    (s.modEntry i f).entries = s.entries.set i (s.entries[i].map f) := rfl
@[simp] theorem State.free_entries (i : EntryNo) :
    (s.free i).entries = s.entries.set i none := rfl
@[simp] theorem State.free_order (i : EntryNo) :
    (s.free i).order = s.order.filter fun j => j ≠ i := rfl
@[simp] theorem State.bumpRound_rounds (i : EntryNo) :
    (s.bumpRound i).rounds = s.rounds.set i (s.rounds[i] + 1) := rfl
@[simp] theorem State.modPort_ports (p : PortNo) (f : Port → Port) :
    (s.modPort p f).ports = s.ports.set p (f s.ports[p]) := rfl
@[simp] theorem State.modChannel_channels (c : ChannelNo) (f : Channel → Channel) :
    (s.modChannel c f).channels = s.channels.set c (f s.channels[c]) := rfl
@[simp] theorem State.setNote_notes (h : Holder) (v : Option PortNo) :
    (s.setNote h v).notes = s.notes.set h.code v := rfl
@[simp] theorem State.modLines_lines (f : Lines → Lines) : (s.modLines f).lines = f s.lines := rfl
@[simp] theorem State.modSettings_settings (f : Settings → Settings) :
    (s.modSettings f).setup.settings = f s.setup.settings := rfl
@[simp] theorem State.evalPending_out :
    s.evalPending.attention.out = s.pendingCondition := rfl
@[simp] theorem State.evalPending_queue :
    s.evalPending.attention.queue = s.attention.queue := rfl
@[simp] theorem State.evalPending_overflow :
    s.evalPending.attention.overflow = s.attention.overflow := rfl
@[simp] theorem State.evalPending_walk :
    s.evalPending.attention.walk = s.attention.walk := rfl

/-! ### One entry, one port, one channel after an update -/

theorem State.give_entry (i j : EntryNo) (e : Entry) :
    (s.give i e).entries[j] = if i = j then some e else s.entries[j] := by
  simp [Vector.getElem_set, Fin.val_inj]
theorem State.modEntry_entry (i j : EntryNo) (f : Entry → Entry) :
    (s.modEntry i f).entries[j] = if i = j then s.entries[j].map f else s.entries[j] := by
  by_cases h : i = j
  · subst h; simp
  · simp [h, Fin.val_inj]
theorem State.free_entry (i j : EntryNo) :
    (s.free i).entries[j] = if i = j then none else s.entries[j] := by
  simp [Vector.getElem_set, Fin.val_inj]
theorem State.modPort_port (p q : PortNo) (f : Port → Port) :
    (s.modPort p f).ports[q] = if p = q then f s.ports[q] else s.ports[q] := by
  by_cases h : p = q
  · subst h; simp
  · simp [h, Fin.val_inj]
theorem State.modChannel_channel (c d : ChannelNo) (f : Channel → Channel) :
    (s.modChannel c f).channels[d] = if c = d then f s.channels[d] else s.channels[d] := by
  by_cases h : c = d
  · subst h; simp
  · simp [h, Fin.val_inj]

end Sys2Proof.Machine
end

