-- ==== Sys2Proof/Laws/Table.lean ====
section
/-!
SUPPORT. What giving, changing and freeing an entry do to the table in arrival order, from which every
list, set and count over the entries is computed.
-/

namespace Sys2Proof.Machine

/-- The table depends on the order and the records alone. -/
theorem State.table_congr {s t : State} (ho : t.order = s.order) (he : t.entries = s.entries) :
    t.table = s.table := by
  simp [State.table, ho, he]

theorem State.mem_table {s : State} {i : EntryNo} {e : Entry} :
    (i, e) ∈ s.table ↔ i ∈ s.order ∧ s.entries[i] = some e := by
  simp only [State.table, List.mem_filterMap, Option.map_eq_some_iff, Prod.mk.injEq]
  constructor
  · rintro ⟨j, hj, f, hf, rfl, rfl⟩; exact ⟨hj, hf⟩
  · rintro ⟨hi, he⟩; exact ⟨i, hi, e, he, rfl, rfl⟩

/-- The entries of a kind stand in the table in the arrival order (R44). -/
theorem State.keys_filter_table (s : State) (q : Entry → Bool) :
    (s.table.filter fun ie => q ie.2).map Prod.fst = s.order.filter fun j => s.entries[j].any q := by
  unfold State.table
  induction s.order with
  | nil => rfl
  | cons i l ih =>
    rw [List.filterMap_cons, List.filter_cons]
    cases h : s.entries[i] with
    | none => exact ih
    | some e =>
      cases hq : q e <;> simp only [Option.map_some, List.filter_cons, Option.any_some, hq, if_true,
        Bool.false_eq_true, if_false, List.map_cons, ih]

/-- A new occupant is the youngest of the table (R44). -/
theorem State.table_give {s : State} {i : EntryNo} (h : i ∉ s.order) (e : Entry) :
    (s.give i e).table = s.table ++ [(i, e)] := by
  simp only [State.table, State.give_order, List.filterMap_append]
  congr 1
  · apply List.filterMap_congr
    intro j hj
    have : i ≠ j := fun h' => h (h' ▸ hj)
    rw [State.give_entry, if_neg this]
  · simp

/-- A freed entry leaves the table and the others keep their order (R44). -/
theorem State.table_free (s : State) (i : EntryNo) :
    (s.free i).table = s.table.filter fun jf => decide (jf.1 ≠ i) := by
  simp only [State.table, State.free_order, List.filter_filterMap, List.filterMap_filter]
  apply List.filterMap_congr
  intro j _
  rw [State.free_entry]
  by_cases h : i = j
  · subst h
    cases hj : s.entries[i] <;> simp [Option.filter]
  · have h' : j ≠ i := fun hh => h hh.symm
    cases s.entries[j] <;> simp [h, h', Option.filter]

/-- A change of one record changes the table at that entry alone. -/
theorem State.table_modEntry (s : State) (i : EntryNo) (f : Entry → Entry) :
    (s.modEntry i f).table = s.table.map fun jf => if i = jf.1 then (jf.1, f jf.2) else jf := by
  simp only [State.table, State.modEntry_order, List.map_filterMap]
  apply List.filterMap_congr
  intro j _
  rw [State.modEntry_entry]
  by_cases h : i = j
  · subst h; cases s.entries[i] <;> simp
  · cases s.entries[j] <;> simp [h]

/-- Of how many entries a condition on the record holds. -/
def State.countIf (s : State) (q : Entry → Bool) : Nat := s.table.countP fun ie => q ie.2

theorem State.owned_eq_countIf (s : State) (f : Origin → Bool) :
    s.owned f = s.countIf fun e => f e.origin := by
  simp [State.owned, State.countIf, List.countP_eq_length_filter]

theorem State.issuedCount_eq_countIf (s : State) (p : PortNo) :
    s.issuedCount p = s.countIf fun e => e.pieceOutAt p := by
  simp [State.issuedCount, State.issuedSet, State.countIf, List.countP_eq_length_filter]

/-- The issued count does not depend on the rounds. -/
theorem State.issuedCount_bumpRound (s : State) (i : EntryNo) (p : PortNo) :
    (s.bumpRound i).issuedCount p = s.issuedCount p := by
  rw [State.issuedCount_eq_countIf, State.issuedCount_eq_countIf]; rfl

theorem State.countIf_congr {s t : State} (h : t.table = s.table) (q : Entry → Bool) :
    t.countIf q = s.countIf q := by rw [State.countIf, h, State.countIf]

theorem State.countIf_give {s : State} {i : EntryNo} (h : i ∉ s.order) (e : Entry)
    (q : Entry → Bool) : (s.give i e).countIf q = s.countIf q + (if q e then 1 else 0) := by
  rw [State.countIf, State.table_give h, List.countP_append]
  simp [State.countIf, List.countP_cons]

theorem State.countIf_free_le (s : State) (i : EntryNo) (q : Entry → Bool) :
    (s.free i).countIf q ≤ s.countIf q := by
  rw [State.countIf, State.table_free, List.countP_filter, State.countIf]
  apply List.countP_mono_left
  intro ie _ h
  simp only [Bool.and_eq_true] at h
  exact h.1

/-- A change of one record after which the condition holds only if it held before. -/
theorem State.countIf_modEntry_le (s : State) (i : EntryNo) (f : Entry → Entry) (q : Entry → Bool)
    (h : ∀ e, s.entries[i] = some e → q (f e) = true → q e = true) :
    (s.modEntry i f).countIf q ≤ s.countIf q := by
  rw [State.countIf, State.table_modEntry, List.countP_map, State.countIf]
  apply List.countP_mono_left
  rintro ⟨j, e⟩ hj hq
  by_cases hi : i = j
  · subst hi
    exact h e (State.mem_table.1 hj).2 (by simpa using hq)
  · simpa [hi] using hq

/-- The indices of the table, in arrival order, are among the order. -/
theorem State.table_keys_sublist (s : State) : (s.table.map Prod.fst).Sublist s.order := by
  unfold State.table
  induction s.order with
  | nil => simp
  | cons i l ih =>
    rw [List.filterMap_cons]
    cases s.entries[i] with
    | none => exact ih.cons i
    | some e => exact ih.cons_cons i

/-- Only one entry of the table has a given index. -/
theorem State.countP_key_le_one {s : State} (hs : s.order.Nodup) (i : EntryNo) :
    s.table.countP (fun ie => decide (ie.1 = i)) ≤ 1 := by
  have h := List.nodup_iff_count_le_one.1 (s.table_keys_sublist.nodup hs) i
  rw [List.count, List.countP_map] at h
  exact h

/-- A change of one record adds at most one entry to a count. -/
theorem State.countIf_modEntry_le_succ {s : State} (hs : s.order.Nodup) (i : EntryNo)
    (f : Entry → Entry) (q : Entry → Bool) :
    (s.modEntry i f).countIf q ≤ s.countIf q + 1 := by
  have key : ∀ l : List (EntryNo × Entry),
      (l.map fun jf => if i = jf.1 then (jf.1, f jf.2) else jf).countP (fun ie => q ie.2) ≤
        l.countP (fun ie => q ie.2) + l.countP fun ie => decide (ie.1 = i) := by
    intro l
    induction l with
    | nil => simp
    | cons a l ih =>
      rw [List.map_cons, List.countP_cons, List.countP_cons, List.countP_cons]
      by_cases h : i = a.1
      · have h' : a.1 = i := h.symm
        simp only [h', decide_true, if_true]
        split <;> split <;> omega
      · have h' : a.1 ≠ i := fun hh => h hh.symm
        simp only [h, h', decide_false, if_false, Bool.false_eq_true]
        omega
  have := key s.table
  have := s.countP_key_le_one hs i
  rw [State.countIf, State.table_modEntry, State.countIf]
  omega

end Sys2Proof.Machine
end

