-- ==== Sys2Proof/Laws/Acts.lean ====
section
/-!
SUPPORT. What a step can do, said once. Every command is a chain of a few kinds of elementary acts;
`Act` lists those that can follow from any event (deliveries, ends, reports, asks, reads, the card
reset), with what each act guarantees about the record it changes. An invariant that every act
keeps is kept by every operation made of them.
-/

namespace Sys2Proof.Machine

/-- What a change of a record keeps: its origin and tag, the laws of a record, and the retry count
unless the new count is within the limit of its port. It may put a piece out at a port only where
its credit is not used up. -/
structure EntryKept (s : State) (e e' : Entry) : Prop where
  origin : e'.origin = e.origin
  tag : e'.tag = e.tag
  ok : e.Ok → e'.Ok
  orphaned : e.state = .orphaned → e'.state = .orphaned
  out : ∀ p, e'.pieceOutAt p = true →
    e.pieceOutAt p = true ∨ s.issuedCount p < s.setup.portConfig[p].credit
  retry : ∀ p, e'.onWaitList p = true →
    e'.retryCount ≤ s.setup.portConfig[p].retryLimit ∨
      (e.onWaitList p = true ∧ e'.retryCount ≤ e.retryCount)

/-- What a change of a channel record keeps. -/
structure ChannelKept (x y : Channel) : Prop where
  pace : x.paceCredit ≤ 15 → y.paceCredit ≤ 15
  units : x.units.length ≤ 2 → y.units.length ≤ 2

/-- There is room in the quota of an origin (R49). -/
def State.Room (s : State) : Origin → Prop
  | .p => (s.owned fun o => decide (o = .p)) < 8
  | .b _ => s.owned Origin.isB < 8
  | .m c => s.ownedM c < 2

/-- No unanswered request of the origin has this tag (R6). -/
def State.TagFree (s : State) (e : Entry) : Prop :=
  e.tag.isSome = true → ∀ jf ∈ s.table, jf.2.origin = e.origin → jf.2.tag = e.tag →
    jf.2.state = .orphaned

/-- A record that an entry can be given with. -/
structure State.Fresh (s : State) (e : Entry) : Prop where
  ok : e.Ok
  room : s.Room e.origin
  tag : s.TagFree e
  state : e.state = .waiting ∨ e.state = .serving
  retry : e.retryCount = 0

/-- One elementary act. -/
inductive Act : State → State → Prop
  | port (s : State) (p : PortNo) (f : Port → Port)
      (h : s.ports[p].noAnswer ≤ 7 → (f s.ports[p]).noAnswer ≤ 7) : Act s (s.modPort p f)
  | channel (s : State) (c : ChannelNo) (f : Channel → Channel)
      (h : ChannelKept s.channels[c] (f s.channels[c])) : Act s (s.modChannel c f)
  | note (s : State) (x : Holder) (v : Option PortNo) : Act s (s.setNote x v)
  | sendP (s : State) (m : PMessage) : Act s (s.sendP m)
  | sendB (s : State) (m : BMessage) : Act s (s.sendB m)
  | sendT (s : State) (p : PortNo) (m : TMessage) : Act s (s.sendT p m)
  | edit (s : State) (i : EntryNo) (f : Entry → Entry)
      (h : ∀ e, s.entries[i] = some e → EntryKept s e (f e)) : Act s (s.modEntry i f)
  | give (s : State) (i : EntryNo) (e : Entry) (h : s.entries[i] = none) (hf : s.Fresh e) :
      Act s (s.give i e)
  | free (s : State) (i : EntryNo) : Act s (s.free i)
  | raise (s : State) (a : AttnSource) (k : AttnKind) (d : Option (Status × Word)) :
      Act s (s.raise a k d)
  | popRecord (s : State) (r : AttnRecord) (q : List AttnRecord)
      (h : s.attention.queue = r :: q) :
      Act s { s with attention := { s.attention with queue := q } }.evalPending
  | clearOverflow (s : State) :
      Act s { s with attention := { s.attention with overflow := false } }.evalPending
  | walk (s : State) (w : Option Walk) : Act s { s with attention := { s.attention with walk := w } }
  | cardReset (s : State) : Act s s.cardReset

/-- A chain of acts. -/
abbrev Acts : State → State → Prop := Relation.ReflTransGen Act

theorem Acts.one {s t : State} (h : Act s t) : Acts s t := Relation.ReflTransGen.single h

theorem Acts.refl (s : State) : Acts s s := Relation.ReflTransGen.refl

/-- An act after a chain. -/
theorem Acts.snoc {s t u : State} (h : Acts s t) (h' : Act t u) : Acts s u :=
  Relation.ReflTransGen.tail h h'

/-- Chains compose. -/
theorem Acts.then {s t u : State} (h : Acts s t) (h' : Acts t u) : Acts s u := h.trans h'

theorem State.sendAborted_frame (s : State) (l : List (EntryNo × Entry)) :
    ∃ m, s.sendAborted l = { s with bSent := m } := by
  induction l generalizing s with
  | nil => exact ⟨_, rfl⟩
  | cons ie l ih =>
    obtain ⟨i, e⟩ := ie
    cases ho : e.origin with
    | p => simpa [State.sendAborted, ho] using ih s
    | m c => simpa [State.sendAborted, ho] using ih s
    | b x =>
      obtain ⟨m, hm⟩ := ih (s.sendB (s.bResponse x (e.ended .aborted none none)))
      exact ⟨m, by simp only [State.sendAborted, ho, hm]; rfl⟩

/-- What a card reset leaves alone. -/
theorem State.cardReset_untouched (s : State) : Untouched s s.cardReset := by
  obtain ⟨m, hm⟩ := s.sendAborted_frame (s.table.filter fun ie => ie.2.aborts)
  simp only [State.cardReset, hm]
  exact ⟨rfl, rfl, rfl, rfl, rfl⟩

theorem Untouched.refl (s : State) : Untouched s s := ⟨rfl, rfl, rfl, rfl, rfl⟩

theorem Untouched.trans {s t u : State} (h : Untouched s t) (h' : Untouched t u) : Untouched s u :=
  ⟨h'.setup.trans h.setup, h'.lines.trans h.lines, h'.rounds.trans h.rounds,
    h'.bLinkUp.trans h.bLinkUp, h'.pending.trans h.pending⟩

theorem Act.untouched {s t : State} (h : Act s t) : Untouched s t := by
  cases h with
  | cardReset => exact s.cardReset_untouched
  | port => exact ⟨rfl, rfl, rfl, rfl, rfl⟩
  | channel => exact ⟨rfl, rfl, rfl, rfl, rfl⟩
  | note => exact ⟨rfl, rfl, rfl, rfl, rfl⟩
  | sendP => exact ⟨rfl, rfl, rfl, rfl, rfl⟩
  | sendB => exact ⟨rfl, rfl, rfl, rfl, rfl⟩
  | sendT => exact ⟨rfl, rfl, rfl, rfl, rfl⟩
  | edit => exact ⟨rfl, rfl, rfl, rfl, rfl⟩
  | give => exact ⟨rfl, rfl, rfl, rfl, rfl⟩
  | free => exact ⟨rfl, rfl, rfl, rfl, rfl⟩
  | raise => exact ⟨rfl, rfl, rfl, rfl, rfl⟩
  | popRecord => exact ⟨rfl, rfl, rfl, rfl, rfl⟩
  | clearOverflow => exact ⟨rfl, rfl, rfl, rfl, rfl⟩
  | walk => exact ⟨rfl, rfl, rfl, rfl, rfl⟩

/-- A chain of acts changes no setting, no line, no round, not the B link state and not the queue. -/
theorem Acts.untouched {s t : State} (h : Acts s t) : Untouched s t := by
  induction h with
  | refl => exact Untouched.refl s
  | tail _ h ih => exact ih.trans h.untouched

end Sys2Proof.Machine
end

