-- ==== Sys2Proof/Laws/Chains.lean ====
section
/-!
SUPPORT. Every shared operation that follows within an event is a chain of acts: the ends of entries with
their deliveries and reports, the loss of a port, the sweep, the asks, the management reads and the
close of an event.
-/

namespace Sys2Proof.Machine

theorem Acts.modPort (s : State) (p : PortNo) (f : Port → Port)
    (h : ∀ x : Port, x.noAnswer ≤ 7 → (f x).noAnswer ≤ 7) : Acts s (s.modPort p f) :=
  .one (.port s p f (h _))

theorem Acts.modChannel (s : State) (c : ChannelNo) (f : Channel → Channel)
    (h : ChannelKept s.channels[c] (f s.channels[c])) : Acts s (s.modChannel c f) :=
  .one (.channel s c f h)

/-- A change of the buffer alone keeps what a record must keep. -/
theorem EntryKept.buffer (s : State) (e : Entry) (b : Vector Byte 64) :
    EntryKept s e { e with buffer := b } where
  origin := rfl
  tag := rfl
  ok h := ⟨h.serving, h.forwarded, h.remote, h.complete, h.orphaned, h.final, h.atPort, h.skip⟩
  orphaned h := h
  out _ h := .inl h
  retry _ h := .inr ⟨h, Nat.le_refl _⟩

/-- The record of a P entry that ends. -/
theorem EntryKept.ended (s : State) (e : Entry) (hp : e.origin = .p) (ho : e.state ≠ .orphaned)
    (st : Status) (a : Option Word) (d : Option Detail) : EntryKept s e (e.ended st a d) where
  origin := rfl
  tag := rfl
  ok h := by
    refine ⟨?_, ?_, ?_, fun _ => hp, ?_, ?_, ?_, h.skip⟩ <;> simp [Entry.ended]
  orphaned h := absurd h ho
  out p h := by simp [Entry.pieceOutAt, Entry.ended] at h
  retry p h := by simp [Entry.onWaitList, Entry.ended] at h

/-! ## Ends and deliveries -/

theorem State.holdAtEnd_acts (s : State) (i : EntryNo) (e : Entry) (st : Status) :
    Acts s (s.holdAtEnd i e st) := by
  unfold State.holdAtEnd
  repeat' split
  all_goals first
    | exact .refl s
    | exact Acts.modPort s _ _ fun _ h => h

@[simp] theorem State.holdAtEnd_entries (s : State) (i : EntryNo) (e : Entry) (st : Status) :
    (s.holdAtEnd i e st).entries = s.entries := by
  unfold State.holdAtEnd
  repeat' split
  all_goals rfl

theorem State.deliverUpTo_acts (n : Nat) (s : State) : Acts s (s.deliverUpTo n) := by
  induction n generalizing s with
  | zero => exact .refl s
  | succ n ih =>
    rw [State.deliverUpTo]
    split
    · exact .refl s
    · rename_i t h
      refine Acts.then ?_ (ih t)
      unfold State.deliverHead at h
      split at h
      · simp at h
      · split at h
        · simp only [Option.some.injEq] at h
          subst h
          exact (Acts.one (.sendP s _)).snoc (.free _ _)
        · simp at h

theorem State.deliverP_acts (s : State) : Acts s s.deliverP := State.deliverUpTo_acts 24 s

/-! ## Move channels -/

/-- A change of the fields of a channel other than pace credit and units. -/
theorem ChannelKept.same {x y : Channel} (hp : y.paceCredit = x.paceCredit) (hu : y.units = x.units) :
    ChannelKept x y := ⟨fun h => hp ▸ h, fun h => hu ▸ h⟩

/-- A change that clears the pace credit and does not lengthen the unit list. -/
theorem ChannelKept.less {x y : Channel} (hp : y.paceCredit ≤ x.paceCredit)
    (hu : y.units.length ≤ x.units.length) : ChannelKept x y :=
  ⟨fun h => Nat.le_trans hp h, fun h => Nat.le_trans hu h⟩

theorem State.faultIdle_acts (s : State) (c : ChannelNo) : Acts s (s.faultIdle c) := by
  unfold State.faultIdle
  exact (Acts.modChannel s c _ (.less (Nat.zero_le _) (Nat.le_refl _))).snoc (.raise _ _ _ _)

theorem State.restChannel_acts (s : State) (c : ChannelNo) : Acts s (s.restChannel c) := by
  simp only [State.restChannel]
  repeat' split
  all_goals first
    | exact .refl s
    | exact s.faultIdle_acts c
    | exact Acts.modChannel s c _ (.less (Nat.zero_le _) (Nat.le_refl _))
    | exact Acts.modChannel s c _ (.same rfl rfl)

theorem dropLater_length_le (l : List UnitRecord) : (dropLater l).length ≤ l.length :=
  List.length_filterMap_le _ _

theorem State.failUnit_acts (s : State) (c : ChannelNo) (others : List UnitRecord)
    (h : others.length ≤ s.channels[c].units.length) (st : Status) (a : Word) (d : Option Detail) :
    Acts s (s.failUnit c others st a d) :=
  Acts.modChannel s c _ (.less (Nat.le_refl _) (Nat.le_trans (dropLater_length_le _) h))

/-- A lowest FREE entry is FREE. -/
theorem State.lowestFree_none {s : State} {i : EntryNo} (h : s.lowestFree = some i) :
    s.entries[i] = none := by
  have := List.find?_some h
  simpa using this

/-- A decoded record that joins a wait list satisfies the laws of a record. -/
theorem Entry.placed_ok (e : Entry) (d : DecodeRecord) (hf : e.finalStatus = none)
    (hk : e.skipCount = 0) : (e.placed d).Ok where
  serving := by simp [Entry.placed]
  forwarded := by simp [Entry.placed]
  remote := by simp [Entry.placed]
  complete := by simp [Entry.placed]
  orphaned := by simp [Entry.placed]
  final := by simp [Entry.placed, hf]
  atPort _ := ⟨d, rfl, rfl, rfl⟩
  skip := by simp [Entry.placed, hk]

/-- What creation by a channel answers, and that it is a chain of acts that leaves the channels
alone. -/
theorem State.createMove_acts (s : State) (c : ChannelNo) (op : Op) (a : Word) (n : Nat)
    (data : List Byte) : Acts s (s.createMove c op a n data).1 := by
  unfold State.createMove
  split
  · rename_i hq
    split
    · exact .refl s
    · rename_i i hi
      split
      · exact .refl s
      · rename_i d _
        refine .one (.give s i _ (State.lowestFree_none hi) ?_)
        exact
          { ok := Entry.placed_ok _ _ rfl rfl
            room := hq
            tag := by simp [State.TagFree, Entry.placed, State.newEntry]
            state := .inl rfl
            retry := rfl }
  · exact .refl s

@[simp] theorem State.createMove_channels (s : State) (c : ChannelNo) (op : Op) (a : Word) (n : Nat)
    (data : List Byte) : (s.createMove c op a n data).1.channels = s.channels := by
  unfold State.createMove
  repeat' split
  all_goals rfl

theorem State.startWrite_acts (s : State) (c : ChannelNo) (u : UnitRecord) (rest : List UnitRecord)
    (h : rest.length + 1 ≤ s.channels[c].units.length) (bytes : List Byte) :
    Acts s (s.startWrite c u rest bytes) := by
  have hc := s.createMove_channels c .write s.channels[c].destinationCursor
    s.channels[c].descriptor.unit.bytes bytes
  have ha := s.createMove_acts c .write s.channels[c].destinationCursor
    s.channels[c].descriptor.unit.bytes bytes
  simp only [State.startWrite]
  split <;> rename_i heq <;> rw [heq] at hc ha <;> simp only at hc ha
  · refine ha.snoc (.channel _ _ _ (.less (Nat.le_refl _) ?_))
    simpa [hc] using h
  · refine ha.then (State.failUnit_acts _ c rest ?_ _ _ _)
    rw [hc]; omega
  · exact ha

theorem State.fetchFault_acts (s : State) (c : ChannelNo) (st : Status) (a : Word)
    (d : Option Detail) : Acts s (s.fetchFault c st a d) :=
  (Acts.modChannel s c _ (.same rfl rfl)).then (State.faultIdle_acts _ c)

theorem State.startFetch_acts (s : State) (c : ChannelNo) (a : Word) :
    Acts s (s.startFetch c a) := by
  simp only [State.startFetch]
  have h1 := Acts.modChannel s c
    (fun ch => { ch with state := .fetching, fetchAddress := some a }) (.same rfl rfl)
  have ha := State.createMove_acts
    (s.modChannel c fun ch => { ch with state := .fetching, fetchAddress := some a }) c .read a 16 []
  split <;> rename_i heq <;> rw [heq] at ha <;> simp only at ha
  · exact h1.then ha
  · exact (h1.then ha).then (State.fetchFault_acts _ c _ _ _)
  · exact h1.then ha

theorem State.completeDescriptor_acts (s : State) (c : ChannelNo) :
    Acts s (s.completeDescriptor c) := by
  simp only [State.completeDescriptor]
  have h1 := Acts.modChannel s c (fun ch => { ch with completed := ch.completed + 1 })
    (.same rfl rfl)
  generalize (s.modChannel c fun ch => { ch with completed := ch.completed + 1 }) = t at h1 ⊢
  have h2 : Acts s (if t.channels[c].descriptor.notify = true then
      t.raise (.channel c) .channelDone none else t) := by
    split
    · exact h1.snoc (.raise _ _ _ _)
    · exact h1
  generalize (if t.channels[c].descriptor.notify = true then
      t.raise (.channel c) .channelDone none else t) = u at h2 ⊢
  have idle (o : RunOutcome) : Acts s (u.modChannel c fun ch => ch.enterIdle o) :=
    h2.snoc (.channel _ _ _ (.less (Nat.zero_le _) (Nat.le_refl _)))
  repeat' split
  all_goals first
    | exact h2
    | exact idle _
    | exact h2.then (u.startFetch_acts c _)
    | exact h2.snoc (.channel _ _ _ (.same rfl rfl))

theorem State.writeDone_acts (s : State) (c : ChannelNo) (others : List UnitRecord)
    (h : others.length ≤ s.channels[c].units.length) : Acts s (s.writeDone c others) := by
  simp only [State.writeDone]
  have h1 := Acts.modChannel s c (fun ch =>
    { ch with
      units := others, remaining := ch.remaining - 1,
      destinationCursor :=
        nextCursor ch.destinationCursor ch.descriptor.destinationFixed ch.descriptor.unit })
    (.less (Nat.le_refl _) h)
  have hu : (s.modChannel c (fun ch =>
    { ch with
      units := others, remaining := ch.remaining - 1,
      destinationCursor :=
        nextCursor ch.destinationCursor ch.descriptor.destinationFixed
          ch.descriptor.unit })).channels[c].units = others := by
    rw [State.modChannel_channel, if_pos rfl]
  generalize (s.modChannel c (fun ch =>
    { ch with
      units := others, remaining := ch.remaining - 1,
      destinationCursor :=
        nextCursor ch.destinationCursor ch.descriptor.destinationFixed
          ch.descriptor.unit })) = t at h1 hu ⊢
  repeat' split
  all_goals first
    | exact h1
    | exact h1.then (t.completeDescriptor_acts c)
    | skip
  exact h1.then (t.startWrite_acts c _ _ (by rw [hu]; simp) _)

theorem State.fetchReport_acts (s : State) (c : ChannelNo) (st : Status) (a : Option Word)
    (d : Option Detail) (data : List Byte) : Acts s (s.fetchReport c st a d data) := by
  simp only [State.fetchReport]
  split
  · exact .refl s
  · split
    · split
      · have h1 := Acts.modChannel s c
          (fun ch => { ch with descriptor := Descriptor.ofBytes data, fetchAddress := none })
          (.same rfl rfl)
        split
        · exact h1.then (Acts.modChannel _ c _ (.less (Nat.zero_le _) (Nat.zero_le _)))
        · exact h1.then (State.fetchFault_acts _ c _ _ _)
      · exact s.fetchFault_acts c _ _ _
    · exact Acts.modChannel s c (fun ch => { ch with fetchAddress := none }) (.same rfl rfl)

theorem State.unitReport_acts (s : State) (c : ChannelNo) (k : Nat) (u : UnitRecord)
    (hk : k < s.channels[c].units.length) (a : Word) (st : Status) (fa : Option Word)
    (d : Option Detail) (data : List Byte) : Acts s (s.unitReport c k u a st fa d data) := by
  have he : (s.channels[c].units.eraseIdx k).length + 1 = s.channels[c].units.length := by
    rw [List.length_eraseIdx_of_lt hk]; omega
  simp only [State.unitReport]
  repeat' split
  all_goals first
    | exact .refl s
    | exact s.startWrite_acts c _ _ (by omega) _
    | exact s.failUnit_acts c _ (by omega) _ _ _
    | exact s.writeDone_acts c _ (by omega)
    | exact Acts.modChannel s c _ (.less (Nat.le_refl _) (by simp only; omega))
    | exact Acts.modChannel s c _ (.less (Nat.le_refl _) (by simp))

theorem State.report_acts (s : State) (c : ChannelNo) (i : EntryNo) (a : Word) (st : Status)
    (fa : Option Word) (d : Option Detail) (data : List Byte) :
    Acts s (s.report c i a st fa d data) := by
  simp only [State.report]
  refine Acts.then ?_ (State.restChannel_acts _ c)
  split
  · split
    · rename_i hu
      exact s.unitReport_acts c _ _ (List.getElem?_eq_some_iff.1 hu).1 _ _ _ _ _
    · exact .refl s
  · exact s.fetchReport_acts c _ _ _ _

/-! ## The end of an entry -/

theorem State.endEntry_acts (s : State) (i : EntryNo) (st : Status) (a : Option Word)
    (d : Option Detail) : Acts s (s.endEntry i st a d) := by
  unfold State.endEntry
  split
  · exact .refl s
  · rename_i e he
    split
    · exact .refl s
    · rename_i hs
      have hh := s.holdAtEnd_acts i e st
      dsimp only
      split
      · rename_i ho
        refine (hh.snoc (.edit _ i _ ?_)).then (State.deliverP_acts _)
        intro f hf
        rw [State.holdAtEnd_entries, he, Option.some.injEq] at hf
        subst hf
        exact EntryKept.ended _ e ho (fun h => hs (.inr h)) _ _ _
      · exact (hh.snoc (.sendB _ _)).snoc (.free _ _)
      · exact (hh.snoc (.free _ _)).then (State.report_acts _ _ _ _ _ _ _ _)

/-- Ends one after another are the fold of the end over the list. -/
theorem State.endAll_eq_foldl (s : State) (st : Status) (f : Entry → Option Word)
    (l : List (EntryNo × Entry)) :
    s.endAll st f l = l.foldl (fun u je => u.endEntry je.1 st (f je.2) none) s := by
  induction l generalizing s with
  | nil => rfl
  | cons ie l ih => exact ih _

theorem State.endAll_acts (s : State) (st : Status) (f : Entry → Option Word)
    (l : List (EntryNo × Entry)) : Acts s (s.endAll st f l) := by
  induction l generalizing s with
  | nil => exact .refl s
  | cons ie l ih => exact (s.endEntry_acts _ _ _ _).then (ih _)

theorem State.freeAll_acts (s : State) (l : List (EntryNo × Entry)) : Acts s (s.freeAll l) := by
  induction l generalizing s with
  | nil => exact .refl s
  | cons ie l ih => exact (Acts.one (.free s _)).then (ih _)

/-! ## Ports, guard, asks, reads -/

theorem State.endAtPort_acts (s : State) (p : PortNo) : Acts s (s.endAtPort p) :=
  (s.endAll_acts _ _ _).then (State.freeAll_acts _ _)

theorem State.breakHold_acts (s : State) (p : PortNo) : Acts s (s.breakHold p) := by
  unfold State.breakHold
  split
  · exact .refl s
  · exact (Acts.modPort s p (fun port => { port with hold := none }) fun _ h => h).snoc
      (.note _ _ _)

theorem State.goOffline_acts (s : State) (p : PortNo) : Acts s (s.goOffline p) :=
  (((Acts.modPort s p (fun port => { port with state := .offline }) fun _ h => h).then
    (State.endAtPort_acts _ p)).then
    (State.breakHold_acts _ p)).snoc (.raise _ _ _ _)

theorem State.loseLink_acts (s : State) (p : PortNo) : Acts s (s.loseLink p) := by
  unfold State.loseLink
  split
  · exact (((Acts.modPort s p (fun port => { port with state := .absent }) fun _ h => h).then
      (State.endAtPort_acts _ p)).then (State.breakHold_acts _ p)).snoc (.raise _ _ _ _)
  · exact (Acts.modPort s p (fun port => { port with state := .absent }) fun _ h => h).snoc
      (.raise _ _ _ _)
  · exact .refl s

theorem State.sweep_acts (s : State) : Acts s s.sweep := s.endAll_acts _ _ _

theorem State.refuseUpTo_acts (n : Nat) (s : State) : Acts s (s.refuseUpTo n) := by
  induction n generalizing s with
  | zero => exact .refl s
  | succ n ih =>
    rw [State.refuseUpTo]
    repeat' split
    · exact .refl s
    · exact .refl s
    · exact (s.endEntry_acts _ _ _ _).then (ih _)

theorem State.refuseGuarded_acts (s : State) : Acts s s.refuseGuarded := State.refuseUpTo_acts 24 s

theorem State.endAsk_acts (s : State) (i : EntryNo) (a : Answer) : Acts s (s.endAsk i a) :=
  (Acts.one (.edit s i _ fun _ _ => .buffer _ _ _)).then (State.endEntry_acts _ _ _ _ _)

theorem State.sendAsk_acts (s : State) (i : EntryNo) (p : PortNo) : Acts s (s.sendAsk i p) :=
  ((Acts.modPort s p (fun port => { port with askNumber := s.ports[p].askNumber + 1 })
    fun _ h => h).snoc (.sendT _ _ _)).snoc (.walk _ _)

theorem State.walkOn_acts (s : State) (i : EntryNo) (l : List PortNo) : Acts s (s.walkOn i l) := by
  induction l with
  | nil => exact s.endAsk_acts i _
  | cons p l ih =>
    rw [State.walkOn]
    split
    · exact s.sendAsk_acts i p
    · exact ih

theorem State.passPort_acts (s : State) (p : PortNo) : Acts s (s.passPort p) := by
  unfold State.passPort
  repeat' split
  · exact .refl s
  · exact (Acts.one (.walk s none)).then (State.walkOn_acts _ _ _)
  · exact .refl s

theorem State.takeAsk_acts (s : State) (i : EntryNo) : Acts s (s.takeAsk i) := by
  unfold State.takeAsk
  split
  · rename_i r q h
    exact (Acts.one (.popRecord s r q h)).then (State.endAsk_acts _ _ _)
  · split
    · exact (Acts.one (.clearOverflow s)).then (State.endAsk_acts _ _ _)
    · exact s.walkOn_acts i _

theorem State.takeAsksUpTo_acts (n : Nat) (s : State) : Acts s (s.takeAsksUpTo n) := by
  induction n generalizing s with
  | zero => exact .refl s
  | succ n ih =>
    rw [State.takeAsksUpTo]
    repeat' split
    · exact .refl s
    · exact .refl s
    · exact (s.takeAsk_acts _).then (ih _)

theorem State.takeAsks_acts (s : State) : Acts s s.takeAsks := State.takeAsksUpTo_acts 24 s

theorem State.takeRead_acts (s : State) (i : EntryNo) (e : Entry) : Acts s (s.takeRead i e) := by
  unfold State.takeRead
  split
  · exact s.endEntry_acts _ _ _ _
  · exact (Acts.one (.edit s i _ fun _ _ => .buffer _ _ _)).then (State.endEntry_acts _ _ _ _ _)

theorem State.takeReadsUpTo_acts (n : Nat) (s : State) : Acts s (s.takeReadsUpTo n) := by
  induction n generalizing s with
  | zero => exact .refl s
  | succ n ih =>
    rw [State.takeReadsUpTo]
    repeat' split
    · exact .refl s
    · exact .refl s
    · exact (s.takeRead_acts _ _).then (ih _)
    · exact .refl s

theorem State.takeReads_acts (s : State) : Acts s s.takeReads := State.takeReadsUpTo_acts 24 s

/-! ## The close of an event -/

theorem State.closeReset_acts (s : State) : Acts s s.closeReset := by
  unfold State.closeReset
  split
  · exact .refl s
  · exact ((Acts.one (.sendP s _)).snoc (.free _ _)).snoc (.cardReset _)

theorem State.closeEvent_acts (s : State) : Acts s s.closeEvent := by
  unfold State.closeEvent
  split
  · exact s.closeReset_acts
  · exact .refl _

theorem State.settle_acts (s : State) : Acts s s.settle := by
  have h := (s.refuseGuarded_acts.then (State.takeAsks_acts _)).then (State.closeEvent_acts _)
  exact (h.then (State.takeReads_acts _)).then (State.closeEvent_acts _)

/-- The close of an event changes no setting, no line, no round, not the B link state and not the
queue of commands. -/
theorem State.settle_untouched (s : State) : Untouched s s.settle := s.settle_acts.untouched

end Sys2Proof.Machine
end

