-- ==== Sys2Proof/Laws/Events.lean ====
section
/-!
SUPPORT. Every command is a chain of events: the acts of Sys2Proof/Laws/Acts.lean and the few further changes that
only some commands make (a round advances, settings and tables are written, lines change, the
resets). An invariant that every event keeps is kept by every step.
-/

namespace Sys2Proof.Machine

/-- One elementary change of a command. -/
inductive Event : State → State → Prop
  | act {s t : State} (h : Act s t) : Event s t
  | bump (s : State) (i : EntryNo) : Event s (s.bumpRound i)
  | orphan (s : State) : Event s s.orphanIssued
  | dropB (s : State) : Event s s.dropBHolds
  | bLink (s : State) (b : Bool) (h : b = true → s.setup.straps.slot ≠ 0) :
      Event s { s with bLinkUp := b }
  | guard (s : State) (g : GuardState) : Event s { s with guard := g }
  | commit (s : State) (h : s.badStaging = none) : Event s s.commitTables
  | staging (s : State) (x : Vector FourWords 32) :
      Event s { s with setup := { s.setup with staging := x } }
  | settings (s : State) (f : Settings → Settings)
      (h : s.setup.settings.Ok → (f s.setup.settings).Ok)
      (he : (f s.setup.settings).portEnables = s.setup.settings.portEnables) :
      Event s (s.modSettings f)
  | enables (s : State) (f : Settings → Settings)
      (h : s.setup.settings.Ok → (f s.setup.settings).Ok) : Event s (s.modSettings f).evalPending
  | portConfig (s : State) (p : PortNo) (c : PortConfig) (h : s.setup.portConfig[p].Ok → c.Ok) :
      Event s (s.setPortConfig p c)
  | lines (s : State) (f : Lines → Lines) (h : (f s.lines).tattn = s.lines.tattn) :
      Event s (s.modLines f)
  | attnLine (s : State) (f : Lines → Lines) : Event s (s.modLines f).evalPending
  | powerOn (s : State) (x : Straps) : Event s (s.withDefaults x)

/-- A chain of events. -/
abbrev Events : State → State → Prop := Relation.ReflTransGen Event

theorem Events.refl (s : State) : Events s s := Relation.ReflTransGen.refl

theorem Events.one {s t : State} (h : Event s t) : Events s t := Relation.ReflTransGen.single h

theorem Events.snoc {s t u : State} (h : Events s t) (h' : Event t u) : Events s u :=
  Relation.ReflTransGen.tail h h'

theorem Events.then {s t u : State} (h : Events s t) (h' : Events t u) : Events s u := h.trans h'

theorem Acts.events {s t : State} (h : Acts s t) : Events s t := by
  induction h with
  | refl => exact .refl s
  | tail _ h ih => exact ih.snoc (.act h)

/-- A chain of acts after a chain of events. -/
theorem Events.acts {s t u : State} (h : Events s t) (h' : Acts t u) : Events s u := h.then h'.events

/-- Every event closes with the settling. -/
theorem Events.settle {s t : State} (h : Events s t) : Events s t.settle := h.acts t.settle_acts

/-- The queue of commands is no event's. -/
theorem State.lowerRetries_frame (s : State) (n : Nat) (l : List (EntryNo × Entry)) :
    ∃ m, s.lowerRetries n l = { s with entries := m } := by
  induction l generalizing s with
  | nil => exact ⟨_, rfl⟩
  | cons ie l ih =>
    obtain ⟨m, hm⟩ := ih (s.modEntry ie.1 fun e => { e with retryCount := min n e.retryCount })
    exact ⟨m, by simp only [State.lowerRetries, hm]; rfl⟩

theorem Event.pending {s t : State} (h : Event s t) : t.pending = s.pending := by
  cases h with
  | act h => exact h.untouched.pending
  | portConfig p c =>
    obtain ⟨m, hm⟩ := State.lowerRetries_frame
      { s with setup := { s.setup with portConfig := s.setup.portConfig.set p c } } c.retryLimit
      (s.waitList p)
    simp only [State.setPortConfig, hm]
  | _ => rfl

theorem Events.pending {s t : State} (h : Events s t) : t.pending = s.pending := by
  induction h with
  | refl => rfl
  | tail _ h ih => exact h.pending.trans ih

/-! ## Requests and responses -/

/-- The record an accepted request is given with, before its routing. -/
structure Entry.Unrouted (e : Entry) : Prop where
  state : e.state = .serving
  origin : e.origin.isM = false
  final : e.finalStatus = none
  skip : e.skipCount = 0
  retry : e.retryCount = 0

theorem Entry.Unrouted.ok {e : Entry} (h : e.Unrouted) : e.Ok where
  serving _ := h.origin
  forwarded := by simp [h.state]
  remote := by simp [h.state]
  complete := by simp [h.state]
  orphaned := by simp [h.state]
  final := by simp [h.state, h.final]
  atPort := by simp [h.state]
  skip := by simp [h.skip]

/-- An unrouted record that joins a wait list. -/
theorem EntryKept.placed (s : State) {e : Entry} (h : e.Unrouted) (d : DecodeRecord) :
    EntryKept s e (e.placed d) where
  origin := rfl
  tag := rfl
  ok _ := e.placed_ok d h.final h.skip
  orphaned := by simp [h.state]
  out p := by simp [Entry.pieceOutAt, Entry.placed]
  retry p _ := .inl (by simp [Entry.placed, h.retry])

/-- An unrouted record that is given the route of a serving block. -/
theorem EntryKept.routed (s : State) {e : Entry} (h : e.Unrouted) (r : Option Route) :
    EntryKept s e { e with route := r } where
  origin := rfl
  tag := rfl
  ok _ := Entry.Unrouted.ok ⟨h.state, h.origin, h.final, h.skip, h.retry⟩
  orphaned := by simp [h.state]
  out p := by simp [Entry.pieceOutAt, h.state]
  retry p := by simp [Entry.onWaitList, h.state]

/-- An unrouted P record that is forwarded. -/
theorem EntryKept.forwarded (s : State) {e : Entry} (h : e.Unrouted) (hp : e.origin = .p) (n : Nat) :
    EntryKept s e { e with state := .forwarded, route := some .remote, timer := some n } where
  origin := rfl
  tag := rfl
  ok _ := by
    refine ⟨?_, fun _ => hp, fun _ => rfl, ?_, ?_, ?_, ?_, ?_⟩ <;> simp [h.final, h.skip]
  orphaned := by simp [h.state]
  out p := by simp [Entry.pieceOutAt]
  retry p := by simp [Entry.onWaitList]

theorem State.holdAtDecode_acts (s : State) (h : Holder) (op : Op) (i : EntryNo) (r : Routing) :
    Acts s (s.holdAtDecode h op i r) := by
  unfold State.holdAtDecode
  split
  · exact .one (.note _ _ _)
  · exact Acts.modPort s _ (fun port =>
      { port with hold := port.hold.map fun hold => { hold with phase := .awaitingRelease i } })
      fun _ h => h
  · exact .one (.note _ _ _)
  · exact .refl s

@[simp] theorem State.holdAtDecode_entries (s : State) (h : Holder) (op : Op) (i : EntryNo)
    (r : Routing) : (s.holdAtDecode h op i r).entries = s.entries := by
  unfold State.holdAtDecode
  split <;> rfl

theorem State.applyRouting_events (s : State) (i : EntryNo) (r : Request) (x : Routing) (e : Entry)
    (he : s.entries[i] = some e) (hu : e.Unrouted) (hr : x = .remote → e.origin = .p) :
    Events s (s.applyRouting i r x) := by
  cases x with
  | ended st d => exact (s.endEntry_acts i st none d).events
  | port d =>
    refine (Acts.one (.edit s i _ fun f hf => ?_)).events
    rw [he, Option.some.injEq] at hf
    exact hf ▸ .placed s hu d
  | remote =>
    refine ((Events.one (.bump s i)).acts (Acts.one (.edit _ i _ fun f hf => ?_))).acts
      (Acts.one (.sendB _ _))
    rw [State.bumpRound_entries, he, Option.some.injEq] at hf
    exact hf ▸ .forwarded _ hu (hr rfl) _
  | mgmt =>
    refine (Acts.one (.edit s i _ fun f hf => ?_)).events
    rw [he, Option.some.injEq] at hf
    exact hf ▸ .routed s hu _
  | attn =>
    refine (Acts.one (.edit s i _ fun f hf => ?_)).events
    rw [he, Option.some.injEq] at hf
    exact hf ▸ .routed s hu _

theorem State.acceptEntry_events (s : State) (h : Holder) (e : Entry) (r : Request) (x : Routing)
    (hf : s.Fresh e) (hu : e.Unrouted) (hr : x = .remote → e.origin = .p) :
    Events s (s.acceptEntry h e r x) := by
  unfold State.acceptEntry
  split
  · exact .refl s
  · rename_i i hi
    refine (((Acts.one (.give s i e (State.lowestFree_none hi) hf)).then
      (State.holdAtDecode_acts _ h r.op i x)).events).then
      (State.applyRouting_events _ i r x e ?_ hu hr)
    simp

/-- A request that is not refused finds room in its quota and its tag free (R6, R7). -/
theorem State.refusal_none {s : State} {l : Link} {o : Origin} {r : Request}
    (h : s.refusal l o r = none) : s.Room o ∧ s.tagInUse o r.tag = false := by
  unfold State.refusal at h
  split at h
  · simp at h
  · split at h
    · simp at h
    · rename_i ht
      split at h
      · simp at h
      · rename_i hq
        refine ⟨?_, by simpa using ht⟩
        rw [Bool.not_eq_true] at hq
        cases o <;> exact Nat.lt_of_not_le (of_decide_eq_false hq)

theorem State.tagInUse_false {s : State} {o : Origin} {tag : BitVec 4}
    (h : s.tagInUse o tag = false) : ∀ jf ∈ s.table, jf.2.origin = o → jf.2.tag = some tag →
      jf.2.state = .orphaned := by
  intro jf hj ho ht
  simp only [State.tagInUse, List.any_eq_false, Bool.and_eq_true, decide_eq_true_eq, not_and] at h
  by_contra hs
  exact h jf hj ⟨ho, ht⟩ hs

theorem State.routeB_ne_remote (s : State) (space : Space) (r : Request) :
    s.routeB space r ≠ .remote := by
  unfold State.routeB State.routeData
  repeat' split
  all_goals simp

theorem State.requestP_events (s : State) (r : Request) : Events s (s.requestP r) := by
  unfold State.requestP
  split
  · exact (Acts.one (.sendP _ _)).events
  · rename_i space h _
    obtain ⟨hroom, htag⟩ := State.refusal_none h
    have hu : (s.entryP space r).Unrouted := ⟨rfl, rfl, rfl, rfl, rfl⟩
    refine (s.acceptEntry_events _ _ _ _ ⟨hu.ok, hroom, ?_, .inr rfl, rfl⟩ hu fun _ => rfl).settle
    intro _ jf hj ho ht
    exact State.tagInUse_false htag jf hj ho ht
  · exact .refl s

theorem State.requestB_events (s : State) (r : Request) : Events s (s.requestB r) := by
  unfold State.requestB
  split
  · exact (Acts.one (.sendB _ _)).events
  · rename_i space h _
    obtain ⟨hroom, htag⟩ := State.refusal_none h
    have hu : (s.entryB space r).Unrouted := ⟨rfl, rfl, rfl, rfl, rfl⟩
    refine (s.acceptEntry_events _ _ _ _ ⟨hu.ok, hroom, ?_, .inr rfl, rfl⟩ hu
      fun h => absurd h (s.routeB_ne_remote _ _)).settle
    intro _ jf hj ho ht
    exact State.tagInUse_false htag jf hj ho ht
  · exact .refl s

theorem State.relay_events (s : State) (i : EntryNo) (e : Entry) (r : Response) :
    Events s (s.relay i e r) := by
  simp only [State.relay]
  refine Events.settle ?_
  split
  · exact ((Acts.one (.edit s i _ fun _ _ => .buffer _ _ _)).then
      (State.endEntry_acts _ _ _ _ _)).events
  · exact (s.endEntry_acts _ _ _ _).events

/-! ## Port issue units -/

theorem State.skipOthers_acts (s : State) (i : EntryNo) (l : List (EntryNo × Entry)) :
    Acts s (s.skipOthers i l) ∧ (s.skipOthers i l).entries[i] = s.entries[i] ∧
      ∀ p, (s.skipOthers i l).issuedCount p ≤ s.issuedCount p := by
  induction l generalizing s with
  | nil => exact ⟨.refl s, rfl, fun _ => Nat.le_refl _⟩
  | cons jf l ih =>
    obtain ⟨j, f⟩ := jf
    rw [State.skipOthers]
    by_cases h : j = i
    · rw [if_pos h]; exact ih s
    · rw [if_neg h]
      obtain ⟨ha, he, hc⟩ :=
        ih (s.modEntry j fun e => { e with skipCount := min Config.agedSkip (e.skipCount + 1) })
      refine ⟨(Acts.one (.edit s j _ fun e _ => ?_)).then ha, ?_, fun p => (hc p).trans ?_⟩
      · exact
          { origin := rfl, tag := rfl, orphaned := fun h => h
            ok := fun h => ⟨h.serving, h.forwarded, h.remote, h.complete, h.orphaned, h.final, h.atPort,
              Nat.min_le_left _ _⟩
            out := fun _ h => .inl h
            retry := fun _ h => .inr ⟨h, Nat.le_refl _⟩ }
      · rw [he, State.modEntry_entry, if_neg h]
      · rw [State.issuedCount_eq_countIf, State.issuedCount_eq_countIf]
        exact s.countIf_modEntry_le j _ _ fun _ _ h => h

theorem State.takeHold_acts (s : State) (p : PortNo) (i : EntryNo) (e : Entry) :
    Acts s (s.takeHold p i e) := by
  unfold State.takeHold
  repeat' split
  · exact .refl s
  · exact Acts.modPort s p (fun port =>
      { port with hold := some { holder := _, phase := .awaitingRead i } }) fun _ h => h
  · exact .refl s

theorem choose_mem {l : List (EntryNo × Entry)} {ie : EntryNo × Entry} (h : choose l = some ie) :
    ie ∈ l := by
  unfold choose at h
  simp only [Option.or_eq_some_iff] at h
  rcases h with (h | ⟨_, h⟩) | ⟨_, h | ⟨_, h⟩⟩ <;> exact List.mem_of_find?_eq_some h

theorem State.grantPiece_events (s : State) (p : PortNo) (i : EntryNo) (e : Entry)
    (hm : (i, e) ∈ s.eligibleAt p) (hc : s.issuedCount p < s.setup.portConfig[p].credit) :
    Events s (s.grantPiece p i e) := by
  have hel := List.mem_filter.1 hm
  have hent := (State.mem_table.1 hel.1).2
  have hd : e.state = .waiting ∧ e.route = some (.port p) := by
    have := hel.2
    simp only [State.eligible, State.dueAt, Bool.and_eq_true, decide_eq_true_eq] at this
    exact this.1.1.1
  obtain ⟨ha, he, hn⟩ := s.skipOthers_acts i (s.eligibleAt p)
  simp only [State.grantPiece]
  refine Events.acts ?_ ((State.takeHold_acts _ _ _ _).snoc (.sendT _ _ _))
  refine (ha.events.snoc (.bump _ i)).snoc (.act (.edit _ i _ fun f hf => ?_))
  rw [State.bumpRound_entries, he, hent, Option.some.injEq] at hf
  subst hf
  have hset : (s.skipOthers i (s.eligibleAt p)).setup = s.setup := ha.untouched.setup
  refine
    { origin := rfl, tag := rfl
      orphaned := by simp [hd.1]
      ok := fun h => ⟨?_, ?_, ?_, ?_, ?_, ?_, fun _ => h.atPort (.inl hd.1), ?_⟩
      out := fun q hq => .inr ?_
      retry := fun q hq => .inr ⟨?_, Nat.le_refl _⟩ }
  · simp
  · simp
  · simp
  · simp
  · simp
  · have := h.final
    simp only [hd.1, reduceCtorEq, iff_false] at this
    simp [this]
  · simp
  · have hpq : p = q := by
      simp only [Entry.pieceOutAt, Bool.and_eq_true, decide_eq_true_eq] at hq
      have := hd.2.symm.trans hq.1
      simpa using this
    subst hpq
    rw [State.bumpRound_setup, hset]
    refine Nat.lt_of_le_of_lt ?_ hc
    rw [State.issuedCount_bumpRound]
    exact hn p
  · simp only [Entry.onWaitList, Bool.and_eq_true, decide_eq_true_eq] at hq ⊢
    exact ⟨hq.1, by simp [hd.1]⟩

/-- What the answered entry of a port is (R58). -/
theorem State.answeredAt_some {s : State} {p : PortNo} {x : BitVec 5} {r : BitVec 8} {i : EntryNo}
    {e : Entry} (h : s.answeredAt p x r = some (i, e)) :
    s.entries[i] = some e ∧ e.pieceOutAt p = true ∧ s.rounds[i] = r := by
  unfold State.answeredAt at h
  simp only [Option.bind_eq_some_iff] at h
  obtain ⟨j, _, f, hf, h⟩ := h
  split at h
  · rename_i hc
    simp only [Option.some.injEq, Prod.mk.injEq] at h
    obtain ⟨rfl, rfl⟩ := h
    exact ⟨hf, hc.1, hc.2⟩
  · simp at h

/-- An entry whose piece is out at a port and that is not ORPHANED is ISSUED there. -/
theorem Entry.issued_of_out {e : Entry} {p : PortNo} (h : e.pieceOutAt p = true)
    (ho : e.state ≠ .orphaned) : e.state = .issued ∧ e.route = some (.port p) := by
  simp only [Entry.pieceOutAt, Bool.and_eq_true, Bool.or_eq_true, decide_eq_true_eq] at h
  exact ⟨h.2.resolve_right ho, h.1⟩

theorem State.zeroNoAnswer_acts (s : State) (p : PortNo) : Acts s (s.zeroNoAnswer p) :=
  Acts.modPort s p _ fun _ _ => Nat.zero_le _

/-- An ISSUED record that goes back to its wait list: WAITING after a DONE, BACKOFF after a DEFER. -/
theorem EntryKept.back (s : State) {e e' : Entry} {p : PortNo} (hi : e.state = .issued)
    (hr : e.route = some (.port p)) (hs : e'.state = .waiting ∨ e'.state = .backoff)
    (hsame : e'.origin = e.origin ∧ e'.tag = e.tag ∧ e'.finalStatus = e.finalStatus ∧
      e'.decode = e.decode ∧ e'.route = e.route ∧ e'.piecesTotal = e.piecesTotal ∧
      e'.length = e.length ∧ e'.skipCount = e.skipCount)
    (hretry : e'.retryCount ≤ e.retryCount ∨ e'.retryCount ≤ s.setup.portConfig[p].retryLimit) :
    EntryKept s e e' := by
  obtain ⟨ho, ht, hf, hd, hro, hpt, hl, hk⟩ := hsame
  refine
    { origin := ho, tag := ht
      orphaned := by simp [hi]
      ok := fun h => ⟨?_, ?_, ?_, ?_, ?_, ?_, ?_, ?_⟩
      out := fun q hq => ?_
      retry := fun q hq => ?_ }
  · rcases hs with h | h <;> simp [h]
  · rcases hs with h | h <;> simp [h]
  · rcases hs with h | h <;> simp [h]
  · rcases hs with h | h <;> simp [h]
  · rcases hs with h | h <;> simp [h]
  · have := h.final
    rw [hi] at this
    rw [hf]
    rcases hs with h | h <;> simpa [h] using this
  · intro _
    obtain ⟨d, h1, h2, h3⟩ := h.atPort (.inr (.inl hi))
    exact ⟨d, hd.trans h1, hro.trans h2, by rw [hpt, h3]; simp [Entry.plan, hd, hl]⟩
  · rw [hk]; exact h.skip
  · simp only [Entry.pieceOutAt, Bool.and_eq_true, Bool.or_eq_true, decide_eq_true_eq] at hq
    rcases hs with h | h <;> simp [h] at hq
  · have hpq : p = q := by
      simp only [Entry.onWaitList, Bool.and_eq_true, decide_eq_true_eq] at hq
      have := hr.symm.trans (hro.symm.trans hq.1)
      simpa using this
    subst hpq
    rcases hretry with h | h
    · exact .inr ⟨by simp [Entry.onWaitList, hr, hi], h⟩
    · exact .inl h

theorem State.takeDone_events (s : State) (p : PortNo) (i : EntryNo) (e : Entry) (data : List Byte)
    (he : s.entries[i] = some e) (ho : e.pieceOutAt p = true) :
    Events s (s.takeDone p i e data) := by
  have hz := s.zeroNoAnswer_acts p
  simp only [State.takeDone]
  split
  · exact (hz.snoc (.free _ i)).events.settle
  · rename_i hno
    obtain ⟨hi, hr⟩ := Entry.issued_of_out ho hno
    have h2 : Acts s ((s.zeroNoAnswer p).modEntry i fun e => e.afterDone data) := by
      refine hz.snoc (.edit _ i _ fun f hf => ?_)
      rw [show (s.zeroNoAnswer p).entries = s.entries from rfl, he, Option.some.injEq] at hf
      subst hf
      exact .back _ hi hr (.inl rfl) ⟨rfl, rfl, rfl, rfl, rfl, rfl, rfl, rfl⟩ (.inl (Nat.zero_le _))
    split
    · exact h2.events.settle
    · exact (h2.then (State.endEntry_acts _ _ _ _ _)).events.settle

theorem State.takeDefer_events (s : State) (p : PortNo) (i : EntryNo) (e : Entry)
    (he : s.entries[i] = some e) (ho : e.pieceOutAt p = true) : Events s (s.takeDefer p i e) := by
  have hz := s.zeroNoAnswer_acts p
  simp only [State.takeDefer]
  split
  · exact (hz.snoc (.free _ i)).events.settle
  · rename_i hno
    obtain ⟨hi, hr⟩ := Entry.issued_of_out ho hno
    split
    · exact (hz.then (State.endEntry_acts _ _ _ _ _)).events.settle
    · rename_i hlim
      refine (hz.snoc (.edit _ i _ fun f hf => ?_)).events.settle
      rw [show (s.zeroNoAnswer p).entries = s.entries from rfl, he, Option.some.injEq] at hf
      subst hf
      exact .back _ hi hr (.inr rfl) ⟨rfl, rfl, rfl, rfl, rfl, rfl, rfl, rfl⟩
        (.inr (by simp only [not_le] at hlim; exact hlim))

theorem State.takeFault_events (s : State) (p : PortNo) (i : EntryNo) (e : Entry) :
    Events s (s.takeFault p i e) := by
  have hz := s.zeroNoAnswer_acts p
  simp only [State.takeFault]
  split
  · exact (hz.snoc (.free _ i)).events.settle
  · exact (hz.then (State.endEntry_acts _ _ _ _ _)).events.settle

theorem State.countSilence_acts (s : State) (p : PortNo) : Acts s (s.countSilence p) := by
  simp only [State.countSilence]
  have h := Acts.modPort s p
    (fun port => { port with noAnswer := min Config.noAnswerMax (port.noAnswer + 1) })
    fun _ _ => Nat.min_le_left _ _
  split
  · exact h.then (State.goOffline_acts _ p)
  · exact h

theorem State.expireResponse_events (s : State) (p : PortNo) (i : EntryNo) (e : Entry) :
    Events s (s.expireResponse p i e) := by
  simp only [State.expireResponse]
  refine (Acts.events (Acts.then ?_ (State.countSilence_acts _ p))).settle
  split
  · exact .one (.free s i)
  · exact s.endEntry_acts _ _ _ _

theorem State.startUnit_acts (s : State) (c : ChannelNo) (h : s.canStartUnit c = true) :
    Acts s (s.startUnit c) := by
  have hu : s.channels[c].units.length < 2 := by
    simp only [State.canStartUnit, Bool.and_eq_true, decide_eq_true_eq] at h
    exact h.1.1.2
  have hc := s.createMove_channels c .read s.channels[c].sourceCursor
    s.channels[c].descriptor.unit.bytes []
  have ha := s.createMove_acts c .read s.channels[c].sourceCursor
    s.channels[c].descriptor.unit.bytes []
  have hp (x : Channel) (n : Nat) : (if x.descriptor.pacePort = none then n else n - 1) ≤ n := by
    split <;> omega
  simp only [State.startUnit]
  split <;> rename_i heq <;> rw [heq] at hc ha <;> simp only at hc ha
  · refine ha.snoc (.channel _ _ _ ⟨fun h => Nat.le_trans (hp _ _) h, fun _ => ?_⟩)
    simp only [List.length_append, List.length_cons, List.length_nil]; omega
  · refine ((ha.snoc (.channel _ c _ (.less (hp _ _) ?_))).then
      (State.failUnit_acts _ c _ ?_ _ _ _)).then (State.restChannel_acts _ c)
    · simp [hc]
    · simp
  · exact ha

end Sys2Proof.Machine
end

