-- ==== Sys2Proof/Laws/Commands.lean ====
section
/-!
SUPPORT. Every command answers a next state that a chain of events leads to; so does every step.
-/

namespace Sys2Proof.Machine

/-! ## Management takes -/

/-- What the head of the queue is when a row takes it. -/
theorem State.headWrite_some {s : State} {row : MgmtRow} {i : EntryNo} {e : Entry}
    (h : s.headWrite row = some (i, e)) :
    (i, e) ∈ s.mgmtQueue ∧ e.op = .write ∧ e.mgmtRow = row := by
  unfold State.headWrite at h
  split at h
  · simp at h
  · rename_i hq
    split at h
    · rename_i hc
      simp only [Option.some.injEq, Prod.mk.injEq] at h
      obtain ⟨rfl, rfl⟩ := h
      exact ⟨hq ▸ List.mem_cons_self, hc⟩
    · simp at h

/-- A take is a chain of events when its service is. -/
theorem State.takeWrite_events (s : State) (row : MgmtRow) (serve : Entry → State → Served)
    (h : ∀ e, Events s (serve e s).1) : ∃ t, s.takeWrite row serve = .next t ∧ Events s t := by
  unfold State.takeWrite
  split
  · exact ⟨s, rfl, .refl s⟩
  · rename_i i e _
    split
    · exact ⟨s, rfl, .refl s⟩
    · refine ⟨_, rfl, ?_⟩
      simp only [State.serveWrite]
      refine Events.settle (Events.acts ?_ (State.endEntry_acts _ _ _ _ _))
      split
      · exact .refl s
      · exact h e

theorem serveCommit_events (e : Entry) (s : State) : Events s (serveCommit e s).1 := by
  unfold serveCommit
  split
  · exact .refl s
  · rename_i h
    exact .one (.commit s h)

theorem servePortResume_events (e : Entry) (s : State) : Events s (servePortResume e s).1 := by
  unfold servePortResume
  split
  · exact (((Acts.one (.sendT s _ _)).then
      (Acts.modPort _ _ (fun port => { port with state := .online, noAnswer := 0 })
        fun _ _ => Nat.zero_le _)).then (State.passPort_acts _ _)).events
  · exact .refl s

theorem servePortOffline_events (e : Entry) (s : State) : Events s (servePortOffline e s).1 := by
  unfold servePortOffline
  split
  · exact (s.goOffline_acts _).events
  · exact .refl s

theorem State.startLoaded_acts (s : State) (c : ChannelNo) : Acts s (s.startLoaded c).1 := by
  simp only [State.startLoaded]
  repeat' split
  · exact .refl s
  · exact .refl s
  · exact Acts.modChannel s c (fun ch => ch.clearOutcome.becomeCurrent)
      (.less (Nat.zero_le _) (Nat.zero_le _))

theorem State.startFetchForm_acts (s : State) (c : ChannelNo) : Acts s (s.startFetchForm c).1 := by
  simp only [State.startFetchForm]
  repeat' split
  · exact .refl s
  · exact .refl s
  · exact (Acts.modChannel s c
      (fun ch => { ch.clearOutcome with remaining := 0, started := 0, units := [], paceCredit := 0 })
      (.less (Nat.zero_le _) (Nat.zero_le _))).then (State.startFetch_acts _ _ _)

theorem State.pauseChannel_acts (s : State) (c : ChannelNo) : Acts s (s.pauseChannel c).1 := by
  simp only [State.pauseChannel]
  split
  · exact .refl s
  · exact Acts.modChannel s c
      (fun ch => { ch with state := if ch.units.isEmpty then .paused else .pausing }) (.same rfl rfl)

theorem State.continueChannel_acts (s : State) (c : ChannelNo) :
    Acts s (s.continueChannel c).1 := by
  have run : Acts s (s.modChannel c fun ch => { ch with state := .running }) :=
    Acts.modChannel s c (fun ch => { ch with state := .running }) (.same rfl rfl)
  simp only [State.continueChannel]
  split
  · exact run
  · split
    · exact s.startFetch_acts c _
    · exact run
  all_goals exact .refl s

theorem stopUnits_length_le (l : List UnitRecord) : (stopUnits l).length ≤ l.length := by
  induction l with
  | nil => exact Nat.le_refl _
  | cons u l ih =>
    rw [stopUnits]
    split
    · exact Nat.succ_le_succ (dropLater_length_le l)
    · exact Nat.succ_le_succ ih
    · exact Nat.succ_le_succ ih
    · exact Nat.succ_le_succ (dropLater_length_le l)

theorem State.stopChannel_acts (s : State) (c : ChannelNo) : Acts s (s.stopChannel c).1 := by
  have both : Acts s (if (stopUnits s.channels[c].units).isEmpty = true then
      s.modChannel c fun ch =>
        ({ ch with state := .stopping .stop, units := stopUnits ch.units } : Channel).enterIdle .stopped
      else s.modChannel c fun ch =>
        { ch with state := .stopping .stop, units := stopUnits ch.units }) := by
    split
    · exact Acts.modChannel s c (fun ch =>
        ({ ch with state := .stopping .stop, units := stopUnits ch.units } : Channel).enterIdle .stopped)
        (.less (Nat.zero_le _) (stopUnits_length_le _))
    · exact Acts.modChannel s c (fun ch =>
        { ch with state := .stopping .stop, units := stopUnits ch.units })
        (.less (Nat.le_refl _) (stopUnits_length_le _))
  simp only [State.stopChannel]
  split
  · exact Acts.modChannel s c (fun ch => { ch with state := .stopping .stop }) (.same rfl rfl)
  · exact both
  · exact both
  · exact Acts.modChannel s c (fun ch => ch.enterIdle .stopped) (.less (Nat.zero_le _) (Nat.le_refl _))
  · exact .refl s
  · exact .refl s

theorem serveCardReset_events (e : Entry) (s : State) : Events s (serveCardReset e s).1 := by
  unfold serveCardReset
  split <;> exact .refl s

theorem serveStagingWrite_events (e : Entry) (s : State) : Events s (serveStagingWrite e s).1 := by
  unfold serveStagingWrite
  split
  · exact .one (.staging s _)
  · exact .refl s

theorem serveDescriptorWrite_events (e : Entry) (s : State) :
    Events s (serveDescriptorWrite e s).1 := by
  unfold serveDescriptorWrite
  split
  · split
    · exact (Acts.modChannel s _ (fun ch => { ch with descriptor := ch.descriptor.setWord _ e.word })
        (.same rfl rfl)).events
    · exact .refl s
  · exact .refl s

/-- A configuration word that is accepted leaves the configuration in range (R69, R164). -/
theorem PortConfig.setWord_ok {c d : PortConfig} {k : Fin 3} {w : Word}
    (h : c.setWord k w = some d) (hc : c.Ok) : d.Ok := by
  unfold PortConfig.setWord at h
  split at h
  · rw [Option.bind_eq_some_iff] at h
    obtain ⟨_, _, h⟩ := h
    dsimp only at h
    split at h
    · rename_i hr
      simp only [Option.some.injEq] at h
      subst h
      refine ⟨⟨hr.1, hr.2.1⟩, hc.2.1, ?_, hc.2.2.2.1, hr.2.2, ?_⟩
      · exact Nat.le_of_lt_succ (w.extractLsb' 12 4).isLt
      · exact Nat.le_of_lt_succ (w.extractLsb' 8 3).isLt
    · simp at h
  · dsimp only at h
    split at h
    · rename_i hr
      simp only [Option.some.injEq] at h
      subst h
      exact ⟨hc.1, hr, hc.2.2⟩
    · simp at h
  · dsimp only at h
    split at h
    · rename_i hr
      simp only [Option.some.injEq] at h
      subst h
      exact ⟨hc.1, hc.2.1, hc.2.2.1, ⟨hr, Nat.le_of_lt_succ (w.extractLsb' 0 8).isLt⟩, hc.2.2.2.2⟩
    · simp at h

theorem servePortConfigWrite_events (e : Entry) (s : State) :
    Events s (servePortConfigWrite e s).1 := by
  unfold servePortConfigWrite
  split
  · split
    · rename_i h
      exact .one (.portConfig s _ _ fun hc => PortConfig.setWord_ok h hc)
    · exact .refl s
  · exact .refl s

/-- A setting word that is accepted leaves the settings in range and the enables as they were
(R155). -/
theorem Settings.write_ok {t u : Settings} {o : MgmtObject} {w : Word}
    (h : t.write o w = some u) : (t.Ok → u.Ok) ∧ u.portEnables = t.portEnables := by
  unfold Settings.write at h
  split at h
  · simp only [Option.some.injEq] at h
    subst h
    exact ⟨fun h => h, rfl⟩
  · split at h
    · simp at h
    · rename_i hr
      simp only [Option.some.injEq] at h
      subst h
      rw [not_or] at hr
      exact ⟨fun h => ⟨hr.1, hr.2, h.2.2⟩, rfl⟩
  · split at h
    · simp at h
    · rename_i hr
      simp only [Option.some.injEq] at h
      subst h
      exact ⟨fun h => ⟨h.1, h.2.1, hr⟩, rfl⟩
  · simp at h

theorem serveSettingWrite_events (e : Entry) (s : State) : Events s (serveSettingWrite e s).1 := by
  unfold serveSettingWrite
  split
  · split
    · rename_i h
      obtain ⟨h1, h2⟩ := Settings.write_ok h
      exact .one (.settings s (fun _ => _) h1 h2)
    · exact .refl s
  · exact .refl s

theorem serveRemoteManagementWrite_events (e : Entry) (s : State) :
    Events s (serveRemoteManagementWrite e s).1 := by
  unfold serveRemoteManagementWrite
  split
  · exact .refl s
  · exact .one (.settings s (fun t => { t with remoteManagement := e.word.getLsbD 0 })
      (fun h => h) rfl)

theorem serveEnablesWrite_events (e : Entry) (s : State) : Events s (serveEnablesWrite e s).1 :=
  .one (.enables s _ fun h => h)

theorem serveArgumentWrite_events (e : Entry) (s : State) : Events s (serveArgumentWrite e s).1 :=
  .one (.settings s (fun t => { t with argument := e.word }) (fun h => h) rfl)

theorem serveOtherWrite_events (e : Entry) (s : State) : Events s (serveOtherWrite e s).1 := by
  unfold serveOtherWrite
  split <;> exact .refl s

/-! ## Lines, links, resets -/

theorem State.bLinkUpEvent_events (s : State) : Events s s.bLinkUpEvent := by
  unfold State.bLinkUpEvent
  split
  · rename_i h
    exact (Events.one (.bLink s true fun _ => h.1)).snoc (.act (.raise _ _ _ _))
  · exact .refl s

theorem State.bLinkDownEvent_events (s : State) : Events s s.bLinkDownEvent :=
  (((((Events.one (.bLink s false (by simp))).acts (State.endAll_acts _ _ _ _)).acts
    (State.freeAll_acts _ _)).snoc (.orphan _)).snoc (.dropB _)).snoc (.act (.raise _ _ _ _))

theorem State.linkUpAt_acts (s : State) (p : PortNo) : Acts s (s.linkUpAt p) := by
  unfold State.linkUpAt
  split
  · exact Acts.modPort s p (fun port => { port with state := .online, noAnswer := 0, hold := none })
      fun _ _ => Nat.zero_le _
  · exact .refl s

theorem State.linkUpsAtRelease_acts (s : State) (l : List PortNo) :
    Acts s (s.linkUpsAtRelease l) := by
  induction l generalizing s with
  | nil => exact .refl s
  | cons p l ih =>
    rw [State.linkUpsAtRelease]
    refine Acts.then ?_ (ih _)
    split
    · exact s.linkUpAt_acts p
    · exact .refl s

/-- The B port's part of the release of PORST. -/
theorem State.bLinkAtRelease_events (s : State) :
    Events s (if s.lines.bLink then s.bLinkUpEvent else s) := by
  split
  · exact s.bLinkUpEvent_events
  · exact .refl s

theorem State.pulse_acts (s : State) (p : PortNo) : Acts s (s.pulse p) := by
  unfold State.pulse
  split
  · exact .refl s
  · exact Acts.modChannel s _
      (fun ch => { ch with paceCredit := min Config.paceCreditMax (ch.paceCredit + 1) })
      ⟨fun _ => Nat.min_le_left _ _, fun h => h⟩

/-! ## Every command -/

/-- Every command answers a next state, and a chain of events leads to it. -/
theorem exec_events (c : Instr) (s : State) : ∃ t, exec c s = .next t ∧ Events s t := by
  have stay : ∃ t, (.next s : Host.Outcome State Fault Refusal) = .next t ∧ Events s t :=
    ⟨s, rfl, .refl s⟩
  have go {t : State} (h : Events s t) :
      ∃ u, (.next t : Host.Outcome State Fault Refusal) = .next u ∧ Events s u := ⟨t, rfl, h⟩
  cases c with
  | requestOnPLink msg =>
    simp only [exec, execRequestOnPLink]
    repeat' split
    · exact stay
    · exact stay
    · exact go (s.requestP_events _)
  | requestOnBLink msg =>
    simp only [exec, execRequestOnBLink]
    repeat' split
    · exact stay
    · exact stay
    · exact stay
    · exact go (s.requestB_events _)
  | bLinkResponse msg =>
    simp only [exec, execBLinkResponse]
    repeat' split
    · exact stay
    · exact stay
    · exact stay
    · exact stay
    · exact go (s.relay_events _ _ _)
  | remoteResponseTimerExpiry i =>
    simp only [exec, execRemoteResponseTimerExpiry]
    repeat' split
    · exact stay
    · exact go (s.endEntry_acts _ _ _ _).events.settle
    · exact stay
  | grant p =>
    simp only [exec, execGrant]
    split
    · rename_i h
      split
      · exact stay
      · rename_i hc
        exact go (s.grantPiece_events p _ _ (choose_mem hc) h.2.2).settle
    · exact stay
  | targetDone p msg =>
    simp only [exec, execTargetDone]
    split
    · exact stay
    · split
      · exact stay
      · rename_i h
        obtain ⟨h1, h2, _⟩ := State.answeredAt_some h
        split
        · exact stay
        · exact go (s.takeDone_events p _ _ _ h1 h2)
  | targetDefer p msg =>
    simp only [exec, execTargetDefer]
    split
    · exact stay
    · split
      · exact stay
      · rename_i h
        obtain ⟨h1, h2, _⟩ := State.answeredAt_some h
        split
        · exact stay
        · exact go (s.takeDefer_events p _ _ h1 h2)
  | targetFault p msg =>
    simp only [exec, execTargetFault]
    repeat' split
    · exact stay
    · exact stay
    · exact stay
    · exact go (s.takeFault_events p _ _)
  | responseTimerExpiry i =>
    simp only [exec, execResponseTimerExpiry]
    split
    · exact stay
    · split
      · split
        · exact go (s.expireResponse_events _ _ _)
        · exact stay
      · exact stay
  | retryTimerExpiry i =>
    simp only [exec, execRetryTimerExpiry]
    split
    · exact stay
    · rename_i e he
      split
      · rename_i h
        refine go (Acts.events (.one (.edit s i _ fun f hf => ?_))).settle
        rw [he, Option.some.injEq] at hf
        subst hf
        have hb := h.2.1
        exact
          { origin := rfl, tag := rfl
            orphaned := by simp [hb]
            ok := fun h => ⟨by simp, by simp, by simp, by simp, by simp,
              by have := h.final; simp only [hb, reduceCtorEq, iff_false] at this; simp [this],
              fun _ => h.atPort (.inr (.inr (.inl hb))), h.skip⟩
            out := fun q hq => by simp [Entry.pieceOutAt] at hq
            retry := fun q hq => .inr ⟨by
              simp only [Entry.onWaitList, Bool.and_eq_true, decide_eq_true_eq] at hq ⊢
              exact ⟨hq.1, by simp [hb]⟩, Nat.le_refl _⟩ }
      · exact stay
  | holdTimerExpiry p =>
    simp only [exec, execHoldTimerExpiry]
    repeat' split
    · exact stay
    · exact stay
    · exact go (((Acts.modPort s p (fun port => { port with hold := none }) fun _ h => h).snoc
        (.note _ _ _)).snoc (.raise _ _ _ _)).events.settle
    · exact stay
    · exact stay
  | unitStartDecision c =>
    simp only [exec, execUnitStartDecision]
    split
    · rename_i h
      exact go (s.startUnit_acts c h.2).events.settle
    · exact stay
  | commit => exact s.takeWrite_events _ _ fun e => serveCommit_events e s
  | copyBack => exact s.takeWrite_events _ _ fun _ => .one (.staging s _)
  | portResume => exact s.takeWrite_events _ _ fun e => servePortResume_events e s
  | portOffline => exact s.takeWrite_events _ _ fun e => servePortOffline_events e s
  | channelStartLoaded => exact s.takeWrite_events _ _ fun _ => (s.startLoaded_acts _).events
  | channelStartFetch => exact s.takeWrite_events _ _ fun _ => (s.startFetchForm_acts _).events
  | channelPause => exact s.takeWrite_events _ _ fun _ => (s.pauseChannel_acts _).events
  | channelContinue => exact s.takeWrite_events _ _ fun _ => (s.continueChannel_acts _).events
  | channelStop => exact s.takeWrite_events _ _ fun _ => (s.stopChannel_acts _).events
  | cardResetCommand => exact s.takeWrite_events _ _ fun e => serveCardReset_events e s
  | stagingWrite => exact s.takeWrite_events _ _ fun e => serveStagingWrite_events e s
  | loadedDescriptorWrite => exact s.takeWrite_events _ _ fun e => serveDescriptorWrite_events e s
  | portConfigurationWrite => exact s.takeWrite_events _ _ fun e => servePortConfigWrite_events e s
  | settingWrite => exact s.takeWrite_events _ _ fun e => serveSettingWrite_events e s
  | remoteManagementWrite =>
    exact s.takeWrite_events _ _ fun e => serveRemoteManagementWrite_events e s
  | attentionEnablesWrite => exact s.takeWrite_events _ _ fun e => serveEnablesWrite_events e s
  | commandArgumentWrite => exact s.takeWrite_events _ _ fun e => serveArgumentWrite_events e s
  | mgmtWrite => exact s.takeWrite_events _ _ fun e => serveOtherWrite_events e s
  | targetCode p msg =>
    simp only [exec, execTargetCode]
    repeat' split
    · exact stay
    · exact stay
    · exact stay
    · exact go ((Acts.one (.walk s none)).then (State.endAsk_acts _ _ _)).events.settle
  | targetPass p msg =>
    simp only [exec, execTargetPass]
    repeat' split
    · exact stay
    · exact stay
    · exact stay
    · exact go (s.passPort_acts p).events.settle
  | askTimerExpiry =>
    simp only [exec, execAskTimerExpiry]
    repeat' split
    · exact stay
    · exact stay
    · exact go (s.passPort_acts _).events.settle
  | targetAttentionLineChange p a => exact go (.one (.attnLine s _))
  | pacePulse p =>
    simp only [exec, execPacePulse]
    split
    · exact stay
    · exact go (s.pulse_acts p).events
  | palertAssert =>
    simp only [exec, execPalertAssert]
    have h1 : Events s (s.modLines fun l => { l with palert := true, early := l.early.tail }) :=
      .one (.lines s _ rfl)
    split
    · exact go h1
    · exact go (((h1.snoc (.guard _ _)).snoc (.act (.raise _ _ _ _))).acts
        (State.sweep_acts _)).settle
  | palertDeassert =>
    simp only [exec, execPalertDeassert]
    have h1 : Events s (s.modLines fun l => { l with palert := false, early := l.early.tail }) :=
      .one (.lines s _ rfl)
    split
    · exact go (h1.snoc (.guard _ _))
    · exact go h1
  | holdOffTimerExpiry =>
    simp only [exec, execHoldOffTimerExpiry]
    repeat' split
    · exact stay
    · exact go ((Events.one (.guard s _)).snoc (.act (.raise _ _ _ _))).settle
    · exact stay
    · exact stay
  | tLinkUp p =>
    simp only [exec, execTLinkUp]
    have h1 : Events s (s.modLines fun l => { l with tLink := l.tLink.set p true }) :=
      .one (.lines s _ rfl)
    split
    · exact go h1
    · exact go (h1.acts (State.linkUpAt_acts _ p))
  | tLinkDown p =>
    simp only [exec, execTLinkDown]
    have h1 : Events s (s.modLines fun l => { l with tLink := l.tLink.set p false }) :=
      .one (.lines s _ rfl)
    split
    · exact go h1
    · exact go ((h1.acts (State.loseLink_acts _ p)).acts (State.passPort_acts _ p)).settle
  | bLinkUp =>
    simp only [exec, execBLinkUp]
    have h1 : Events s (s.modLines fun l => { l with bLink := true }) := .one (.lines s _ rfl)
    split
    · exact go h1
    · exact go (h1.then (State.bLinkUpEvent_events _))
  | bLinkDown =>
    simp only [exec, execBLinkDown]
    have h1 : Events s (s.modLines fun l => { l with bLink := false, early := l.early.tail }) :=
      .one (.lines s _ rfl)
    split
    · exact go (h1.then (State.bLinkDownEvent_events _)).settle
    · exact go h1
  | cardReset =>
    simp only [exec, execCardReset]
    have h1 : Events s (s.modLines fun l => { l with crst := true }) := .one (.lines s _ rfl)
    split
    · exact go h1
    · exact go (h1.snoc (.act (.cardReset _)))
  | powerOnReset slot bootp bootw =>
    exact go ((Events.one (.powerOn s _)).snoc (.lines _ _ rfl))
  | porstRelease =>
    simp only [exec, execPorstRelease]
    have h1 : Events s (s.modLines fun l => { l with porst := false }) := .one (.lines s _ rfl)
    split
    · exact go (((h1.snoc (.guard _ (if s.lines.palert then .guarded else .opened))).acts
        (State.linkUpsAtRelease_acts _ (List.finRange 4))).then (State.bLinkAtRelease_events _))
    · exact stay
  | crstRelease => exact go (.one (.lines s _ rfl))
  | pLinkDown => exact go (.one (.lines s _ rfl))
  | pLinkUp => exact go (.one (.lines s _ rfl))

/-- A step takes the front command and runs a chain of events, or idles. -/
theorem step_events (s : State) :
    ∃ t, step s = .next t ∧ Events { s with pending := s.pending.tail } t := by
  unfold step
  split
  · rename_i h
    refine ⟨s, rfl, ?_⟩
    rw [h, List.tail_nil, ← h]
  · rename_i c rest h
    rw [h]
    exact exec_events c _

end Sys2Proof.Machine
end

