-- ==== Sys2Proof/Laws/Frames.lean ====
section
/-!
SUPPORT. What the larger shared operations leave and change, said once for the statements about them: what
a step keeps when every event does, the delivery of P responses, the take of a management write, the
card reset, a port configuration, the orphaning at a link down.
-/

namespace Sys2Proof.Machine

/-! ## Steps -/

/-- A property that every event keeps, and that the queue does not touch, is kept by every step. -/
theorem kept_by_step {P : State → Prop} (hp : ∀ s q, P s → P { s with pending := q })
    (h : ∀ s t, Event s t → P s → P t) {s t : State} (hs : P s) (hst : step s = .next t) : P t := by
  obtain ⟨u, hu, hev⟩ := step_events s
  rw [hst] at hu
  cases hu
  have : ∀ a b, Events a b → P a → P b := by
    intro a b hab ha
    induction hab with
    | refl => exact ha
    | tail _ h' ih => exact h _ _ h' ih
  exact this _ _ hev (hp _ _ hs)

/-! ## Card reset -/

/-- Which fields a card reset writes, and with what. -/
theorem State.cardReset_fields (s : State) : ∃ b ps, s.cardReset =
    { s with
      bSent := b, pSent := ps, entries := Vector.replicate 24 none, order := []
      ports := mapCells Port.atCardReset s.ports
      notes := Vector.replicate 17 none
      channels := Vector.replicate 4 Channel.atReset
      guard := s.guard.atCardReset s.lines.palert s.setup.settings.holdOff
      attention := s.cardReset.attention
      tSent := s.cardReset.tSent } := by
  obtain ⟨m, hm⟩ := s.sendAborted_frame (s.table.filter fun ie => ie.2.aborts)
  simp only [State.cardReset, hm]
  exact ⟨_, _, rfl⟩

theorem State.cardReset_order (s : State) : s.cardReset.order = [] := by
  obtain ⟨_, _, h⟩ := s.cardReset_fields; rw [h]

theorem State.cardReset_entries (s : State) : s.cardReset.entries = Vector.replicate 24 none := by
  obtain ⟨_, _, h⟩ := s.cardReset_fields; rw [h]

theorem State.cardReset_ports (s : State) :
    s.cardReset.ports = mapCells Port.atCardReset s.ports := by
  obtain ⟨_, _, h⟩ := s.cardReset_fields; rw [h]

theorem State.cardReset_channels (s : State) :
    s.cardReset.channels = Vector.replicate 4 Channel.atReset := by
  obtain ⟨_, _, h⟩ := s.cardReset_fields; rw [h]

theorem State.cardReset_attention (s : State) :
    s.cardReset.attention.queue = [] ∧ s.cardReset.attention.overflow = false ∧
      s.cardReset.attention.walk = none ∧
      s.cardReset.attention.out = s.cardReset.pendingCondition := by
  obtain ⟨m, hm⟩ := s.sendAborted_frame (s.table.filter fun ie => ie.2.aborts)
  simp only [State.cardReset, hm]
  exact ⟨rfl, rfl, rfl, rfl⟩

/-! ## The arrival order -/

/-- Every act keeps the arrival order a list of the live entries (R44). -/
theorem Act.tableOk {s t : State} (h : Act s t) (T : s.TableOk) : t.TableOk := by
  cases h with
  | edit i f _ =>
    refine ⟨T.1, fun j => ?_⟩
    rw [State.modEntry_entry, State.modEntry_order, T.2 j]
    split <;> simp
  | give i e hn _ =>
    have hi : i ∉ s.order := fun h => by rw [T.2, hn] at h; simp at h
    refine ⟨?_, fun j => ?_⟩
    · rw [State.give_order, List.nodup_append]
      exact ⟨T.1, by simp, fun a ha b hb => by
        rw [List.mem_singleton] at hb; rintro rfl; exact hi (hb ▸ ha)⟩
    · rw [State.give_order, State.give_entry, List.mem_append, T.2 j, List.mem_singleton]
      by_cases hj : i = j
      · subst hj; simp
      · simp [hj, Ne.symm hj]
  | free i =>
    refine ⟨by rw [State.free_order]; exact T.1.filter _, fun j => ?_⟩
    rw [State.free_order, State.free_entry, List.mem_filter, T.2 j]
    by_cases hj : i = j
    · subst hj; simp
    · simp [hj, Ne.symm hj]
  | cardReset =>
    obtain ⟨_, _, hc⟩ := s.cardReset_fields
    rw [hc]
    exact ⟨List.nodup_nil, fun j => by simp⟩
  | _ => exact T

theorem Acts.tableOk {s t : State} (h : Acts s t) (T : s.TableOk) : t.TableOk := by
  induction h with
  | refl => exact T
  | tail _ h ih => exact h.tableOk ih

/-! ## Ends and deliveries -/

/-- The end of an entry whose port is not held changes no hold. -/
theorem State.holdAtEnd_unheld (s : State) (i : EntryNo) (e : Entry) (st : Status)
    (h : ∀ p, e.route = some (.port p) → s.ports[p].hold = none) : s.holdAtEnd i e st = s := by
  unfold State.holdAtEnd
  split
  · rename_i p hp
    simp only [h p hp]
  · rfl

/-- Whether an entry of the P response list leaves when it is at the head. -/
def leavesAtHead (jf : EntryNo × Entry) : Bool :=
  decide (jf.2.state = .complete) && !jf.2.isCardReset

theorem State.deliverHead_cons {s : State} {i : EntryNo} {e : Entry}
    {rest : List (EntryNo × Entry)} (hl : s.pList = (i, e) :: rest) :
    s.deliverHead = if leavesAtHead (i, e) = true then some ((s.sendP (.response e.response)).free i)
      else none := by
  simp only [State.deliverHead, hl, leavesAtHead, Bool.and_eq_true, decide_eq_true_eq]

/-- When the head leaves, the rest of the list is left. -/
theorem State.pList_after_head {s : State} (hn : s.order.Nodup) {i : EntryNo} {e : Entry}
    {rest : List (EntryNo × Entry)} (hl : s.pList = (i, e) :: rest) (m : PMessage) :
    ((s.sendP m).free i).pList = rest := by
  have h0 : (s.sendP m).table = s.table := rfl
  rw [State.pList, State.table_free, h0, List.filter_filter]
  have h1 : (s.table.filter fun x => decide (x.2.origin = Origin.p) && decide (x.1 ≠ i)) =
      s.pList.filter fun x => decide (x.1 ≠ i) := by
    rw [State.pList, List.filter_filter]
    congr 1
    funext x
    rw [Bool.and_comm]
  have hk : (s.pList.map Prod.fst).Nodup :=
    ((List.Sublist.map _ List.filter_sublist).trans s.table_keys_sublist).nodup hn
  rw [hl] at hk
  simp only [List.map_cons, List.nodup_cons, List.mem_map, not_exists, not_and] at hk
  rw [h1, hl]
  simp only [List.filter_cons, ne_eq, not_true, decide_false, Bool.false_eq_true, if_false]
  rw [List.filter_eq_self]
  intro x hx
  simpa using hk.1 x hx

/-- What a delivery does: the entries at the head that leave are freed and their responses sent, in
order; nothing else changes. -/
theorem State.deliverUpTo_spec (n : Nat) (s : State) (hn : s.pList.length ≤ n)
    (hd : s.order.Nodup) :
    let out := s.pList.takeWhile leavesAtHead
    let t := State.deliverUpTo n s
    t = { s with
      entries := t.entries
      order := s.order.filter fun j => j ∉ out.map Prod.fst
      pSent := if s.lines.pLink = true then
          s.pSent ++ out.map fun jf => .response jf.2.response else s.pSent } ∧
    ∀ j : EntryNo, t.entries[j] = if j ∈ out.map Prod.fst then none else s.entries[j] := by
  induction n generalizing s with
  | zero =>
    have : s.pList = [] := List.length_eq_zero_iff.1 (by omega)
    simp [this, State.deliverUpTo]
  | succ n ih =>
    cases hl : s.pList with
    | nil =>
      have : s.deliverHead = none := by simp [State.deliverHead, hl]
      simp [State.deliverUpTo, this]
    | cons ie rest =>
      obtain ⟨i, e⟩ := ie
      have hh := State.deliverHead_cons hl
      by_cases hc : leavesAtHead (i, e) = true
      · rw [if_pos hc] at hh
        have hrest := State.pList_after_head hd hl (.response e.response)
        obtain ⟨h1, h2⟩ := ih ((s.sendP (.response e.response)).free i)
          (by rw [hrest]; rw [hl] at hn; simpa using hn) (hd.filter _)
        rw [hrest] at h1 h2
        have htw : List.takeWhile leavesAtHead ((i, e) :: rest) =
            (i, e) :: List.takeWhile leavesAtHead rest := by simp [hc]
        simp only [State.deliverUpTo, hh, htw]
        refine ⟨?_, fun j => ?_⟩
        · rw [h1]
          simp only [State.free, State.sendP]
          congr 1
          · rw [List.filter_filter]
            congr 1
            funext x
            by_cases hx : x = i <;> simp [hx]
          · split <;> simp
        · rw [h2, State.free_entry]
          by_cases hj : i = j
          · subst hj; simp
          · simp only [hj, if_false, List.map_cons, List.mem_cons, Ne.symm hj, false_or]
            rfl
      · rw [if_neg hc] at hh
        simp [State.deliverUpTo, hh, hc]

/-- The P response list is never longer than the table, so every response that can leave does. -/
theorem State.pList_length_le {s : State} (hd : s.order.Nodup) : s.pList.length ≤ 24 := by
  have h : (s.pList.map Prod.fst).Nodup :=
    ((List.Sublist.map _ List.filter_sublist).trans s.table_keys_sublist).nodup hd
  simpa using h.length_le_card

/-! ## Takes of the management block -/

/-- A take serves the write at the head and answers it. -/
theorem State.Takes.takeWrite {s : State} {row : MgmtRow} {i : EntryNo} {e : Entry}
    (h : s.Takes row i e) (serve : Entry → State → Served) :
    s.takeWrite row serve =
      .next (((serve e s).1).answered i (serve e s).2.1 (serve e s).2.2) := by
  obtain ⟨rest, hr⟩ := h.head
  have h1 : s.headWrite row = some (i, e) := by simp [State.headWrite, hr, h.write, h.row]
  have h2 : s.remoteRefused e = false := by
    rcases h.allowed with h | h <;> simp [State.remoteRefused, h]
  simp only [State.takeWrite, h1, h.porst, State.serveWrite, h2]
  rfl

/-- Two changes of a channel in a row are one. -/
theorem State.modChannel_modChannel (s : State) (c : ChannelNo) (f g : Channel → Channel) :
    (s.modChannel c f).modChannel c g = s.modChannel c fun ch => g (f ch) := by
  simp [State.modChannel]

/-! ## Port configuration -/

/-- A port configuration changes the configuration and retry counts alone. -/
theorem State.setPortConfig_fields (s : State) (p : PortNo) (c : PortConfig) :
    ∃ m, s.setPortConfig p c =
      { s with
        setup := { s.setup with portConfig := s.setup.portConfig.set p c }
        entries := m } := by
  obtain ⟨m, hm⟩ := State.lowerRetries_frame
    { s with setup := { s.setup with portConfig := s.setup.portConfig.set p c } } c.retryLimit
    (s.waitList p)
  exact ⟨m, by simp only [State.setPortConfig, hm]⟩

/-- The record of each entry after the retry counts of a list of entries are lowered. -/
theorem State.lowerRetries_entry (s : State) (n : Nat) (l : List (EntryNo × Entry))
    (j : EntryNo) : (s.lowerRetries n l).entries[j] = s.entries[j].map fun e =>
      if j ∈ l.map Prod.fst then { e with retryCount := min n e.retryCount } else e := by
  induction l generalizing s with
  | nil => simp [State.lowerRetries]
  | cons ie l ih =>
    rw [State.lowerRetries, ih, State.modEntry_entry]
    by_cases hij : ie.1 = j
    · subst hij
      simp only [if_true, List.map_cons, List.mem_cons, true_or, Option.map_map]
      congr 1
      funext e
      simp only [Function.comp]
      split <;> simp
    · simp only [hij, if_false, List.map_cons, List.mem_cons, Ne.symm hij, false_or]

/-! ## Counts -/

/-- A count that a change to ORPHANED does not raise is not raised at a link down. -/
theorem State.countIf_orphanIssued (s : State) (q : Entry → Bool)
    (hq : ∀ e, q { e with state := .orphaned } = true → e.state = .issued →
      e.origin.isB = true → q e = true) : s.orphanIssued.countIf q ≤ s.countIf q := by
  have : s.orphanIssued.table = s.table.map fun jf => (jf.1,
      if jf.2.origin.isB ∧ jf.2.state = .issued then { jf.2 with state := .orphaned }
      else jf.2) := by
    simp only [State.table, List.map_filterMap]
    apply List.filterMap_congr
    intro j _
    simp [State.orphanIssued, Option.map_map, Function.comp_def]
  rw [State.countIf, this, List.countP_map, State.countIf]
  apply List.countP_mono_left
  rintro ⟨j, e⟩ _ h
  simp only [Function.comp] at h
  split at h
  · rename_i hc; exact hq e h hc.2 hc.1
  · exact h

/-- A count that does not look at retry counts is not raised by a port configuration. -/
theorem State.countIf_setPortConfig (s : State) (p : PortNo) (c : PortConfig) (q : Entry → Bool)
    (hq : ∀ e m, q { e with retryCount := m } = q e) :
    (s.setPortConfig p c).countIf q ≤ s.countIf q := by
  have h : ∀ (l : List (EntryNo × Entry)) (u : State),
      (u.lowerRetries c.retryLimit l).countIf q ≤ u.countIf q := by
    intro l
    induction l with
    | nil => intro u; exact le_refl _
    | cons ie l ih =>
      intro u
      exact (ih _).trans (u.countIf_modEntry_le _ _ _ fun e _ h => by rw [hq] at h; exact h)
  exact (h _ _).trans (le_of_eq (State.countIf_congr rfl q))

theorem State.countIf_of_empty {s : State} (h : s.order = []) (q : Entry → Bool) :
    s.countIf q = 0 := by
  simp [State.countIf, State.table, h]

/-! ## Words and bytes -/

/-- A field of a word as a number. -/
theorem extractLsb'_eq_ofNat {m : Nat} (w : BitVec m) (i n : Nat) :
    w.extractLsb' i n = BitVec.ofNat n (w.toNat / 2 ^ i % 2 ^ n) := by
  apply BitVec.eq_of_toNat_eq
  simp [BitVec.extractLsb'_toNat, Nat.shiftRight_eq_div_pow]

/-- A bit of a word as a number. -/
theorem getLsbD_eq_decide {m : Nat} (w : BitVec m) (k : Nat) :
    w.getLsbD k = decide (w.toNat / 2 ^ k % 2 = 1) := by
  rw [BitVec.getLsbD, Nat.testBit_eq_decide_div_mod_eq]

/-- The four bytes of a word make the word. -/
theorem wordOf_parts (w : Word) : wordOf (w.extractLsb' 0 8) (w.extractLsb' 8 8)
    (w.extractLsb' 16 8) (w.extractLsb' 24 8) = w := by
  simp only [wordOf]
  rw [BitVec.extractLsb'_append_extractLsb'_eq_extractLsb' (by omega),
    BitVec.extractLsb'_append_extractLsb'_eq_extractLsb' (by omega),
    BitVec.extractLsb'_append_extractLsb'_eq_extractLsb' (by omega)]
  simp

/-- The four bytes of a word read back as the word. -/
theorem takeWord_wordBytes (w : Word) (l : List Byte) :
    takeWord (wordBytes w ++ l) = some (w, l) := by
  simp only [wordBytes, List.cons_append, List.nil_append, takeWord, wordOf_parts]

/-- A word is taken off a list of at least four bytes. -/
theorem takeWord_length {l : List Byte} {p : Word × List Byte} (h : takeWord l = some p) :
    l.length = p.2.length + 4 := by
  unfold takeWord at h
  split at h
  · cases h; rfl
  · cases h

end Sys2Proof.Machine
end

