-- ==== Sys2Proof/Laws/Holds.lean ====
section
/-!
SUPPORT. What the shared operations do to the laws of the hold records and the broken notes
(`State.HoldsOk`). The laws look at three things alone: the hold of each port, the note of each holder,
and the hold operation that each entry has at its port.
-/

namespace Sys2Proof.Machine

/-- The hold operation that an entry has at its port, with its holder and its route. -/
abbrev HoldWork := Op × Holder × Option Route

/-- The hold operation of an entry that is WAITING, ISSUED or BACKOFF. -/
def Entry.holdWork (e : Entry) : Option HoldWork :=
  if (e.op = .readHold ∨ e.op = .writeRelease) ∧
      (e.state = .waiting ∨ e.state = .issued ∨ e.state = .backoff) then
    e.origin.holder.map fun h => (e.op, h, e.route)
  else none

def State.holdAt (s : State) (p : PortNo) : Option Hold := s.ports[p].hold

def State.work (s : State) (i : EntryNo) : Option HoldWork := s.entries[i].bind Entry.holdWork

/-- The laws of `State.HoldsOk` over the holds, the notes and the work alone. -/
structure HoldLaws (hold : PortNo → Option Hold) (note : Holder → Option PortNo)
    (work : EntryNo → Option HoldWork) : Prop where
  one : ∀ p q x y, hold p = some x → hold q = some y → x.holder = y.holder → p = q
  read : ∀ p x i, hold p = some x → x.phase = .awaitingRead i →
    work i = some (.readHold, x.holder, some (.port p))
  release : ∀ p x i, hold p = some x → x.phase = .awaitingRelease i →
    work i = some (.writeRelease, x.holder, some (.port p))
  single : ∀ i j h r t, work i = some (.readHold, h, r) → work j = some (.readHold, h, t) → i = j
  reading : ∀ i h r, work i = some (.readHold, h, r) → ∀ p x, hold p = some x → x.holder = h →
    x.phase = .awaitingRead i
  releasing : ∀ i h r, work i = some (.writeRelease, h, r) →
    ∃ p x, hold p = some x ∧ x.holder = h ∧ x.phase = .awaitingRelease i
  note : ∀ h, note h ≠ none → (∀ p x, hold p = some x → x.holder ≠ h) ∧
    ∀ i r, work i ≠ some (.readHold, h, r)

theorem Origin.holder_eq_some {o : Origin} {h : Holder} : o.holder = some h ↔ o = h.origin := by
  cases o <;> cases h <;> simp [Origin.holder, Holder.origin]

/-- An entry at work with a hold operation is one whose work is that operation. -/
theorem Entry.holdWork_iff {e : Entry} {op : Op} {h : Holder} {r : Option Route}
    (hop : op = .readHold ∨ op = .writeRelease) :
    e.holdWork = some (op, h, r) ↔ e.AtWork op h ∧ e.route = r := by
  unfold Entry.holdWork Entry.AtWork
  split
  · rename_i hc
    simp only [Option.map_eq_some_iff, Origin.holder_eq_some, Prod.mk.injEq]
    constructor
    · rintro ⟨k, hk, rfl, rfl, rfl⟩; exact ⟨⟨hk, rfl, hc.2⟩, rfl⟩
    · rintro ⟨⟨ho, rfl, _⟩, rfl⟩; exact ⟨h, ho, rfl, rfl, rfl⟩
  · rename_i hc
    constructor
    · simp
    · rintro ⟨⟨_, rfl, hs⟩, _⟩; exact absurd ⟨hop, hs⟩ hc

theorem State.work_iff {s : State} {i : EntryNo} {op : Op} {h : Holder} {r : Option Route}
    (hop : op = .readHold ∨ op = .writeRelease) :
    s.work i = some (op, h, r) ↔ ∃ e, s.entries[i] = some e ∧ e.AtWork op h ∧ e.route = r := by
  simp only [State.work, Option.bind_eq_some_iff, Entry.holdWork_iff hop]

/-- The laws are about the holds, the notes and the work alone. -/
theorem State.holdsOk_iff {s : State} : s.HoldsOk ↔ HoldLaws s.holdAt s.note s.work := by
  have hR := fun (i : EntryNo) (h : Holder) (r : Option Route) =>
    State.work_iff (s := s) (i := i) (h := h) (r := r) (.inl (rfl : Op.readHold = .readHold))
  have hW := fun (i : EntryNo) (h : Holder) (r : Option Route) =>
    State.work_iff (s := s) (i := i) (h := h) (r := r) (.inr (rfl : Op.writeRelease = .writeRelease))
  constructor
  · intro H
    exact
      { one := H.one
        read := fun p x i hp hx => (hR ..).2 (H.read p x i hp hx)
        release := fun p x i hp hx => (hW ..).2 (H.release p x i hp hx)
        single := fun i j h r t hi hj => by
          obtain ⟨e, he, hw, _⟩ := (hR ..).1 hi
          obtain ⟨f, hf, hv, _⟩ := (hR ..).1 hj
          exact H.single i j e f h he hf hw hv
        reading := fun i h r hi p x hp hx => by
          obtain ⟨e, he, hw, _⟩ := (hR ..).1 hi
          exact H.reading i e h he hw p x hp hx
        releasing := fun i h r hi => by
          obtain ⟨e, he, hw, _⟩ := (hW ..).1 hi
          exact H.releasing i e h he hw
        note := fun h hn => ⟨(H.note h hn).1, fun i r hi => by
          obtain ⟨e, he, hw, _⟩ := (hR ..).1 hi
          exact (H.note h hn).2 i e he hw⟩ }
  · intro H
    exact
      { one := H.one
        read := fun p x i hp hx => (hR ..).1 (H.read p x i hp hx)
        release := fun p x i hp hx => (hW ..).1 (H.release p x i hp hx)
        single := fun i j e f h he hf hw hv =>
          H.single i j h e.route f.route ((hR ..).2 ⟨e, he, hw, rfl⟩) ((hR ..).2 ⟨f, hf, hv, rfl⟩)
        reading := fun i e h he hw => H.reading i h e.route ((hR ..).2 ⟨e, he, hw, rfl⟩)
        releasing := fun i e h he hw => H.releasing i h e.route ((hW ..).2 ⟨e, he, hw, rfl⟩)
        note := fun h hn => ⟨(H.note h hn).1, fun i e he hw =>
          (H.note h hn).2 i e.route ((hR ..).2 ⟨e, he, hw, rfl⟩)⟩ }

/-! ## Changes of the holds, the notes and the work -/

/-- Work that no hold names is gone, or work ends and the hold that it names becomes TIMING or
absent. -/
theorem HoldLaws.ended {hold hold' : PortNo → Option Hold} {note : Holder → Option PortNo}
    {work work' : EntryNo → Option HoldWork} {i : EntryNo} (H : HoldLaws hold note work)
    (hw : ∀ j, work' j = if j = i then none else work j)
    (h1 : ∀ p x', hold' p = some x' → ∃ x, hold p = some x ∧ x'.holder = x.holder ∧
      (x' = x ∧ x.phase ≠ .awaitingRead i ∧ x.phase ≠ .awaitingRelease i ∨
        x.phase = .awaitingRead i ∧ ∃ n, x'.phase = .timing n))
    (h2 : ∀ p x, hold p = some x → x.phase ≠ .awaitingRead i → x.phase ≠ .awaitingRelease i →
      hold' p = some x) : HoldLaws hold' note work' := by
  have sub : ∀ {j w}, work' j = some w → j ≠ i ∧ work j = some w := by
    intro j w h
    rw [hw] at h
    split at h
    · simp at h
    · exact ⟨by assumption, h⟩
  have keep : ∀ {j w}, j ≠ i → work j = some w → work' j = some w := by
    intro j w hj h
    rw [hw, if_neg hj, h]
  refine
    { one := fun p q x' y' hp hq hxy => ?_
      read := fun p x' j hp hx => ?_
      release := fun p x' j hp hx => ?_
      single := fun j k h r t hj hk => H.single j k h r t (sub hj).2 (sub hk).2
      reading := fun j h r hj p x' hp hx => ?_
      releasing := fun j h r hj => ?_
      note := fun h hn => ⟨fun p x' hp => ?_, fun j r hj => (H.note h hn).2 j r (sub hj).2⟩ }
  · obtain ⟨x, hx, e1, _⟩ := h1 p x' hp
    obtain ⟨y, hy, e2, _⟩ := h1 q y' hq
    exact H.one p q x y hx hy (e1 ▸ e2 ▸ hxy)
  · obtain ⟨x, hx', _, ⟨rfl, hr, _⟩ | ⟨_, n, hn⟩⟩ := h1 p x' hp
    · exact keep (fun h => hr (h ▸ hx)) (H.read p x' j hx' hx)
    · simp [hn] at hx
  · obtain ⟨x, hx', _, ⟨rfl, _, hr⟩ | ⟨_, n, hn⟩⟩ := h1 p x' hp
    · exact keep (fun h => hr (h ▸ hx)) (H.release p x' j hx' hx)
    · simp [hn] at hx
  · obtain ⟨hji, hj⟩ := sub hj
    obtain ⟨x, hx', e1, ⟨rfl, _, _⟩ | ⟨hr, _⟩⟩ := h1 p x' hp
    · exact H.reading j h r hj p x' hx' hx
    · have := H.reading j h r hj p x hx' (e1 ▸ hx)
      rw [hr, HoldPhase.awaitingRead.injEq] at this
      exact absurd this.symm hji
  · obtain ⟨hji, hj⟩ := sub hj
    obtain ⟨p, x, hx, e1, hr⟩ := H.releasing j h r hj
    exact ⟨p, x, h2 p x hx (by simp [hr]) (by simp [hr, hji]), e1, hr⟩
  · obtain ⟨x, hx, e1, _⟩ := h1 p x' hp
    exact e1 ▸ (H.note h hn).1 p x hx

/-- Holds with no work behind them may go, and notes of holders without a hold may change. -/
theorem HoldLaws.dropped {hold hold' : PortNo → Option Hold} {note note' : Holder → Option PortNo}
    {work : EntryNo → Option HoldWork} (H : HoldLaws hold note work)
    (h1 : ∀ p x, hold' p = some x → hold p = some x)
    (h2 : ∀ p x i, hold p = some x → x.phase = .awaitingRelease i → hold' p = some x)
    (hn : ∀ h, note' h ≠ none → note h ≠ none ∨ (∀ p x, hold' p = some x → x.holder ≠ h) ∧
      ∀ i r, work i ≠ some (.readHold, h, r)) : HoldLaws hold' note' work where
  one p q x y hp hq := H.one p q x y (h1 p x hp) (h1 q y hq)
  read p x i hp := H.read p x i (h1 p x hp)
  release p x i hp := H.release p x i (h1 p x hp)
  single := H.single
  reading i h r hi p x hp := H.reading i h r hi p x (h1 p x hp)
  releasing i h r hi := by
    obtain ⟨p, x, hp, hx, hr⟩ := H.releasing i h r hi
    exact ⟨p, x, h2 p x i hp hr, hx, hr⟩
  note h hh := by
    rcases hn h hh with h' | h'
    · exact ⟨fun p x hp => (H.note h h').1 p x (h1 p x hp), (H.note h h').2⟩
    · exact h'

/-- A READ_HOLD of a holder that holds nothing, has no hold operation at work and no note begins its
work at entry i. -/
theorem HoldLaws.readAdded {hold : PortNo → Option Hold} {note note' : Holder → Option PortNo}
    {work work' : EntryNo → Option HoldWork} {i : EntryNo} {h : Holder} {r : Option Route}
    (H : HoldLaws hold note work) (hi : work i = none)
    (hw : ∀ j, work' j = if j = i then some (.readHold, h, r) else work j)
    (hnh : ∀ p x, hold p = some x → x.holder ≠ h)
    (hnr : ∀ j t, work j ≠ some (.readHold, h, t))
    (hn : ∀ k, note' k = if k = h then none else note k) : HoldLaws hold note' work' := by
  have keep : ∀ {j w}, work j = some w → work' j = some w := by
    intro j w hj
    rw [hw, if_neg (fun e => by rw [e, hi] at hj; simp at hj), hj]
  have sub : ∀ {j k t}, work' j = some (.readHold, k, t) → j = i ∧ k = h ∨
      work j = some (.readHold, k, t) := by
    intro j k t hj
    rw [hw] at hj
    split at hj
    · simp only [Option.some.injEq, Prod.mk.injEq, true_and] at hj
      exact .inl ⟨by assumption, hj.1.symm⟩
    · exact .inr hj
  refine
    { one := H.one
      read := fun p x j hp hx => keep (H.read p x j hp hx)
      release := fun p x j hp hx => keep (H.release p x j hp hx)
      single := fun j k l s t hj hk => ?_
      reading := fun j k t hj p x hp hx => ?_
      releasing := fun j k t hj => ?_
      note := fun k hk => ?_ }
  · rcases sub hj with ⟨rfl, rfl⟩ | hj <;> rcases sub hk with ⟨rfl, h2⟩ | hk
    · rfl
    · exact absurd hk (hnr _ _)
    · exact absurd (h2 ▸ hj) (hnr _ _)
    · exact H.single j k l s t hj hk
  · rcases sub hj with ⟨rfl, rfl⟩ | hj
    · exact absurd hx (hnh p x hp)
    · exact H.reading j k t hj p x hp hx
  · rw [hw] at hj
    split at hj
    · simp at hj
    · exact H.releasing j k t hj
  · rw [hn] at hk
    split at hk
    · exact absurd rfl hk
    · rename_i hkh
      refine ⟨(H.note k hk).1, fun j t hj => ?_⟩
      rcases sub hj with ⟨_, rfl⟩ | hj
      · exact hkh rfl
      · exact (H.note k hk).2 j t hj

/-- A release of the holder of port p, whose hold is in TIMING, begins its work at entry i. -/
theorem HoldLaws.releaseAdded {hold hold' : PortNo → Option Hold} {note : Holder → Option PortNo}
    {work work' : EntryNo → Option HoldWork} {i : EntryNo} {p : PortNo} {x : Hold} {n : Nat}
    (H : HoldLaws hold note work) (hi : work i = none) (hx : hold p = some x)
    (ht : x.phase = .timing n)
    (hh : ∀ q, hold' q = if q = p then some { x with phase := .awaitingRelease i } else hold q)
    (hw : ∀ j, work' j = if j = i then some (.writeRelease, x.holder, some (.port p)) else work j) :
    HoldLaws hold' note work' := by
  have keep : ∀ {j w}, work j = some w → work' j = some w := by
    intro j w hj
    rw [hw, if_neg (fun e => by rw [e, hi] at hj; simp at hj), hj]
  have sub : ∀ {j k t}, work' j = some (.readHold, k, t) → work j = some (.readHold, k, t) := by
    intro j k t hj
    rw [hw] at hj
    split at hj
    · simp at hj
    · exact hj
  have back : ∀ {q y}, hold' q = some y → q = p ∧ y = { x with phase := .awaitingRelease i } ∨
      q ≠ p ∧ hold q = some y := by
    intro q y hq
    rw [hh] at hq
    split at hq
    · exact .inl ⟨by assumption, by simpa using hq.symm⟩
    · exact .inr ⟨by assumption, hq⟩
  have old : ∀ {q y}, hold' q = some y → ∃ z, hold q = some z ∧ z.holder = y.holder := by
    intro q y hq
    rcases back hq with ⟨rfl, rfl⟩ | ⟨_, hq⟩
    · exact ⟨x, hx, rfl⟩
    · exact ⟨y, hq, rfl⟩
  refine
    { one := fun q r y z hq hr hyz => ?_
      read := fun q y j hq hy => ?_
      release := fun q y j hq hy => ?_
      single := fun j k h r t hj hk => H.single j k h r t (sub hj) (sub hk)
      reading := fun j h r hj q y hq hy => ?_
      releasing := fun j h r hj => ?_
      note := fun h hn => ⟨fun q y hq => ?_, fun j r hj => (H.note h hn).2 j r (sub hj)⟩ }
  · obtain ⟨y', hy', e1⟩ := old hq
    obtain ⟨z', hz', e2⟩ := old hr
    exact H.one q r y' z' hy' hz' (e1.trans (hyz.trans e2.symm))
  · rcases back hq with ⟨rfl, rfl⟩ | ⟨_, hq⟩
    · simp at hy
    · exact keep (H.read q y j hq hy)
  · rcases back hq with ⟨rfl, rfl⟩ | ⟨_, hq⟩
    · simp only [HoldPhase.awaitingRelease.injEq] at hy
      rw [hw, if_pos hy.symm]
    · exact keep (H.release q y j hq hy)
  · rcases back hq with ⟨rfl, rfl⟩ | ⟨_, hq⟩
    · have := H.reading j h r (sub hj) q x hx hy
      simp [ht] at this
    · exact H.reading j h r (sub hj) q y hq hy
  · rw [hw] at hj
    split at hj
    · rename_i hji
      simp only [Option.some.injEq, Prod.mk.injEq, true_and] at hj
      exact ⟨p, { x with phase := .awaitingRelease i }, by rw [hh, if_pos rfl], hj.1, by rw [hji]⟩
    · obtain ⟨q, y, hq, hy, hr⟩ := H.releasing j h r hj
      have hqp : q ≠ p := by
        rintro rfl
        rw [hx, Option.some.injEq] at hq
        subst hq
        simp [ht] at hr
      exact ⟨q, y, by rw [hh, if_neg hqp, hq], hy, hr⟩
  · obtain ⟨z, hz, e1⟩ := old hq
    exact e1 ▸ (H.note h hn).1 q z hz

/-- The READ_HOLD of entry i at an unheld port takes the hold. -/
theorem HoldLaws.taken {hold hold' : PortNo → Option Hold} {note : Holder → Option PortNo}
    {work : EntryNo → Option HoldWork} {i : EntryNo} {p : PortNo} {h : Holder}
    (H : HoldLaws hold note work) (hi : work i = some (.readHold, h, some (.port p)))
    (hp : hold p = none)
    (hh : ∀ q, hold' q = if q = p then some { holder := h, phase := .awaitingRead i } else hold q) :
    HoldLaws hold' note work := by
  have back : ∀ {q y}, hold' q = some y →
      q = p ∧ y = { holder := h, phase := .awaitingRead i } ∨ q ≠ p ∧ hold q = some y := by
    intro q y hq
    rw [hh] at hq
    split at hq
    · exact .inl ⟨by assumption, by simpa using hq.symm⟩
    · exact .inr ⟨by assumption, hq⟩
  have other : ∀ {q y}, hold q = some y → y.holder ≠ h := by
    intro q y hq hy
    have h1 := H.reading i h _ hi q y hq hy
    have h2 := H.read q y i hq h1
    rw [hi] at h2
    simp only [Option.some.injEq, Prod.mk.injEq, true_and] at h2
    have : p = q := by simpa using h2.2
    subst this
    simp [hp] at hq
  refine
    { one := fun q r y z hq hr hyz => ?_
      read := fun q y j hq hy => ?_
      release := fun q y j hq hy => ?_
      single := H.single
      reading := fun j k r hj q y hq hy => ?_
      releasing := fun j k r hj => ?_
      note := fun k hn => ⟨fun q y hq => ?_, (H.note k hn).2⟩ }
  · rcases back hq with ⟨rfl, rfl⟩ | ⟨_, hq⟩ <;> rcases back hr with ⟨rfl, rfl⟩ | ⟨_, hr⟩
    · rfl
    · exact absurd hyz.symm (other hr)
    · exact absurd hyz (other hq)
    · exact H.one q r y z hq hr hyz
  · rcases back hq with ⟨rfl, rfl⟩ | ⟨_, hq⟩
    · simp only [HoldPhase.awaitingRead.injEq] at hy
      exact hy ▸ hi
    · exact H.read q y j hq hy
  · rcases back hq with ⟨rfl, rfl⟩ | ⟨_, hq⟩
    · simp at hy
    · exact H.release q y j hq hy
  · rcases back hq with ⟨rfl, rfl⟩ | ⟨_, hq⟩
    · subst hy
      rw [H.single i j h _ _ hi hj]
    · exact H.reading j k r hj q y hq hy
  · obtain ⟨q, y, hq, hy, hr⟩ := H.releasing j k r hj
    have hqp : q ≠ p := by
      rintro rfl
      simp [hp] at hq
    exact ⟨q, y, by rw [hh, if_neg hqp, hq], hy, hr⟩
  · rcases back hq with ⟨rfl, rfl⟩ | ⟨_, hq⟩
    · rintro rfl
      exact (H.note _ hn).2 i _ hi
    · exact (H.note k hn).1 q y hq

/-- The laws are about each holder by itself: what is left of one holder keeps them. -/
theorem HoldLaws.only {hold hold' : PortNo → Option Hold} {note note' : Holder → Option PortNo}
    {work work' : EntryNo → Option HoldWork} (H : HoldLaws hold note work) (k : Holder)
    (hh : ∀ p x, hold' p = some x ↔ hold p = some x ∧ x.holder = k)
    (hw : ∀ i op h r, work' i = some (op, h, r) ↔ work i = some (op, h, r) ∧ h = k)
    (hn : ∀ h, note' h ≠ none → note h ≠ none) : HoldLaws hold' note' work' where
  one p q x y hp hq := H.one p q x y ((hh p x).1 hp).1 ((hh q y).1 hq).1
  read p x i hp hx := (hw ..).2 ⟨H.read p x i ((hh p x).1 hp).1 hx, ((hh p x).1 hp).2⟩
  release p x i hp hx := (hw ..).2 ⟨H.release p x i ((hh p x).1 hp).1 hx, ((hh p x).1 hp).2⟩
  single i j h r t hi hj := H.single i j h r t ((hw ..).1 hi).1 ((hw ..).1 hj).1
  reading i h r hi p x hp := H.reading i h r ((hw ..).1 hi).1 p x ((hh p x).1 hp).1
  releasing i h r hi := by
    obtain ⟨hi, rfl⟩ := (hw ..).1 hi
    obtain ⟨p, x, hp, hx, hr⟩ := H.releasing i h r hi
    exact ⟨p, x, (hh p x).2 ⟨hp, hx⟩, hx, hr⟩
  note h hk := ⟨fun p x hp => (H.note h (hn h hk)).1 p x ((hh p x).1 hp).1,
    fun i r hi => (H.note h (hn h hk)).2 i r ((hw ..).1 hi).1⟩

end Sys2Proof.Machine
end

