-- ==== Sys2Proof/Laws/HoldOps.lean ====
section
/-!
SUPPORT. Which shared operations keep the laws of the hold records and the broken notes
(`State.HoldsOk`): those that leave holds, notes and hold operations alone (`HoldSame`), the end of an
entry with all that is made of it, the loss of a port, the take of a hold, the acceptance of a
request, and the link down of the B port.
-/

namespace Sys2Proof.Machine

/-! ## What leaves them alone -/

/-- No hold, no note and no hold operation at work differs. -/
structure HoldSame (s t : State) : Prop where
  hold : t.holdAt = s.holdAt
  note : t.note = s.note
  work : t.work = s.work

theorem HoldSame.refl (s : State) : HoldSame s s := ⟨rfl, rfl, rfl⟩

theorem HoldSame.then {s t u : State} (h : HoldSame s t) (h' : HoldSame t u) : HoldSame s u :=
  ⟨h'.hold.trans h.hold, h'.note.trans h.note, h'.work.trans h.work⟩

theorem HoldSame.of_eq {s t : State} (hp : t.ports = s.ports) (hn : t.notes = s.notes)
    (he : t.entries = s.entries) : HoldSame s t where
  hold := by funext p; simp only [State.holdAt, hp]
  note := by funext h; simp only [State.note, hn]
  work := by funext i; simp only [State.work, he]

theorem HoldSame.holdsOk {s t : State} (h : HoldSame s t) (H : s.HoldsOk) : t.HoldsOk := by
  rw [State.holdsOk_iff] at H ⊢
  rw [h.hold, h.note, h.work]
  exact H

theorem State.give_work (s : State) (i j : EntryNo) (e : Entry) :
    (s.give i e).work j = if j = i then e.holdWork else s.work j := by
  simp only [State.work, State.give_entry, eq_comm (a := i)]
  split <;> rfl

theorem State.free_work (s : State) (i j : EntryNo) :
    (s.free i).work j = if j = i then none else s.work j := by
  simp only [State.work, State.free_entry, eq_comm (a := i)]
  split <;> rfl

theorem State.modEntry_work (s : State) (i j : EntryNo) (f : Entry → Entry) :
    (s.modEntry i f).work j =
      if j = i then s.entries[i].bind fun e => (f e).holdWork else s.work j := by
  simp only [State.work, State.modEntry_entry, eq_comm (a := i)]
  split
  · rename_i h; subst h; cases s.entries[j] <;> rfl
  · rfl

theorem State.work_of_entry {s : State} {i : EntryNo} {e : Entry} (h : s.entries[i] = some e) :
    s.work i = e.holdWork := by
  rw [State.work, h]; rfl

theorem State.work_of_none {s : State} {i : EntryNo} (h : s.entries[i] = none) :
    s.work i = none := by
  rw [State.work, h]; rfl

/-- An entry that is not at its port has no hold operation at work. -/
theorem Entry.holdWork_idle {e : Entry}
    (h : ¬ (e.state = .waiting ∨ e.state = .issued ∨ e.state = .backoff)) : e.holdWork = none :=
  if_neg fun hc => h hc.2

theorem Entry.holdWork_move {e : Entry} (h : e.origin.isM = true) : e.holdWork = none := by
  unfold Entry.holdWork
  split
  · cases ho : e.origin <;> simp_all [Origin.isM, Origin.holder]
  · rfl

theorem Entry.holdWork_data {e : Entry} (h : e.op = .read ∨ e.op = .write) : e.holdWork = none := by
  refine if_neg fun hc => ?_
  rcases h with h | h <;> simp [h] at hc

theorem HoldSame.give {s : State} {i : EntryNo} {e : Entry} (h : s.entries[i] = none)
    (he : e.holdWork = none) : HoldSame s (s.give i e) where
  hold := rfl
  note := rfl
  work := by
    funext j
    rw [State.give_work]
    split
    · rename_i hj; subst hj; rw [he, State.work_of_none h]
    · rfl

theorem HoldSame.free {s : State} {i : EntryNo} (h : s.work i = none) : HoldSame s (s.free i) where
  hold := rfl
  note := rfl
  work := by
    funext j
    rw [State.free_work]
    split
    · rename_i hj; subst hj; exact h.symm
    · rfl

theorem HoldSame.modEntry {s : State} {i : EntryNo} {f : Entry → Entry}
    (h : ∀ e, s.entries[i] = some e → (f e).holdWork = e.holdWork) :
    HoldSame s (s.modEntry i f) where
  hold := rfl
  note := rfl
  work := by
    funext j
    rw [State.modEntry_work]
    split
    · rename_i hj
      subst hj
      rw [State.work]
      cases he : s.entries[j] with
      | none => rfl
      | some e => exact h e he
    · rfl

theorem HoldSame.modPort (s : State) (p : PortNo) (f : Port → Port)
    (h : ∀ x : Port, (f x).hold = x.hold) : HoldSame s (s.modPort p f) where
  hold := by
    funext q
    simp only [State.holdAt, State.modPort_port]
    split
    · exact h _
    · rfl
  note := rfl
  work := rfl

theorem HoldSame.modChannel (s : State) (c : ChannelNo) (f : Channel → Channel) :
    HoldSame s (s.modChannel c f) := ⟨rfl, rfl, rfl⟩

theorem HoldSame.raise (s : State) (a : AttnSource) (k : AttnKind) (d : Option (Status × Word)) :
    HoldSame s (s.raise a k d) := ⟨rfl, rfl, rfl⟩

theorem HoldSame.sendP (s : State) (m : PMessage) : HoldSame s (s.sendP m) := ⟨rfl, rfl, rfl⟩

theorem HoldSame.sendB (s : State) (m : BMessage) : HoldSame s (s.sendB m) := ⟨rfl, rfl, rfl⟩

theorem HoldSame.sendT (s : State) (p : PortNo) (m : TMessage) : HoldSame s (s.sendT p m) :=
  ⟨rfl, rfl, rfl⟩

theorem State.deliverUpTo_holdSame (n : Nat) (s : State) : HoldSame s (s.deliverUpTo n) := by
  induction n generalizing s with
  | zero => exact .refl s
  | succ n ih =>
    rw [State.deliverUpTo]
    split
    · exact .refl s
    · rename_i t h
      refine HoldSame.then ?_ (ih t)
      unfold State.deliverHead at h
      split at h
      · simp at h
      · rename_i i e rest hl
        split at h
        · rename_i hc
          simp only [Option.some.injEq] at h
          subst h
          have he : s.entries[i] = some e := by
            have : (i, e) ∈ s.pList := hl ▸ List.mem_cons_self
            exact (State.mem_table.1 (List.mem_filter.1 this).1).2
          refine (HoldSame.sendP s (.response e.response)).then (HoldSame.free ?_)
          exact (State.work_of_entry (by exact he)).trans (Entry.holdWork_idle (by simp [hc.1]))
        · simp at h

theorem State.deliverP_holdSame (s : State) : HoldSame s s.deliverP := State.deliverUpTo_holdSame 24 s

/-! ### Move channels -/

theorem State.createMove_holdSame (s : State) (c : ChannelNo) (op : Op) (a : Word) (n : Nat)
    (data : List Byte) : HoldSame s (s.createMove c op a n data).1 := by
  unfold State.createMove
  repeat' split
  all_goals first
    | exact .refl s
    | skip
  rename_i hi _ _ _
  exact .give (State.lowestFree_none hi) (Entry.holdWork_move rfl)

theorem State.faultIdle_holdSame (s : State) (c : ChannelNo) : HoldSame s (s.faultIdle c) :=
  ⟨rfl, rfl, rfl⟩

theorem State.restChannel_holdSame (s : State) (c : ChannelNo) : HoldSame s (s.restChannel c) := by
  simp only [State.restChannel]
  repeat' split
  all_goals exact ⟨rfl, rfl, rfl⟩

theorem State.failUnit_holdSame (s : State) (c : ChannelNo) (others : List UnitRecord) (st : Status)
    (a : Word) (d : Option Detail) : HoldSame s (s.failUnit c others st a d) := ⟨rfl, rfl, rfl⟩

theorem State.startWrite_holdSame (s : State) (c : ChannelNo) (u : UnitRecord)
    (rest : List UnitRecord) (bytes : List Byte) : HoldSame s (s.startWrite c u rest bytes) := by
  have h := s.createMove_holdSame c .write s.channels[c].destinationCursor
    s.channels[c].descriptor.unit.bytes bytes
  simp only [State.startWrite]
  split <;> rename_i heq <;> rw [heq] at h
  · exact h.then (.modChannel _ _ _)
  · exact h.then (State.failUnit_holdSame _ _ _ _ _ _)
  · exact h

theorem State.fetchFault_holdSame (s : State) (c : ChannelNo) (st : Status) (a : Word)
    (d : Option Detail) : HoldSame s (s.fetchFault c st a d) := ⟨rfl, rfl, rfl⟩

theorem State.startFetch_holdSame (s : State) (c : ChannelNo) (a : Word) :
    HoldSame s (s.startFetch c a) := by
  simp only [State.startFetch]
  have h := (HoldSame.modChannel s c
    fun ch => { ch with state := .fetching, fetchAddress := some a }).then
    (State.createMove_holdSame _ c .read a 16 [])
  split <;> rename_i heq <;> rw [heq] at h
  · exact h
  · exact h.then (State.fetchFault_holdSame _ _ _ _ _)
  · exact h

theorem State.completeDescriptor_holdSame (s : State) (c : ChannelNo) :
    HoldSame s (s.completeDescriptor c) := by
  simp only [State.completeDescriptor]
  have h1 := HoldSame.modChannel s c fun ch => { ch with completed := ch.completed + 1 }
  generalize (s.modChannel c fun ch => { ch with completed := ch.completed + 1 }) = t at h1 ⊢
  have h2 : HoldSame s (if t.channels[c].descriptor.notify = true then
      t.raise (.channel c) .channelDone none else t) := by
    split
    · exact h1.then (.raise _ _ _ _)
    · exact h1
  refine h2.then ?_
  generalize (if t.channels[c].descriptor.notify = true then
      t.raise (.channel c) .channelDone none else t) = u
  repeat' split
  all_goals first
    | exact .refl u
    | exact .modChannel u c _
    | exact u.startFetch_holdSame c _

theorem State.writeDone_holdSame (s : State) (c : ChannelNo) (others : List UnitRecord) :
    HoldSame s (s.writeDone c others) := by
  simp only [State.writeDone]
  refine (HoldSame.modChannel s c fun ch =>
    { ch with
      units := others, remaining := ch.remaining - 1,
      destinationCursor :=
        nextCursor ch.destinationCursor ch.descriptor.destinationFixed ch.descriptor.unit }).then ?_
  repeat' split
  all_goals first
    | exact .refl _
    | exact State.completeDescriptor_holdSame _ c
    | exact State.startWrite_holdSame _ c _ _ _

theorem State.fetchReport_holdSame (s : State) (c : ChannelNo) (st : Status) (a : Option Word)
    (d : Option Detail) (data : List Byte) : HoldSame s (s.fetchReport c st a d data) := by
  simp only [State.fetchReport]
  repeat' split
  all_goals exact ⟨rfl, rfl, rfl⟩

theorem State.unitReport_holdSame (s : State) (c : ChannelNo) (k : Nat) (u : UnitRecord) (a : Word)
    (st : Status) (fa : Option Word) (d : Option Detail) (data : List Byte) :
    HoldSame s (s.unitReport c k u a st fa d data) := by
  simp only [State.unitReport]
  repeat' split
  all_goals first
    | exact .refl s
    | exact s.startWrite_holdSame c _ _ _
    | exact s.failUnit_holdSame c _ _ _ _
    | exact s.writeDone_holdSame c _
    | exact .modChannel s c _

theorem State.report_holdSame (s : State) (c : ChannelNo) (i : EntryNo) (a : Word) (st : Status)
    (fa : Option Word) (d : Option Detail) (data : List Byte) :
    HoldSame s (s.report c i a st fa d data) := by
  simp only [State.report]
  refine HoldSame.then ?_ (State.restChannel_holdSame _ c)
  repeat' split
  all_goals first
    | exact .refl s
    | exact s.unitReport_holdSame c _ _ _ _ _ _ _
    | exact s.fetchReport_holdSame c _ _ _ _

theorem State.startUnit_holdSame (s : State) (c : ChannelNo) : HoldSame s (s.startUnit c) := by
  have h := s.createMove_holdSame c .read s.channels[c].sourceCursor
    s.channels[c].descriptor.unit.bytes []
  simp only [State.startUnit]
  split <;> rename_i heq <;> rw [heq] at h
  · exact h.then (.modChannel _ _ _)
  · exact ((h.then (.modChannel _ c _)).then (State.failUnit_holdSame _ c _ _ _ _)).then
      (State.restChannel_holdSame _ c)
  · exact h

theorem State.startLoaded_holdSame (s : State) (c : ChannelNo) : HoldSame s (s.startLoaded c).1 := by
  simp only [State.startLoaded]
  repeat' split
  all_goals exact ⟨rfl, rfl, rfl⟩

theorem State.startFetchForm_holdSame (s : State) (c : ChannelNo) :
    HoldSame s (s.startFetchForm c).1 := by
  simp only [State.startFetchForm]
  repeat' split
  all_goals first
    | exact .refl s
    | exact (HoldSame.modChannel s c _).then (State.startFetch_holdSame _ _ _)

theorem State.pauseChannel_holdSame (s : State) (c : ChannelNo) :
    HoldSame s (s.pauseChannel c).1 := by
  simp only [State.pauseChannel]
  split <;> exact ⟨rfl, rfl, rfl⟩

theorem State.continueChannel_holdSame (s : State) (c : ChannelNo) :
    HoldSame s (s.continueChannel c).1 := by
  simp only [State.continueChannel]
  repeat' split
  all_goals first
    | exact ⟨rfl, rfl, rfl⟩
    | exact s.startFetch_holdSame c _

theorem State.stopChannel_holdSame (s : State) (c : ChannelNo) : HoldSame s (s.stopChannel c).1 := by
  simp only [State.stopChannel]
  repeat' split
  all_goals exact ⟨rfl, rfl, rfl⟩

/-! ## The end of an entry -/

theorem State.holdAtEnd_holdAt (s : State) (i : EntryNo) (e : Entry) (st : Status) (p : PortNo) :
    (s.holdAtEnd i e st).holdAt p =
      if e.route = some (.port p) then
        (s.holdAt p).bind fun x =>
          if x.phase = .awaitingRead i then x.afterRead s.setup.settings.holdLimit st
          else if x.phase = .awaitingRelease i then none else some x
      else s.holdAt p := by
  have port (q : PortNo) (v : Option Hold) :
      (s.modPort q fun port => { port with hold := v }).holdAt p =
        if q = p then v else s.holdAt p := by
    simp only [State.holdAt, State.modPort_port]
    split <;> rfl
  unfold State.holdAtEnd
  split
  · rename_i q hq
    by_cases hqp : q = p
    · subst hqp
      rw [if_pos hq]
      split
      · rename_i hn
        rw [State.holdAt, hn]; rfl
      · rename_i x hx
        have hx' : s.holdAt q = some x := hx
        rw [hx', Option.bind_some]
        split
        · rw [port, if_pos rfl]
        · split
          · rw [port, if_pos rfl]
          · exact hx'
    · have hr : e.route ≠ some (.port p) := by
        rw [hq]; simpa using hqp
      rw [if_neg hr]
      repeat' split
      all_goals first
        | rfl
        | rw [port, if_neg hqp]
  · rename_i hne
    rw [if_neg (hne p)]

theorem State.holdAtEnd_note (s : State) (i : EntryNo) (e : Entry) (st : Status) :
    (s.holdAtEnd i e st).note = s.note := by
  unfold State.holdAtEnd
  repeat' split
  all_goals rfl

/-- The route in the work of an entry is its route. -/
theorem Entry.holdWork_route {e : Entry} {op : Op} {h : Holder} {r : Option Route}
    (hw : e.holdWork = some (op, h, r)) : e.route = r := by
  unfold Entry.holdWork at hw
  split at hw
  · simp only [Option.map_eq_some_iff, Prod.mk.injEq] at hw
    obtain ⟨_, _, _, _, h⟩ := hw
    exact h
  · simp at hw

/-- An entry with a hold operation at work is on the wait list of the port that it is routed to. -/
theorem Entry.onWaitList_of_holdWork {e : Entry} {op : Op} {h : Holder} {p : PortNo}
    (hw : e.holdWork = some (op, h, some (.port p))) : e.onWaitList p = true := by
  have hr := Entry.holdWork_route hw
  unfold Entry.holdWork at hw
  split at hw
  · rename_i hc
    simp [Entry.onWaitList, hr, hc.2, or_assoc]
  · simp at hw

theorem State.holdAtEnd_laws {s : State} {i : EntryNo} {e : Entry} (H : s.HoldsOk)
    (he : s.entries[i] = some e) (st : Status) :
    HoldLaws (s.holdAtEnd i e st).holdAt (s.holdAtEnd i e st).note
      fun j => if j = i then none else s.work j := by
  rw [State.holdsOk_iff] at H
  have hwi := State.work_of_entry he
  have named : ∀ p x, s.holdAt p = some x →
      x.phase = .awaitingRead i ∨ x.phase = .awaitingRelease i → e.route = some (.port p) := by
    intro p x hp hx
    rcases hx with hx | hx
    · exact Entry.holdWork_route (hwi ▸ H.read p x i hp hx)
    · exact Entry.holdWork_route (hwi ▸ H.release p x i hp hx)
  rw [State.holdAtEnd_note]
  refine H.ended (i := i) (fun _ => rfl) (fun p x' hp => ?_) (fun p x hp h1 h2 => ?_)
  · rw [State.holdAtEnd_holdAt] at hp
    split at hp
    · simp only [Option.bind_eq_some_iff] at hp
      obtain ⟨x, hx, hp⟩ := hp
      refine ⟨x, hx, ?_⟩
      split at hp
      · rename_i hr
        unfold Hold.afterRead at hp
        split at hp
        · simp only [Option.some.injEq] at hp
          subst hp
          exact ⟨rfl, .inr ⟨hr, _, rfl⟩⟩
        · simp at hp
      · split at hp
        · simp at hp
        · simp only [Option.some.injEq] at hp
          subst hp
          exact ⟨rfl, .inl ⟨rfl, by assumption, by assumption⟩⟩
    · rename_i hr
      exact ⟨x', hp, rfl, .inl ⟨rfl, fun h => hr (named p x' hp (.inl h)),
        fun h => hr (named p x' hp (.inr h))⟩⟩
  · rw [State.holdAtEnd_holdAt]
    split
    · rw [hp, Option.bind_some, if_neg h1, if_neg h2]
    · exact hp

/-- The end of an entry takes its work away and keeps the laws. -/
theorem State.endEntry_holds {s : State} (H : s.HoldsOk) (i : EntryNo) (st : Status)
    (a : Option Word) (d : Option Detail) : (s.endEntry i st a d).HoldsOk ∧
      ∀ j, (s.endEntry i st a d).work j = if j = i then none else s.work j := by
  have stay (h : s.work i = none) : ∀ j, s.work j = if j = i then none else s.work j := by
    intro j
    split
    · rename_i hj; subst hj; exact h
    · rfl
  unfold State.endEntry
  split
  · rename_i hn
    exact ⟨H, stay (State.work_of_none hn)⟩
  · rename_i e he
    split
    · rename_i hs
      refine ⟨H, stay ((State.work_of_entry he).trans (Entry.holdWork_idle ?_))⟩
      rcases hs with hs | hs <;> simp [hs]
    · have laws := State.holdAtEnd_laws H he st
      have hent := s.holdAtEnd_entries i e st
      have hwork : (s.holdAtEnd i e st).work = s.work := by
        funext j; simp only [State.work, hent]
      generalize s.holdAtEnd i e st = u at laws hent hwork ⊢
      have fin {v t : State} (hv : HoldSame v t) (h1 : v.holdAt = u.holdAt) (h2 : v.note = u.note)
          (h3 : ∀ j, v.work j = if j = i then none else u.work j) :
          t.HoldsOk ∧ ∀ j, t.work j = if j = i then none else s.work j := by
        have h4 : v.work = fun j => if j = i then none else s.work j := by
          funext j; rw [h3, hwork]
        refine ⟨hv.holdsOk (State.holdsOk_iff.2 ?_), fun j => by rw [hv.work, h4]⟩
        rw [h1, h2, h4]; exact laws
      dsimp only
      split
      · refine fin (State.deliverP_holdSame _) rfl rfl fun j => ?_
        rw [State.modEntry_work]
        split
        · rw [hent, he]
          exact Entry.holdWork_idle (by simp [Entry.ended])
        · rfl
      · exact fin (.refl _) rfl rfl fun j => by rw [State.free_work]; rfl
      · exact fin (State.report_holdSame _ _ _ _ _ _ _ _) rfl rfl fun j => State.free_work _ _ _

theorem State.endEntry_holdsOk {s : State} (H : s.HoldsOk) (i : EntryNo) (st : Status)
    (a : Option Word) (d : Option Detail) : (s.endEntry i st a d).HoldsOk :=
  (State.endEntry_holds H i st a d).1

theorem State.endAll_holds {s : State} (H : s.HoldsOk) (st : Status) (f : Entry → Option Word)
    (l : List (EntryNo × Entry)) : (s.endAll st f l).HoldsOk ∧
      ∀ j, (s.endAll st f l).work j = if j ∈ l.map Prod.fst then none else s.work j := by
  induction l generalizing s with
  | nil => exact ⟨H, fun j => by simp [State.endAll]⟩
  | cons ie l ih =>
    obtain ⟨h1, h2⟩ := State.endEntry_holds H ie.1 st (f ie.2) none
    obtain ⟨h3, h4⟩ := ih h1
    refine ⟨h3, fun j => ?_⟩
    rw [State.endAll, h4, h2]
    by_cases hj : j = ie.1 <;> by_cases hl : j ∈ l.map Prod.fst <;> simp_all

theorem State.freeAll_entry (s : State) (l : List (EntryNo × Entry)) (j : EntryNo) :
    (s.freeAll l).entries[j] = if j ∈ l.map Prod.fst then none else s.entries[j] := by
  induction l generalizing s with
  | nil => simp [State.freeAll]
  | cons ie l ih =>
    rw [State.freeAll, ih, State.free_entry]
    by_cases hj : ie.1 = j
    · subst hj; simp
    · simp only [hj, if_false, List.map_cons, List.mem_cons, Ne.symm hj, false_or]

theorem State.freeAll_work (s : State) (l : List (EntryNo × Entry)) (j : EntryNo) :
    (s.freeAll l).work j = if j ∈ l.map Prod.fst then none else s.work j := by
  simp only [State.work, State.freeAll_entry]
  split <;> rfl

theorem State.freeAll_holds (s : State) (l : List (EntryNo × Entry)) :
    (s.freeAll l).holdAt = s.holdAt ∧ (s.freeAll l).note = s.note := by
  induction l generalizing s with
  | nil => exact ⟨rfl, rfl⟩
  | cons ie l ih => exact ih _

/-! ## Within the close of an event -/

theorem State.sweep_holdsOk {s : State} (H : s.HoldsOk) : s.sweep.HoldsOk :=
  (State.endAll_holds H _ _ _).1

theorem State.refuseUpTo_holdsOk (n : Nat) {s : State} (H : s.HoldsOk) :
    (s.refuseUpTo n).HoldsOk := by
  induction n generalizing s with
  | zero => exact H
  | succ n ih =>
    rw [State.refuseUpTo]
    repeat' split
    · exact H
    · exact H
    · exact ih (State.endEntry_holdsOk H _ _ _ _)

theorem Entry.holdWork_buffer (e : Entry) (b : Vector Byte 64) :
    Entry.holdWork { e with buffer := b } = e.holdWork := rfl

theorem State.endAsk_holdsOk {s : State} (H : s.HoldsOk) (i : EntryNo) (a : Answer) :
    (s.endAsk i a).HoldsOk :=
  State.endEntry_holdsOk (HoldSame.holdsOk (.modEntry fun _ _ => Entry.holdWork_buffer _ _) H) _ _ _ _

theorem State.sendAsk_holdSame (s : State) (i : EntryNo) (p : PortNo) : HoldSame s (s.sendAsk i p) :=
  (HoldSame.modPort s p (fun port => { port with askNumber := s.ports[p].askNumber + 1 })
    fun _ => rfl).then (.of_eq rfl rfl rfl)

theorem State.walkOn_holdsOk {s : State} (H : s.HoldsOk) (i : EntryNo) (l : List PortNo) :
    (s.walkOn i l).HoldsOk := by
  induction l with
  | nil => exact State.endAsk_holdsOk H i _
  | cons p l ih =>
    rw [State.walkOn]
    split
    · exact (s.sendAsk_holdSame i p).holdsOk H
    · exact ih

theorem State.passPort_holdsOk {s : State} (H : s.HoldsOk) (p : PortNo) :
    (s.passPort p).HoldsOk := by
  unfold State.passPort
  repeat' split
  · exact H
  · exact State.walkOn_holdsOk (HoldSame.holdsOk (s := s) (.of_eq (by rfl) (by rfl) (by rfl)) H) _ _
  · exact H

theorem State.takeAsk_holdsOk {s : State} (H : s.HoldsOk) (i : EntryNo) : (s.takeAsk i).HoldsOk := by
  unfold State.takeAsk
  repeat' split
  · exact State.endAsk_holdsOk (HoldSame.holdsOk (s := s) (.of_eq (by rfl) (by rfl) (by rfl)) H) _ _
  · exact State.endAsk_holdsOk (HoldSame.holdsOk (s := s) (.of_eq (by rfl) (by rfl) (by rfl)) H) _ _
  · exact State.walkOn_holdsOk H i _

theorem State.takeAsksUpTo_holdsOk (n : Nat) {s : State} (H : s.HoldsOk) :
    (s.takeAsksUpTo n).HoldsOk := by
  induction n generalizing s with
  | zero => exact H
  | succ n ih =>
    rw [State.takeAsksUpTo]
    repeat' split
    · exact H
    · exact H
    · exact ih (State.takeAsk_holdsOk H _)

theorem State.takeRead_holdsOk {s : State} (H : s.HoldsOk) (i : EntryNo) (e : Entry) :
    (s.takeRead i e).HoldsOk := by
  unfold State.takeRead
  split
  · exact State.endEntry_holdsOk H _ _ _ _
  · exact State.endEntry_holdsOk (HoldSame.holdsOk (.modEntry fun _ _ => Entry.holdWork_buffer _ _) H) _ _ _ _

theorem State.takeReadsUpTo_holdsOk (n : Nat) {s : State} (H : s.HoldsOk) :
    (s.takeReadsUpTo n).HoldsOk := by
  induction n generalizing s with
  | zero => exact H
  | succ n ih =>
    rw [State.takeReadsUpTo]
    repeat' split
    · exact H
    · exact H
    · exact ih (State.takeRead_holdsOk H _ _)
    · exact H

/-- With no hold, no note and no entry the laws are met. -/
theorem State.holdsOk_of_empty {s : State} (hh : ∀ p, s.holdAt p = none) (hn : ∀ h, s.note h = none)
    (hw : ∀ i, s.work i = none) : s.HoldsOk := by
  rw [State.holdsOk_iff]
  constructor <;> simp [hh, hn, hw]

theorem State.cardReset_holdsOk (s : State) : s.cardReset.HoldsOk := by
  obtain ⟨_, _, h⟩ := s.cardReset_fields
  refine State.holdsOk_of_empty (fun p => ?_) (fun k => ?_) (fun i => ?_)
  · rw [State.holdAt, State.cardReset_ports]; simp [Port.atCardReset]
  · rw [State.note, h]; simp
  · exact State.work_of_none (by rw [State.cardReset_entries]; simp)

theorem State.closeEvent_holdsOk {s : State} (H : s.HoldsOk) : s.closeEvent.HoldsOk := by
  unfold State.closeEvent
  split
  · unfold State.closeReset
    split
    · exact H
    · exact State.cardReset_holdsOk _
  · exact H

/-- What follows an event keeps the laws. -/
theorem State.settle_holdsOk {s : State} (H : s.HoldsOk) : s.settle.HoldsOk :=
  State.closeEvent_holdsOk (State.takeReadsUpTo_holdsOk 24 (State.closeEvent_holdsOk
    (State.takeAsksUpTo_holdsOk 24 (State.refuseUpTo_holdsOk 24 H))))

/-- A take of the management block keeps the laws when its service does. -/
theorem State.takeWrite_holdsOk {s t : State} {row : MgmtRow} {serve : Entry → State → Served}
    (H : s.HoldsOk) (h : ∀ e, (serve e s).1.HoldsOk) (ht : s.takeWrite row serve = .next t) :
    t.HoldsOk := by
  unfold State.takeWrite at ht
  split at ht
  · exact Host.Outcome.next.inj ht ▸ H
  · split at ht
    · exact Host.Outcome.next.inj ht ▸ H
    · refine Host.Outcome.next.inj ht ▸ ?_
      simp only [State.serveWrite]
      refine State.settle_holdsOk (State.endEntry_holdsOk ?_ _ _ _ _)
      split
      · exact H
      · exact h _

/-! ## Ports -/

theorem Holder.code_inj {h k : Holder} : h.code = k.code ↔ h = k := by
  constructor
  · intro hc
    cases h <;> cases k <;> simp only [Holder.code, Fin.ext_iff] at hc ⊢
    · rename_i x; have := x.isLt; simp at hc; omega
    · rename_i x; have := x.isLt; simp at hc; omega
    · simp only [Holder.b.injEq]; exact BitVec.eq_of_toNat_eq hc
  · rintro rfl; rfl

theorem State.setNote_note (s : State) (h k : Holder) (v : Option PortNo) :
    (s.setNote h v).note k = if h = k then v else s.note k := by
  simp only [State.note, State.setNote_notes, ← Holder.code_inj (h := h) (k := k)]
  by_cases hc : h.code = k.code
  · simp [hc]
  · rw [if_neg hc]
    simp [Fin.val_inj, hc]

theorem State.dropHold_holdAt (s : State) (p q : PortNo) :
    (s.modPort p fun port => { port with hold := none }).holdAt q =
      if p = q then none else s.holdAt q := by
  simp only [State.holdAt, State.modPort_port]
  split <;> rfl

/-- A hold in TIMING becomes absent and its holder's note is set. -/
theorem State.dropHold_holdsOk {s : State} (H : s.HoldsOk) {p : PortNo} {x : Hold}
    (hx : s.ports[p].hold = some x)
    (ht : ∀ i, x.phase ≠ .awaitingRead i ∧ x.phase ≠ .awaitingRelease i) :
    ((s.modPort p fun port => { port with hold := none }).setNote x.holder (some p)).HoldsOk := by
  rw [State.holdsOk_iff] at H ⊢
  have back : ∀ {q y}, ((s.modPort p fun port => { port with hold := none }).setNote x.holder
      (some p)).holdAt q = some y → p ≠ q ∧ s.holdAt q = some y := by
    intro q y hq
    have : (s.modPort p fun port => { port with hold := none }).holdAt q = some y := hq
    rw [State.dropHold_holdAt] at this
    split at this
    · simp at this
    · exact ⟨by assumption, this⟩
  refine H.dropped (fun q y hq => (back hq).2) (fun q y i hq hy => ?_) (fun k hk => ?_)
  · change (s.modPort p fun port => { port with hold := none }).holdAt q = some y
    rw [State.dropHold_holdAt, if_neg]
    · exact hq
    · rintro rfl
      cases hx.symm.trans hq
      exact (ht i).2 hy
  · rw [State.setNote_note] at hk
    split at hk
    · rename_i hxk
      refine .inr ⟨fun q y hq hy => ?_, fun i r hi => ?_⟩
      · obtain ⟨hpq, hq⟩ := back hq
        exact hpq (H.one p q x y hx hq (hxk.trans hy.symm))
      · exact (ht i).1 (H.reading i k r hi p x hx hxk)
    · exact .inl hk

/-- A hold that no entry at work is behind is broken, and its holder's note is set. -/
theorem State.breakHold_holdsOk {s : State} (H : s.HoldsOk) (p : PortNo)
    (h : ∀ i op k, s.work i ≠ some (op, k, some (.port p))) : (s.breakHold p).HoldsOk := by
  unfold State.breakHold
  split
  · exact H
  · rename_i x hx
    have L := State.holdsOk_iff.1 H
    exact State.dropHold_holdsOk H hx fun i => ⟨fun hr => h _ _ _ (L.read p x i hx hr),
      fun hr => h _ _ _ (L.release p x i hx hr)⟩

/-- When the entries at a port have ended, none has a hold operation there. -/
theorem State.endAtPort_holds {s : State} (T : s.TableOk) (H : s.HoldsOk) (p : PortNo) :
    (s.endAtPort p).HoldsOk ∧
      ∀ i op k, (s.endAtPort p).work i ≠ some (op, k, some (.port p)) := by
  obtain ⟨h1, h2⟩ := State.endAll_holds H .noTarget (fun _ => none) (s.waitList p)
  simp only [State.endAtPort]
  generalize hu : s.endAll .noTarget (fun _ => none) (s.waitList p) = u at h1 h2 ⊢
  have gone : ∀ i op k, u.work i ≠ some (op, k, some (.port p)) := by
    intro i op k hi
    rw [h2] at hi
    split at hi
    · simp at hi
    · rename_i hl
      refine hl ?_
      simp only [State.work, Option.bind_eq_some_iff] at hi
      obtain ⟨e, he, hw⟩ := hi
      exact List.mem_map.2 ⟨(i, e), List.mem_filter.2 ⟨State.mem_table.2
        ⟨(T.2 i).2 (by rw [he]; rfl), he⟩, Entry.onWaitList_of_holdWork hw⟩, rfl⟩
  have same : HoldSame u (u.freeAll (u.table.filter fun ie => ie.2.pieceOutAt p)) := by
    obtain ⟨e1, e2⟩ := u.freeAll_holds (u.table.filter fun ie => ie.2.pieceOutAt p)
    refine ⟨e1, e2, funext fun j => ?_⟩
    rw [State.freeAll_work]
    split
    · rename_i hj
      obtain ⟨⟨i, e⟩, hm, rfl⟩ := List.mem_map.1 hj
      obtain ⟨hm, ho⟩ := List.mem_filter.1 hm
      have he := (State.mem_table.1 hm).2
      cases hw : u.work i with
      | none => rfl
      | some w =>
        obtain ⟨op, k, r⟩ := w
        have hr := Entry.holdWork_route ((State.work_of_entry he).symm.trans hw)
        simp only [Entry.pieceOutAt, Bool.and_eq_true, decide_eq_true_eq] at ho
        rw [← hr, ho.1] at hw
        exact absurd hw (gone _ _ _)
    · rfl
  exact ⟨same.holdsOk h1, fun i op k hi => gone i op k (by rw [← same.work]; exact hi)⟩

theorem State.goOffline_holdsOk {s : State} (T : s.TableOk) (H : s.HoldsOk) (p : PortNo) :
    (s.goOffline p).HoldsOk := by
  unfold State.goOffline
  obtain ⟨h1, h2⟩ := State.endAtPort_holds (s := s.modPort p fun port => { port with state := .offline })
    T ((HoldSame.modPort s p (fun port => { port with state := .offline }) fun _ => rfl).holdsOk H) p
  exact (HoldSame.raise _ _ _ _).holdsOk (State.breakHold_holdsOk h1 p h2)

theorem State.loseLink_holdsOk {s : State} (T : s.TableOk) (H : s.HoldsOk) (p : PortNo) :
    (s.loseLink p).HoldsOk := by
  have h0 := (HoldSame.modPort s p (fun port => { port with state := .absent }) fun _ => rfl).holdsOk H
  unfold State.loseLink
  split
  · obtain ⟨h1, h2⟩ := State.endAtPort_holds
      (s := s.modPort p fun port => { port with state := .absent }) T h0 p
    exact (HoldSame.raise _ _ _ _).holdsOk (State.breakHold_holdsOk h1 p h2)
  · exact (HoldSame.raise _ _ _ _).holdsOk h0
  · exact H

theorem State.countSilence_holdsOk {s : State} (T : s.TableOk) (H : s.HoldsOk) (p : PortNo) :
    (s.countSilence p).HoldsOk := by
  have h := (HoldSame.modPort s p
    (fun port => { port with noAnswer := min Config.noAnswerMax (port.noAnswer + 1) })
    fun _ => rfl).holdsOk H
  have T' : (s.modPort p fun port =>
    { port with noAnswer := min Config.noAnswerMax (port.noAnswer + 1) }).TableOk := T
  simp only [State.countSilence]
  split
  · exact State.goOffline_holdsOk T' h p
  · exact h

/-- A hold in TIMING that expires is broken, and its holder's note is set. -/
theorem State.expireHold_holdsOk {s : State} (H : s.HoldsOk) {p : PortNo} {x : Hold} {n : Nat}
    (hx : s.ports[p].hold = some x) (ht : x.phase = .timing n) : (s.expireHold p x.holder).HoldsOk := by
  exact State.settle_holdsOk ((HoldSame.raise _ _ _ _).holdsOk
    (State.dropHold_holdsOk H hx fun _ => ⟨by simp [ht], by simp [ht]⟩))

/-- A T link up at a port where no hold operation is at work keeps the laws. -/
theorem State.linkUpAt_holdsOk {s : State} (H : s.HoldsOk) (p : PortNo)
    (h : s.ports[p].state = .absent → ∀ i op k, s.work i ≠ some (op, k, some (.port p))) :
    (s.linkUpAt p).HoldsOk := by
  unfold State.linkUpAt
  split
  · rename_i hp
    replace h := h hp
    rw [State.holdsOk_iff] at H ⊢
    have eq : ∀ q, (s.modPort p fun port =>
        { port with state := .online, noAnswer := 0, hold := none }).holdAt q =
          if p = q then none else s.holdAt q := by
      intro q
      simp only [State.holdAt, State.modPort_port]
      split <;> rfl
    refine H.dropped (fun q y hq => ?_) (fun q y i hq hy => ?_) (fun k hk => .inl hk)
    · rw [eq] at hq
      split at hq
      · simp at hq
      · exact hq
    · rw [eq, if_neg]
      · exact hq
      · rintro rfl
        exact h _ _ _ (H.release _ y i hq hy)
  · exact H

theorem State.linkUpAt_work (s : State) (p : PortNo) : (s.linkUpAt p).work = s.work := by
  unfold State.linkUpAt
  split <;> rfl

theorem State.linkUpsAtRelease_holdsOk {s : State} (H : s.HoldsOk) (h : ∀ i, s.work i = none)
    (l : List PortNo) : (s.linkUpsAtRelease l).HoldsOk := by
  induction l generalizing s with
  | nil => exact H
  | cons p l ih =>
    rw [State.linkUpsAtRelease]
    split
    · exact ih (State.linkUpAt_holdsOk H p (by simp [h])) (by simp [State.linkUpAt_work, h])
    · exact ih H h

theorem State.lowerRetries_holdSame (s : State) (n : Nat) (l : List (EntryNo × Entry)) :
    HoldSame s (s.lowerRetries n l) := by
  induction l generalizing s with
  | nil => exact .refl s
  | cons ie l ih =>
    exact (HoldSame.modEntry (s := s) (i := ie.1)
      (f := fun e => { e with retryCount := min n e.retryCount }) fun _ _ => rfl).then (ih _)

theorem State.setPortConfig_holdSame (s : State) (p : PortNo) (c : PortConfig) :
    HoldSame s (s.setPortConfig p c) :=
  (HoldSame.of_eq (s := s)
    (t := { s with setup := { s.setup with portConfig := s.setup.portConfig.set p c } })
    rfl rfl rfl).then (State.lowerRetries_holdSame _ _ _)

theorem State.resumePort_holdsOk {s : State} (H : s.HoldsOk) (p : PortNo) :
    (s.resumePort p).HoldsOk :=
  State.passPort_holdsOk (((HoldSame.sendT s p .portReset).then
    (HoldSame.modPort _ p (fun port => { port with state := .online, noAnswer := 0 })
      fun _ => rfl)).holdsOk H) p

/-! ## Issue and answers -/

theorem State.skipOthers_holdSame (s : State) (i : EntryNo) (l : List (EntryNo × Entry)) :
    HoldSame s (s.skipOthers i l) := by
  induction l generalizing s with
  | nil => exact .refl s
  | cons jf l ih =>
    rw [State.skipOthers]
    split
    · exact ih s
    · exact (HoldSame.modEntry (s := s) (i := jf.1)
        (f := fun e => { e with skipCount := min Config.agedSkip (e.skipCount + 1) })
        fun _ _ => rfl).then (ih _)

/-- A change among WAITING, ISSUED and BACKOFF keeps the work of an entry. -/
theorem Entry.holdWork_at {e f : Entry} (ho : f.origin = e.origin) (hop : f.op = e.op)
    (hr : f.route = e.route) (hf : f.state = .waiting ∨ f.state = .issued ∨ f.state = .backoff)
    (he : e.state = .waiting ∨ e.state = .issued ∨ e.state = .backoff) :
    f.holdWork = e.holdWork := by
  simp only [Entry.holdWork, ho, hop, hr, hf, he]

/-- A grant keeps the laws; the grant of a READ_HOLD takes the hold. -/
theorem State.grantPiece_holdsOk {s : State} (H : s.HoldsOk) {p : PortNo} {i : EntryNo} {e : Entry}
    (hm : (i, e) ∈ s.eligibleAt p) : (s.grantPiece p i e).HoldsOk := by
  have hel := List.mem_filter.1 hm
  have hent := (State.mem_table.1 hel.1).2
  have hd : e.state = .waiting ∧ e.route = some (.port p) := by
    have := hel.2
    simp only [State.eligible, State.dueAt, Bool.and_eq_true, decide_eq_true_eq] at this
    exact this.1.1.1
  simp only [State.grantPiece]
  have same (n : Option Nat) : HoldSame s (((s.skipOthers i (s.eligibleAt p)).bumpRound i).modEntry
      i fun e => { e with state := .issued, skipCount := 0, timer := n }) := by
    refine ((s.skipOthers_holdSame i _).then (HoldSame.of_eq (t := State.bumpRound _ i)
      rfl rfl rfl)).then (HoldSame.modEntry fun f hf => ?_)
    rw [State.bumpRound_entries, (s.skipOthers_acts i _).2.1, hent, Option.some.injEq] at hf
    subst hf
    exact Entry.holdWork_at rfl rfl rfl (.inr (.inl rfl)) (.inl hd.1)
  replace same := same (some s.setup.portConfig[p].responseLimit)
  generalize (((s.skipOthers i (s.eligibleAt p)).bumpRound i).modEntry i _) = t at same ⊢
  have Ht := same.holdsOk H
  suffices h : (t.takeHold p i e).HoldsOk from
    (HoldSame.sendT _ _ _).holdsOk h
  unfold State.takeHold
  split
  · exact Ht
  · rename_i k hk
    split
    · rename_i hc
      rw [State.holdsOk_iff] at Ht ⊢
      refine Ht.taken (i := i) (p := p) (h := k) ?_ hc.2.2 fun q => ?_
      · have hw : t.work i = e.holdWork := by rw [same.work]; exact State.work_of_entry hent
        exact hw.trans ((Entry.holdWork_iff (.inl rfl)).2
          ⟨⟨Origin.holder_eq_some.1 hk, hc.1, .inl hd.1⟩, hd.2⟩)
      · simp only [State.holdAt, State.modPort_port, eq_comm (a := p)]
        split <;> rfl
    · exact Ht

/-- An ORPHANED entry has no hold operation at work. -/
theorem Entry.holdWork_orphaned {e : Entry} (h : e.state = .orphaned) : e.holdWork = none :=
  Entry.holdWork_idle (by simp [h])

theorem State.zeroNoAnswer_holdSame (s : State) (p : PortNo) : HoldSame s (s.zeroNoAnswer p) :=
  .modPort s p (fun port => { port with noAnswer := 0 }) fun _ => rfl

theorem State.freeOrphan_holdsOk {s : State} (H : s.HoldsOk) {i : EntryNo} {e : Entry}
    (he : s.entries[i] = some e) (ho : e.state = .orphaned) : (s.free i).HoldsOk :=
  (HoldSame.free ((State.work_of_entry he).trans (Entry.holdWork_orphaned ho))).holdsOk H

theorem State.takeDone_holdsOk {s : State} (H : s.HoldsOk) {p : PortNo} {i : EntryNo} {e : Entry}
    (he : s.entries[i] = some e) (ho : e.pieceOutAt p = true) (data : List Byte) :
    (s.takeDone p i e data).HoldsOk := by
  have Hz := (s.zeroNoAnswer_holdSame p).holdsOk H
  have hz : (s.zeroNoAnswer p).entries[i] = some e := he
  simp only [State.takeDone]
  split
  · exact State.settle_holdsOk (State.freeOrphan_holdsOk Hz hz (by assumption))
  · rename_i hno
    have h2 : ((s.zeroNoAnswer p).modEntry i fun e => e.afterDone data).HoldsOk := by
      refine HoldSame.holdsOk (HoldSame.modEntry fun f hf => ?_) Hz
      rw [hz, Option.some.injEq] at hf
      subst hf
      exact Entry.holdWork_at rfl rfl rfl (.inl rfl) (.inr (.inl (Entry.issued_of_out ho hno).1))
    split
    · exact State.settle_holdsOk h2
    · exact State.settle_holdsOk (State.endEntry_holdsOk h2 _ _ _ _)

theorem State.takeDefer_holdsOk {s : State} (H : s.HoldsOk) {p : PortNo} {i : EntryNo} {e : Entry}
    (he : s.entries[i] = some e) (ho : e.pieceOutAt p = true) : (s.takeDefer p i e).HoldsOk := by
  have Hz := (s.zeroNoAnswer_holdSame p).holdsOk H
  have hz : (s.zeroNoAnswer p).entries[i] = some e := he
  simp only [State.takeDefer]
  split
  · exact State.settle_holdsOk (State.freeOrphan_holdsOk Hz hz (by assumption))
  · rename_i hno
    split
    · exact State.settle_holdsOk (State.endEntry_holdsOk Hz _ _ _ _)
    · refine State.settle_holdsOk (HoldSame.holdsOk (HoldSame.modEntry fun f hf => ?_) Hz)
      rw [hz, Option.some.injEq] at hf
      subst hf
      exact Entry.holdWork_at rfl rfl rfl (.inr (.inr rfl))
        (.inr (.inl (Entry.issued_of_out ho hno).1))

theorem State.takeFault_holdsOk {s : State} (H : s.HoldsOk) {p : PortNo} {i : EntryNo} {e : Entry}
    (he : s.entries[i] = some e) : (s.takeFault p i e).HoldsOk := by
  have Hz := (s.zeroNoAnswer_holdSame p).holdsOk H
  have hz : (s.zeroNoAnswer p).entries[i] = some e := he
  simp only [State.takeFault]
  split
  · exact State.settle_holdsOk (State.freeOrphan_holdsOk Hz hz (by assumption))
  · exact State.settle_holdsOk (State.endEntry_holdsOk Hz _ _ _ _)

theorem State.relay_holdsOk {s : State} (H : s.HoldsOk) (i : EntryNo) (e : Entry) (r : Response) :
    (s.relay i e r).HoldsOk := by
  simp only [State.relay]
  refine State.settle_holdsOk (State.endEntry_holdsOk ?_ _ _ _ _)
  split
  · exact HoldSame.holdsOk (.modEntry fun _ _ => Entry.holdWork_buffer _ _) H
  · exact H

/-! ## Requests -/

theorem State.holdOf_none {s : State} {h : Holder} (hn : s.holdOf h = none) (p : PortNo) (x : Hold)
    (hx : s.holdAt p = some x) : x.holder ≠ h := by
  rintro rfl
  have := List.findSome?_eq_none_iff.1 hn p (List.mem_finRange p)
  rw [show s.ports[p].hold = some x from hx] at this
  simp at this

theorem State.holdOf_some {s : State} {h : Holder} {p : PortNo} {x : Hold}
    (hs : s.holdOf h = some (p, x)) : s.holdAt p = some x ∧ x.holder = h := by
  obtain ⟨q, _, hq⟩ := List.exists_of_findSome?_eq_some hs
  simp only [Option.bind_eq_some_iff] at hq
  obtain ⟨y, hy, hq⟩ := hq
  split at hq
  · rename_i hh
    simp only [Option.some.injEq, Prod.mk.injEq] at hq
    obtain ⟨rfl, rfl⟩ := hq
    exact ⟨hy, hh⟩
  · simp at hq

theorem State.hasEntry_false {s : State} (T : s.TableOk) {h : Holder} {op : Op}
    (hop : op = .readHold ∨ op = .writeRelease)
    (hf : s.hasEntry h.origin op [.waiting, .issued, .backoff] = false) (i : EntryNo)
    (r : Option Route) : s.work i ≠ some (op, h, r) := by
  intro hw
  obtain ⟨e, he, ⟨h1, h2, h3⟩, _⟩ := (State.work_iff hop).1 hw
  simp only [State.hasEntry, List.any_eq_false] at hf
  refine hf (i, e) (State.mem_table.2 ⟨(T.2 i).2 (by rw [he]; rfl), he⟩) ?_
  simpa [h1, h2] using h3

/-- A READ_HOLD that passes its checks finds its holder without a hold and without a READ_HOLD at
work (R95). -/
theorem State.readHoldCheck_none {s : State} (T : s.TableOk) {h : Holder}
    (hc : s.readHoldCheck h = none) : (∀ p x, s.holdAt p = some x → x.holder ≠ h) ∧
      ∀ i r, s.work i ≠ some (.readHold, h, r) := by
  unfold State.readHoldCheck at hc
  split at hc
  · simp at hc
  · rename_i h1
    split at hc
    · simp at hc
    · rename_i h2
      exact ⟨State.holdOf_none (by simpa using h1),
        State.hasEntry_false T (.inl rfl) (by simpa using h2)⟩

/-- A WRITE_RELEASE that passes its checks finds its holder's hold at its port in TIMING (R100). -/
theorem State.releaseCheck_none {s : State} {h : Holder} {p : PortNo}
    (hc : s.releaseCheck h p = none) :
    ∃ x n, s.holdAt p = some x ∧ x.holder = h ∧ x.phase = .timing n := by
  unfold State.releaseCheck at hc
  split at hc
  · rename_i q x hs
    obtain ⟨h1, h2⟩ := State.holdOf_some hs
    split at hc
    · simp at hc
    · rename_i hq
      have hq : q = p := by simpa using hq
      subst hq
      split at hc
      · exact ⟨x, _, h1, h2, by assumption⟩
      · simp at hc
      · simp at hc
  · repeat' split at hc
    all_goals simp at hc

/-- A request that waits at its port has passed the hold checks of its operation. -/
theorem State.routeData_port {s : State} {h : Holder} {op : Op} {a : Word} {d : DecodeRecord}
    (hr : s.routeData h op a = .port d) :
    (op = .readHold → s.readHoldCheck h = none) ∧
      (op = .writeRelease → s.releaseCheck h d.port = none) := by
  unfold State.routeData at hr
  split at hr
  · simp at hr
  · split at hr
    · simp
    · simp
    · refine ⟨fun _ => ?_, by simp⟩
      split at hr
      · simp at hr
      · assumption
    · refine ⟨by simp, fun _ => ?_⟩
      split at hr
      · simp at hr
      · simp only [Routing.port.injEq] at hr
        subst hr
        assumption

/-- A note may be cleared. -/
theorem State.clearNote_holdsOk {s : State} (H : s.HoldsOk) (h : Holder) :
    (s.setNote h none).HoldsOk := by
  rw [State.holdsOk_iff] at H ⊢
  refine H.dropped (fun _ _ h => h) (fun _ _ _ h _ => h) fun k hk => .inl ?_
  rw [State.setNote_note] at hk
  split at hk
  · exact absurd rfl hk
  · exact hk

/-- The forward of an entry that is not at a port leaves holds, notes and hold operations alone. -/
theorem State.forward_holdSame {s : State} {i : EntryNo} (r : Request)
    (h : ∀ e, s.entries[i] = some e → e.holdWork = none) : HoldSame s (s.forward i r) := by
  have h1 : HoldSame s ((s.bumpRound i).modEntry i fun e =>
      { e with
        state := .forwarded, route := some .remote,
        timer := some s.setup.settings.remoteLimit.toNat }) := by
    refine (HoldSame.of_eq (s := s) (t := s.bumpRound i) rfl rfl rfl).then
      (HoldSame.modEntry fun e he => ?_)
    rw [h e he]
    exact Entry.holdWork_idle (by simp)
  exact h1.then (.of_eq rfl rfl rfl)

theorem State.holdAtDecode_release (s : State) (h : Holder) (i : EntryNo) (d : DecodeRecord)
    (q : PortNo) : (s.holdAtDecode h .writeRelease i (.port d)).holdAt q =
      if q = d.port then (s.holdAt q).map fun x => { x with phase := .awaitingRelease i }
      else s.holdAt q := by
  simp only [State.holdAtDecode, State.holdAt, State.modPort_port, eq_comm (a := d.port)]
  split <;> rfl

theorem State.give_holdAt (s : State) (i : EntryNo) (e : Entry) : (s.give i e).holdAt = s.holdAt :=
  rfl

/-- An accepted request that has passed the hold checks keeps the laws. -/
theorem State.acceptEntry_holdsOk {s : State} (T : s.TableOk) (H : s.HoldsOk) {h : Holder}
    {e : Entry} {r : Request} {x : Routing} (hs : e.state = .serving) (ho : e.origin = h.origin)
    (hop : e.op = r.op)
    (hx : ∀ d, x = .port d → (r.op = .readHold → s.readHoldCheck h = none) ∧
      (r.op = .writeRelease → s.releaseCheck h d.port = none)) :
    (s.acceptEntry h e r x).HoldsOk := by
  unfold State.acceptEntry
  split
  · exact H
  · rename_i i hi
    have hn := State.lowestFree_none hi
    have idle {f : Entry} (hf : f.state = .serving) : f.holdWork = none :=
      Entry.holdWork_idle (by simp [hf])
    have sg : HoldSame s (s.give i e) := .give hn (idle hs)
    have hg : (s.give i e).entries[i] = some e := by rw [State.give_entry, if_pos rfl]
    have Hg := sg.holdsOk H
    have Hd (hp : ∀ d, x ≠ .port d) : ((s.give i e).holdAtDecode h r.op i x).HoldsOk := by
      unfold State.holdAtDecode
      split
      · exact absurd rfl (hp _)
      · exact absurd rfl (hp _)
      · exact State.clearNote_holdsOk Hg h
      · exact Hg
    have only (f : Entry) (hf : ((s.give i e).holdAtDecode h r.op i x).entries[i] = some f) :
        f = e := by
      rw [State.holdAtDecode_entries, hg, Option.some.injEq] at hf
      exact hf.symm
    have route (v : Option Route) (hp : ∀ d, x ≠ .port d) :
        (((s.give i e).holdAtDecode h r.op i x).modEntry i fun e => { e with route := v }).HoldsOk := by
      refine HoldSame.holdsOk (HoldSame.modEntry fun f hf => ?_) (Hd hp)
      obtain rfl := only f hf
      exact (idle (f := { f with route := v }) hs).trans (idle hs).symm
    cases x with
    | ended st d => exact State.endEntry_holdsOk (Hd (by simp)) _ _ _ _
    | remote =>
      refine (State.forward_holdSame r fun f hf => ?_).holdsOk (Hd (by simp))
      obtain rfl := only f hf
      exact idle hs
    | mgmt => exact route _ (by simp)
    | attn => exact route _ (by simp)
    | port d =>
      obtain ⟨hR, hW⟩ := hx d rfl
      have hwork (t : State) (ht : t.entries = (s.give i e).entries) (j : EntryNo) :
          (t.modEntry i fun e => e.placed d).work j =
            if j = i then (e.placed d).holdWork else s.work j := by
        rw [State.modEntry_work]
        split
        · rw [ht, hg]; rfl
        · rename_i hj
          simp only [State.work, ht, State.give_entry, if_neg (Ne.symm hj)]
      have placed (hc : r.op = .readHold ∨ r.op = .writeRelease) :
          (e.placed d).holdWork = some (r.op, h, some (.port d.port)) :=
        (Entry.holdWork_iff hc).2 ⟨⟨ho, hop, .inl rfl⟩, rfl⟩
      have Hl := State.holdsOk_iff.1 H
      have wi := State.work_of_none hn
      cases hc : r.op with
      | read =>
        refine HoldSame.holdsOk (HoldSame.modEntry fun f hf => ?_) Hg
        change (s.give i e).entries[i] = some f at hf
        rw [hg, Option.some.injEq] at hf
        subst hf
        rw [idle hs]
        exact Entry.holdWork_data (.inl (hop.trans hc))
      | write =>
        refine HoldSame.holdsOk (HoldSame.modEntry fun f hf => ?_) Hg
        change (s.give i e).entries[i] = some f at hf
        rw [hg, Option.some.injEq] at hf
        subst hf
        rw [idle hs]
        exact Entry.holdWork_data (.inr (hop.trans hc))
      | readHold =>
        obtain ⟨h1, h2⟩ := State.readHoldCheck_none T (hR hc)
        rw [State.holdsOk_iff]
        refine Hl.readAdded wi (fun j => ?_) h1 h2 (fun k => ?_)
          (i := i) (h := h) (r := some (.port d.port))
        · rw [hc] at placed
          rw [← placed (.inl rfl)]
          exact hwork ((s.give i e).setNote h none) rfl j
        · change ((s.give i e).setNote h none).note k = _
          simp only [State.setNote_note, eq_comm (a := h)]
          rfl
      | writeRelease =>
        obtain ⟨y, n, h1, h2, h3⟩ := State.releaseCheck_none (hW hc)
        rw [State.holdsOk_iff]
        refine Hl.releaseAdded wi h1 h3 (fun q => ?_) (fun j => ?_) (i := i)
        · change ((s.give i e).holdAtDecode h .writeRelease i (.port d)).holdAt q = _
          rw [State.holdAtDecode_release, State.give_holdAt]
          split
          · rename_i hq
            rw [hq, h1]
            rfl
          · rfl
        · rw [hc] at placed
          rw [h2, ← placed (.inr rfl)]
          exact hwork ((s.give i e).holdAtDecode h .writeRelease i (.port d)) rfl j

theorem State.requestP_holdsOk {s : State} (T : s.TableOk) (H : s.HoldsOk) (r : Request) :
    (s.requestP r).HoldsOk := by
  unfold State.requestP
  split
  · exact (HoldSame.sendP _ _).holdsOk H
  · refine State.settle_holdsOk (State.acceptEntry_holdsOk T H rfl rfl rfl fun d hd => ?_)
    simp only [State.routeP] at hd
    repeat' split at hd
    all_goals first
      | exact State.routeData_port hd
      | simp at hd
  · exact H

theorem State.requestB_holdsOk {s : State} (T : s.TableOk) (H : s.HoldsOk) (r : Request) :
    (s.requestB r).HoldsOk := by
  unfold State.requestB
  split
  · exact (HoldSame.sendB _ _).holdsOk H
  · refine State.settle_holdsOk (State.acceptEntry_holdsOk T H rfl rfl rfl fun d hd => ?_)
    simp only [State.routeB] at hd
    repeat' split at hd
    all_goals first
      | exact State.routeData_port hd
      | simp at hd
  · exact H

/-! ## The link down of the B port -/

/-- B entries that a link down frees: WAITING, BACKOFF or SERVING (R66). -/
def Entry.dropsAtDown (e : Entry) : Bool :=
  e.origin.isB && (decide (e.state = .waiting) || decide (e.state = .backoff) ||
    decide (e.state = .serving))

theorem State.orphanIssued_entry (s : State) (j : EntryNo) :
    s.orphanIssued.entries[j] = s.entries[j].map fun e =>
      if e.origin.isB ∧ e.state = .issued then { e with state := .orphaned } else e := by
  simp [State.orphanIssued]

/-- The work that is left of an entry at a link down is that of the P origin. -/
theorem Entry.holdWork_atDown (e : Entry) (op : Op) (h : Holder) (r : Option Route) :
    (if e.dropsAtDown = true then none else
        Entry.holdWork (if e.origin.isB ∧ e.state = .issued then { e with state := .orphaned } else e)) =
      some (op, h, r) ↔ e.holdWork = some (op, h, r) ∧ h = .p := by
  obtain ⟨state, origin⟩ := e
  cases origin with
  | p =>
    simp only [Entry.dropsAtDown, Origin.isB, Bool.false_and, Bool.false_eq_true, if_false, false_and,
      Entry.holdWork, Origin.holder, Option.map_some]
    split <;> simp +contextual [eq_comm]
  | b x =>
    refine iff_of_false ?_ ?_
    · cases state <;> simp [Entry.dropsAtDown, Origin.isB, Entry.holdWork]
    · rintro ⟨h1, rfl⟩
      unfold Entry.holdWork at h1
      split at h1 <;> simp [Origin.holder] at h1
  | m c =>
    have hm : ∀ f : Entry, f.origin = .m c → f.holdWork = none := fun f hf =>
      Entry.holdWork_move (by rw [hf]; rfl)
    simp [Entry.dropsAtDown, Origin.isB, hm]

theorem State.dropBHolds_holdAt (s : State) (p : PortNo) (x : Hold) :
    s.dropBHolds.holdAt p = some x ↔ s.holdAt p = some x ∧ x.holder = .p := by
  simp only [State.dropBHolds, State.holdAt, mapCells_eq_map, Fin.getElem_fin, Vector.getElem_map]
  generalize s.ports[p.val] = q
  cases hq : q.hold with
  | none => simp [hq]
  | some y => cases hy : y.holder <;> simp [hq, Hold.heldByB, hy] <;> rintro rfl <;> simp [hy]

theorem State.dropBHolds_note (s : State) (h : Holder) (hn : s.dropBHolds.note h ≠ none) :
    s.note h ≠ none := by
  cases h with
  | p => simpa [State.dropBHolds, State.note] using hn
  | b x =>
    refine absurd ?_ hn
    have hx : (16 : Nat) ≠ x.toNat := by have := x.isLt; omega
    simp only [State.dropBHolds, State.note, Fin.getElem_fin, Holder.code]
    rw [Vector.getElem_set_ne]
    · simp
    · simpa using hx

/-- What a link down of the B port does beside the FORWARDED entries leaves the P origin's hold, note
and hold operations, and no other. -/
theorem State.dropB_holdsOk {s : State} (T : s.TableOk) (H : s.HoldsOk) :
    (s.freeAll (s.table.filter fun ie => ie.2.dropsAtDown)).orphanIssued.dropBHolds.HoldsOk := by
  obtain ⟨e1, e2⟩ := s.freeAll_holds (s.table.filter fun ie => ie.2.dropsAtDown)
  have e3 := s.freeAll_entry (s.table.filter fun ie => ie.2.dropsAtDown)
  generalize s.freeAll (s.table.filter fun ie => ie.2.dropsAtDown) = u at e1 e2 e3 ⊢
  rw [State.holdsOk_iff] at H ⊢
  refine H.only .p (fun p x => ?_) (fun j op h r => ?_) (fun h hn => ?_)
  · rw [State.dropBHolds_holdAt, ← e1]; rfl
  · change (u.orphanIssued.entries[j].bind Entry.holdWork = _) ↔ _
    rw [State.orphanIssued_entry, e3, State.work]
    cases hj : s.entries[j] with
    | none => simp
    | some e =>
      have hin : (j ∈ (s.table.filter fun ie => ie.2.dropsAtDown).map Prod.fst) ↔
          e.dropsAtDown = true := by
        simp only [List.mem_map, List.mem_filter, Prod.exists, exists_and_right, exists_eq_right,
          State.mem_table, hj, Option.some.injEq]
        exact ⟨fun ⟨f, ⟨_, hf⟩, hd⟩ => hf ▸ hd, fun hd => ⟨e, ⟨(T.2 j).2 (by rw [hj]; rfl), rfl⟩, hd⟩⟩
      rw [Option.bind_some, ← Entry.holdWork_atDown e op h r]
      simp only [hin]
      split <;> simp
  · have := State.dropBHolds_note _ h hn
    rw [← e2]
    exact this

/-- The link-down event keeps the laws, when the order still lists the entries that are left once the
FORWARDED ones have ended. -/
theorem State.bLinkDownEvent_holdsOk {s : State} (H : s.HoldsOk)
    (T : (State.endAll { s with bLinkUp := false } .linkDown (fun _ => none)
      (s.table.filter fun ie => decide (ie.2.state = .forwarded))).TableOk) :
    s.bLinkDownEvent.HoldsOk := by
  have H0 : State.HoldsOk { s with bLinkUp := false } :=
    HoldSame.holdsOk (s := s) ⟨rfl, rfl, rfl⟩ H
  have H1 := (State.endAll_holds H0 .linkDown (fun _ => none)
    (s.table.filter fun ie => decide (ie.2.state = .forwarded))).1
  exact (HoldSame.raise _ _ _ _).holdsOk (State.dropB_holdsOk T H1)

end Sys2Proof.Machine
end

