-- ==== Sys2Proof/Tests/Slice0.lean ====
section
/-!
SUPPORT. Tests: ill-formed terms that the well-formedness check refuses, small steps of the commands on
states built here, the manual's worked numbers, and for every statement about a state that meets some
hypotheses a state that meets them.
-/

namespace Sys2Proof.Tests

open Sys2Proof.Machine

/-! ## Well-formedness: a message of another kind, or too short, is refused -/

theorem test_wellFormed_requestOnPLink : Instr.wellFormed (.requestOnPLink [0, 0, 0, 0x20]) = false := by
  decide
theorem test_wellFormed_requestOnBLink :
    Instr.wellFormed (.requestOnBLink [0, 0, 0, 0x10, 0, 0, 0, 0]) = false := by decide
theorem test_wellFormed_bLinkResponse : Instr.wellFormed (.bLinkResponse [0, 0, 0, 0x20]) = false := by
  decide
theorem test_wellFormed_targetDone : Instr.wellFormed (.targetDone 0 [0, 0, 0, 0x90]) = false := by decide
theorem test_wellFormed_targetDefer : Instr.wellFormed (.targetDefer 0 [0, 0, 0]) = false := by decide
theorem test_wellFormed_targetFault : Instr.wellFormed (.targetFault 0 [0, 0, 0, 0x80]) = false := by
  decide
theorem test_wellFormed_targetCode : Instr.wellFormed (.targetCode 0 [0, 0, 0, 0xC0]) = false := by decide
theorem test_wellFormed_targetPass : Instr.wellFormed (.targetPass 0 []) = false := by decide
theorem test_wellFormed_accepts : Instr.wellFormed (.targetDone 0 [0, 0, 0, 0x80]) = true := by decide

/-! ## States to try things on -/

/-- A rack member in slot 5 with every link up and every port ONLINE; window 0 is the boot window, window
1 a guarded window at port 1 with both rights. -/
def card : State :=
  { State.reset with
    setup := { Setup.atPowerOn { slot := 5, bootp := 0, bootw := 2 } with
      live := (liveAtPowerOn 0).set 1
        { valid := true, base := 0x100, limit := 0x1FF, port := 1, targetPage := 0x40,
          localRights := .readWrite, remoteRights := .readWrite, guarded := true } }
    lines := { Lines.atReset with bLink := true, tLink := Vector.replicate 4 true }
    ports := Vector.replicate 4 { Port.atPowerOn with state := .online }
    bLinkUp := true }

/-- A state with these entries given in order. -/
def put (s : State) (l : List (EntryNo × Entry)) : State :=
  { s with
    entries := l.foldl (fun v ie => v.set ie.1 (some ie.2)) s.entries
    order := s.order ++ l.map Prod.fst }

/-- The decode record of an access to window 0. -/
def record0 : DecodeRecord :=
  { window := 0, generation := 0, port := 0, target := 0x10, guarded := false, width := .four }

/-- The decode record of an access to window 1. -/
def record1 : DecodeRecord :=
  { window := 1, generation := 0, port := 1, target := 0x40010, guarded := true, width := .four }

/-- A P READ of 4 bytes that waits at port 0. -/
def waiting : Entry :=
  { state := .waiting, origin := .p, tag := some 1, returnStamp := none, node := some 0,
    space := .data, op := .read, address := 0x10, length := 4, route := some (.port 0),
    decode := some record0, piecesTotal := 1, nextPiece := 0, retryCount := 0, skipCount := 0,
    timer := none, buffer := Vector.replicate 64 0, finalStatus := none, faultAddress := none,
    detail := none }

/-- The same with its piece out. -/
def issued : Entry := { waiting with state := .issued, timer := some 100 }

/-- A B READ whose piece is out while the link has gone down. -/
def orphan : Entry := { issued with state := .orphaned, origin := .b 7, returnStamp := some 3 }

/-- A guarded WRITE of node 7 that waits at port 1. -/
def guardedWrite : Entry :=
  { waiting with
    origin := .b 7, op := .write, address := 0x100010, route := some (.port 1)
    decode := some record1, returnStamp := some 9 }

/-- A P request forwarded to node 3. -/
def forwarded : Entry :=
  { waiting with
    state := .forwarded, node := some 3, route := some .remote, decode := none, piecesTotal := 0
    timer := some 2000 }

/-- A management write at its block. -/
def mgmtWrite (o : Origin) (offset : Word) (w : Word) : Entry :=
  { waiting with
    state := .serving, origin := o, space := .mgmt, op := .write, address := offset
    route := some .mgmt, decode := none, piecesTotal := 0
    buffer := Vector.ofFn fun k => (wordBytes w).getD k.val 0 }

/-- An ask of the processor. -/
def ask : Entry :=
  { waiting with
    state := .serving, space := .attn, address := 0, length := 16, route := some .attn
    decode := none, piecesTotal := 0 }

/-- A request with these fields. -/
def request (space : Space) (op : Op) (node : BitVec 4) (address : Word) (length : BitVec 7)
    (data : List Byte) : Request :=
  { tag := 2, node, space := some space, op, length, source := 7, address, stamp := 0x21, data }

/-- A state whose management block has this write of the processor at its head. -/
def serving (offset w : Word) : State := put card [(0, mgmtWrite .p offset w)]

theorem card_noEntries (i : EntryNo) (e : Entry) : card.entries[i] ≠ some e := by
  simp [card, State.reset]

theorem put_entriesOk {s : State} (hs : s.EntriesOk) (l : List (EntryNo × Entry))
    (h : ∀ ie ∈ l, ie.2.Ok) : (put s l).EntriesOk := by
  have key : ∀ (l : List (EntryNo × Entry)) (v : Vector (Option Entry) 24),
      (∀ (i : EntryNo) (e : Entry), v[i] = some e → e.Ok) → (∀ ie ∈ l, ie.2.Ok) →
      ∀ (i : EntryNo) (e : Entry), (l.foldl (fun v ie => v.set ie.1 (some ie.2)) v)[i] = some e →
        e.Ok := by
    intro l
    induction l with
    | nil => intro v hv _; exact hv
    | cons ie l ih =>
      intro v hv hl
      refine ih _ ?_ fun x hx => hl x (List.mem_cons_of_mem _ hx)
      intro i e he
      simp only [Fin.getElem_fin, Vector.getElem_set] at he
      split at he
      · cases he; exact hl ie List.mem_cons_self
      · exact hv i e he
  exact key l s.entries hs h

theorem card_entriesOk : card.EntriesOk := fun i e h => absurd h (card_noEntries i e)

/-- A decidable form of `Entry.Ok`. -/
def checkEntry (e : Entry) : Bool :=
  (decide (e.state ≠ .serving) || !e.origin.isM) &&
  (decide (e.state ≠ .forwarded) || (decide (e.origin = .p) && decide (e.route = some .remote))) &&
  (decide (e.state ≠ .complete) || decide (e.origin = .p)) &&
  (decide (e.state ≠ .orphaned) || e.origin.isB) &&
  decide (e.finalStatus.isSome = true ↔ e.state = .complete) &&
  (!(decide (e.state = .waiting) || decide (e.state = .issued) || decide (e.state = .backoff) ||
      decide (e.state = .orphaned)) ||
    e.decode.any fun d => decide (e.route = some (.port d.port)) &&
      decide (e.piecesTotal = e.plan.length)) &&
  decide (e.skipCount ≤ 16)

theorem ok_of_check {e : Entry} (h : checkEntry e = true) : e.Ok := by
  simp only [checkEntry, Bool.and_eq_true, Bool.or_eq_true, decide_eq_true_eq, Bool.not_eq_true',
    Bool.or_eq_false_iff, decide_eq_false_iff_not, Option.any_eq_true] at h
  obtain ⟨⟨⟨⟨⟨⟨h1, h2⟩, h3⟩, h4⟩, h5⟩, h6⟩, h7⟩ := h
  refine ⟨fun h => h1.resolve_left fun c => c h, fun h => (h2.resolve_left fun c => c h).1,
    fun h => (h2.resolve_left fun c => c h).2, fun h => h3.resolve_left fun c => c h,
    fun h => h4.resolve_left fun c => c h, h5, fun h => ?_, h7⟩
  rcases h6 with h6 | ⟨d, hd, hr, hp⟩
  · rcases h with h | h | h | h
    · exact absurd h h6.1.1.1
    · exact absurd h h6.1.1.2
    · exact absurd h h6.1.2
    · exact absurd h h6.2
  · exact ⟨d, hd, hr, hp⟩

/-- The next state, where there is one. -/
def after (o : Host.Outcome State Fault Refusal) : Option State :=
  match o with
  | .next t => some t
  | .fault _ => none
  | .refused _ => none

theorem waiting_ok : waiting.Ok := ok_of_check (by decide)

theorem tableOk_put_one : (put card [(0, waiting), (3, issued)]).TableOk := by
  unfold State.TableOk; decide

/-- A state with an empty table and no walk is at rest. -/
theorem resting_empty (s : State) (ho : s.order = []) (he : ∀ i : EntryNo, s.entries[i] = none)
    (hw : s.attention.walk = none) : s.Resting where
  calm :=
    { guard := by simp [State.table, ho]
      reads := by simp [State.mgmtQueue, State.table, ho]
      asks := .inr (by simp [State.asks, State.table, ho])
      reset := by simp [State.resetDue, State.pList, State.table, ho] }
  head := by simp [State.HeadOk, State.pList, State.table, ho]
  online := by simp [he]
  walk := by simp [hw]
  porst := fun _ => ho

/-! ## The hypotheses of the statements can be met: resets and requests -/

/-- PORST asserted, with the B link up, slot 5 and the B link state DOWN. -/
def held : State := { card with bLinkUp := false, lines := { card.lines with porst := true } }

/-- The P READ of 4 bytes at 0x10, and what the P link carries for it. -/
def readP : Request := { request .data .read 0 0x10 4 [] with source := 0, stamp := 0 }

/-- A READ of node 7 at 0x100010 through window 1. -/
def readB : Request := request .data .read 5 0x100010 4 []

theorem test_hyps_StepRunsTheFrontCommand :
    ({ card with pending := [.commit] } : State).pending = .commit :: [] ∧ card.pending = [] := by
  decide

theorem test_hyps_PorstReleaseTakesLinkUps :
    card.lines.porst = false ∧ held.lines.porst = true ∧ held.lines.bLink = true ∧
      held.setup.straps.slot ≠ 0 ∧ held.bLinkUp = false ∧
      ({ held with bLinkUp := true } : State).bLinkUp = true := by decide

theorem test_hyps_CardResetFreesEverything : (put card [(0, guardedWrite)]).lines.porst = false := rfl

theorem test_hyps_FormChecksRefuseInOrder :
    Request.formCheck .b (request .data .read 0 0x10 4 []) = some 64 ∧
    Request.formCheck .p (request .data .read 0 0x10 4 [1]) = some 64 ∧
    Request.formCheck .p (request .data .read 0 0x10 0 []) = some 65 ∧
    Request.formCheck .p (request .data .read 0 0x10 65 []) = some 65 ∧
    Request.formCheck .p (request .data .read 0 0x3F 2 []) = some 66 ∧
    Request.formCheck .p (request .data .read 0 0x3F 1 []) = none ∧
    Request.formCheck .p (request .data .readHold 0 0x12 4 []) = some 67 ∧
    Request.formCheck .p (request .mgmt .read 0 0x12 4 []) = some 68 ∧
    Request.formCheck .p (request .attn .read 0 0 15 []) = some 69 ∧
    Request.formCheck .p (request .attn .read 0 0 16 []) = none := by decide

theorem test_hyps_FormChecksRefuseInOrder_links :
    card.Running ∧ card.BTakes ∧
    parseRequest .p ((request .data .read 0 0x3F 2 []).encode .p) =
      some { request .data .read 0 0x3F 2 [] with source := 0, stamp := 0 } ∧
    Request.formCheck .p { request .data .read 0 0x3F 2 [] with source := 0, stamp := 0 } =
      some 66 ∧
    parseRequest .b ((request .data .read 5 0x3F 2 []).encode .b) =
      some (request .data .read 5 0x3F 2 []) ∧
    (request .data .read 5 0x3F 2 []).source ≠ 0 ∧
    Request.formCheck .b (request .data .read 5 0x3F 2 []) = some 66 ∧
    parseRequest .b ({ request .data .read 5 0 2 [] with source := 0 }.encode .b) =
      some { request .data .read 5 0 2 [] with source := 0 } := by
  refine ⟨⟨rfl, rfl⟩, ⟨⟨rfl, rfl⟩, by decide, rfl⟩, ?_⟩
  decide

theorem test_hyps_TagsAndQuotasRefuseRequests :
    (put card [(0, waiting), (3, issued)]).TableOk ∧
    (put card [(0, waiting)]).EntriesOk ∧ Request.formCheck .p { readP with tag := 1 } = none ∧
    (put card [(0, waiting)]).refusal .p .p { readP with tag := 1 } = some (.form, some 70) ∧
    (put card [(0, waiting)]).tagInUse .p readP.tag = false ∧
    (put card [(0, guardedWrite)]).refusal .b (.b 7) { readB with tag := 1 } =
      some (.form, some 70) ∧
    (put card [(0, orphan)]).refusal .b (.b 7) { readB with tag := 1 } = none ∧
    (put card ((List.finRange 8).map fun i : Fin 8 =>
      (i.castLE (by decide), { waiting with tag := some (3 + BitVec.ofNat 4 i.val) }))).refusal .p .p
        readP = some (.full, none) := by
  refine ⟨tableOk_put_one, put_entriesOk card_entriesOk _ (by simpa using waiting_ok), ?_⟩
  decide

theorem test_hyps_RoomMeansAFreeEntry :
    card.TableOk ∧ card.QuotaOk ∧ (card.owned fun o => decide (o = .p)) < 8 := by
  refine ⟨?_, ?_, by decide⟩
  · unfold State.TableOk; decide
  · unfold State.QuotaOk; decide

theorem test_hyps_RefusedRequestLeavesNoTrace :
    card.Running ∧ card.BTakes ∧
    (put card [(0, waiting)]).refusal .p .p { readP with tag := 1 } = some (.form, some 70) ∧
    parseRequest .p ({ readP with tag := 1 }.encode .p) = some { readP with tag := 1 } ∧
    (put card [(0, guardedWrite)]).refusal .b (.b readB.source) { readB with tag := 1 } =
      some (.form, some 70) ∧
    parseRequest .b ({ readB with tag := 1 }.encode .b) = some { readB with tag := 1 } := by
  refine ⟨⟨rfl, rfl⟩, ⟨⟨rfl, rfl⟩, by decide, rfl⟩, ?_⟩
  decide

theorem test_hyps_AcceptedDataRequestWaitsAtItsPort :
    card.Running ∧ card.BTakes ∧ parseRequest .p (readP.encode .p) = some readP ∧
    card.refusal .p .p readP = none ∧ readP.space = some .data ∧ readP.node = 0 ∧
    readP.op = .read ∧ (card.decodeAddress .p .read 0x10).toOption = some record0 ∧
    card.lowestFree = some 0 ∧ parseRequest .b (readB.encode .b) = some readB ∧
    readB.source ≠ 0 ∧ card.refusal .b (.b readB.source) readB = none ∧
    readB.node = card.setup.straps.slot ∧
    (card.decodeAddress (.b 7) .read 0x100010).toOption = some record1 := by
  refine ⟨⟨rfl, rfl⟩, ⟨⟨rfl, rfl⟩, by decide, rfl⟩, ?_⟩
  decide

/-- A management read of the identity, and a management write of node 7. -/
theorem test_hyps_AcceptedDataRequestWaitsAtItsPort_mgmt :
    card.Accepts .p ((request .mgmt .read 0 0 4 []).encode .p)
      { request .mgmt .read 0 0 4 [] with source := 0, stamp := 0 } ∧
    card.Accepts .b ((request .mgmt .write 5 0x40 4 [0, 0, 0, 0]).encode .b)
      (request .mgmt .write 5 0x40 4 [0, 0, 0, 0]) ∧ card.lowestFree = some 0 := by
  refine ⟨⟨⟨by decide, by decide, rfl, rfl⟩, .inr ⟨rfl, rfl⟩⟩,
    ⟨⟨by decide, by decide, ⟨⟨rfl, rfl⟩, by decide, rfl⟩, by decide⟩, .inl rfl⟩, by decide⟩

theorem test_hyps_RemoteRequestIsForwarded :
    card.Running ∧ parseRequest .p ({ readP with node := 3 }.encode .p) =
      some { readP with node := 3 } ∧ card.refusal .p .p { readP with node := 3 } = none ∧
    (3 : BitVec 4) ≠ 0 ∧ card.setup.straps.slot ≠ 0 ∧ (3 : BitVec 4) ≠ card.setup.straps.slot ∧
    card.setup.settings.nodeMask.getLsbD 3 = true ∧ card.bLinkUp = true ∧
    card.lowestFree = some 0 := by
  refine ⟨⟨rfl, rfl⟩, ?_⟩
  decide

theorem test_hyps_RoutingFollowsTheTables :
    card.routeP .mgmt readP = .mgmt ∧ card.routeP .attn { readP with node := 5 } = .attn ∧
    card.routeP .data readP = .port record0 ∧
    State.reset.routeP .data { readP with node := 3 } = .ended .noRoute none ∧
    ({ card with setup := { card.setup with settings := { card.setup.settings with
      nodeMask := 0 } } } : State).routeP .data { readP with node := 3 } = .ended .denied none ∧
    ({ card with bLinkUp := false } : State).routeP .data { readP with node := 3 } =
      .ended .noRoute none ∧
    card.routeP .data { readP with node := 3 } = .remote ∧
    card.routeB .data { readB with node := 4 } = .ended .noRoute none ∧
    card.routeB .attn readB = .ended .denied none ∧ card.routeB .data readB = .port record1 ∧
    card.routeB .mgmt readB = .mgmt := by decide

/-- A READ_HOLD for node 3 is routed REMOTE; requests that their routing or decode ends, on both links, are
admitted. -/
theorem test_hyps_RoutingFollowsTheTables_ended :
    card.refusal .p .p { readP with node := 3, op := .readHold } = none ∧
    card.routeP .data { readP with node := 3, op := .readHold } = .remote ∧
    card.Admits .p ({ readP with address := 0x60000000 }.encode .p)
      { readP with address := 0x60000000 } ∧
    card.routed .p .data { readP with address := 0x60000000 } = .ended .unmapped none ∧
    card.Admits .b ({ readB with node := 4 }.encode .b) { readB with node := 4 } ∧
    card.routed .b .data { readB with node := 4 } = .ended .noRoute none ∧
    (card.setNote .p (some 3)).routed .p .data { readP with op := .writeRelease } =
      .ended .holdBroken (some 3) ∧ card.lowestFree = some 0 := by
  refine ⟨by decide, by decide, ⟨by decide, by decide, rfl, rfl⟩, by decide,
    ⟨by decide, by decide, ⟨⟨rfl, rfl⟩, by decide, rfl⟩, by decide⟩, by decide, by decide, by decide⟩

/-- Window 0 holds pages 0 to 255, window 1 pages 256 to 511: an address in neither, one of each, rights
that refuse and a port that is not ONLINE. -/
theorem test_hyps_DecodeChecksTheLowestWindow :
    card.matchingWindow 0x200000 = none ∧ card.matchingWindow 0xFFFFF = some 0 ∧
    card.matchingWindow 0x100000 = some 1 ∧ card.matchingWindow 0x1FFFFF = some 1 ∧
    (card.decodeAddress (.b 7) .read 0x10).toOption = none ∧
    ((card.modPort 0 fun p => { p with state := .offline }).decodeAddress .p .read 0x10).toOption =
      none ∧
    (card.decodeAddress .p .write 0xFFFFF).toOption.isSome = true := by decide

/-! ## Holds -/

/-- Port p is held by P in this phase. -/
def heldBy (p : PortNo) (phase : HoldPhase) : State :=
  card.modPort p fun port => { port with hold := some { holder := .p, phase } }

/-- A pending hold operation of P. -/
def pendingOp (op : Op) : Entry := { waiting with op }

theorem test_hyps_ReadHoldIsCheckedAtItsDecode :
    (card.decodeAddress .p .readHold 0x10).toOption = some record0 ∧
    ((heldBy 0 (.timing 50)).decodeAddress .p .readHold 0x10).toOption = some record0 ∧
    (heldBy 0 (.timing 50)).ports[(0 : PortNo)].hold =
      some { holder := .p, phase := .timing 50 } ∧
    (0, pendingOp .readHold) ∈ (put card [(0, pendingOp .readHold)]).table ∧
    (0, pendingOp .writeRelease) ∈ (put card [(0, pendingOp .writeRelease)]).table := by decide

/-- A READ_HOLD of P that passes the checks, one that finds P holding a port, and one of node 7. -/
theorem test_hyps_ReadHoldIsCheckedAtItsDecode_links :
    card.Accepts .p ({ readP with op := .readHold }.encode .p) { readP with op := .readHold } ∧
    (heldBy 0 (.timing 50)).Accepts .p ({ readP with op := .readHold }.encode .p)
      { readP with op := .readHold } ∧
    card.Accepts .b ({ readB with op := .readHold }.encode .b) { readB with op := .readHold } ∧
    (card.decodeAddress (.b 7) .readHold 0x100010).toOption = some record1 ∧
    requester .b readB = .b 7 := by
  refine ⟨⟨⟨by decide, by decide, rfl, rfl⟩, .inr ⟨rfl, rfl⟩⟩, ⟨⟨by decide, by decide, rfl, rfl⟩, .inr ⟨rfl, rfl⟩⟩,
    ⟨⟨by decide, by decide, ⟨⟨rfl, rfl⟩, by decide, rfl⟩, by decide⟩, .inl rfl⟩, by decide, rfl⟩

/-- A WRITE_RELEASE of P that finds its hold broken. -/
theorem test_hyps_WriteReleaseCases_ended :
    (card.setNote .p (some 3)).Accepts .p
      ((request .data .writeRelease 0 0x10 4 [1, 2, 3, 4]).encode .p)
      { request .data .writeRelease 0 0x10 4 [1, 2, 3, 4] with source := 0, stamp := 0 } ∧
    (card.setNote .p (some 3)).routeData .p .writeRelease 0x10 = .ended .holdBroken (some 3) ∧
    (card.setNote .p (some 3)).lowestFree = some 0 := by
  refine ⟨⟨⟨by decide, by decide, rfl, rfl⟩, .inr ⟨rfl, rfl⟩⟩, by decide, by decide⟩

/-- Node 7 holds port 1. -/
def heldByNode : State :=
  card.modPort 1 fun port => { port with hold := some { holder := .b 7, phase := .timing 50 } }

/-- Accepted WRITE_RELEASE requests of P at port 0 and of node 7 at port 1. -/
theorem test_hyps_WriteReleaseCases_links :
    (heldBy 0 (.timing 50)).Accepts .p
      ((request .data .writeRelease 0 0x10 4 [1, 2, 3, 4]).encode .p)
      { request .data .writeRelease 0 0x10 4 [1, 2, 3, 4] with source := 0, stamp := 0 } ∧
    heldByNode.Accepts .b ((request .data .writeRelease 5 0x100010 4 [1, 2, 3, 4]).encode .b)
      (request .data .writeRelease 5 0x100010 4 [1, 2, 3, 4]) ∧
    (heldByNode.decodeAddress (.b 7) .writeRelease 0x100010).toOption = some record1 ∧
    heldByNode.routeData (.b 7) .writeRelease 0x100010 = .port record1 ∧
    (heldBy 0 (.timing 50)).lowestFree = some 0 := by
  refine ⟨⟨⟨by decide, by decide, rfl, rfl⟩, .inr ⟨rfl, rfl⟩⟩,
    ⟨⟨by decide, by decide, ⟨⟨rfl, rfl⟩, by decide, rfl⟩, by decide⟩, .inl rfl⟩, by decide, by decide,
    by decide⟩

theorem test_hyps_WriteReleaseCases :
    (card.decodeAddress .p .writeRelease 0x10).toOption = some record0 ∧
    (heldBy 0 (.timing 50)).routeData .p .writeRelease 0x10 = .port record0 ∧
    (heldBy 1 (.timing 50)).routeData .p .writeRelease 0x10 = .ended .form (some 74) ∧
    (heldBy 0 (.awaitingRead 2)).routeData .p .writeRelease 0x10 = .ended .form (some 72) ∧
    (heldBy 0 (.awaitingRelease 2)).routeData .p .writeRelease 0x10 = .ended .form (some 73) ∧
    (put card [(0, pendingOp .readHold)]).routeData .p .writeRelease 0x10 =
      .ended .form (some 72) ∧
    (card.setNote .p (some 3)).routeData .p .writeRelease 0x10 = .ended .holdBroken (some 3) ∧
    card.routeData .p .writeRelease 0x10 = .ended .form (some 75) := by decide

theorem test_hyps_HoldChangesWithTheEndOfItsEntry :
    (put (heldBy 0 (.awaitingRead 0)) [(0, issued)]).entries[(0 : EntryNo)] = some issued ∧
    (put (heldBy 0 (.awaitingRead 0)) [(0, issued)]).ports[(0 : PortNo)].hold =
      some { holder := .p, phase := .awaitingRead 0 } ∧
    (put (heldBy 0 (.awaitingRelease 0)) [(0, issued)]).ports[(0 : PortNo)].hold =
      some { holder := .p, phase := .awaitingRelease 0 } ∧
    issued.origin.isM = false ∧ issued.state ≠ .complete ∧ issued.state ≠ .orphaned ∧
    issued.route = some (.port 0) := by decide

/-- The end of an entry at a port that it does not hold, of one at an unheld port, and of a P, a B and a
move entry at a held port. -/
theorem test_hyps_ends_at_held_ports :
    (∀ x : Hold, (put (heldBy 0 (.awaitingRead 2)) [(0, issued)]).ports[(0 : PortNo)].hold = some x →
      x.phase ≠ .awaitingRead 0 ∧ x.phase ≠ .awaitingRelease 0) ∧
    (put (heldBy 0 (.awaitingRead 0)) [(0, pendingOp .readHold)]).holdAtEnd 0 (pendingOp .readHold)
      .ok = put (heldBy 0 (.timing 50)) [(0, pendingOp .readHold)] ∧
    (put (heldBy 0 (.awaitingRelease 0)) [(0, pendingOp .writeRelease)]).holdAtEnd 0
      (pendingOp .writeRelease) .noAnswer = put card [(0, pendingOp .writeRelease)] := by
  refine ⟨?_, by decide, by decide⟩
  intro x h
  rw [(by decide : (put (heldBy 0 (.awaitingRead 2)) [(0, issued)]).ports[(0 : PortNo)].hold =
    some { holder := .p, phase := .awaitingRead 2 })] at h
  cases h
  decide

/-! ## Ends -/

/-- A read entry of channel M0. -/
def moveRead : Entry :=
  { waiting with origin := .m 0, tag := none, node := none, address := 0x20, length := 1 }

theorem test_hyps_EndedProcessorEntriesLeaveInOrder :
    (put card [(0, waiting), (3, issued)]).TableOk ∧
    (put card [(0, waiting), (3, issued)]).entries[(3 : EntryNo)] = some issued ∧
    issued.origin = .p ∧ issued.state ≠ .complete ∧ issued.state ≠ .orphaned ∧
    issued.route = some (.port 0) ∧
    (put card [(0, waiting), (3, issued)]).ports[(0 : PortNo)].hold = none := by
  refine ⟨tableOk_put_one, ?_⟩
  decide

theorem test_hyps_EndedBackplaneAndMoveEntries :
    (put card [(0, guardedWrite), (1, moveRead)]).entries[(0 : EntryNo)] = some guardedWrite ∧
    (put card [(0, guardedWrite), (1, moveRead)]).entries[(1 : EntryNo)] = some moveRead ∧
    guardedWrite.origin = .b 7 ∧ moveRead.origin = .m 0 ∧ guardedWrite.state ≠ .complete ∧
    guardedWrite.state ≠ .orphaned ∧
    (∀ p : PortNo, (put card [(0, guardedWrite), (1, moveRead)]).ports[p].hold = none) := by decide

theorem test_hyps_EndsHappenOnceAndKeepTheSetup :
    (put card [(0, orphan)]).entries[(0 : EntryNo)] = some orphan ∧ orphan.state = .orphaned ∧
      card.entries[(0 : EntryNo)] = none := by decide

theorem test_hyps_SettlingLeavesNothingDue :
    card.Calm ∧ card.TableOk ∧ card.EntriesOk := by
  refine ⟨(resting_empty card rfl (by decide) rfl).calm, ?_, card_entriesOk⟩
  unfold State.TableOk; decide

/-- The guarded write of node 7 waits while the guard is GUARDED. -/
def refused : State := put { card with guard := .guarded } [(0, guardedWrite)]

theorem test_hyps_SettlingLeavesNothingDue_guarded :
    refused.TableOk ∧ refused.resetDue = false ∧ refused.order = [] ++ 0 :: [] ∧
    refused.entries[(0 : EntryNo)] = some guardedWrite ∧ guardedWrite.state = .waiting ∧
    guardedWrite.route = some (.port 1) ∧ refused.ports[(1 : PortNo)].state = .online ∧
    guardedWrite.op = .write ∧ guardedWrite.decode = some record1 ∧ record1.guarded = true ∧
    refused.guard ≠ .opened ∧ refused.ports[(1 : PortNo)].hold = none ∧
    ∀ (k : EntryNo) (a b c : List EntryNo), refused.order ≠ a ++ k :: b ++ 0 :: c := by
  refine ⟨?_, by decide, rfl, rfl, rfl, rfl, by decide, rfl, rfl, rfl, by decide, by decide, ?_⟩
  · unfold State.TableOk; decide
  · intro k a b c h
    have h := congrArg List.length h
    simp only [List.length_append, List.length_cons] at h
    have : refused.order.length = 1 := rfl
    omega

/-! ## The backplane -/

/-- Entry 2 is a P READ of 4 bytes forwarded to node 3. -/
def away : State := put card [(2, forwarded)]

/-- A response of node 3 to this card, with this stamp, status and data. -/
def reply (stamp : BitVec 16) (status : Status) (data : Option (List Byte)) : List Byte :=
  (BMessage.response 5 3 stamp
    { tag := 1, status, data, faultAddress := none, detail := none }).encode

theorem test_hyps_BackplaneResponseEndsItsEntry :
    away.lines.porst = false ∧ away.setup.straps.slot = 5 ∧ away.rounds[(2 : EntryNo)] = 0 ∧
    away.entries[(2 : EntryNo)] = some forwarded ∧ forwarded.state = .forwarded ∧
    forwarded.node = some 3 ∧ forwarded.op = .read ∧ forwarded.length = 4 ∧
    parseResponse (reply 512 .unmapped none) = some { node := 5, source := 3, stamp := 512, body :=
      { tag := 1, status := .unmapped, data := none, faultAddress := none, detail := none } } ∧
    parseResponse (reply 512 .ok (some [1, 2, 3, 4])) =
      some { node := 5, source := 3, stamp := 512, body :=
        { tag := 1, status := .ok, data := some [1, 2, 3, 4], faultAddress := none,
          detail := none } } ∧
    parseResponse [] = none ∧ State.reset.setup.straps.slot = 0 ∧
    (parseResponse (reply 6144 .ok none)).map (fun x => x.stamp.toNat) = some 6144 ∧
    (parseResponse (reply 512 .ok (some [1]))).map (fun x => (x.body.data.getD []).length) =
      some 1 := by decide

/-- Header words that meet each reading of a response: kind 1; kind 2 without and with a fault address
word, every unnamed bit set, the last word's bytes there, missing or short; status 15. -/
theorem test_hyps_LayoutsReadBackTheirFields_response :
    let header (n : Nat) : List Byte := wordBytes (BitVec.ofNat 32 n)
    parseResponse (header 0x10000000 ++ header 0) = none ∧
    parseResponse (header 0x2F04FA31 ++ header 0x0200FF35) =
      some { node := 5, source := 3, stamp := 512, body :=
        { tag := 1, status := .unmapped, data := none, faultAddress := none, detail := some 4 } } ∧
    parseResponse (header 0x2000050E ++ header 0xFFFF0000 ++ wordBytes 0x12345678 ++ [9]) =
      some { node := 0, source := 0, stamp := 0xFFFF, body :=
        { tag := 14, status := .ok, data := some [9], faultAddress := some 0x12345678,
          detail := none } } ∧
    parseResponse (header 0x20000171 ++ header 0 ++ [1, 2, 3]) = none ∧
    parseResponse (header 0x200000F1 ++ header 0) = none := by decide

theorem test_hyps_RemoteTimerExpiryEndsTheForward :
    away.lines.porst = false ∧ away.entries[(2 : EntryNo)] = some forwarded ∧
    forwarded.timer.isSome = true ∧ away.entries[(3 : EntryNo)] = none := by decide

/-- Every kind of entry that a B link down meets. -/
def busy : State :=
  put card [(0, { guardedWrite with state := .issued, timer := some 100 }), (1, orphan),
    (2, guardedWrite), (3, forwarded), (4, moveRead)]

theorem test_hyps_BackplaneLinkChanges :
    busy.lines.porst = false ∧ busy.setup.straps.slot ≠ 0 ∧ busy.bLinkUp = true ∧ busy.TableOk ∧
    busy.EntriesOk ∧ busy.HeadOk ∧ busy.lines.early.head? ≠ some true ∧ ({ card with bLinkUp := false } : State).bLinkUp = false ∧
    State.reset.setup.straps.slot = 0 ∧ State.reset.lines.porst = false := by
  have head : busy.pList = [(3, forwarded)] := by decide
  refine ⟨rfl, by decide, rfl, ?_, put_entriesOk card_entriesOk _ ?_, ?_, by decide, rfl, rfl,
    rfl⟩
  · unfold State.TableOk; decide
  · intro ie h
    exact ok_of_check ((by decide : ∀ ie ∈ [((0 : EntryNo),
      { guardedWrite with state := .issued, timer := some 100 }), (1, orphan), (2, guardedWrite),
      (3, forwarded), (4, moveRead)], checkEntry ie.2 = true) ie h)
  · intro x rest h
    rw [head] at h
    cases h
    decide

/-! ## The target ports -/

/-- Plans with several pieces, of the largest length, and of no byte. -/
theorem test_hyps_PiecePlanCoversTheRange :
    piecePlan 0x1000 8 .four = [(0, 4), (4, 4)] ∧
    piecePlan 0x1001 7 .four = [(0, 1), (1, 2), (3, 4)] ∧
    piecePlan 0x1001 5 .two = [(0, 1), (1, 2), (3, 2)] ∧
    piecePlan 0x1000 3 .one = [(0, 1), (1, 1), (2, 1)] ∧
    (piecePlan 0x1003 64 .four).length = 18 ∧ piecePlan 0 0 .four = [] := by decide

theorem test_hyps_EligibleEntriesOfAPort :
    (put card [(0, waiting), (3, issued)]).TableOk ∧
    (put card [(0, waiting), (3, issued)]).eligibleAt 0 = [(0, waiting)] ∧
    (put (heldBy 0 (.timing 50)) [(1, moveRead), (0, waiting)]).eligibleAt 0 = [(0, waiting)] ∧
    (put { card with guard := .guarded } [(2, guardedWrite)]).eligibleAt 1 = [] ∧
    (put card [(2, guardedWrite)]).eligibleAt 1 = [(2, guardedWrite)] := by
  refine ⟨tableOk_put_one, ?_⟩
  decide

/-- An aged entry wins over the classes, then B, P and M, each against an older one of a lower
class. -/
theorem test_hyps_ArbiterChoosesByAgeAndClass :
    choose [] = none ∧
    choose [(0, guardedWrite), (1, { moveRead with skipCount := 16 })] =
      some (1, { moveRead with skipCount := 16 }) ∧
    choose [(0, { moveRead with skipCount := 15 }), (1, waiting), (2, guardedWrite)] =
      some (2, guardedWrite) ∧
    choose [(0, moveRead), (1, waiting)] = some (1, waiting) ∧
    choose [(0, moveRead)] = some (0, moveRead) := by decide

theorem test_hyps_GrantIssuesTheNextPiece :
    card.lines.porst = false ∧ (put card [(0, waiting)]).ports[(0 : PortNo)].state = .online ∧
    (put card [(0, waiting)]).issuedCount 0 = 0 ∧ card.setup.portConfig[(0 : PortNo)].credit = 1 ∧
    (put card [(0, waiting), (3, issued)]).issuedCount 0 = 1 ∧
    choose ((put card [(0, waiting)]).eligibleAt 0) = some (0, waiting) ∧
    waiting.decode = some record0 ∧ waiting.plan[waiting.nextPiece]? = some (0, 4) ∧
    choose ((put card [(0, pendingOp .readHold)]).eligibleAt 0) = some (0, pendingOp .readHold) ∧
    card.ports[(0 : PortNo)].hold = none ∧ card.eligibleAt 0 = [] ∧
    (put card [(0, waiting)]).TableOk := by
  unfold State.TableOk; decide

/-- An answer of a target that names entry 3 under round 0. -/
def answer (kind : BitVec 4) (data : List Byte) : List Byte :=
  wordBytes (kind ++ 0#12 ++ 0#8 ++ 0#3 ++ 3#5) ++ data

/-- Entry 3 has this piece out at port 0. -/
def out (e : Entry) : State := put card [(3, e)]

theorem test_hyps_DoneAdvancesOrEndsItsEntry :
    parseAnswer 8 (answer 8 [1, 2, 3, 4]) = some (3, 0, [1, 2, 3, 4]) ∧
    (out issued).lines.porst = false ∧ (out issued).rounds[(3 : EntryNo)] = 0 ∧
    (out issued).entries[(3 : EntryNo)] = some issued ∧ issued.route = some (.port 0) ∧
    issued.state = .issued ∧ issued.op = .read ∧ issued.piece = (0, 4) ∧
    issued.piecesTotal ≤ issued.nextPiece + 1 ∧
    { issued with length := 8, piecesTotal := 2 }.piece = (0, 4) ∧
    parseAnswer 8 (answer 8 [1]) = some (3, 0, [1]) ∧ orphan.state = .orphaned ∧
    orphan.piece = (0, 4) ∧ { issued with op := .write }.piece = (0, 4) ∧
    parseAnswer 8 (answer 8 []) = some (3, 0, []) := by decide

theorem test_hyps_DeferAndFaultAnswerThePiece :
    parseAnswer 9 (answer 9 []) = some (3, 0, []) ∧
    parseAnswer 10 (answer 10 []) = some (3, 0, []) ∧
    (out issued).setup.portConfig[(0 : PortNo)].retryLimit = 8 ∧ issued.retryCount = 0 ∧
    (out { issued with retryCount := 7 }).entries[(3 : EntryNo)] =
      some { issued with retryCount := 7 } ∧
    (out { issued with retryCount := 8 }).entries[(3 : EntryNo)] =
      some { issued with retryCount := 8 } ∧
    (out orphan).entries[(3 : EntryNo)] = some orphan := by decide

theorem test_hyps_StrayAnswersAreDiscarded :
    held.lines.porst = true ∧ parseAnswer 8 (answer 9 []) = none ∧ parseAnswer 8 [] = none ∧
    parseAnswer 10 (answer 10 []) = some (3, 0, []) ∧
    card.entries[(3 : EntryNo)] = none ∧ (out waiting).entries[(3 : EntryNo)] = some waiting ∧
    waiting.state = .waiting := by decide

/-- A P READ that backs off. -/
def backedOff : Entry := { waiting with state := .backoff, timer := some 10, retryCount := 1 }

theorem test_hyps_PortTimersExpire :
    (out issued).lines.porst = false ∧ issued.timer.isSome = true ∧ orphan.timer.isSome = true ∧
    (out backedOff).entries[(3 : EntryNo)] = some backedOff ∧ backedOff.state = .backoff ∧
    backedOff.timer.isSome = true ∧
    (heldBy 0 (.timing 50)).ports[(0 : PortNo)].hold =
      some { holder := .p, phase := .timing 50 } ∧
    (out issued).setup.portConfig[(0 : PortNo)].offlineThreshold = 3 ∧
    ((out issued).modPort 0 fun p => { p with noAnswer := 2 }).ports[(0 : PortNo)].noAnswer = 2 ∧
    card.ports[(0 : PortNo)].hold = none := by decide

theorem test_hyps_LossOfAPortEndsItsEntries :
    (put card [(0, waiting), (3, issued)]).TableOk ∧
    (put card [(0, waiting), (3, issued)]).EntriesOk ∧
    (put card [(0, waiting), (3, issued)]).ports[(0 : PortNo)].state = .online ∧
    waiting.onWaitList 0 = true ∧ issued.pieceOutAt 0 = true ∧
    (put (heldBy 0 (.timing 50)) [(0, waiting), (3, issued)]).ports[(0 : PortNo)].hold =
      some { holder := .p, phase := .timing 50 } ∧
    (put (heldBy 0 (.awaitingRead 3)) [(0, waiting), (3, issued)]).ports[(0 : PortNo)].hold =
      some { holder := .p, phase := .awaitingRead 3 } ∧
    (put (heldBy 0 (.awaitingRead 3)) [(0, waiting), (3, issued)]).entries[(3 : EntryNo)] =
      some issued := by
  refine ⟨tableOk_put_one, put_entriesOk card_entriesOk _ fun ie h => ok_of_check
    ((by decide : ∀ ie ∈ [((0 : EntryNo), waiting), (3, issued)], checkEntry ie.2 = true) ie h), ?_⟩
  decide

theorem test_hyps_TargetLinkChanges :
    card.lines.porst = false ∧ held.lines.porst = true ∧ card.ports[(0 : PortNo)].state = .online ∧
    State.reset.ports[(0 : PortNo)].state = .absent ∧ State.reset.lines.porst = false ∧
    State.reset.Resting ∧
    (card.modPort 0 fun p => { p with state := .offline }).ports[(0 : PortNo)].state =
      .offline := by
  refine ⟨by decide, by decide, by decide, by decide, by decide,
    resting_empty _ rfl (by decide) rfl, by decide⟩

/-! ## The move channels -/

/-- Four units of 4 bytes from 0x10 to 0x20. -/
def four : Descriptor :=
  { Descriptor.zero with source := 0x10, destination := 0x20, count := 4, unit := .four }

theorem test_hyps_DescriptorValidation :
    Descriptor.zero.invalid = some 76 ∧ { four with pace := 5 }.invalid = some 64 ∧
    { four with pace := 4 }.invalid = none ∧ { four with source := 0x12 }.invalid = some 77 ∧
    { four with destination := 0x22 }.invalid = some 78 ∧ { four with link := 8 }.invalid = some 79 ∧
    four.invalid = none := by decide

/-- Channel 0 with this record. -/
def channel (ch : Channel) : State := card.modChannel 0 fun _ => ch

/-- A channel that runs `four` from its start. -/
def running : Channel :=
  { Channel.atReset with
    state := .running, descriptor := four, remaining := 4, sourceCursor := 0x10
    destinationCursor := 0x20 }

theorem test_hyps_UnitStartCreatesARead :
    (channel running).lines.porst = false ∧ running.state = .running ∧
    running.started < running.descriptor.count ∧ running.units.length < 2 ∧
    (channel running).ownedM 0 < 2 ∧ running.descriptor.pacePort = none ∧
    { running with descriptor := { four with pace := 1 }, paceCredit := 1 }.descriptor.pacePort =
      some 0 ∧
    (channel running).lowestFree = some 0 ∧
    ((channel running).decodeAddress (.m 0) .read 0x10).toOption = some record0 ∧
    ((channel { running with sourceCursor := 0x200000 }).decodeAddress (.m 0) .read
      0x200000).toOption = none ∧
    ¬ { running with started := 4 }.started < running.descriptor.count := by decide

/-- A failed channel that stops with an empty unit list. -/
def failed : Channel :=
  { running with
    state := .stopping .fault, faultStatus := some .denied, faultAddress := some 0x10 }

theorem test_hyps_EmptyChannelComesToRest :
    running.units = [] ∧ (channel { running with state := .pausing }).channels[(0 : ChannelNo)].state =
      .pausing ∧
    (channel { running with state := .stopping .stop }).channels[(0 : ChannelNo)].state =
      .stopping .stop ∧
    (channel failed).channels[(0 : ChannelNo)].faultStatus = some .denied ∧
    (channel failed).channels[(0 : ChannelNo)].faultAddress = some 0x10 ∧
    (channel failed).ownedM 0 = 0 ∧ (put (channel failed) [(4, moveRead)]).ownedM 0 ≠ 0 := by decide

/-- A unit record. -/
def unit (n : Nat) (phase : UnitPhase) : UnitRecord := { number := n, phase }

/-- Any channel record, its unit list and state among them, can be that of channel 0, with an entry to
give and with the addresses of its cursors and of a link in window 0, or in no window. -/
theorem test_hyps_UnitReportsMoveTheChannel :
    (∀ ch, (channel ch).channels[(0 : ChannelNo)] = ch) ∧
    (∀ ch, (channel ch).ownedM 0 < 2 ∧ (channel ch).lowestFree = some 0) ∧
    (∀ ch, ((channel ch).decodeAddress (.m 0) .write 0x20).toOption.isSome = true ∧
      ((channel ch).decodeAddress (.m 0) .read 0x40).toOption.isSome = true ∧
      ((channel ch).decodeAddress (.m 0) .write 0x200000).toOption = none ∧
      ((channel ch).decodeAddress (.m 0) .read 0x200000).toOption = none) ∧
    running.state = .running ∧ running.destinationCursor = 0x20 ∧ running.remaining ≠ 1 ∧
    running.descriptor.link = 0 ∧ (0x40 : Word) ≠ 0 ∧ (unit 0 (.writing 1)).owns 2 = false ∧
    (unit 0 (.staged [1])).owns 2 = false := by
  refine ⟨fun _ => rfl, fun _ => ⟨?_, ?_⟩, fun _ => ⟨?_, ?_, ?_, ?_⟩, ?_⟩
  · change card.ownedM 0 < 2; decide
  · change card.lowestFree = some 0; decide
  · change (card.decodeAddress (.m 0) .write 0x20).toOption.isSome = true; decide
  · change (card.decodeAddress (.m 0) .read 0x40).toOption.isSome = true; decide
  · change (card.decodeAddress (.m 0) .write 0x200000).toOption = none; decide
  · change (card.decodeAddress (.m 0) .read 0x200000).toOption = none; decide
  · decide

/-- Channel 0 is paced by T3 and has a full credit. -/
def paced : State :=
  channel { running with descriptor := { four with pace := 4 }, paceCredit := 15 }

theorem test_hyps_PacePulseCreditsTheLowestChannel :
    paced.lines.porst = false ∧ paced.channels[(0 : ChannelNo)].state = .running ∧
    paced.channels[(0 : ChannelNo)].descriptor.pace.toNat = (3 : PortNo).val + 1 ∧
    after (exec (.pacePulse 3) paced) = some paced ∧
    after (exec (.pacePulse 0) paced) = some paced := by decide

/-! ## The management block -/

/-- A write of the processor at the head of an otherwise empty management block is taken by its row. -/
theorem takes_put (s : State) (hp : s.lines.porst = false) (ho : s.order = []) (offset w : Word)
    (row : MgmtRow) (h : (mgmtWrite .p offset w).mgmtRow = row) :
    (put s [(0, mgmtWrite .p offset w)]).Takes row 0 (mgmtWrite .p offset w) where
  porst := hp
  head := ⟨[], by simp [put, ho, State.mgmtQueue, State.table, mgmtWrite, waiting]⟩
  write := rfl
  row := h
  allowed := .inl rfl

theorem test_hyps_ManagementWritesAreTakenByTheirRow :
    ((mgmtWrite .p 0x80 1).mgmtRow = .commit ∧ (mgmtWrite .p 0x80 0x1305).mgmtRow = .channelStartFetch ∧
      (mgmtWrite .p 0x80 0x305).mgmtRow = .channelStartLoaded ∧
      (mgmtWrite .p 0x80 10).mgmtRow = .mgmtWrite ∧ (mgmtWrite .p 0x80 0).mgmtRow = .mgmtWrite ∧
      (mgmtWrite .p 0x400 0).mgmtRow = .stagingWrite ∧ (mgmtWrite .p 0x5FC 0).mgmtRow = .stagingWrite ∧
      (mgmtWrite .p 0x200 0).mgmtRow = .loadedDescriptorWrite ∧
      (mgmtWrite .p 0x23C 0).mgmtRow = .loadedDescriptorWrite ∧
      (mgmtWrite .p 0x138 0).mgmtRow = .portConfigurationWrite ∧
      (mgmtWrite .p 0x13C 0).mgmtRow = .mgmtWrite ∧ (mgmtWrite .p 0x4C 0).mgmtRow = .settingWrite ∧
      (mgmtWrite .p 0x40 0).mgmtRow = .remoteManagementWrite ∧
      (mgmtWrite .p 0x50 0).mgmtRow = .attentionEnablesWrite ∧
      (mgmtWrite .p 0x84 0).mgmtRow = .commandArgumentWrite) ∧
    ((mgmtWrite .p 0x82 1).mgmtRow = .mgmtWrite ∧ (mgmtWrite .p 0x3C 0).mgmtRow = .mgmtWrite ∧
      (mgmtWrite .p 0x54 0).mgmtRow = .mgmtWrite ∧ (mgmtWrite .p 0x7C 0).mgmtRow = .mgmtWrite ∧
      (mgmtWrite .p 0x88 0).mgmtRow = .mgmtWrite ∧ (mgmtWrite .p 0xFC 0).mgmtRow = .mgmtWrite ∧
      (mgmtWrite .p 0x140 0).mgmtRow = .mgmtWrite ∧ (mgmtWrite .p 0x1FC 0).mgmtRow = .mgmtWrite ∧
      (mgmtWrite .p 0x240 0).mgmtRow = .mgmtWrite ∧ (mgmtWrite .p 0x3FC 0).mgmtRow = .mgmtWrite ∧
      (mgmtWrite .p 0x600 0).mgmtRow = .mgmtWrite) ∧
    card.mgmtQueue = [] ∧ held.lines.porst = true ∧
    (put card [(0, mgmtWrite (.b 7) 0x80 1)]).mgmtQueue = [(0, mgmtWrite (.b 7) 0x80 1)] ∧
    card.setup.settings.remoteManagement = false := by
  refine ⟨?_, ?_, ?_⟩ <;> decide

theorem test_hyps_ManagementReadsAnswerTheObject :
    objectAt 0x000 = some .identity0 ∧ objectAt 0x002 = none ∧ objectAt 0x080 = some .command ∧
    objectAt 0x0C4 = some .occupancy ∧ objectAt 0x10C = none ∧
    objectAt 0x15C = some (.portStatus 3 1) ∧ objectAt 0x160 = none ∧
    objectAt 0x7FC = some (.live 31 3) ∧ objectAt 0x800 = none ∧ card.Running ∧ card.order = [] ∧
    parseRequest .p ((request .mgmt .read 0 0x7FC 4 []).encode .p) =
      some { request .mgmt .read 0 0x7FC 4 [] with source := 0, stamp := 0 } ∧
    card.refusal .p .p { request .mgmt .read 0 0x7FC 4 [] with source := 0, stamp := 0 } =
      none := by
  refine ⟨?_, ?_, ?_, ?_, ?_, ?_, ?_, ?_, ?_, ⟨rfl, rfl⟩, rfl, ?_⟩ <;> decide

/-- A management read of the occupancy, of the B origin, behind other entries at work; the write of P
that was ahead of it has ended. -/
def reading : State :=
  put { card with setup := { card.setup with settings := { card.setup.settings with
      remoteManagement := true } } }
    [(0, guardedWrite), (1, waiting),
      (2, { mgmtWrite (.b 7) 0xC4 0 with op := .read, tag := some 3, returnStamp := some 8 })]

theorem test_hyps_ManagementReadsAnswerTheObject_read :
    reading.TableOk ∧ reading.EntriesOk ∧ reading.resetDue = false ∧
    (∀ je ∈ reading.table, reading.guardDue je.1 je.2 = false) ∧ reading.asks = [] ∧
    reading.mgmtQueue = [(2, { mgmtWrite (.b 7) 0xC4 0 with
      op := .read, tag := some 3, returnStamp := some 8 })] ∧
    (reading.serveRead (mgmtWrite (.b 7) 0xC4 0)).toOption = some 0x00100021 ∧
    (card.serveRead (mgmtWrite (.b 7) 0xC4 0)).toOption = none := by
  refine ⟨?_, put_entriesOk ?_ _ fun ie h => ok_of_check ((by decide : ∀ ie ∈
    [((0 : EntryNo), guardedWrite), (1, waiting), (2, { mgmtWrite (.b 7) 0xC4 0 with
      op := .read, tag := some 3, returnStamp := some 8 })], checkEntry ie.2 = true) ie h), by decide,
    by decide, by decide, by decide, by decide, by decide⟩
  · unfold State.TableOk; decide
  · exact fun i e h => absurd h (card_noEntries i e)

/-- The occupancy of a state with one P, three B and one M0 entry, one of them ORPHANED; the status of
port 0, with the orphan's piece out; the generation with no entry of an earlier one, then with four. -/
theorem test_status_words :
    busy.readObject .occupancy = some 0x00110131 ∧
    busy.readObject (.portStatus 0 0) = some 0x11 ∧
    busy.readObject .generation = some 0 ∧
    ({ busy with setup := { busy.setup with generation := 7 } } : State).readObject .generation =
      some 0x00040007 ∧
    card.readObject (.live 1 2) = some 0x10000040 := by decide

/-- A staging table whose entry 3 holds this word 3. -/
def staged (w : Word) : State :=
  { card with setup := { card.setup with
    staging := card.setup.staging.set 3 (#v[0x80000100, 0x00000100, 0, w]) } }

theorem test_hyps_CommitAndCopyBackCopyTheTables :
    (put (staged 0xA) [(0, mgmtWrite .p 0x80 1)]).Takes .commit 0 (mgmtWrite .p 0x80 1) ∧
    (put (staged 3) [(0, mgmtWrite .p 0x80 1)]).Takes .commit 0 (mgmtWrite .p 0x80 1) ∧
    (serving 0x80 2).Takes .copyBack 0 (mgmtWrite .p 0x80 2) ∧
    (∀ k : Fin 32, (staged 0xA).setup.staging[k][(3 : Fin 4)].toNat % 4 ≠ 3) ∧
    (staged 3).setup.staging[(3 : Fin 32)][(0 : Fin 4)].getLsbD 31 = true ∧
    (staged 3).setup.staging[(3 : Fin 32)][(3 : Fin 4)].toNat % 4 = 3 := by
  refine ⟨takes_put _ rfl rfl _ _ _ (by decide), takes_put _ rfl rfl _ _ _ (by decide),
    takes_put _ rfl rfl _ _ _ (by decide), ?_, ?_, ?_⟩ <;> decide

/-- The bits named for no field play no part in the live entry that four staging words make (R162). -/
theorem test_windowOfWords_ignoresUnnamedBits :
    Window.ofWords #v[0xFFF00100, 0xFFF001FF, 0xFFF00040, 0xFFFFFFF6] =
      { valid := true, base := 0x100, limit := 0x1FF, port := 3, targetPage := 0x40,
        localRights := .readWrite, remoteRights := .read, guarded := true } ∧
    (Window.ofWords #v[0x7FFFFFFF, 0, 0xC0000000, 0xFFFFFEFF]).valid = false := by decide

/-- Port 3 is OFFLINE. -/
def offline : State := card.modPort 3 fun p => { p with state := .offline }

theorem test_hyps_PortCommandsActOnTheirPort :
    (serving 0x80 0x303).Takes .portResume 0 (mgmtWrite .p 0x80 0x303) ∧
    (put offline [(0, mgmtWrite .p 0x80 0x303)]).Takes .portResume 0 (mgmtWrite .p 0x80 0x303) ∧
    (serving 0x80 0x304).Takes .portOffline 0 (mgmtWrite .p 0x80 0x304) ∧
    (put offline [(0, mgmtWrite .p 0x80 0x304)]).Takes .portOffline 0 (mgmtWrite .p 0x80 0x304) ∧
    (mgmtWrite .p 0x80 0x303).word.toNat / 256 % 4 = 3 ∧
    offline.ports[(3 : PortNo)].state = .offline ∧ card.ports[(3 : PortNo)].state = .online := by
  refine ⟨takes_put _ rfl rfl _ _ _ (by decide), takes_put _ rfl rfl _ _ _ (by decide),
    takes_put _ rfl rfl _ _ _ (by decide), takes_put _ rfl rfl _ _ _ (by decide), ?_⟩
  decide

theorem test_hyps_ChannelStartsRunOrFetch :
    (∀ ch, (put (channel ch) [(0, mgmtWrite .p 0x80 5)]).Takes .channelStartLoaded 0
      (mgmtWrite .p 0x80 5)) ∧
    (∀ ch, (put (channel ch) [(0, mgmtWrite .p 0x80 0x1005)]).Takes .channelStartFetch 0
      (mgmtWrite .p 0x80 0x1005)) ∧
    (∀ ch, (channel ch).channels[(0 : ChannelNo)] = ch) ∧
    Channel.atReset.state = .idle ∧ running.state ≠ .idle ∧ four.invalid = none ∧
    Descriptor.zero.invalid = some 76 ∧ card.setup.settings.argument.toNat % 16 = 0 ∧
    (serving 0x80 0x1005).ownedM 0 < 2 ∧ (serving 0x80 0x1005).lowestFree = some 1 ∧
    ((serving 0x80 0x1005).decodeAddress (.m 0) .read 0).toOption.isSome = true ∧
    ((serving 0x80 0x1005).decodeAddress (.m 0) .read 0x200000).toOption = none := by
  refine ⟨fun _ => takes_put _ rfl rfl _ _ _ (by decide), fun _ =>
    takes_put _ rfl rfl _ _ _ (by decide), fun _ => rfl, ?_⟩
  decide

/-- The 16 bytes of a descriptor. -/
def bytesOf (d : Descriptor) : List Byte :=
  wordBytes (d.word 0) ++ wordBytes (d.word 1) ++ wordBytes (d.word 2) ++ wordBytes (d.word 3)

/-- A channel that fetches from 0x40. -/
def fetching : Channel := { Channel.atReset with state := .fetching, fetchAddress := some 0x40 }

theorem test_hyps_FetchReportsLoadTheDescriptor :
    fetching.units = [] ∧ (channel fetching).channels[(0 : ChannelNo)].fetchAddress = some 0x40 ∧
    Descriptor.ofBytes (bytesOf four) = four ∧ four.invalid = none ∧
    (Descriptor.ofBytes (bytesOf Descriptor.zero)).invalid = some 76 ∧
    (channel { fetching with state := .stopping .stop }).channels[(0 : ChannelNo)].state =
      .stopping .stop := by decide

theorem test_hyps_ChannelPauseContinueStop :
    (∀ ch, (put (channel ch) [(0, mgmtWrite .p 0x80 6)]).Takes .channelPause 0
      (mgmtWrite .p 0x80 6)) ∧
    (∀ ch, (put (channel ch) [(0, mgmtWrite .p 0x80 7)]).Takes .channelContinue 0
      (mgmtWrite .p 0x80 7)) ∧
    (∀ ch, (put (channel ch) [(0, mgmtWrite .p 0x80 8)]).Takes .channelStop 0
      (mgmtWrite .p 0x80 8)) ∧
    ∀ ch, (channel ch).channels[(0 : ChannelNo)] = ch :=
  ⟨fun _ => takes_put _ rfl rfl _ _ _ (by decide), fun _ => takes_put _ rfl rfl _ _ _ (by decide),
    fun _ => takes_put _ rfl rfl _ _ _ (by decide), fun _ => rfl⟩

/-- A channel paused at the end of a descriptor whose link is this address. -/
def paused (link : Word) : State :=
  put (channel { Channel.atReset with state := .paused, descriptor := { Descriptor.zero with link } })
    [(0, mgmtWrite .p 0x80 7)]

theorem test_hyps_ChannelPauseContinueStop_fetch :
    (∀ link, (paused link).Takes .channelContinue 0 (mgmtWrite .p 0x80 7)) ∧
    (paused 0x40).channels[(0 : ChannelNo)].state = .paused ∧
    (paused 0x40).channels[(0 : ChannelNo)].remaining = 0 ∧ (paused 0x40).ownedM 0 < 2 ∧
    (paused 0x40).lowestFree = some 1 ∧
    ((paused 0x40).decodeAddress (.m 0) .read 0x40).toOption.isSome = true ∧
    ((paused 0x900000).decodeAddress (.m 0) .read 0x900000).toOption.isSome = false :=
  ⟨fun _ => takes_put _ rfl rfl _ _ _ (by decide), by decide, by decide, by decide, by decide,
    by decide, by decide⟩

/-- A CARD RESET command of node 7 while remote management is on. -/
def remoteReset : State :=
  put { card with setup := { card.setup with settings := { card.setup.settings with
    remoteManagement := true } } } [(0, mgmtWrite (.b 7) 0x80 9)]

theorem test_hyps_CardResetCommandResetsAtItsDelivery :
    (serving 0x80 9).Takes .cardResetCommand 0 (mgmtWrite .p 0x80 9) ∧
    (serving 0x80 9).TableOk ∧ (serving 0x80 9).pList = [(0, mgmtWrite .p 0x80 9)] ∧
    remoteReset.Takes .cardResetCommand 0 (mgmtWrite (.b 7) 0x80 9) := by
  refine ⟨takes_put _ rfl rfl _ _ _ (by decide), ?_, by decide,
    ⟨rfl, ⟨[], by decide⟩, rfl, by decide, .inr rfl⟩⟩
  unfold State.TableOk; decide

/-- The ended CARD RESET command has come to the head behind an entry that has left. -/
def delivered : State :=
  let e := mgmtWrite .p 0x80 9
  put card [(0, { e with state := .complete, finalStatus := some .ok }), (1, guardedWrite)]

theorem test_hyps_CardResetCommandResetsAtItsDelivery_later :
    delivered.pList = [(0, { mgmtWrite .p 0x80 9 with
      state := .complete, finalStatus := some .ok })] ∧ delivered.resetDue = true ∧
    (mgmtWrite .p 0x80 9).route = some .mgmt ∧ (mgmtWrite .p 0x80 9).op = .write ∧
    (mgmtWrite .p 0x80 9).address = 0x80 ∧ (mgmtWrite .p 0x80 9).word.toNat % 256 = 9 := by decide

theorem test_hyps_WordWritesStoreTheirFields :
    (serving 0x5FC 1).Takes .stagingWrite 0 (mgmtWrite .p 0x5FC 1) ∧
    (serving 0x23C 1).Takes .loadedDescriptorWrite 0 (mgmtWrite .p 0x23C 1) ∧
    (put (channel running) [(0, mgmtWrite .p 0x200 1)]).Takes .loadedDescriptorWrite 0
      (mgmtWrite .p 0x200 1) ∧
    (serving 0x130 0xF742).Takes .portConfigurationWrite 0 (mgmtWrite .p 0x130 0xF742) ∧
    (serving 0x134 1001).Takes .portConfigurationWrite 0 (mgmtWrite .p 0x134 1001) ∧
    (serving 0x138 1).Takes .portConfigurationWrite 0 (mgmtWrite .p 0x138 1) ∧
    (serving 0x138 1).TableOk ∧ (serving 0x23C 1).channels[(3 : ChannelNo)].state = .idle := by
  refine ⟨takes_put _ rfl rfl _ _ _ (by decide), takes_put _ rfl rfl _ _ _ (by decide),
    takes_put _ rfl rfl _ _ _ (by decide), takes_put _ rfl rfl _ _ _ (by decide),
    takes_put _ rfl rfl _ _ _ (by decide), takes_put _ rfl rfl _ _ _ (by decide), ?_, by decide⟩
  unfold State.TableOk; decide

theorem test_hyps_SettingWritesTakeEffectAtTheTake :
    (serving 0x44 0xFFFF).Takes .settingWrite 0 (mgmtWrite .p 0x44 0xFFFF) ∧
    (serving 0x48 0x0100).Takes .settingWrite 0 (mgmtWrite .p 0x48 0x0100) ∧
    (serving 0x48 0x0101).Takes .settingWrite 0 (mgmtWrite .p 0x48 0x0101) ∧
    (serving 0x4C 0).Takes .settingWrite 0 (mgmtWrite .p 0x4C 0) ∧
    (serving 0x4C 1).Takes .settingWrite 0 (mgmtWrite .p 0x4C 1) ∧
    (serving 0x40 1).Takes .remoteManagementWrite 0 (mgmtWrite .p 0x40 1) ∧
    (serving 0x50 1).Takes .attentionEnablesWrite 0 (mgmtWrite .p 0x50 1) ∧
    (serving 0x84 1).Takes .commandArgumentWrite 0 (mgmtWrite .p 0x84 1) ∧
    (serving 0x80 0).Takes .mgmtWrite 0 (mgmtWrite .p 0x80 0) ∧
    (serving 0x600 0).Takes .mgmtWrite 0 (mgmtWrite .p 0x600 0) ∧
    (serving 0x800 0).Takes .mgmtWrite 0 (mgmtWrite .p 0x800 0) := by
  refine ⟨?_, ?_, ?_, ?_, ?_, ?_, ?_, ?_, ?_, ?_, ?_⟩ <;>
    exact takes_put _ rfl rfl _ _ _ (by decide)

theorem test_hyps_SettingWritesTakeEffectAtTheTake_remote :
    (put { card with setup := { card.setup with settings := { card.setup.settings with
      remoteManagement := true } } } [(0, mgmtWrite (.b 7) 0x40 0)]).Takes .remoteManagementWrite 0
        (mgmtWrite (.b 7) 0x40 0) :=
  ⟨rfl, ⟨[], by decide⟩, rfl, by decide, .inr rfl⟩

/-! ## The attention unit and the guard -/

/-- A record of PORT_LOST at port 2. -/
def lost : AttnRecord := { source := .port 2, kind := .portLost, count := 255, detail := none }

/-- The card with this attention queue. -/
def queued (queue : List AttnRecord) : State :=
  { card with attention := { card.attention with queue, out := !queue.isEmpty } }

/-- Sixteen records, no two alike. -/
def fullQueue : List AttnRecord :=
  (List.finRange 4).flatMap fun p =>
    [{ lost with source := .port p, count := 1 },
     { lost with source := .port p, kind := .portOffline },
     { lost with source := .port p, kind := .holdBroken },
     { lost with source := .channel p, kind := .channelDone }]

theorem test_hyps_RaisedAttentionIsRecordedAndNotified :
    card.setup.settings.kindEnables.getLsbD AttnKind.blinkUp.code.val = true ∧
    (queued [lost]).attention.queue = [] ++ lost :: [] ∧
    (queued [lost]).attention.queue.length < 16 ∧ fullQueue.length = 16 ∧
    (∀ r ∈ fullQueue, ¬ (r.source = .backplane ∧ r.kind = .blinkUp)) ∧
    (queued [lost]).attention.Ok := by
  unfold Attention.Ok; decide

/-- The ask of the processor as a message, and as what the P link carries of it. -/
def asking : Request := { request .attn .read 0 0 16 [] with source := 0, stamp := 0 }

/-- Port 3's attention line is asserted and enabled. -/
def called : State :=
  { card with
    lines := { card.lines with tattn := card.lines.tattn.set 3 true }
    setup := { card.setup with settings := { card.setup.settings with portEnables := 8 } }
    attention := { card.attention with out := true } }

theorem test_hyps_AskIsAnsweredOrWalks :
    card.Running ∧ card.TableOk ∧ card.OutOk ∧ (queued [lost]).OutOk ∧ called.OutOk ∧
    card.order = [] ∧ card.attention.walk = none ∧ parseRequest .p (asking.encode .p) = some asking ∧
    card.refusal .p .p asking = none ∧ asking.space = some .attn ∧
    called.setup.settings.portEnables.getLsbD 3 = true ∧ called.lines.tattn[(3 : PortNo)] = true ∧
    called.ports[(3 : PortNo)].state ≠ .absent := by
  refine ⟨⟨rfl, rfl⟩, ?_, ?_, ?_, ?_, rfl, rfl, ?_⟩
  · unfold State.TableOk; decide
  · unfold State.OutOk; decide
  · unfold State.OutOk; decide
  · unfold State.OutOk; decide
  · decide

/-- Two asks behind a read at work: the first can be taken. -/
def asked (s : State) : State := put s [(0, waiting), (1, ask), (2, { ask with tag := some 4 })]

theorem test_hyps_AskIsAnsweredOrWalks_live :
    card.Accepts .p (asking.encode .p) asking ∧ (asked called).TableOk ∧ (asked called).EntriesOk ∧
    (asked called).OutOk ∧ (asked (queued [lost])).OutOk ∧ (asked called).resetDue = false ∧
    (∀ je ∈ (asked called).table, (asked called).guardDue je.1 je.2 = false) ∧
    (asked called).attention.walk = none ∧
    (asked called).asks = [(1, ask), (2, { ask with tag := some 4 })] := by
  refine ⟨⟨⟨by decide, by decide, rfl, rfl⟩, .inr ⟨rfl, rfl⟩⟩, ?_,
    put_entriesOk (fun i e h => absurd h (card_noEntries i e)) _ fun ie h => ok_of_check
      ((by decide : ∀ ie ∈ [((0 : EntryNo), waiting), (1, ask), (2, { ask with tag := some 4 })],
        checkEntry ie.2 = true) ie h), ?_, ?_, by decide, by decide, rfl, by decide⟩
  · unfold State.TableOk; decide
  · unfold State.OutOk; decide
  · unfold State.OutOk; decide

/-- A walk that is to go on finds no port in `walking`, and port 3 behind others in `called`. -/
theorem test_hyps_AskAnswersEndOrMoveTheWalk_ports :
    (put called [(0, ask)]).entries[(0 : EntryNo)] = some ask ∧
    List.finRange 4 = [0, 1, 2] ++ 3 :: [] ∧
    (∀ p ∈ ([0, 1, 2] : List PortNo), called.lines.tattn[p] = false) ∧
    called.setup.settings.portEnables.getLsbD 3 = true ∧ called.lines.tattn[(3 : PortNo)] = true ∧
    called.ports[(3 : PortNo)].state ≠ .absent ∧ (∀ p : PortNo, card.lines.tattn[p] = false) := by
  decide

/-- An ask that waits for port 1's answer to ask number 9. -/
def walking : State :=
  put { card with
    attention := { card.attention with
      walk := some { ask := 0, port := 1, number := 9, timer := 100 } } } [(0, ask)]

theorem test_hyps_AskAnswersEndOrMoveTheWalk :
    walking.lines.porst = false ∧ walking.entries[(0 : EntryNo)] = some ask ∧
    parseAskAnswer 11 (wordBytes 0xB0010900) = some (9, 1) ∧
    parseAskAnswer 11 (wordBytes 0xB0000900) = some (9, 0) ∧
    parseAskAnswer 12 (wordBytes 0xC0000900) = some (9, 0) ∧
    parseAskAnswer 12 (wordBytes 0xC0000800) = some (8, 0) ∧
    parseAskAnswer 11 (wordBytes 0xC0000900) = none ∧ card.attention.walk = none := by decide

theorem test_hyps_GuardClosesReleasesAndOpens :
    card.lines.porst = false ∧ card.guard ≠ .guarded ∧ card.lines.early.head? ≠ some true ∧
    ({ card with guard := .guarded } : State).guard = .guarded ∧
    ({ card with guard := .releasing 20 } : State).guard = .releasing 20 ∧
    (put card [(0, guardedWrite), (1, waiting)]).entries[(0 : EntryNo)] = some guardedWrite ∧
    guardedWrite.decode = some record1 ∧ record1.guarded = true ∧ record0.guarded = false ∧
    held.lines.porst = true ∧ (put card [(0, guardedWrite), (1, waiting)]).TableOk ∧
    (put card [(0, guardedWrite), (1, waiting)]).EntriesOk := by
  refine ⟨rfl, by decide, by decide, rfl, rfl, by decide, rfl, rfl, rfl, rfl, ?_,
    put_entriesOk card_entriesOk _ fun ie h => ok_of_check
      ((by decide : ∀ ie ∈ [((0 : EntryNo), guardedWrite), (1, waiting)], checkEntry ie.2 = true)
        ie h)⟩
  unfold State.TableOk; decide

/-- A guarded release of node 7 that waits at port 1, which node 7 holds, behind a read of the
processor. -/
def releasing : State :=
  put { card with ports := card.ports.set 1 { card.ports[(1 : PortNo)] with
    hold := some { holder := .b 7, phase := .awaitingRelease 2 } } }
    [(1, waiting), (2, { guardedWrite with op := .writeRelease })]

theorem test_hyps_GuardClosesReleasesAndOpens_swept :
    releasing.TableOk ∧ releasing.EntriesOk ∧ releasing.HeadOk ∧
    releasing.ports[(1 : PortNo)].hold = some { holder := .b 7, phase := .awaitingRelease 2 } ∧
    releasing.ports[(0 : PortNo)].hold = none ∧
    (releasing.table.filter fun je => decide (je.2.op = .writeRelease)).map Prod.fst = [2] := by
  refine ⟨?_, put_entriesOk card_entriesOk _ fun ie h => ok_of_check
    ((by decide : ∀ ie ∈ [((1 : EntryNo), waiting), (2, { guardedWrite with op := .writeRelease })],
      checkEntry ie.2 = true) ie h), ?_, by decide, by decide, by decide⟩
  · unfold State.TableOk; decide
  · intro x rest h
    rw [(by decide : releasing.pList = [(1, waiting)])] at h
    cases h
    decide

/-- The sweep of a release: its response, and the hold that it leaves. -/
theorem test_sweep_of_a_release :
    releasing.sweep.bSent = card.bSent ++ [.response 7 5 9
      { tag := 1, status := .guarded, data := none, faultAddress := some 0x100010, detail := none }] ∧
    releasing.sweep.ports[(1 : PortNo)].hold = none ∧ releasing.sweep.order = [1] := by decide

theorem test_hyps_AssertedPorstHoldsTheBridge :
    held.lines.porst = true ∧ after (exec .commit held) = some held ∧
    after (exec .bLinkUp State.reset) = some { State.reset with
      lines := { State.reset.lines with bLink := true } } := by decide

/-! ## Invariants: the table laws and the unit laws hold in a state with a P entry at work -/

theorem out_issued_laws :
    (out issued).TagsOk ∧ (out issued).ConfigOk ∧ (out issued).RetryOk ∧ (out issued).Resting := by
  have only : ∀ (i : EntryNo) (e : Entry), (out issued).entries[i] = some e → i = 3 ∧ e = issued := by
    intro i e h
    by_cases hi : i = 3
    · subst hi; exact ⟨rfl, (Option.some.inj h).symm⟩
    · have free : ∀ i : EntryNo, i ≠ 3 → (out issued).entries[i] = none := by decide
      rw [free i hi] at h
      cases h
  refine ⟨?_, ⟨?_, ?_⟩, ?_, ⟨⟨?_, ?_, .inr (by decide), by decide⟩, ?_, ?_, ?_, ?_⟩⟩
  · intro i j e f he hf hij
    exact absurd ((only i e he).1.trans (only j f hf).1.symm) hij
  · unfold PortConfig.Ok; decide
  · unfold Settings.Ok; decide
  · intro i e he p hp
    rw [(only i e he).2] at hp ⊢
    exact Nat.zero_le _
  · intro i e h
    exact (by decide : ∀ ie ∈ (out issued).table, (out issued).guardDue ie.1 ie.2 = false) (i, e) h
  · intro i e rest h
    exact absurd h (by rw [(by decide : (out issued).mgmtQueue = [])]; simp)
  · intro x rest h
    rw [(by decide : (out issued).pList = [(3, issued)])] at h
    cases h
    decide
  · intro i e p he hp
    exact (by decide : ∀ p : PortNo, (out issued).ports[p].state = .online) p
  · intro w h
    cases h
  · intro h
    cases h

theorem test_hyps_StepKeepsTheTableLaws :
    (out issued).TableOk ∧ (out issued).QuotaOk ∧ (out issued).TagsOk ∧ (out issued).ConfigOk ∧
    (out issued).IssuedOk ∧ (out issued).EntriesOk ∧ (out issued).RetryOk ∧
    after (step (out issued)) = some (out issued) := by
  refine ⟨?_, ?_, out_issued_laws.1, out_issued_laws.2.1, ?_,
    put_entriesOk card_entriesOk _ fun ie h => ok_of_check
      ((by decide : ∀ ie ∈ [((3 : EntryNo), issued)], checkEntry ie.2 = true) ie h),
    out_issued_laws.2.2.1, by decide⟩
  · unfold State.TableOk; decide
  · unfold State.QuotaOk; decide
  · unfold State.IssuedOk; decide

theorem test_hyps_ManagementReadsAnswerTheObject_words :
    (out issued).TableOk ∧ (out issued).QuotaOk ∧ (out issued).EntriesOk ∧ (out issued).IssuedOk ∧
    (out issued).ConfigOk ∧ (out issued).RangesOk ∧ (out issued).attention.Ok := by
  refine ⟨test_hyps_StepKeepsTheTableLaws.1, test_hyps_StepKeepsTheTableLaws.2.1,
    test_hyps_StepKeepsTheTableLaws.2.2.2.2.2.1, test_hyps_StepKeepsTheTableLaws.2.2.2.2.1,
    out_issued_laws.2.1, ?_, ?_⟩
  · unfold State.RangesOk; decide
  · unfold Attention.Ok; decide

/-- The table laws hold of the same state: test_hyps_StepKeepsTheTableLaws. -/
theorem test_hyps_StepLeavesTheBridgeAtRest :
    (out issued).Resting ∧ after (step (out issued)) = some (out issued) :=
  ⟨out_issued_laws.2.2.2, test_hyps_StepKeepsTheTableLaws.2.2.2.2.2.2.2⟩

theorem test_hyps_StepKeepsTheUnitLaws :
    (queued [lost]).attention.Ok ∧ (queued [lost]).OutOk ∧ (queued [lost]).LiveOk ∧
    (queued [lost]).RangesOk ∧ (queued [lost]).StandaloneOk := by
  refine ⟨?_, ?_, ?_, ?_, ?_⟩
  · unfold Attention.Ok; decide
  · unfold State.OutOk; decide
  · unfold State.LiveOk; decide
  · unfold State.RangesOk; decide
  · unfold State.StandaloneOk; decide

/-- P holds port 0 for a READ_HOLD whose piece is out; node 7's note is set. -/
def holding : State :=
  (put (heldBy 0 (.awaitingRead 3)) [(3, { issued with op := .readHold })]).setNote (.b 7) (some 2)

theorem holding_only (i : EntryNo) (e : Entry) (h : holding.entries[i] = some e) :
    i = 3 ∧ e = { issued with op := .readHold } := by
  by_cases hi : i = 3
  · subst hi; exact ⟨rfl, (Option.some.inj h).symm⟩
  · rw [(by decide : ∀ i : EntryNo, i ≠ 3 → holding.entries[i] = none) i hi] at h
    cases h

theorem holding_hold (p : PortNo) (x : Hold) (h : holding.ports[p].hold = some x) :
    p = 0 ∧ x = { holder := .p, phase := .awaitingRead 3 } := by
  by_cases hp : p = 0
  · subst hp; exact ⟨rfl, (Option.some.inj h).symm⟩
  · rw [(by decide : ∀ p : PortNo, p ≠ 0 → holding.ports[p].hold = none) p hp] at h
    cases h

theorem holding_holdsOk : holding.HoldsOk where
  one := fun p q x y hx hy _ => (holding_hold p x hx).1.trans (holding_hold q y hy).1.symm
  read := fun p x i hx hi => by
    obtain ⟨rfl, rfl⟩ := holding_hold p x hx
    cases hi
    exact ⟨_, rfl, ⟨rfl, rfl, .inr (.inl rfl)⟩, rfl⟩
  release := fun p x i hx hi => by
    obtain ⟨rfl, rfl⟩ := holding_hold p x hx
    cases hi
  single := fun i j e f h he hf _ _ => (holding_only i e he).1.trans (holding_only j f hf).1.symm
  reading := fun i e h he _ p x hx _ => by
    obtain ⟨rfl, rfl⟩ := holding_only i e he
    obtain ⟨rfl, rfl⟩ := holding_hold p x hx
    rfl
  releasing := fun i e h he ha => by
    obtain ⟨rfl, rfl⟩ := holding_only i e he
    exact absurd ha.2.1 (by decide)
  note := fun h hn => by
    have hh : h ≠ .p := by rintro rfl; exact hn (by decide)
    refine ⟨fun p x hx => ?_, fun i e he ha => ?_⟩
    · obtain ⟨rfl, rfl⟩ := holding_hold p x hx
      exact hh.symm
    · obtain ⟨rfl, rfl⟩ := holding_only i e he
      cases h with
      | p => exact hh rfl
      | b x => cases ha.1

theorem test_hyps_StepKeepsTheUnitLaws_holds :
    holding.attention.Ok ∧ holding.OutOk ∧ holding.LiveOk ∧ holding.RangesOk ∧
    holding.StandaloneOk ∧ holding.TableOk ∧ holding.EntriesOk ∧ holding.Resting ∧
    holding.HoldsOk := by
  refine ⟨?_, ?_, ?_, ?_, ?_, ?_, ?_, ⟨⟨?_, ?_, .inr (by decide), by decide⟩, ?_, ?_, ?_, ?_⟩,
    holding_holdsOk⟩
  · unfold Attention.Ok; decide
  · unfold State.OutOk; decide
  · unfold State.LiveOk; decide
  · unfold State.RangesOk; decide
  · unfold State.StandaloneOk; decide
  · unfold State.TableOk; decide
  · intro i e he
    obtain ⟨rfl, rfl⟩ := holding_only i e he
    exact ok_of_check (by decide)
  · intro i e h
    exact (by decide : ∀ ie ∈ holding.table, holding.guardDue ie.1 ie.2 = false) (i, e) h
  · intro i e rest h
    exact absurd h (by rw [(by decide : holding.mgmtQueue = [])]; simp)
  · intro x rest h
    rw [(by decide : holding.pList = [(3, { issued with op := .readHold })])] at h
    cases h
    decide
  · intro i e p _ _
    exact (by decide : ∀ p : PortNo, holding.ports[p].state = .online) p
  · intro w h
    cases h
  · intro h
    cases h

/-! ## The manual's worked numbers -/

/-- A window of the decode examples of chapter 2. -/
def window (base limit : BitVec 20) (port : PortNo) (targetPage : BitVec 20)
    (localRights remoteRights : Rights) (guarded : Bool) : Window :=
  { valid := true, base, limit, port, targetPage, localRights, remoteRights, guarded }

/-- The live table and port states of the decode examples. -/
def decodeExample : State :=
  { card with
    setup := { card.setup with
      generation := 7
      portConfig := card.setup.portConfig.set 2 (PortConfig.atPowerOn .two)
      live := ((((Vector.replicate 32 Window.empty).set 0
        (window 0x80 0x80 0 0x80 .read .none false)).set 1
        (window 0 0xFF 0 0 .readWrite .read false)).set 2
        (window 0x40000 0x4003F 2 0 .readWrite .readWrite true)).set 4
        (window 0x50000 0x500FF 3 0xFFF80 .readWrite .none false) }
    ports := card.ports.set 3 { Port.atPowerOn with state := .offline } }

/-- The decode of the examples gives this window, port, target and width. -/
def routes (o : Origin) (op : Op) (a : Word) (window : Fin 32) (port : PortNo) (target : Word)
    (width : Width) : Bool :=
  match decodeExample.decodeAddress o op a with
  | .ok d => decide (d.window = window ∧ d.port = port ∧ d.target = target ∧ d.width = width ∧
      d.generation = 7)
  | .error _ => false

/-- The decode of the examples ends with this status and detail. -/
def ends (o : Origin) (op : Op) (a : Word) (status : Status) (detail : Option Detail) : Bool :=
  match decodeExample.decodeAddress o op a with
  | .ok _ => false
  | .error x => decide (x.1 = status ∧ x.2 = detail)

theorem test_decode_examples_routed :
    routes .p .read 0x00080100 0 0 0x00080100 .four ∧ routes .p .write 0x00081000 1 0 0x00081000 .four ∧
    routes (.b 7) .read 0x00010040 1 0 0x00010040 .four ∧
    routes .p .write 0x40001FF0 2 2 0x00001FF0 .two ∧
    routes (.m 1) .read 0x40000000 2 2 0 .two := by decide

theorem test_decode_examples_ended :
    ends .p .write 0x00080100 .denied (some 0) ∧ ends (.b 7) .write 0x00010040 .denied (some 1) ∧
    ends .p .read 0x500A0010 .noTarget (some 4) ∧ ends .p .read 0x60000000 .unmapped none := by decide

theorem test_target_address_wraps :
    (window 0x50000 0x500FF 3 0xFFF80 .readWrite .none false).targetAddress 0x500A0010 =
      0x00020010 ∧
    (window 0x00400 0x00400 0 0x80000 .readWrite .none false).targetAddress 0x00400A40 =
      0x80000A40 := by decide

theorem test_piece_plan_examples :
    piecePlan 0x1001 7 .four = [(0, 1), (1, 2), (3, 4)] ∧
    piecePlan 0x1000 3 .four = [(0, 2), (2, 1)] ∧ piecePlan 0x1003 5 .four = [(0, 1), (1, 4)] ∧
    piecePlan 0x1002 6 .four = [(0, 2), (2, 4)] ∧
    piecePlan 0x1000 16 .four = [(0, 4), (4, 4), (8, 4), (12, 4)] ∧
    (piecePlan 0x1030 16 .two).map Prod.snd = List.replicate 8 2 ∧
    piecePlan 0x1006 7 .two = [(0, 2), (2, 2), (4, 2), (6, 1)] ∧
    (piecePlan 0x1000 64 .one).map Prod.snd = List.replicate 64 1 := by decide

/-! ## Small steps: one effect of each command on the states above -/

/-- What f reads in the state after command c at s. -/
def see {α : Type} (c : Instr) (s : State) (f : State → α) : Option α :=
  (after (step { s with pending := [c] })).map f

/-- The statuses and data of the responses that have left on the P link. -/
def answers (s : State) : List (Status × Option (List Byte)) :=
  s.pSent.filterMap fun m =>
    match m with
    | .response r => some (r.status, r.data)
    | .notice _ => none

/-- The state of an entry. -/
def stateOf (i : EntryNo) (s : State) : Option EntryState := s.entries[i].map fun e => e.state

theorem test_reset_words :
    State.reset.readObject .identity0 = some 0x10F32416 ∧
    State.reset.readObject (.portConfig 1 0) = some 0x8314 ∧
    State.reset.readObject (.portConfig 0 0) = some 0x8311 ∧
    State.reset.readObject .timers = some 0x1432 := by decide

/-- The bytes of a PIECE, an ASK, a notice and a response, and of a RECORD answer (9.5). -/
theorem test_received_words :
    wordAt [0x10, 0x32, 0x54, 0x76, 0x98] 1 = 0x98765432#32 ∧
    (mgmtWrite .p 0x84 0x12345678).word = 0x12345678#32 ∧
    begins (mgmtWrite .p 0x84 0x12345678).buffer (wordBytes 0x12345678) ∧
    (Descriptor.ofBytes (wordBytes 0x100 ++ wordBytes 0x200 ++ wordBytes 0x00960003 ++
      wordBytes 0x40)).unit = .four := by
  refine ⟨by decide, by decide, ?_, by decide⟩
  unfold begins
  decide

theorem test_sent_layouts :
    TMessage.encode (.piece 3 2 true 0x40010 4 [1, 2, 3, 4]) =
      [0x03, 0x02, 0x05, 0x10, 0x10, 0x00, 0x04, 0x00, 1, 2, 3, 4] ∧
    TMessage.encode (.ask 9) = [0x00, 0x09, 0x00, 0x20] ∧
    PMessage.encode (.notice 5) = [0x05, 0x00, 0x00, 0x30] ∧
    PMessage.encode (.response
        { tag := 2, status := .denied, data := none, faultAddress := some 0x10, detail := some 7 }) =
      [0x42, 0x03, 0x07, 0x20, 0x10, 0x00, 0x00, 0x00] ∧
    BMessage.encode (.response 7 5 0x1203
        { tag := 2, status := .denied, data := none, faultAddress := none, detail := none }) =
      [0x42, 0x00, 0x00, 0x20, 0x57, 0x00, 0x03, 0x12] ∧
    BMessage.encode (.request { request .data .writeRelease 3 0x10 1 [0xAB] with source := 5 }) =
      [0x32, 0x1C, 0x50, 0x10, 0x10, 0x00, 0x00, 0x00, 0x21, 0x00, 0x00, 0x00, 0xAB] ∧
    Answer.bytes (.record lost) 3 true =
      [0x61, 0x03, 0xFF, 0x00, 0x03, 0x01, 0, 0, 0, 0, 0, 0, 0, 0, 0, 0] := by decide

theorem test_request_on_p_link :
    see (.requestOnPLink (readP.encode .p)) card
      (fun s => (s.order, stateOf 0 s, s.pSent)) = some ([0], some .waiting, []) ∧
    see (.requestOnPLink ({ readP with address := 0x60000000 }.encode .p)) card
      (fun s => (s.order, answers s)) = some ([], [(.unmapped, none)]) := by decide

theorem test_request_on_b_link :
    see (.requestOnBLink (readB.encode .b)) card (stateOf 0) = some (some .waiting) ∧
    see (.requestOnBLink ({ readB with space := some .mgmt }.encode .b)) card
      (fun s => (s.order, s.bSent)) = some ([], [.response 7 5 0x21
        { tag := 2, status := .denied, data := none, faultAddress := none, detail := none }]) := by
  decide

theorem test_b_link_response :
    see (.bLinkResponse (reply 512 .ok (some [1, 2, 3, 4]))) away (fun s => (s.order, answers s)) =
      some ([], [(.ok, some [1, 2, 3, 4])]) ∧
    see (.bLinkResponse (reply 513 .ok (some [1, 2, 3, 4]))) away id = some away := by decide

theorem test_remote_response_timer_expiry :
    see (.remoteResponseTimerExpiry 2) away answers = some [(.noAnswer, none)] := by decide

theorem test_grant :
    see (.grant 0) (put card [(0, waiting)]) (fun s => (stateOf 0 s, s.tSent[(0 : PortNo)])) =
      some (some .issued, [.piece 0 1 false 0x10 4 []]) ∧
    see (.grant 1) (put card [(0, waiting)]) id = some (put card [(0, waiting)]) := by decide

theorem test_done :
    see (.targetDone 0 (answer 8 [1, 2, 3, 4])) (out issued) (fun s => (s.order, answers s)) =
      some ([], [(.ok, some [1, 2, 3, 4])]) ∧
    see (.targetDone 0 (answer 8 [1, 2, 3, 4])) (out { issued with length := 8, piecesTotal := 2 })
      (stateOf 3) = some (some .waiting) := by decide

theorem test_defer :
    see (.targetDefer 0 (answer 9 [])) (out issued) (stateOf 3) = some (some .backoff) ∧
    see (.targetDefer 0 (answer 9 [])) (out { issued with retryCount := 8 }) answers =
      some [(.retryOut, none)] := by decide

theorem test_fault :
    see (.targetFault 0 (answer 10 [])) (out issued) answers = some [(.targetFault, none)] ∧
    see (.targetFault 0 (answer 10 [])) (out orphan) (fun s => (s.order, s.bSent)) =
      some ([], []) := by decide

theorem test_response_timer_expiry :
    see (.responseTimerExpiry 3) (out issued)
      (fun s => (answers s, s.ports[(0 : PortNo)].noAnswer)) = some ([(.noAnswer, none)], 1) := by
  decide

theorem test_retry_timer_expiry :
    see (.retryTimerExpiry 3) (out backedOff) (stateOf 3) = some (some .waiting) := by decide

theorem test_hold_timer_expiry :
    see (.holdTimerExpiry 0) (heldBy 0 (.timing 50)) (fun s => (s.note .p, s.attention.queue)) =
      some (some 0, [{ source := .port 0, kind := .holdBroken, count := 1, detail := none }]) := by
  decide

theorem test_unit_start_decision :
    see (.unitStartDecision 0) (channel running)
      (fun s => (stateOf 0 s, s.channels[(0 : ChannelNo)].units,
        s.channels[(0 : ChannelNo)].sourceCursor)) =
      some (some .waiting, [unit 0 (.reading 0)], 0x14) := by decide

theorem test_commit :
    see .commit (put (staged 0xA) [(0, mgmtWrite .p 0x80 1)])
      (fun s => s.setup.generation) = some 1 ∧
    see .commit (put (staged 0xA) [(0, mgmtWrite .p 0x80 1)])
      (fun s => s.setup.live[(3 : Fin 32)].base) = some 0x100 := by decide

theorem test_copy_back :
    see .copyBack (serving 0x80 2) (fun s => s.setup.staging[(1 : Fin 32)].toList) =
      some [0x80000100, 0x000001FF, 0x10000040, 0x0000010A] := by decide

theorem test_port_resume :
    see .portResume (put offline [(0, mgmtWrite .p 0x80 0x303)])
      (fun s => (s.ports[(3 : PortNo)].state, s.tSent[(3 : PortNo)])) =
      some (.online, [.portReset]) := by decide

theorem test_port_offline :
    see .portOffline (serving 0x80 0x304)
      (fun s => (s.ports[(3 : PortNo)].state, answers s)) = some (.offline, [(.ok, none)]) := by decide

theorem test_channel_start :
    see .channelStartLoaded (put (channel { Channel.atReset with descriptor := four })
      [(0, mgmtWrite .p 0x80 5)]) (fun s => s.channels[(0 : ChannelNo)]) = some running ∧
    see .channelStartFetch (serving 0x80 0x1005)
      (fun s => (s.channels[(0 : ChannelNo)].state, stateOf 1 s)) =
      some (.fetching, some .waiting) := by decide

theorem test_channel_pause_continue_stop :
    see .channelPause (put (channel running) [(0, mgmtWrite .p 0x80 6)])
      (fun s => s.channels[(0 : ChannelNo)].state) = some .paused ∧
    see .channelContinue (put (channel { running with state := .paused })
      [(0, mgmtWrite .p 0x80 7)]) (fun s => s.channels[(0 : ChannelNo)].state) = some .running ∧
    see .channelStop (put (channel running) [(0, mgmtWrite .p 0x80 8)])
      (fun s => (s.channels[(0 : ChannelNo)].state, s.channels[(0 : ChannelNo)].outcome)) =
      some (.idle, .stopped) := by decide

theorem test_card_reset_command :
    see .cardResetCommand (serving 0x80 9)
      (fun s => (s.order, s.tSent[(0 : PortNo)])) = some ([], [.portReset]) ∧
    see .cardResetCommand (serving 0x80 9) answers = some [(.ok, none)] := by decide

theorem test_word_writes :
    see .stagingWrite (serving 0x5FC 7)
      (fun s => s.setup.staging[(31 : Fin 32)][(3 : Fin 4)]) = some 7 ∧
    see .loadedDescriptorWrite (serving 0x238 0x00830002)
      (fun s => (s.channels[(3 : ChannelNo)].descriptor.count,
        s.channels[(3 : ChannelNo)].descriptor.unit, s.channels[(3 : ChannelNo)].descriptor.notify)) =
      some (2, .sixteen, true) ∧
    see .portConfigurationWrite (serving 0x130 0xF742)
      (fun s => s.setup.portConfig[(3 : PortNo)].word 0) = some 0xF742 := by decide

theorem test_setting_writes :
    see .settingWrite (serving 0x44 0xFFFF) (fun s => s.setup.settings.nodeMask) = some 0xFFFE ∧
    see .remoteManagementWrite (serving 0x40 1) (fun s => s.setup.settings.remoteManagement) =
      some true ∧
    see .attentionEnablesWrite (serving 0x50 0x000F0001)
      (fun s => (s.setup.settings.portEnables, s.setup.settings.kindEnables)) = some (15, 1) ∧
    see .commandArgumentWrite (serving 0x84 0x40) (fun s => s.setup.settings.argument) = some 0x40 ∧
    see .mgmtWrite (serving 0x600 1) answers = some [(.denied, none)] := by decide

theorem test_code_and_pass :
    see (.targetCode 1 (wordBytes 0xB0010900)) walking answers =
      some [(.ok, some (Answer.bytes (.portCode 1 1) 0 false))] ∧
    see (.targetPass 1 (wordBytes 0xC0000900)) walking answers =
      some [(.ok, some (Answer.bytes .empty 0 false))] ∧
    see .askTimerExpiry walking answers =
      some [(.ok, some (Answer.bytes .empty 0 false))] := by decide

theorem test_target_attention_line_change :
    see (.targetAttentionLineChange 3 true) { called with
      lines := card.lines, attention := card.attention } (fun s => s.pSent) =
      some [.notice 0] := by decide

theorem test_guard :
    see .palertAssert (put card [(0, guardedWrite)]) (fun s => (s.guard, s.order, s.bSent)) =
      some (.guarded, [], [.response 7 5 9
        { tag := 1, status := .guarded, data := none, faultAddress := some 0x100010,
          detail := none }]) ∧
    see .palertDeassert { card with guard := .guarded } (fun s => s.guard) = some (.releasing 20) ∧
    see .holdOffTimerExpiry { card with guard := .releasing 20 } (fun s => s.guard) =
      some .opened := by decide

/-- The card, with PALERT or the B link to move once ahead of its event. -/
def ahead : State := { card with lines := { card.lines with early := [true] } }

/-- PALERT moves and a card reset is taken before the event of the line: GUARDED without GUARD_ON, and the
event then has no effect (R132). -/
theorem test_card_reset_before_palert :
    ((after (exec .palertAssert ahead)).bind fun s => (after (exec .cardReset s)).bind fun s =>
      (after (exec .palertAssert s)).map fun s => (s.guard, s.attention.queue)) =
      some (.guarded, []) := by decide

/-- What the B port produces between the fall of its link and the link-down event is discarded (R54). -/
theorem test_response_before_b_link_down :
    ((after (exec .bLinkDown (put ahead [(0, guardedWrite)]))).bind fun s =>
      (after (exec .palertAssert s)).map fun s => (s.bLinkUp, s.order, s.bSent)) =
      some (true, [], []) := by decide

/-- A walk waits at port 3, which is OFFLINE; a record has joined the queue since; a PORT RESUME of the
port, a read of the attention status and another ask wait behind it. -/
def resuming : State :=
  let s := offline.raise (.port 2) .portLost none
  put { s with
      attention := { s.attention with
        walk := some { ask := 0, port := 3, number := 9, timer := 100 } } }
    [(0, ask), (1, mgmtWrite .p 0x80 0x303),
      (2, { mgmtWrite .p 0xC8 0 with op := .read, tag := some 3 }), (3, { ask with tag := some 4 })]

/-- The resume ends the walk; the ask that waits takes the record in its event (R143), and the read, the
next event (R150), finds the queue empty. -/
theorem test_read_after_ask :
    (see .portResume resuming fun s => (answers s).map Prod.fst) = some [.ok, .ok, .ok, .ok] ∧
    (see .portResume resuming fun s => ((answers s).map Prod.snd)[2]?) =
      some (some (some [0, 0, 0, 0])) := by decide

theorem test_target_links :
    see (.tLinkUp 2) State.reset (fun s => s.ports[(2 : PortNo)].state) = some .online ∧
    see (.tLinkDown 0) (put card [(0, waiting)])
      (fun s => (s.ports[(0 : PortNo)].state, answers s)) =
      some (.absent, [(.noTarget, none)]) := by decide

theorem test_backplane_links :
    see .bLinkUp { card with bLinkUp := false } (fun s => (s.bLinkUp, s.attention.queue.length)) =
      some (true, 1) ∧
    see .bLinkDown busy (fun s => (s.bLinkUp, s.order, stateOf 0 s)) =
      some (false, [0, 1, 4], some .orphaned) ∧
    see .bLinkDown busy answers = some [(.linkDown, none)] := by decide

theorem test_card_reset :
    see .cardReset (put card [(0, guardedWrite)]) (fun s => (s.lines.crst, s.order, s.bSent)) =
      some (true, [], [.response 7 5 9
        { tag := 1, status := .aborted, data := none, faultAddress := none, detail := none }]) ∧
    see .crstRelease { card with lines := { card.lines with crst := true } } id = some card := by
  decide

theorem test_power_on_reset :
    see (.powerOnReset 5 1 2) card (fun s => (s.setup.straps.slot, s.setup.live[(0 : Fin 32)].port,
      s.lines.porst)) = some (5, 1, true) ∧
    see .porstRelease held (fun s => (s.lines.porst, s.bLinkUp)) = some (false, true) := by decide

theorem test_p_link :
    see .pLinkDown card (fun s => s.lines.pLink) = some false ∧
    see .pLinkUp { card with lines := { card.lines with pLink := false } } id = some card := by decide

end Sys2Proof.Tests
end

section
/-!
PROOFS. Between two events the bridge need not be at rest when the step began in a state whose walk names
an entry that is no ask: the hypotheses of StepLeavesTheBridgeAtRest leave it free what the ask of a walk is.
-/

namespace Sys2Proof.Machine

/-- A P READ of 4 bytes that waits at port 0. -/
def readAtPort0 : Entry :=
  { state := .waiting, origin := .p, tag := some 1, returnStamp := none, node := some 0
    space := .data, op := .read, address := 0, length := 4, route := some (.port 0)
    decode := some { window := 0, generation := 0, port := 0, target := 0, guarded := false,
                     width := .four }
    piecesTotal := 1, nextPiece := 0, retryCount := 0, skipCount := 0, timer := none
    buffer := Vector.replicate 64 0, finalStatus := none, faultAddress := none, detail := none }

/-- A CARD RESET command of the processor that has ended OK and waits for its turn to leave (R64). -/
def endedCardReset : Entry :=
  { readAtPort0 with
    state := .complete, tag := some 2, space := .mgmt, op := .write, address := 0x080
    route := some .mgmt, decode := none, piecesTotal := 0
    buffer := (Vector.replicate 64 0).set 0 9, finalStatus := some .ok }

/-- The read is older than the ended CARD RESET command, and the walk in progress, with its ASK out at
port 0, names the CARD RESET command as its ask. The target link of port 0 is about to go down. -/
def strayWalk : State :=
  { State.reset with
    ports := Vector.replicate 4 { Port.atPowerOn with state := .online }
    entries := (State.reset.entries.set 0 (some readAtPort0)).set 1 (some endedCardReset)
    order := [0, 1]
    attention := { Attention.atPowerOn with
      walk := some { ask := 1, port := 0, number := 1, timer := 100 } }
    pending := [.tLinkDown 0] }

theorem strayWalk_entry {i : EntryNo} {e : Entry} (h : strayWalk.entries[i] = some e) :
    i = 0 ∧ e = readAtPort0 ∨ i = 1 ∧ e = endedCardReset := by
  by_cases h0 : i = 0
  · subst h0; exact .inl ⟨rfl, (Option.some.inj h).symm⟩
  by_cases h1 : i = 1
  · subst h1; exact .inr ⟨rfl, (Option.some.inj h).symm⟩
  · have free : ∀ i : EntryNo, i ≠ 0 → i ≠ 1 → strayWalk.entries[i] = none := by decide
    rw [free i h0 h1] at h
    cases h

theorem strayWalk_tableOk : strayWalk.TableOk := by unfold State.TableOk; decide

theorem strayWalk_tagsOk : strayWalk.TagsOk := by
  intro i j e f he hf hij _ _ _ _
  obtain ⟨rfl, rfl⟩ | ⟨rfl, rfl⟩ := strayWalk_entry he <;>
    obtain ⟨rfl, rfl⟩ | ⟨rfl, rfl⟩ := strayWalk_entry hf
  · exact absurd rfl hij
  · decide
  · decide
  · exact absurd rfl hij

theorem strayWalk_entriesOk : strayWalk.EntriesOk := by
  intro i e he
  obtain ⟨_, rfl⟩ | ⟨_, rfl⟩ := strayWalk_entry he
  · exact
      { serving := by decide, forwarded := by decide, remote := by decide, complete := by decide
        orphaned := by decide, final := by decide, skip := by decide
        atPort := fun _ => ⟨_, rfl, rfl, by decide⟩ }
  · exact
      { serving := by decide, forwarded := by decide, remote := by decide, complete := by decide
        orphaned := by decide, final := by decide, skip := by decide, atPort := by decide }

theorem strayWalk_retryOk : strayWalk.RetryOk := by
  intro i e he p _
  obtain ⟨_, rfl⟩ | ⟨_, rfl⟩ := strayWalk_entry he <;> exact Nat.zero_le _

theorem strayWalk_configOk : strayWalk.ConfigOk := by
  unfold State.ConfigOk PortConfig.Ok Settings.Ok; decide

/-- The head of the P response list is the read, which waits, so nothing is left to follow. -/
theorem strayWalk_resting : strayWalk.Resting where
  calm :=
    { guard := fun i e h =>
        (by decide : ∀ ie ∈ strayWalk.table, strayWalk.guardDue ie.1 ie.2 = false) (i, e) h
      reads := fun i e rest h => by
        rw [(by decide : strayWalk.mgmtQueue = [])] at h; cases h
      asks := .inl rfl
      reset := by decide }
  head := fun x rest h => by
    rw [(by decide : strayWalk.pList = [(0, readAtPort0), (1, endedCardReset)])] at h
    cases h
    decide
  online := fun _ _ p _ _ => (by decide : ∀ p : PortNo, strayWalk.ports[p].state = .online) p
  walk := fun w _ => by
    rw [(by decide : ∀ p : PortNo, strayWalk.ports[p].state = .online) w.port]; decide
  porst := fun h => by cases h

/-- The loss of port 0 ends the read, which leaves, so the CARD RESET command is at the head; the walk
passes the port and answers the command as its ask, whose answer record overwrites the command's word.
The command is no CARD RESET command any more and stays at the head, ended. -/
theorem step_strayWalk : ∃ t, step strayWalk = .next t ∧ ∃ e, t.pList = [(1, e)] ∧
    e.state = .complete :=
  ⟨_, rfl, _, rfl, rfl⟩

/-- Refutes O60: nothing in the hypotheses says that the ask of a walk is a SERVING ask, and in
`strayWalk` it is an ended CARD RESET command. T_LINK_DOWN then leaves an ended entry at the head of the P
response list. -/
theorem not_stepLeavesTheBridgeAtRest : ¬ Obligations.StepLeavesTheBridgeAtRest := by
  intro h
  obtain ⟨t, hstep, e, hhead, hended⟩ := step_strayWalk
  have hrest : t.Resting := h strayWalk t strayWalk_tableOk (by unfold State.QuotaOk; decide)
    strayWalk_tagsOk strayWalk_configOk (by unfold State.IssuedOk; decide) strayWalk_entriesOk
    strayWalk_retryOk strayWalk_resting hstep
  exact hrest.head _ _ hhead hended

end Sys2Proof.Machine
end

section
/-!
PROOFS. The decode of an address (R26 to R31): which window matches, and the address that the target sees.
-/

namespace Sys2Proof.Machine

/-- The window holds a page when it is valid and the page lies between its base and its limit (R23). -/
theorem Window.holdsPage_iff (w : Window) (page : BitVec 20) :
    w.holdsPage page = true ↔
      w.valid = true ∧ w.base.toNat ≤ page.toNat ∧ page.toNat ≤ w.limit.toNat := by
  simp [Window.holdsPage, BitVec.le_def, and_assoc]

theorem pageOf_toNat (a : Word) : (pageOf a).toNat = a.toNat / 4096 := by
  have := a.isLt
  simp only [pageOf, BitVec.extractLsb'_toNat, Nat.shiftRight_eq_div_pow]
  omega

/-- The least index with a property is what a search over all indices finds. -/
theorem find?_finRange_eq_some {n : Nat} {p : Fin n → Bool} {i : Fin n} :
    (List.finRange n).find? p = some i ↔ p i = true ∧ ∀ j, j < i → p j = false := by
  rw [← List.ofFn_id, show some i = some (id i) from rfl,
    List.find?_ofFn_eq_some_of_injective Function.injective_id]
  simp

/-- Rights allow every operation when they are READ_WRITE and a READ when they are READ (R28). -/
theorem Rights.allow_iff (r : Rights) (op : Op) :
    r.allow op = true ↔ r = .readWrite ∨ (r = .read ∧ op = .read) := by
  cases r <;> simp [Rights.allow]

/-- The target address keeps the offset of the address in its page and moves the page by as much as the
target page is away from the base page (R30). -/
theorem Window.targetAddress_toNat (w : Window) (a : Word) (h : w.base.toNat ≤ a.toNat / 4096) :
    (w.targetAddress a).toNat % 4096 = a.toNat % 4096 ∧
    (w.targetAddress a).toNat / 4096 =
      (w.targetPage.toNat + (a.toNat / 4096 - w.base.toNat)) % 2 ^ 20 := by
  have ha := a.isLt
  have hb := w.base.isLt
  have ht := w.targetPage.isLt
  simp only [Window.targetAddress, BitVec.toNat_add, BitVec.toNat_sub, BitVec.toNat_shiftLeft,
    BitVec.toNat_setWidth, Nat.shiftLeft_eq]
  constructor <;> omega

/-- The decode of an address that a window holds looks at the lowest such window alone, its rights before
the state of its port (R27 to R31). -/
theorem State.decodeAddress_window (s : State) (o : Origin) (op : Op) {a : Word} {i : Fin 32}
    (hw : s.matchingWindow a = some i) :
    s.decodeAddress o op a =
      if ¬ (s.setup.live[i].rightsFor o).allow op = true then .error (.denied, some (Detail.index i))
      else if s.ports[s.setup.live[i].port].state ≠ .online then
        .error (.noTarget, some (Detail.index i))
      else .ok
        { window := i, generation := s.setup.generation, port := s.setup.live[i].port
          target := s.setup.live[i].targetAddress a, guarded := s.setup.live[i].guarded
          width := s.setup.portConfig[s.setup.live[i].port].width } := by
  simp only [State.decodeAddress, hw, Bool.not_eq_true', Bool.not_eq_true]

/-- Settles O14: `matchingWindow` finds the lowest window that holds the page, and the checks and the
record of the decode are those of that window. -/
theorem decodeChecksTheLowestWindow : Obligations.DecodeChecksTheLowestWindow := by
  intro s o op a page holds
  have hholds (i : Fin 32) : s.setup.live[i].holdsPage (pageOf a) = true ↔ holds i := by
    rw [Window.holdsPage_iff, pageOf_toNat]
  refine ⟨fun hnone => ?_, fun i hi hlow => ?_⟩
  · have hm : s.matchingWindow a = none :=
      List.find?_eq_none.2 fun i _ h => hnone i ((hholds i).1 h)
    simp only [State.decodeAddress, hm]
  · have hm : s.matchingWindow a = some i :=
      find?_finRange_eq_some.2 ⟨(hholds i).2 hi, fun j hj => by
        rw [← Bool.not_eq_true, hholds]; exact hlow j hj⟩
    have hallow := (s.setup.live[i].rightsFor o).allow_iff op
    rw [s.decodeAddress_window o op hm]
    refine ⟨fun h => ?_, fun h hp => ?_, fun h hp => ?_⟩
    · rw [if_pos (mt hallow.1 h)]; rfl
    · rw [if_neg (not_not.2 (hallow.2 h)), if_pos hp]; rfl
    · rw [if_neg (not_not.2 (hallow.2 h)), if_neg (not_not.2 hp)]
      exact ⟨_, rfl, rfl, rfl, rfl, rfl, rfl, Window.targetAddress_toNat _ a hi.2.1⟩

end Sys2Proof.Machine
end

section
/-!
PROOFS. COMMIT and COPY BACK (R36 to R40): which staging words fail validation, and the copies.
-/

namespace Sys2Proof.Machine

theorem Rights.ofCode_eq_noRight_iff (c : BitVec 2) :
    Rights.ofCode c = .noRight ↔ c.toNat = 3 := by
  have hc := c.isLt
  unfold Rights.ofCode
  split <;> simp_all
  omega

/-- Validation by the bits of the words (R36, R162): the valid bit, the two pages, the two rights fields. -/
theorem Window.unsound_ofWords_iff (w : FourWords) :
    (Window.ofWords w).unsound = true ↔
      w[(0 : Fin 4)].getLsbD 31 = true ∧
        (w[(1 : Fin 4)].toNat % 2 ^ 20 < w[(0 : Fin 4)].toNat % 2 ^ 20 ∨
          w[(3 : Fin 4)].toNat % 4 = 3 ∨ w[(3 : Fin 4)].toNat / 4 % 4 = 3) := by
  simp [Window.unsound, Window.ofWords, Rights.ofCode_eq_noRight_iff, BitVec.lt_def,
    extractLsb'_eq_ofNat, or_assoc]

/-- Settles O42: a take of a COMMIT answers what `badStaging` finds, and both copies map every entry of
the table. -/
theorem commitAndCopyBackCopyTheTables : Obligations.CommitAndCopyBackCopyTheTables := by
  intro s i e bad
  have hbad (k : Fin 32) : (Window.ofWords s.setup.staging[k]).unsound = true ↔ bad k :=
    Window.unsound_ofWords_iff _
  refine ⟨fun ht hsound => ?_, fun k ht hk hlow => ?_, fun ht => ?_⟩
  · have hnone : s.badStaging = none :=
      List.find?_eq_none.2 fun k _ h => hsound k ((hbad k).1 h)
    refine (ht.takeWrite serveCommit).trans ?_
    simp only [serveCommit, hnone, State.commitTables, mapCells_eq_map]
  · have hsome : s.badStaging = some k :=
      find?_finRange_eq_some.2 ⟨(hbad k).2 hk, fun j hj => by
        rw [← Bool.not_eq_true, hbad]; exact hlow j hj⟩
    refine (ht.takeWrite serveCommit).trans ?_
    simp only [serveCommit, hsome]
    rfl
  · refine (ht.takeWrite serveCopyBack).trans ?_
    simp only [serveCopyBack, State.copyBackTables, mapCells_eq_map]

end Sys2Proof.Machine
end

section
/-!
PROOFS. The management map as a table of byte offsets (section 9.5), which `objectAt` reads backwards.
-/

namespace Sys2Proof.Machine

/-- The byte offset at which an object stands (9.5). -/
def MgmtObject.offset : MgmtObject → Nat
  | .identity0 => 0x000 | .identity1 => 0x004 | .backplane => 0x010
  | .remoteManagement => 0x040 | .nodeMask => 0x044 | .timers => 0x048 | .remoteLimit => 0x04C
  | .attentionEnables => 0x050 | .command => 0x080 | .argument => 0x084
  | .generation => 0x0C0 | .occupancy => 0x0C4 | .attentionStatus => 0x0C8 | .guardState => 0x0CC
  | .portConfig n k => 0x100 + 16 * n.val + 4 * k.val
  | .portStatus n k => 0x140 + 8 * n.val + 4 * k.val
  | .descriptor n k => 0x200 + 16 * n.val + 4 * k.val
  | .channelStatus n k => 0x240 + 16 * n.val + 4 * k.val
  | .staging i k => 0x400 + 16 * i.val + 4 * k.val
  | .live i k => 0x600 + 16 * i.val + 4 * k.val

/-- Each object is found at its offset. -/
theorem objectAt_offset (o : MgmtObject) : objectAt o.offset = some o := by
  cases o with
  | portConfig p k => revert p k; decide
  | portStatus p k => revert p k; decide
  | descriptor c k => revert c k; decide
  | channelStatus c k => revert c k; decide
  | staging i k => revert i k; decide
  | live i k => revert i k; decide
  | _ => rfl

/-- One row of the map: the object found is the row's, at the row's offsets, or that of a later row. -/
theorem found_in_row {c : Prop} [Decidable c] {x o : MgmtObject} {later : Option MgmtObject}
    (h : (if c then some x else later) = some o) : (c ∧ o = x) ∨ later = some o := by
  by_cases hc : c
  · rw [if_pos hc] at h; exact .inl ⟨hc, (Option.some.inj h).symm⟩
  · rw [if_neg hc] at h; exact .inr h

/-- What is found at an offset stands there. -/
theorem offset_of_objectAt {a : Nat} {o : MgmtObject} (h : objectAt a = some o) : a = o.offset := by
  unfold objectAt at h
  by_cases h4 : a % 4 = 0
  case neg => rw [if_pos h4] at h; cases h
  rw [if_neg (not_not.2 h4)] at h
  iterate 14
    obtain ⟨rfl, rfl⟩ | h := found_in_row h
    · rfl
  by_cases hp : 0x100 ≤ a ∧ a < 0x140
  · rw [if_pos hp] at h
    by_cases hk : (a - 0x100) / 4 % 4 < 3
    · rw [dif_pos hk] at h
      cases h
      simp only [MgmtObject.offset, Fin.val_ofNat]
      omega
    · rw [dif_neg hk] at h; cases h
  rw [if_neg hp] at h
  iterate 5
    obtain ⟨hc, rfl⟩ | h := found_in_row h
    · simp only [MgmtObject.offset, rowWord, Fin.val_ofNat]
      omega
  cases h

/-- The map assigns an object to its offset and to no other. -/
theorem objectAt_eq_some_iff {a : Nat} {o : MgmtObject} : objectAt a = some o ↔ a = o.offset :=
  ⟨offset_of_objectAt, fun h => h ▸ objectAt_offset o⟩

end Sys2Proof.Machine
end

section
/-!
PROOFS. What writes to staging words, loaded descriptor words and port configuration words store (R24, R69,
R109, R162 to R164).
-/

namespace Sys2Proof.Machine

/-! ## Loaded descriptor words -/

theorem ofNat_mod_two_pow (n k : Nat) : BitVec.ofNat n (k % 2 ^ n) = BitVec.ofNat n k := by
  apply BitVec.eq_of_toNat_eq
  simp

theorem UnitSize.ofCode_eq (c : BitVec 2) : UnitSize.ofCode c =
    if c.toNat = 0 then .one else if c.toNat = 1 then .two
      else if c.toNat = 2 then .four else .sixteen := by
  unfold UnitSize.ofCode
  split <;> simp_all

/-- Word 2 of a descriptor holds the count, the unit, the flags and the pace (R163). -/
theorem Descriptor.setWord_two (d : Descriptor) (w : Word) : d.setWord 2 w =
    { d with
      count := BitVec.ofNat 16 w.toNat
      unit := if w.toNat / 2 ^ 16 % 4 = 0 then .one else if w.toNat / 2 ^ 16 % 4 = 1 then .two
        else if w.toNat / 2 ^ 16 % 4 = 2 then .four else .sixteen
      sourceFixed := decide (w.toNat / 2 ^ 18 % 2 = 1)
      destinationFixed := decide (w.toNat / 2 ^ 19 % 2 = 1)
      pace := BitVec.ofNat 3 (w.toNat / 2 ^ 20), notify := decide (w.toNat / 2 ^ 23 % 2 = 1) } := by
  simp only [Descriptor.setWord, Descriptor.ofWords, UnitSize.ofCode_eq, getLsbD_eq_decide,
    extractLsb'_eq_ofNat, ofNat_mod_two_pow]
  simp

/-! ## Port configuration words -/

/-- The values of word k of a port's configuration are in range (R69, R164). -/
def PortConfig.InRange (k : Fin 3) (w : Nat) : Prop :=
  match k with
  | 0 => (w % 8 = 1 ∨ w % 8 = 2 ∨ w % 8 = 4) ∧ (1 ≤ w / 16 % 8 ∧ w / 16 % 8 ≤ 4) ∧ 1 ≤ w / 256 % 8
  | 1 => 1 ≤ w % 1024 ∧ w % 1024 ≤ 1000
  | 2 => 1 ≤ w % 256

theorem Width.ofBytes_eq_some_iff {n : Nat} {x : Width} : Width.ofBytes n = some x ↔ x.bytes = n := by
  unfold Width.ofBytes Width.bytes
  split <;> cases x <;> simp_all [eq_comm]

/-- A width is 1, 2 or 4 bytes (R67). -/
theorem Width.ofBytes_eq_none_iff {n : Nat} :
    Width.ofBytes n = none ↔ ¬ (n = 1 ∨ n = 2 ∨ n = 4) := by
  unfold Width.ofBytes
  split <;> simp_all

/-- Word 0 of a port's configuration: width, credit, offline threshold and retry limit (R164). -/
theorem PortConfig.setWord_zero (c : PortConfig) (w : Word) : c.setWord 0 w =
    (Width.ofBytes (w.toNat % 8)).bind fun width =>
      if 1 ≤ w.toNat / 16 % 8 ∧ w.toNat / 16 % 8 ≤ 4 ∧ 1 ≤ w.toNat / 256 % 8 then
        some { c with width, credit := w.toNat / 16 % 8, offlineThreshold := w.toNat / 256 % 8
                      retryLimit := w.toNat / 4096 % 16 }
      else none := by
  simp [PortConfig.setWord, BitVec.extractLsb'_toNat, Nat.shiftRight_eq_div_pow]

/-- Word 1 of a port's configuration: the response limit (R164). -/
theorem PortConfig.setWord_one (c : PortConfig) (w : Word) : c.setWord 1 w =
    if 1 ≤ w.toNat % 1024 ∧ w.toNat % 1024 ≤ 1000 then
      some { c with responseLimit := w.toNat % 1024 } else none := by
  simp [PortConfig.setWord, BitVec.extractLsb'_toNat]

/-- Word 2 of a port's configuration: the retry interval (R164). -/
theorem PortConfig.setWord_two (c : PortConfig) (w : Word) : c.setWord 2 w =
    if 1 ≤ w.toNat % 256 then some { c with retryInterval := w.toNat % 256 } else none := by
  simp [PortConfig.setWord, BitVec.extractLsb'_toNat]

/-- A word with a value out of range is not taken (R69). -/
theorem PortConfig.setWord_eq_none {c : PortConfig} {k : Fin 3} {w : Word}
    (h : ¬ PortConfig.InRange k w.toNat) : c.setWord k w = none := by
  match k with
  | 0 =>
    rw [PortConfig.setWord_zero, Option.bind_eq_none_iff]
    intro x hx
    have hwidth := Width.ofBytes_eq_some_iff.1 hx
    refine if_neg fun hr => h ⟨?_, ⟨hr.1, hr.2.1⟩, hr.2.2⟩
    rw [← hwidth]
    cases x <;> simp [Width.bytes]
  | 1 => exact (c.setWord_one w).trans (if_neg h)
  | 2 => exact (c.setWord_two w).trans (if_neg h)

/-- A word in range replaces the fields it names and no other (R69, R164). -/
theorem PortConfig.setWord_eq_some {c : PortConfig} {k : Fin 3} {w : Word}
    (h : PortConfig.InRange k w.toNat) : ∃ d, c.setWord k w = some d ∧
      (k = 0 → d.width.bytes = w.toNat % 8 ∧ d = { c with
        width := d.width, credit := w.toNat / 16 % 8, offlineThreshold := w.toNat / 256 % 8
        retryLimit := w.toNat / 4096 % 16 }) ∧
      (k = 1 → d = { c with responseLimit := w.toNat % 1024 }) ∧
      (k = 2 → d = { c with retryInterval := w.toNat % 256 }) := by
  match k with
  | 0 =>
    obtain ⟨hwidth, ⟨hlow, hhigh⟩, hthreshold⟩ := h
    obtain ⟨x, hx⟩ : ∃ x, Width.ofBytes (w.toNat % 8) = some x := by
      rw [← Option.ne_none_iff_exists', ne_eq, Width.ofBytes_eq_none_iff, not_not]
      exact hwidth
    rw [PortConfig.setWord_zero, hx, Option.bind_some, if_pos ⟨hlow, hhigh, hthreshold⟩]
    exact ⟨_, rfl, fun _ => ⟨Width.ofBytes_eq_some_iff.1 hx, rfl⟩, nofun, nofun⟩
  | 1 => exact ⟨_, (c.setWord_one w).trans (if_pos h), nofun, fun _ => rfl, nofun⟩
  | 2 => exact ⟨_, (c.setWord_two w).trans (if_pos h), nofun, nofun, fun _ => rfl⟩

/-- An entry is on the wait list of a port when its record says so. -/
theorem State.mem_waitList_keys {s : State} (T : s.TableOk) {p : PortNo} {j : EntryNo} :
    j ∈ (s.waitList p).map Prod.fst ↔ s.entries[j].any (Entry.onWaitList p) = true := by
  rw [State.waitList, s.keys_filter_table, List.mem_filter, T.2 j]
  cases s.entries[j] <;> simp

/-- A new configuration lowers the retry counts of the wait list of its port to its retry limit and
changes no other record (R69). -/
theorem State.setPortConfig_entry {s : State} (T : s.TableOk) (p : PortNo) (c : PortConfig)
    (j : EntryNo) : (s.setPortConfig p c).entries[j] = s.entries[j].map fun f =>
      if f.onWaitList p = true then { f with retryCount := min c.retryLimit f.retryCount }
      else f := by
  rw [State.setPortConfig, State.lowerRetries_entry]
  refine Option.map_congr fun f hf => ?_
  have hf : s.entries[j] = some f := hf
  exact if_congr (by rw [State.mem_waitList_keys T, hf, Option.any_some]) rfl rfl

/-! ## The three rows -/

theorem State.Takes.exec_stagingWrite {s : State} {i : EntryNo} {e : Entry}
    (h : s.Takes .stagingWrite i e) {n : Fin 32} {k : Fin 4}
    (ha : objectAt e.address.toNat = some (.staging n k)) :
    exec .stagingWrite s = .next (State.answered { s with setup := { s.setup with
      staging := s.setup.staging.set n (s.setup.staging[n].set k e.word) } } i .ok none) := by
  refine (h.takeWrite serveStagingWrite).trans ?_
  simp only [serveStagingWrite, ha]

theorem State.Takes.exec_loadedDescriptorWrite {s : State} {i : EntryNo} {e : Entry}
    (h : s.Takes .loadedDescriptorWrite i e) {c : ChannelNo} {k : Fin 4}
    (ha : objectAt e.address.toNat = some (.descriptor c k)) :
    exec .loadedDescriptorWrite s = .next (
      if s.channels[c].state = .idle then
        (s.modChannel c fun ch => { ch with descriptor := ch.descriptor.setWord k e.word }).answered
          i .ok none
      else s.answered i .busy none) := by
  refine (h.takeWrite serveDescriptorWrite).trans ?_
  simp only [serveDescriptorWrite, ha]
  split <;> rfl

theorem State.Takes.exec_portConfigurationWrite {s : State} {i : EntryNo} {e : Entry}
    (h : s.Takes .portConfigurationWrite i e) {p : PortNo} {k : Fin 3}
    (ha : objectAt e.address.toNat = some (.portConfig p k)) :
    exec .portConfigurationWrite s = .next (
      match s.setup.portConfig[p].setWord k e.word with
      | some c => (s.setPortConfig p c).answered i .ok none
      | none => s.answered i .form none) := by
  refine (h.takeWrite servePortConfigWrite).trans ?_
  simp only [servePortConfigWrite, ha]
  cases s.setup.portConfig[p].setWord k e.word <;> rfl

/-- Settles O48: the address names the object through `objectAt_eq_some_iff`, and each row stores what its word
holds. -/
theorem wordWritesStoreTheirFields : Obligations.WordWritesStoreTheirFields := by
  intro s i e w
  refine ⟨fun n k ht ha => ?_, fun c k ht ha => ?_, fun old => ?_, fun p k ht ha => ?_⟩
  · exact ht.exec_stagingWrite (objectAt_eq_some_iff.2 ha)
  · have hexec := ht.exec_loadedDescriptorWrite (objectAt_eq_some_iff.2 ha)
    refine ⟨fun hidle => ?_, fun hbusy => ?_⟩
    · rw [hexec, if_pos hidle]; rfl
    · rw [hexec, if_neg hbusy]
  · exact ⟨rfl, rfl, old.setWord_two e.word, rfl⟩
  · have hexec := ht.exec_portConfigurationWrite (objectAt_eq_some_iff.2 ha)
    refine ⟨fun hout => ?_, fun hin => ?_⟩
    · rw [hexec, PortConfig.setWord_eq_none hout]
    · obtain ⟨c, hc, hzero, hone, htwo⟩ :=
        PortConfig.setWord_eq_some (c := s.setup.portConfig[p]) (w := e.word) hin
      obtain ⟨m, hm⟩ := s.setPortConfig_fields p c
      refine ⟨c, s.setPortConfig p c, by rw [hexec, hc], hzero, hone, htwo, ?_,
        fun T => State.setPortConfig_entry T p c⟩
      rw [hm]

end Sys2Proof.Machine
end

section
/-!
PROOFS. CARD_RESET: the ABORTED responses of the live B entries, and the state after the reset (R62, R63,
R77, R132, R149).
-/

namespace Sys2Proof.Machine

/-- The ABORTED response of an entry of the backplane that is neither ORPHANED nor ended (R63). -/
def State.abortedResponse (s : State) (e : Entry) : Option BMessage :=
  match e.origin with
  | .b source =>
    if e.state = .waiting ∨ e.state = .issued ∨ e.state = .backoff ∨ e.state = .serving then
      some (.response source s.setup.straps.slot (e.returnStamp.getD 0)
        { tag := e.tag.getD 0, status := .aborted, data := none, faultAddress := none
          detail := none })
    else none
  | .p => none
  | .m _ => none

/-- An entry that a card reset aborts is a B entry, and is answered ABORTED. -/
theorem State.abortedResponse_of_aborts (s : State) {e : Entry} (h : e.aborts = true) :
    ∃ x, e.origin = .b x ∧
      s.abortedResponse e = some (s.bResponse x (e.ended .aborted none none)) := by
  rw [Entry.aborts, Bool.and_eq_true] at h
  obtain ⟨horigin, hstate⟩ := h
  cases ho : e.origin with
  | p => simp [ho, Origin.isB] at horigin
  | m c => simp [ho, Origin.isB] at horigin
  | b x =>
    simp only [Bool.or_eq_true, decide_eq_true_eq, or_assoc] at hstate
    refine ⟨x, rfl, ?_⟩
    simp only [State.abortedResponse, ho, if_pos hstate]
    rfl

theorem State.abortedResponse_of_not_aborts (s : State) {e : Entry} (h : ¬ e.aborts = true) :
    s.abortedResponse e = none := by
  cases ho : e.origin with
  | p => simp only [State.abortedResponse, ho]
  | m c => simp only [State.abortedResponse, ho]
  | b x =>
    simp only [State.abortedResponse, ho]
    exact if_neg (by simpa [Entry.aborts, ho, Origin.isB, or_assoc] using h)

/-- The responses that a card reset sends are those of the entries it aborts, in their order. -/
theorem State.sendAborted_filter (s : State) (l : List (EntryNo × Entry)) :
    s.sendAborted (l.filter fun ie => ie.2.aborts) = { s with
      bSent := if s.lines.bLink = true then
          s.bSent ++ l.filterMap fun ie => s.abortedResponse ie.2
        else s.bSent } := by
  induction l generalizing s with
  | nil => simp [State.sendAborted]
  | cons ie l ih =>
    by_cases ha : ie.2.aborts = true
    · obtain ⟨x, ho, hr⟩ := s.abortedResponse_of_aborts ha
      simp only [List.filter_cons, if_pos ha, List.filterMap_cons, hr, State.sendAborted, ho, ih,
        State.sendB]
      split
      · rw [List.append_assoc]; rfl
      · rfl
    · simp only [List.filter_cons, if_neg ha, List.filterMap_cons,
        s.abortedResponse_of_not_aborts ha, ih]

/-- A port after a card reset: an OFFLINE port is ONLINE again, an ABSENT one stays ABSENT (R77). -/
theorem Port.atCardReset_eq (port : Port) : port.atCardReset =
    { state := if port.state = .absent then .absent else .online
      noAnswer := 0, askNumber := 0, hold := none } := by
  cases h : port.state <;> simp [Port.atCardReset, h]

theorem GuardState.atCardReset_eq (g : GuardState) (palert : Bool) (holdOff : BitVec 8) :
    g.atCardReset palert holdOff =
      if palert = true then .guarded else if g = .opened then .opened
      else .releasing holdOff.toNat := by
  cases g <;> rfl

/-- The whole state after a card reset (R62, R63, R77, R132, R149). -/
theorem State.cardReset_eq (s : State) :
    let pending := (List.finRange 4).any s.lineWants
    s.cardReset = { s with
      entries := Vector.replicate 24 none
      order := []
      ports := s.ports.map Port.atCardReset
      notes := Vector.replicate 17 none
      channels := Vector.replicate 4 Channel.atReset
      guard := s.guard.atCardReset s.lines.palert s.setup.settings.holdOff
      attention := { queue := [], overflow := false, walk := none, out := pending }
      pSent := if pending && s.lines.pLink then s.pSent ++ [.notice 0] else s.pSent
      bSent := if s.lines.bLink = true then
          s.bSent ++ s.table.filterMap fun ie => s.abortedResponse ie.2
        else s.bSent
      tSent := Vector.ofFn fun p : PortNo =>
        if s.ports[p].state = .absent then s.tSent[p] else s.tSent[p] ++ [.portReset] } := by
  have hports (p : PortNo) :
      (s.ports.map Port.atCardReset)[p].state = .absent ↔ s.ports[p].state = .absent := by
    simp [Port.atCardReset_eq]
  simp only [State.cardReset, s.sendAborted_filter s.table, State.sendPortResets, State.evalPending,
    State.pendingCondition, List.isEmpty_nil, Bool.not_true, Bool.false_or, mapCells_eq_map,
    List.length_nil, Bool.not_false, Bool.and_true, hports]
  rfl

/-- Settles O5: the fields of the state after the reset, read off `State.cardReset_eq`. -/
theorem cardResetFreesEverything : Obligations.CardResetFreesEverything := by
  intro s hporst
  refine ⟨(s.modLines fun l => { l with crst := true }).cardReset, ?_, ?_⟩
  · simp only [exec, execCardReset]
    exact if_neg (by simp [hporst])
  · rw [State.cardReset_eq]
    refine ⟨fun i => by simp, rfl, rfl, rfl, rfl, rfl, fun p => ?_, fun p => ?_, fun h => ?_,
      fun c => by simp, GuardState.atCardReset_eq _ _ _, rfl, rfl, rfl, rfl, rfl, rfl⟩
    · simp [Port.atCardReset_eq]
    · rw [Fin.getElem_fin, Vector.getElem_ofFn]; rfl
    · simp [State.note]

end Sys2Proof.Machine
end

section
/-!
PROOFS. UNIT_START_DECISION (R113): what a channel's creation answers, and the channel after the start.
-/

namespace Sys2Proof.Machine

/-- The conditions of a unit start decision, spelled out (R113). -/
theorem State.canStartUnit_iff (s : State) (c : ChannelNo) : s.canStartUnit c = true ↔
    s.channels[c].state = .running ∧ s.channels[c].started < s.channels[c].descriptor.count ∧
      s.channels[c].units.length < 2 ∧ s.ownedM c < 2 ∧
      (s.channels[c].descriptor.pacePort = none ∨ 1 ≤ s.channels[c].paceCredit) := by
  simp [State.canStartUnit, Config.quotaM, and_assoc]

/-- A creation within the quota whose address decodes is given the lowest FREE entry (R44, R50). -/
theorem State.createMove_placed {s : State} {c : ChannelNo} {op : Op} {a : Word} {i : EntryNo}
    {d : DecodeRecord} (hq : s.ownedM c < 2) (hi : s.lowestFree = some i)
    (hd : s.decodeAddress (.m c) op a = .ok d) (n : Nat) (data : List Byte) :
    s.createMove c op a n data =
      (s.give i ((s.newEntry (.m c) none none none .data op a n data).placed d), .placed i) := by
  have hq : s.ownedM c < Config.quotaM := hq
  simp only [State.createMove, if_pos hq, hi, hd]

/-- A creation within the quota whose decode fails leaves nothing behind (R50, R55). -/
theorem State.createMove_ended {s : State} {c : ChannelNo} {op : Op} {a : Word} {i : EntryNo}
    {st : Status} {detail : Option Detail} (hq : s.ownedM c < 2) (hi : s.lowestFree = some i)
    (hd : s.decodeAddress (.m c) op a = .error (st, detail)) (n : Nat) (data : List Byte) :
    s.createMove c op a n data = (s, .ended st detail) := by
  have hq : s.ownedM c < Config.quotaM := hq
  simp only [State.createMove, if_pos hq, hi, hd]

/-- The channel after a unit start, but for its unit list: units started, credit and source cursor move
(R113). -/
def Channel.afterStart (ch : Channel) : Channel :=
  { ch with
    started := ch.started + 1
    paceCredit := if ch.descriptor.pacePort = none then ch.paceCredit else ch.paceCredit - 1
    sourceCursor := nextCursor ch.sourceCursor ch.descriptor.sourceFixed ch.descriptor.unit }

/-- A unit start whose read decodes: the read waits at its port and the unit is READING (R113). -/
theorem State.startUnit_placed {s : State} {c : ChannelNo} {i : EntryNo} {d : DecodeRecord}
    (hq : s.ownedM c < 2) (hi : s.lowestFree = some i)
    (hd : s.decodeAddress (.m c) .read s.channels[c].sourceCursor = .ok d) :
    let ch := s.channels[c]
    s.startUnit c =
      { s.give i ((s.newEntry (.m c) none none none .data .read ch.sourceCursor
          ch.descriptor.unit.bytes []).placed d) with
        channels := s.channels.set c { ch.afterStart with
          units := ch.units ++ [{ number := ch.started.toNat, phase := .reading i }] } } := by
  simp only [State.startUnit, State.createMove_placed hq hi hd]
  rfl

/-- A unit start whose read its decode ends: the unit fails (R113, R123). -/
theorem State.startUnit_ended {s : State} {c : ChannelNo} {i : EntryNo} {st : Status}
    {detail : Option Detail} (hq : s.ownedM c < 2) (hi : s.lowestFree = some i)
    (hd : s.decodeAddress (.m c) .read s.channels[c].sourceCursor = .error (st, detail)) :
    let ch := s.channels[c]
    s.startUnit c = State.restChannel
      { s with
        channels := s.channels.set c { ch.afterStart with
          faultStatus := some st, faultAddress := some ch.sourceCursor, faultDetail := detail
          units := dropLater ch.units, state := .stopping .fault } } c := by
  simp only [State.startUnit, State.createMove_ended hq hi hd, State.failUnit,
    State.modChannel_modChannel]
  rfl

/-- Settles O36: the decision starts a unit when `canStartUnit` holds, with what its creation answers. -/
theorem unitStartCreatesARead : Obligations.UnitStartCreatesARead := by
  intro s c ch size started can
  have hcan : s.canStartUnit c = true ↔ can := s.canStartUnit_iff c
  have hstart (hp : s.lines.porst = false) (h : can) :
      exec (.unitStartDecision c) s = .next (s.startUnit c).settle := by
    simp only [exec, execUnitStartDecision]
    exact if_pos ⟨by simp [hp], hcan.2 h⟩
  refine ⟨fun i d hp h hi hd => ?_, fun i st detail hp h hi hd => ?_, fun h => ?_⟩
  · have ⟨_, _, _, hq, _⟩ := h
    refine ⟨freshBuffer s.freshCount [], ?_⟩
    rw [hstart hp h, State.startUnit_placed hq hi hd]
    rfl
  · have ⟨_, _, _, hq, _⟩ := h
    rw [hstart hp h, State.startUnit_ended hq hi hd]
    rfl
  · simp only [exec, execUnitStartDecision]
    refine if_neg fun hc => ?_
    rcases h with hp | hn
    · simp [hp] at hc
    · exact hn (hcan.1 hc.2)

end Sys2Proof.Machine
end

section
/-!
PROOFS. The words that management reads return, as numbers: each field at its place (section 9.5, R162 to
R165), with the bounds that keep a count inside its field.
-/

namespace Sys2Proof.Machine

/-! ## Words made of fields -/

/-- A field above another stands at the power of two of the lower one's width. -/
theorem toNat_append_eq_add {n m : Nat} (x : BitVec n) (y : BitVec m) :
    (x ++ y).toNat = x.toNat * 2 ^ m + y.toNat := by
  rw [BitVec.toNat_append, Nat.shiftLeft_eq, mul_comm, Nat.two_pow_add_eq_or_of_lt y.isLt]

theorem eq_ofNat_of_toNat {w : Word} {n : Nat} (h : w.toNat = n) : w = BitVec.ofNat 32 n := by
  subst h; simp

/-! ## Counts inside their fields -/

theorem State.table_length_le {s : State} (T : s.TableOk) : s.table.length ≤ 24 := by
  simpa using (s.table_keys_sublist.nodup T.1).length_le_card

theorem State.earlierCount_lt {s : State} (T : s.TableOk) : s.earlierCount < 32 :=
  Nat.lt_of_le_of_lt ((List.length_filter_le _ _).trans (State.table_length_le T)) (by decide)

/-- Only B entries are ORPHANED (R46), so they are no more than the B origin owns. -/
theorem State.orphanedCount_le {s : State} (E : s.EntriesOk) :
    s.orphanedCount ≤ s.owned Origin.isB := by
  simp only [State.orphanedCount, State.owned, ← List.countP_eq_length_filter]
  refine List.countP_mono_left fun ie hie h => ?_
  obtain ⟨_, he⟩ := State.mem_table.1 hie
  exact (E ie.1 ie.2 he).orphaned (of_decide_eq_true h)

/-! ## The words -/

theorem Settings.timersWord_toNat (t : Settings) :
    t.timersWord.toNat = t.holdLimit.toNat + 2 ^ 8 * t.holdOff.toNat := by
  simp only [Settings.timersWord, toNat_append_eq_add, BitVec.toNat_ofNat]
  omega

theorem Settings.enablesWord_toNat (t : Settings) :
    t.enablesWord.toNat = t.kindEnables.toNat + 2 ^ 16 * t.portEnables.toNat := by
  simp only [Settings.enablesWord, toNat_append_eq_add, BitVec.toNat_ofNat]
  omega

/-- The quotas keep each count of the occupancy word inside its field (R49). -/
theorem State.occupancyWord_toNat {s : State} (Q : s.QuotaOk) (E : s.EntriesOk) :
    s.occupancyWord.toNat =
      (s.owned fun o => decide (o = .p)) + 2 ^ 4 * s.owned Origin.isB + 2 ^ 8 * s.ownedM 0 +
        2 ^ 10 * s.ownedM 1 + 2 ^ 12 * s.ownedM 2 + 2 ^ 14 * s.ownedM 3 + 2 ^ 16 * s.orphanedCount +
        2 ^ 20 * s.pList.length := by
  obtain ⟨hp, hb, hm⟩ := Q
  have ho := State.orphanedCount_le E
  have hl : s.pList.length = s.owned fun o => decide (o = .p) := rfl
  have h0 := hm 0
  have h1 := hm 1
  have h2 := hm 2
  have h3 := hm 3
  simp only [State.occupancyWord, toNat_append_eq_add, BitVec.toNat_ofNat]
  omega

theorem PortConfig.word_zero_toNat {x : PortConfig} (h : x.Ok) :
    (x.word 0).toNat = x.width.bytes + 2 ^ 4 * x.credit + 2 ^ 8 * x.offlineThreshold +
      2 ^ 12 * x.retryLimit := by
  obtain ⟨⟨_, hcredit⟩, _, hretry, _, _, hoffline⟩ := h
  have hwidth : x.width.bytes ≤ 4 := by cases x.width <;> decide
  simp only [PortConfig.word, toNat_append_eq_add, BitVec.toNat_ofNat]
  omega

theorem State.portStatusWord_zero_toNat {s : State} {p : PortNo} (hi : s.issuedCount p ≤ 4)
    (hn : s.ports[p].noAnswer ≤ 7) :
    (s.portStatusWord p 0).toNat =
      s.ports[p].state.code.toNat + 2 ^ 4 * s.issuedCount p + 2 ^ 8 * s.ports[p].noAnswer := by
  simp only [State.portStatusWord, toNat_append_eq_add, BitVec.toNat_ofNat]
  omega

theorem Descriptor.word_two_toNat (d : Descriptor) :
    (d.word 2).toNat = d.count.toNat + 2 ^ 16 * d.unit.code.toNat + 2 ^ 18 * d.sourceFixed.toNat +
      2 ^ 19 * d.destinationFixed.toNat + 2 ^ 20 * d.pace.toNat + 2 ^ 23 * d.notify.toNat := by
  simp only [Descriptor.word, toNat_append_eq_add, BitVec.toNat_ofNat, BitVec.toNat_ofBool]
  omega

theorem Channel.statusWord_zero_toNat {ch : Channel} (hp : ch.paceCredit ≤ 15)
    (hu : ch.units.length ≤ 2) :
    (ch.statusWord 0).toNat = ch.state.code.toNat + 2 ^ 4 * ch.outcome.code.toNat +
      2 ^ 8 * ch.units.length + 2 ^ 12 * ch.paceCredit +
      2 ^ 16 * (ch.faultStatus.elim 15#4 Status.code).toNat +
      2 ^ 24 * (ch.faultDetail.getD 0xFF#8).toNat := by
  simp only [Channel.statusWord, toNat_append_eq_add, BitVec.toNat_ofNat]
  omega

theorem Channel.statusWord_one_toNat (ch : Channel) :
    (ch.statusWord 1).toNat = ch.remaining.toNat + 2 ^ 16 * ch.completed.toNat := by
  simp only [Channel.statusWord, toNat_append_eq_add]
  omega

theorem Window.words_toNat (w : Window) :
    w.words[(0 : Fin 4)].toNat = w.base.toNat + 2 ^ 31 * w.valid.toNat ∧
    w.words[(1 : Fin 4)].toNat = w.limit.toNat ∧
    w.words[(2 : Fin 4)].toNat = w.targetPage.toNat + 2 ^ 28 * w.port.val ∧
    w.words[(3 : Fin 4)].toNat =
      w.localRights.code.toNat + 2 ^ 2 * w.remoteRights.code.toNat + 2 ^ 8 * w.guarded.toNat := by
  refine ⟨?_, ?_, ?_, ?_⟩
  · change (BitVec.ofBool w.valid ++ 0#11 ++ w.base).toNat = _
    simp only [toNat_append_eq_add, BitVec.toNat_ofNat, BitVec.toNat_ofBool]
    omega
  · change (0#12 ++ w.limit).toNat = _
    simp only [toNat_append_eq_add, BitVec.toNat_ofNat]
    omega
  · change (0#2 ++ BitVec.ofFin (w := 2) w.port ++ 0#8 ++ w.targetPage).toNat = _
    simp only [toNat_append_eq_add, BitVec.toNat_ofNat, BitVec.toNat_ofFin]
    omega
  · change (0#23 ++ BitVec.ofBool w.guarded ++ 0#4 ++ w.remoteRights.code ++
      w.localRights.code).toNat = _
    simp only [toNat_append_eq_add, BitVec.toNat_ofNat, BitVec.toNat_ofBool]
    omega

end Sys2Proof.Machine
end

section
/-!
PROOFS. The management reads at the close of an event (R150, R151): what the end of an entry of the
management block or the attention unit leaves alone, and that the reads at the head are taken one by one.
-/

namespace Sys2Proof.Machine

/-! ## The laws of a record along a chain of acts -/

/-- Every act keeps the laws of each record (R42, R46). -/
theorem Act.entriesOk {s t : State} (h : Act s t) (E : s.EntriesOk) : t.EntriesOk := by
  cases h with
  | edit i f hf =>
    intro j e he
    rw [State.modEntry_entry] at he
    split at he
    · rename_i hij
      subst hij
      obtain ⟨x, hx, rfl⟩ := Option.map_eq_some_iff.1 he
      exact (hf x hx).ok (E i x hx)
    · exact E j e he
  | give i e _ hfresh =>
    intro j f hj
    rw [State.give_entry] at hj
    split at hj
    · cases hj; exact hfresh.ok
    · exact E j f hj
  | free i =>
    intro j f hj
    rw [State.free_entry] at hj
    split at hj
    · cases hj
    · exact E j f hj
  | cardReset =>
    intro j f hj
    rw [State.cardReset_entries] at hj
    simp at hj
  | _ => exact E

theorem Acts.entriesOk {s t : State} (h : Acts s t) (E : s.EntriesOk) : t.EntriesOk := by
  induction h with
  | refl => exact E
  | tail _ h ih => exact h.entriesOk ih

/-! ## The entries of a kind after an update -/

/-- The entries of a kind, oldest first. -/
def State.kind (s : State) (q : Entry → Bool) : List (EntryNo × Entry) := s.table.filter fun ie => q ie.2

def Entry.onMgmtQueue (e : Entry) : Bool :=
  decide (e.route = some .mgmt) && decide (e.state = .serving)

def Entry.isAsk (e : Entry) : Bool := decide (e.route = some .attn) && decide (e.state = .serving)

theorem State.mgmtQueue_eq (s : State) : s.mgmtQueue = s.kind Entry.onMgmtQueue := rfl

theorem State.asks_eq (s : State) : s.asks = s.kind Entry.isAsk := rfl

theorem State.pList_eq (s : State) : s.pList = s.kind fun e => decide (e.origin = .p) := rfl

/-- The entries of a list but for entry i. -/
def without (i : EntryNo) (l : List (EntryNo × Entry)) : List (EntryNo × Entry) :=
  l.filter fun ie => decide (ie.1 ≠ i)

theorem without_cons_self (i : EntryNo) (e : Entry) (l : List (EntryNo × Entry)) :
    without i ((i, e) :: l) = without i l := by simp [without]

/-- An entry that is not of the kind is not among its entries. -/
theorem State.without_kind {s : State} {i : EntryNo} {q : Entry → Bool}
    (h : ∀ e, s.entries[i] = some e → q e = false) : without i (s.kind q) = s.kind q := by
  refine List.filter_eq_self.2 fun ie hie => ?_
  obtain ⟨htable, hq⟩ := List.mem_filter.1 hie
  obtain ⟨_, he⟩ := State.mem_table.1 htable
  refine decide_eq_true fun hi => ?_
  rw [h ie.2 (hi ▸ he)] at hq
  cases hq

theorem State.kind_free (s : State) (i : EntryNo) (q : Entry → Bool) :
    (s.free i).kind q = without i (s.kind q) := by
  rw [State.kind, State.table_free, List.filter_comm]
  rfl

/-- A change of entry i changes no other entry of a kind. -/
theorem State.without_kind_modEntry (s : State) (i : EntryNo) (f : Entry → Entry)
    (q : Entry → Bool) : without i ((s.modEntry i f).kind q) = without i (s.kind q) := by
  simp only [State.kind, without, List.filter_filter, State.table_modEntry]
  induction s.table with
  | nil => rfl
  | cons x l ih =>
    rw [List.map_cons, List.filter_cons, List.filter_cons, ih]
    by_cases h : i = x.1
    · simp [← h]
    · simp [h]

/-- An entry that leaves a kind is the only one that does. -/
theorem State.kind_modEntry {s : State} {i : EntryNo} {f : Entry → Entry} {q : Entry → Bool}
    (h : ∀ e, s.entries[i] = some e → q (f e) = false) :
    (s.modEntry i f).kind q = without i (s.kind q) := by
  rw [← s.without_kind_modEntry i f q, State.without_kind]
  intro e he
  rw [State.modEntry_entry, if_pos rfl] at he
  obtain ⟨x, hx, rfl⟩ := Option.map_eq_some_iff.1 he
  exact h x hx

/-- Deliveries free ended entries alone. -/
theorem State.kind_deliverUpTo {q : Entry → Bool} (hq : ∀ e, e.state = .complete → q e = false)
    (n : Nat) (s : State) : (s.deliverUpTo n).kind q = s.kind q := by
  induction n generalizing s with
  | zero => rfl
  | succ n ih =>
    rw [State.deliverUpTo]
    cases hl : s.pList with
    | nil => simp only [State.deliverHead, hl]
    | cons ie rest =>
      obtain ⟨i, e⟩ := ie
      rw [State.deliverHead_cons hl]
      by_cases hleaves : leavesAtHead (i, e) = true
      · obtain ⟨hstate, _⟩ : e.state = .complete ∧ e.isCardReset = false := by
          simpa [leavesAtHead] using hleaves
        have hmem : (i, e) ∈ s.table := List.mem_of_mem_filter (hl ▸ List.mem_cons_self)
        rw [if_pos hleaves]
        refine (ih _).trans ((State.kind_free _ _ _).trans (State.without_kind fun f hf => ?_))
        obtain ⟨_, he⟩ := State.mem_table.1 hmem
        cases he.symm.trans hf
        exact hq e hstate
      · rw [if_neg hleaves]

/-- Deliveries write the records, the arrival order and the P link. -/
theorem State.deliverUpTo_frame (n : Nat) (s : State) : ∃ entries order pSent,
    s.deliverUpTo n = { s with entries, order, pSent } := by
  induction n generalizing s with
  | zero => exact ⟨_, _, _, rfl⟩
  | succ n ih =>
    rw [State.deliverUpTo]
    cases hh : s.deliverHead with
    | none => exact ⟨_, _, _, rfl⟩
    | some t =>
      obtain ⟨x, y, z, h⟩ := ih t
      have ht : ∃ x y z, t = { s with entries := x, order := y, pSent := z } := by
        unfold State.deliverHead at hh
        split at hh
        · cases hh
        · split at hh
          · cases hh; exact ⟨_, _, _, rfl⟩
          · cases hh
      obtain ⟨x', y', z', rfl⟩ := ht
      exact ⟨x, y, z, h⟩

/-! ## The end of an entry that a block serves -/

/-- Entry i is served by the management block or the attention unit: a SERVING entry of the P or the B
origin that is routed to no port. -/
structure State.InService (s : State) (i : EntryNo) (e : Entry) : Prop where
  entry : s.entries[i] = some e
  state : e.state = .serving
  origin : e.origin.isM = false
  route : ∀ p, e.route ≠ some (.port p)

theorem State.endEntry_served {s : State} {i : EntryNo} {e : Entry} (h : s.InService i e)
    (st : Status) (a : Option Word) (d : Option Detail) :
    s.endEntry i st a d =
      match e.origin with
      | .p => (s.modEntry i fun _ => e.ended st a d).deliverP
      | .b x => (s.sendB (s.bResponse x (e.ended st a d))).free i
      | .m _ => s := by
  have hhold : s.holdAtEnd i e st = s :=
    s.holdAtEnd_unheld i e st fun p hp => absurd hp (h.route p)
  have horigin := h.origin
  have hlive : ¬ (e.state = .complete ∨ e.state = .orphaned) := by simp [h.state]
  simp only [State.endEntry, h.entry, if_neg hlive, hhold]
  cases ho : e.origin with
  | p => simp only [Entry.ended, ho]
  | b x => simp only [Entry.ended, ho]
  | m c => simp [ho, Origin.isM] at horigin

/-- The end of a served entry takes it off its kind and no other entry off a kind of live entries. -/
theorem State.kind_endEntry_served {s : State} {i : EntryNo} {e : Entry} (h : s.InService i e)
    {q : Entry → Bool} (hq : ∀ e, e.state = .complete → q e = false) (st : Status)
    (a : Option Word) (d : Option Detail) :
    (s.endEntry i st a d).kind q = without i (s.kind q) := by
  rw [State.endEntry_served h]
  have horigin := h.origin
  cases ho : e.origin with
  | p => exact (State.kind_deliverUpTo hq _ _).trans (State.kind_modEntry fun _ _ => hq _ rfl)
  | b x => exact State.kind_free _ _ _
  | m c => simp [ho, Origin.isM] at horigin

/-- The end of a served entry writes the records, the arrival order and what leaves on the links. -/
theorem State.endEntry_served_frame {s : State} {i : EntryNo} {e : Entry} (h : s.InService i e)
    (st : Status) (a : Option Word) (d : Option Detail) : ∃ entries order pSent bSent,
    s.endEntry i st a d = { s with entries, order, pSent, bSent } := by
  rw [State.endEntry_served h]
  cases ho : e.origin with
  | p =>
    obtain ⟨x, y, z, hd⟩ := State.deliverUpTo_frame 24 (s.modEntry i fun _ => e.ended st a d)
    exact ⟨x, y, z, _, hd⟩
  | b x => exact ⟨_, _, _, _, rfl⟩
  | m c => exact ⟨_, _, _, _, rfl⟩

/-! ## Guarded writes that are due -/

/-- WAITING or BACKOFF: the states that count for per-origin order (R51). -/
def Entry.queued (e : Entry) : Bool := decide (e.state = .waiting) || decide (e.state = .backoff)

/-- No guarded write is due for refusal (R133). -/
def State.Undue (s : State) : Prop := ∀ i e, (i, e) ∈ s.table → s.guardDue i e = false

theorem any_takeWhile_filter {α : Type} (stop r q : α → Bool) (l : List α)
    (h : ∀ x ∈ l, stop x = false → q x = true) :
    ((l.filter q).takeWhile stop).any r = (l.takeWhile stop).any fun x => r x && q x := by
  induction l with
  | nil => rfl
  | cons x l ih =>
    have ih := ih fun y hy => h y (List.mem_cons_of_mem _ hy)
    cases hs : stop x with
    | false => simp [h x List.mem_cons_self hs, hs]
    | true => cases hq : q x <;> simp [hq, hs, ih]

/-- Per-origin order looks at the queued entries alone (R51). -/
theorem State.blockedByOrder_eq {s : State} {i : EntryNo} {e : Entry} (he : s.entries[i] = some e)
    (hq : e.queued = true) (p : PortNo) : s.blockedByOrder p i e =
      ((s.kind Entry.queued).takeWhile fun jf => decide (jf.1 ≠ i)).any fun jf =>
        decide (jf.2.origin = e.origin) && decide (jf.2.route = some (.port p)) := by
  refine (any_takeWhile_filter _ _ _ _ fun x hx hstop => ?_).symm
  obtain ⟨_, hf⟩ := State.mem_table.1 hx
  have hxi : x.1 = i := by simpa using hstop
  cases he.symm.trans (hxi ▸ hf)
  exact hq

/-- Whether a write is due depends on the queued entries, the ports and the guard (R81, R133). -/
theorem State.Undue.congr {s t : State} (h : s.Undue) (hkind : t.kind Entry.queued = s.kind Entry.queued)
    (hports : t.ports = s.ports) (hguard : t.guard = s.guard) : t.Undue := by
  intro i e hmem
  by_cases hq : e.queued = true
  · have hmem' : (i, e) ∈ s.kind Entry.queued := hkind ▸ List.mem_filter.2 ⟨hmem, hq⟩
    have hs := List.mem_of_mem_filter hmem'
    have hdue := h i e hs
    obtain ⟨_, het⟩ := State.mem_table.1 hmem
    obtain ⟨_, hes⟩ := State.mem_table.1 hs
    simp only [State.guardDue, State.guardClosed, State.dueAt, State.heldBack,
      State.blockedByOrder_eq het hq, State.blockedByOrder_eq hes hq, hkind, hports, hguard]
      at hdue ⊢
    exact hdue
  · have hw : e.state ≠ .waiting := fun hw => hq (by simp [Entry.queued, hw])
    unfold State.guardDue State.dueAt
    cases e.route with
    | none => simp
    | some r => cases r <;> simp [hw]

/-! ## The close of an event with nothing to refuse and no ask to take -/

theorem State.refuseUpTo_of_undue {s : State} (h : s.Undue) (n : Nat) : s.refuseUpTo n = s := by
  cases n with
  | zero => rfl
  | succ n =>
    have hnone : (s.table.find? fun ie => s.guardDue ie.1 ie.2) = none :=
      List.find?_eq_none.2 fun ie hie => by simp [h ie.1 ie.2 hie]
    simp only [State.refuseUpTo, hnone, ite_self]

theorem State.takeAsksUpTo_of_none {s : State} (h : s.attention.walk.isSome = true ∨ s.asks = [])
    (n : Nat) : s.takeAsksUpTo n = s := by
  cases n with
  | zero => rfl
  | succ n =>
    rw [State.takeAsksUpTo]
    rcases h with h | h
    · exact if_pos (by simp [h])
    · simp only [h, ite_self]

theorem State.takeReadsUpTo_of_empty {s : State} (h : s.mgmtQueue = []) (n : Nat) :
    s.takeReadsUpTo n = s := by
  cases n with
  | zero => rfl
  | succ n => simp only [State.takeReadsUpTo, h, ite_self]

theorem State.takeReadsUpTo_of_resetDue {s : State} (h : s.resetDue = true) (n : Nat) :
    s.takeReadsUpTo n = s := by
  cases n with
  | zero => rfl
  | succ n => exact if_pos h

theorem State.kind_of_empty {s : State} (h : s.order = []) (q : Entry → Bool) : s.kind q = [] := by
  simp [State.kind, State.table, h]

theorem State.resetDue_of_empty {s : State} (h : s.order = []) : s.resetDue = false := by
  simp only [State.resetDue, State.pList_eq, State.kind_of_empty h]

theorem State.closeEvent_of_not_due {s : State} (h : s.resetDue = false) : s.closeEvent = s :=
  if_neg (by simp [h])

/-- A card reset at the close of an event leaves an empty table (R64). -/
theorem State.closeReset_order {s : State} (h : s.resetDue = true) : s.closeReset.order = [] := by
  cases hl : s.pList with
  | nil => simp [State.resetDue, hl] at h
  | cons ie rest =>
    simp only [State.closeReset, hl]
    exact State.cardReset_order _

/-- With no guarded write due and no ask to take, the close of an event is the management reads and a
card reset that is due (R64, R151). -/
theorem State.settle_eq_takeReads {s : State} (hdue : s.Undue)
    (hasks : s.attention.walk.isSome = true ∨ s.asks = []) :
    s.settle = s.takeReads.closeEvent := by
  have hstart : s.refuseGuarded.takeAsks = s := by
    rw [State.refuseGuarded, State.refuseUpTo_of_undue hdue, State.takeAsks,
      State.takeAsksUpTo_of_none hasks]
  rw [State.settle, hstart]
  cases hr : s.resetDue with
  | false => rw [State.closeEvent_of_not_due hr]
  | true =>
    have hclose : s.closeEvent = s.closeReset := if_pos hr
    have hempty := State.closeReset_order hr
    have hreads (t : State) (h : t.order = []) : t.takeReads = t :=
      State.takeReadsUpTo_of_empty (t.mgmtQueue_eq.trans (State.kind_of_empty h _)) 24
    rw [hclose, hreads _ hempty, State.closeEvent_of_not_due (State.resetDue_of_empty hempty),
      State.takeReads, State.takeReadsUpTo_of_resetDue hr, hclose]

/-! ## The reads at the head -/

/-- An entry of the management request queue is served by the management block (R46, R150). -/
theorem State.inService_of_mgmtQueue {s : State} (E : s.EntriesOk) {i : EntryNo} {e : Entry}
    (h : (i, e) ∈ s.mgmtQueue) : s.InService i e := by
  obtain ⟨hmem, hq⟩ := List.mem_filter.1 h
  obtain ⟨_, he⟩ := State.mem_table.1 hmem
  obtain ⟨hroute, hstate⟩ : e.route = some .mgmt ∧ e.state = .serving := by simpa using hq
  exact
    { entry := he, state := hstate, origin := (E i e he).serving hstate
      route := fun p hp => by rw [hroute] at hp; cases hp }

/-- Entry i with another buffer. -/
def State.setBuffer (s : State) (i : EntryNo) (e : Entry) (b : Vector Byte 64) : State :=
  { s with entries := s.entries.set i (some { e with buffer := b }) }

theorem State.setBuffer_eq {s : State} {i : EntryNo} {e : Entry} (he : s.entries[i] = some e)
    (f : Vector Byte 64 → Vector Byte 64) :
    (s.modEntry i fun x => { x with buffer := f x.buffer }) = s.setBuffer i e (f e.buffer) := by
  simp only [State.modEntry, he, Option.map_some, State.setBuffer]

theorem State.InService.setBuffer {s : State} {i : EntryNo} {e : Entry} (h : s.InService i e)
    (b : Vector Byte 64) : (s.setBuffer i e b).InService i { e with buffer := b } where
  entry := by simp [State.setBuffer]
  state := h.state
  origin := h.origin
  route := h.route

/-- A read that is taken ends the entry with the status of the check that fails, or OK with the word in
its buffer (R151). -/
theorem State.takeRead_eq {s : State} {i : EntryNo} {e : Entry} (he : s.entries[i] = some e) :
    s.takeRead i e =
      match s.serveRead e with
      | .error st => s.endEntry i st none none
      | .ok w => (s.setBuffer i e (placeBytes e.buffer 0 (wordBytes w))).endEntry i .ok none none := by
  unfold State.takeRead
  cases s.serveRead e with
  | error st => rfl
  | ok w => simp only [State.setBuffer_eq he fun b => placeBytes b 0 (wordBytes w)]

theorem State.setBuffer_self {s : State} {i : EntryNo} {e : Entry} (he : s.entries[i] = some e) :
    s.setBuffer i e e.buffer = s := by
  have hset : s.entries.set i (some e) = s.entries := by
    rw [← he]; exact Vector.set_getElem_self _
  simp only [State.setBuffer, hset]

theorem State.takeRead_cases {s : State} {i : EntryNo} {e : Entry} (he : s.entries[i] = some e) :
    ∃ b st, s.takeRead i e = (s.setBuffer i e b).endEntry i st none none := by
  rw [State.takeRead_eq he]
  cases s.serveRead e with
  | error st => exact ⟨e.buffer, st, by rw [State.setBuffer_self he]⟩
  | ok w => exact ⟨_, _, rfl⟩

/-- A read that is taken takes its entry off its kind and no other entry off a kind of live entries. -/
theorem State.kind_takeRead {s : State} {i : EntryNo} {e : Entry} (h : s.InService i e)
    {q : Entry → Bool} (hq : ∀ e, e.state = .complete → q e = false) :
    (s.takeRead i e).kind q = without i (s.kind q) := by
  obtain ⟨b, st, hread⟩ := State.takeRead_cases h.entry
  rw [hread, State.kind_endEntry_served (h.setBuffer b) hq,
    ← State.setBuffer_eq h.entry fun _ => b, State.without_kind_modEntry]

theorem State.takeRead_frame {s : State} {i : EntryNo} {e : Entry} (h : s.InService i e) :
    ∃ entries order pSent bSent, s.takeRead i e = { s with entries, order, pSent, bSent } := by
  obtain ⟨b, st, hread⟩ := State.takeRead_cases h.entry
  obtain ⟨x, y, z, w, hend⟩ := State.endEntry_served_frame (h.setBuffer b) st none none
  exact ⟨x, y, z, w, hread.trans hend⟩

theorem Entry.onMgmtQueue_of_complete (e : Entry) (h : e.state = .complete) :
    e.onMgmtQueue = false := by simp [Entry.onMgmtQueue, h]

/-- The next read or write is at the head once the read before it has been taken (R150). -/
theorem State.mgmtQueue_takeRead {s : State} (E : s.EntriesOk) {i : EntryNo} {e : Entry}
    {rest : List (EntryNo × Entry)} (hl : s.mgmtQueue = (i, e) :: rest) :
    (s.takeRead i e).mgmtQueue.length ≤ rest.length := by
  have hserved := State.inService_of_mgmtQueue E (hl ▸ List.mem_cons_self)
  rw [State.mgmtQueue_eq, State.kind_takeRead hserved Entry.onMgmtQueue_of_complete,
    ← State.mgmtQueue_eq, hl, without_cons_self]
  exact List.length_filter_le _ _

theorem State.takeReadsUpTo_cons {s : State} (hr : s.resetDue = false) {i : EntryNo} {e : Entry}
    {rest : List (EntryNo × Entry)} (hl : s.mgmtQueue = (i, e) :: rest) (n : Nat) :
    s.takeReadsUpTo (n + 1) = if e.op = .read then (s.takeRead i e).takeReadsUpTo n else s := by
  simp [State.takeReadsUpTo, hr, hl]

/-- As many takes as the queue is long are enough. -/
theorem State.takeReadsUpTo_succ (n : Nat) {s : State} (E : s.EntriesOk)
    (h : s.mgmtQueue.length ≤ n) : s.takeReadsUpTo (n + 1) = s.takeReadsUpTo n := by
  induction n generalizing s with
  | zero => exact State.takeReadsUpTo_of_empty (List.length_eq_zero_iff.1 (Nat.le_zero.1 h)) 1
  | succ n ih =>
    cases hr : s.resetDue with
    | true => rw [State.takeReadsUpTo_of_resetDue hr, State.takeReadsUpTo_of_resetDue hr]
    | false =>
      cases hl : s.mgmtQueue with
      | nil => rw [State.takeReadsUpTo_of_empty hl, State.takeReadsUpTo_of_empty hl]
      | cons ie rest =>
        obtain ⟨i, e⟩ := ie
        rw [State.takeReadsUpTo_cons hr hl, State.takeReadsUpTo_cons hr hl]
        refine if_congr Iff.rfl (ih ((s.takeRead_acts i e).entriesOk E) ?_) rfl
        have hlength := State.mgmtQueue_takeRead E hl
        rw [hl, List.length_cons] at h
        omega

/-- A read at the head is taken and ended, and the event closes from there (R150, R151). -/
theorem State.settle_takeRead {s : State} (T : s.TableOk) (E : s.EntriesOk)
    (hr : s.resetDue = false) (hdue : s.Undue)
    (hasks : s.attention.walk.isSome = true ∨ s.asks = []) {i : EntryNo} {e : Entry}
    {rest : List (EntryNo × Entry)} (hl : s.mgmtQueue = (i, e) :: rest) (hop : e.op = .read) :
    s.settle = (s.takeRead i e).settle := by
  have hserved := State.inService_of_mgmtQueue E (hl ▸ List.mem_cons_self)
  obtain ⟨_, _, _, _, hframe⟩ := State.takeRead_frame hserved
  have hdue' : (s.takeRead i e).Undue := by
    refine hdue.congr ?_ (by rw [hframe]) (by rw [hframe])
    rw [State.kind_takeRead hserved fun f hf => by simp [Entry.queued, hf]]
    refine State.without_kind fun f hf => ?_
    cases hserved.entry.symm.trans hf
    simp [Entry.queued, hserved.state]
  have hasks' : (s.takeRead i e).attention.walk.isSome = true ∨ (s.takeRead i e).asks = [] := by
    refine hasks.imp (fun h => by rw [hframe]; exact h) fun h => ?_
    rw [State.asks_eq, State.kind_takeRead hserved fun f hf => by simp [Entry.isAsk, hf],
      ← State.asks_eq, h]
    rfl
  have hlength : (s.takeRead i e).mgmtQueue.length ≤ 23 := by
    have hqueue : s.mgmtQueue.length ≤ 24 :=
      (List.length_filter_le _ _).trans (State.table_length_le T)
    have hnext := State.mgmtQueue_takeRead E hl
    rw [hl, List.length_cons] at hqueue
    omega
  calc s.settle = (s.takeReadsUpTo 24).closeEvent := State.settle_eq_takeReads hdue hasks
    _ = ((s.takeRead i e).takeReadsUpTo 23).closeEvent := by
      rw [State.takeReadsUpTo_cons hr hl, if_pos hop]
    _ = ((s.takeRead i e).takeReadsUpTo 24).closeEvent := by
      rw [State.takeReadsUpTo_succ 23 ((s.takeRead_acts i e).entriesOk E) hlength]
    _ = (s.takeRead i e).settle := (State.settle_eq_takeReads hdue' hasks').symm

end Sys2Proof.Machine
end

section
/-!
PROOFS. A management read from its acceptance to its response, in a table that is empty (R9, R10, R150, R151).
-/

namespace Sys2Proof.Machine

/-- The word of a read stands in the first bytes of the buffer (R151, R160). -/
theorem placeBytes_take (buffer : Vector Byte 64) (bytes : List Byte) (h : bytes.length ≤ 64) :
    (placeBytes buffer 0 bytes).toList.take bytes.length = bytes := by
  apply List.ext_getElem
  · simp [h]
  · intro k h1 h2
    simp [placeBytes, h2]

theorem wordBytes_length (w : Word) : (wordBytes w).length = 4 := rfl

/-! ## The word, or the check that fails -/

theorem State.remoteRefused_iff (s : State) (e : Entry) : s.remoteRefused e = true ↔
    e.origin.isB = true ∧ s.setup.settings.remoteManagement = false := by
  simp [State.remoteRefused]

/-- Every object but the command word can be read (R151). -/
theorem State.readObject_isSome (s : State) {o : MgmtObject} (h : o ≠ .command) :
    ∃ w, s.readObject o = some w := by
  cases o with
  | command => exact absurd rfl h
  | _ => exact ⟨_, rfl⟩

theorem State.serveRead_refused {s : State} {e : Entry} (h : s.remoteRefused e = true) :
    s.serveRead e = .error .denied := if_pos h

theorem State.serveRead_unmapped {s : State} {e : Entry} (h : ¬ s.remoteRefused e = true)
    (ho : objectAt e.address.toNat = none) : s.serveRead e = .error .unmapped := by
  simp only [State.serveRead, if_neg h, ho]

theorem State.serveRead_unreadable {s : State} {e : Entry} (h : ¬ s.remoteRefused e = true)
    {o : MgmtObject} (ho : objectAt e.address.toNat = some o) (hw : s.readObject o = none) :
    s.serveRead e = .error .denied := by
  simp only [State.serveRead, if_neg h, ho, hw]

theorem State.serveRead_word {s : State} {e : Entry} (h : ¬ s.remoteRefused e = true)
    {o : MgmtObject} (ho : objectAt e.address.toNat = some o) {w : Word}
    (hw : s.readObject o = some w) : s.serveRead e = .ok w := by
  simp only [State.serveRead, if_neg h, ho, hw]

/-! ## A table of one entry -/

/-- An entry given in an empty table is the whole table. -/
theorem State.kind_give_of_empty {s : State} (h : s.order = []) (i : EntryNo) (e : Entry)
    (q : Entry → Bool) : (s.give i e).kind q = if q e = true then [(i, e)] else [] := by
  have ht : s.table = [] := by simp [State.table, h]
  rw [State.kind, State.table_give (by simp [h]), ht]
  by_cases hq : q e = true <;> simp [hq]

/-- What an object reads as does not depend on a SERVING entry, but for the occupancy. -/
theorem State.readObject_give_of_empty {s : State} (h : s.order = []) (i : EntryNo) {e : Entry}
    (he : e.state = .serving) {o : MgmtObject} (ho : o ≠ .occupancy) :
    (s.give i e).readObject o = s.readObject o := by
  have hearlier : (s.give i e).earlierCount = s.earlierCount := by
    have h1 := State.kind_give_of_empty h i e (Entry.earlier s.setup.generation)
    have h2 := State.kind_of_empty h (Entry.earlier s.setup.generation)
    rw [if_neg (by simp [Entry.earlier, he])] at h1
    exact congrArg List.length (h1.trans h2.symm)
  have hissued (p : PortNo) : (s.give i e).issuedCount p = s.issuedCount p := by
    have h1 := State.kind_give_of_empty h i e (Entry.pieceOutAt p)
    have h2 := State.kind_of_empty h (Entry.pieceOutAt p)
    rw [if_neg (by simp [Entry.pieceOutAt, he])] at h1
    simp only [State.issuedCount, State.issuedSet, List.length_map]
    exact congrArg List.length (h1.trans h2.symm)
  cases o with
  | occupancy => exact absurd rfl ho
  | generation => simp only [State.readObject, hearlier, State.give_setup]
  | portStatus p k =>
    simp only [State.readObject, State.portStatusWord, hissued, State.give_ports]
  | _ => rfl

theorem State.entries_of_empty {s : State} (T : s.TableOk) (h : s.order = []) (j : EntryNo) :
    s.entries[j] = none := by
  have hj := T.2 j
  rw [h] at hj
  simpa using hj

theorem State.lowestFree_of_empty {s : State} (T : s.TableOk) (h : s.order = []) :
    s.lowestFree = some 0 :=
  find?_finRange_eq_some.2 ⟨by simpa using State.entries_of_empty T h 0, fun j hj => by simp at hj⟩

/-- The end of the only entry of the table, a P entry that leaves at once: its response is sent and the
table is empty again (R47, R53). -/
theorem State.endEntry_only {s : State} (T : s.TableOk) (h : s.order = []) {i : EntryNo} {e : Entry}
    (hstate : e.state = .serving) (horigin : e.origin = .p) (hroute : e.route = some .mgmt)
    (hop : e.op = .read) (st : Status) (a : Option Word) (d : Option Detail) :
    (s.give i e).endEntry i st a d =
      { s with
        freshCount := s.freshCount + 1
        pSent := if s.lines.pLink = true then
            s.pSent ++ [.response (e.ended st a d).response] else s.pSent } := by
  have hserved : (s.give i e).InService i e :=
    { entry := by simp, state := hstate, origin := by simp [horigin, Origin.isM]
      route := by simp [hroute] }
  rw [State.endEntry_served hserved, horigin]
  have hmod : ((s.give i e).modEntry i fun _ => e.ended st a d) = s.give i (e.ended st a d) := by
    simp [State.modEntry, State.give]
  have hlist : (s.give i (e.ended st a d)).pList = [(i, e.ended st a d)] := by
    rw [State.pList_eq, State.kind_give_of_empty h, if_pos (by simp [Entry.ended, horigin])]
  have hleaves : [(i, e.ended st a d)].takeWhile leavesAtHead = [(i, e.ended st a d)] := by
    simp [leavesAtHead, Entry.isCardReset, Entry.ended, hop]
  obtain ⟨hstates, hentries⟩ := State.deliverUpTo_spec 24 (s.give i (e.ended st a d))
    (by simp [hlist]) (by simp [h])
  rw [hlist, hleaves] at hstates hentries
  dsimp only
  rw [hmod, State.deliverP, hstates]
  have hsame : ((s.give i (e.ended st a d)).deliverUpTo 24).entries = s.entries := by
    ext1 j hj
    have hfree : s.entries[j] = none := State.entries_of_empty T h ⟨j, hj⟩
    have hentry := hentries ⟨j, hj⟩
    simp only [Fin.getElem_fin] at hentry
    rw [hentry, hfree]
    by_cases hji : (⟨j, hj⟩ : EntryNo) = i
    · exact if_pos (by simp [hji])
    · rw [if_neg (by simpa using hji)]
      exact (State.give_entry s i ⟨j, hj⟩ _).trans ((if_neg (Ne.symm hji)).trans hfree)
  simp [hsame, h]

/-! ## The whole read -/

/-- A management request that is accepted is a read or write of one word (R5). -/
theorem Request.length_of_mgmt {s : State} {l : Link} {o : Origin} {r : Request}
    (h : s.refusal l o r = none) (hs : r.space = some .mgmt) : r.length.toNat = 4 := by
  have hform : Request.formCheck l r = none := by
    unfold State.refusal at h
    split at h
    · cases h
    · assumption
  unfold Request.formCheck at hform
  by_contra hlength
  simp only [hs, hlength, false_and, and_false, not_false_eq_true, and_true, if_true] at hform
  split_ifs at hform

/-- A P management request in an empty table is given entry 0, at its block, and the event closes
(R9, R10). -/
theorem State.requestP_mgmt {s : State} (T : s.TableOk) (h : s.order = []) {r : Request}
    (hr : s.refusal .p .p r = none) (hs : r.space = some .mgmt)
    (hn : r.node = 0 ∨ r.node = s.setup.straps.slot) :
    s.requestP r = (s.give 0 { s.entryP .mgmt r with route := some .mgmt }).settle := by
  have hroute : s.routeP .mgmt r = .mgmt := by simp only [State.routeP, if_pos hn]
  simp only [State.requestP, hr, hs, State.acceptEntry, State.lowestFree_of_empty T h, hroute,
    State.holdAtDecode, State.applyRouting]
  congr 1
  cases r.op <;> simp [State.modEntry, State.give]

theorem State.give_tableOk {s : State} (T : s.TableOk) (h : s.order = []) (i : EntryNo) (e : Entry) :
    (s.give i e).TableOk := by
  refine ⟨by simp [h], fun j => ?_⟩
  rw [State.give_entry, State.entries_of_empty T h j, State.give_order, h]
  by_cases hj : i = j
  · simp [hj]
  · simp [hj, Ne.symm hj]

theorem State.give_entriesOk {s : State} (T : s.TableOk) (h : s.order = []) (i : EntryNo) {e : Entry}
    (he : e.Ok) : (s.give i e).EntriesOk := by
  intro j f hf
  rw [State.give_entry, State.entries_of_empty T h j] at hf
  split at hf
  · cases hf; exact he
  · cases hf

/-- Nothing follows an event that leaves the table empty. -/
theorem State.settle_of_empty {s : State} (h : s.order = []) : s.settle = s := by
  have hdue : s.Undue := fun i e he => by
    rw [State.mem_table, h] at he
    cases he.1
  have hqueue : s.mgmtQueue = [] := s.mgmtQueue_eq.trans (State.kind_of_empty h _)
  rw [State.settle_eq_takeReads hdue (.inr (s.asks_eq.trans (State.kind_of_empty h _))),
    State.takeReads, State.takeReadsUpTo_of_empty hqueue,
    State.closeEvent_of_not_due (State.resetDue_of_empty h)]

/-- A management read of the processor that is the only entry is taken at the close of its event: its
response carries the word, and the table is empty again (R53, R151). -/
theorem State.settle_only_read {s : State} (T : s.TableOk) (h : s.order = []) {i : EntryNo} {e : Entry}
    (he : e.Unrouted) (horigin : e.origin = .p) (hop : e.op = .read) {w : Word}
    (hread : (s.give i { e with route := some .mgmt }).serveRead { e with route := some .mgmt } =
      .ok w) :
    (s.give i { e with route := some .mgmt }).settle =
      { s with
        freshCount := s.freshCount + 1
        pSent := if s.lines.pLink = true then
            s.pSent ++ [.response { tag := e.tag.getD 0, status := .ok
                                    data := some ((placeBytes e.buffer 0 (wordBytes w)).toList.take
                                      e.length)
                                    faultAddress := none, detail := none }]
          else s.pSent } := by
  generalize hf : { e with route := some .mgmt } = f at hread ⊢
  have hstate : f.state = .serving := by rw [← hf]; exact he.state
  have hroute : f.route = some .mgmt := by rw [← hf]
  have hOk : f.Ok := by
    rw [← hf]
    exact (EntryKept.routed s he (some .mgmt)).ok he.ok
  have hqueue : (s.give i f).mgmtQueue = [(i, f)] := by
    rw [State.mgmtQueue_eq, State.kind_give_of_empty h,
      if_pos (by simp [Entry.onMgmtQueue, hstate, hroute])]
  have hasks : (s.give i f).asks = [] := by
    rw [State.asks_eq, State.kind_give_of_empty h, if_neg (by simp [Entry.isAsk, hroute])]
  have hlist : (s.give i f).pList = [(i, f)] := by
    rw [State.pList_eq, State.kind_give_of_empty h, if_pos (by simp [← hf, horigin])]
  have hreset : (s.give i f).resetDue = false := by
    simp [State.resetDue, hlist, hstate]
  have hdue : (s.give i f).Undue := by
    intro j g hg
    obtain ⟨_, hg⟩ := State.mem_table.1 hg
    rw [State.give_entry, State.entries_of_empty T h j] at hg
    split at hg
    · cases hg; simp [State.guardDue, hroute]
    · cases hg
  have hset : (s.give i f).setBuffer i f (placeBytes f.buffer 0 (wordBytes w)) =
      s.give i { f with buffer := placeBytes f.buffer 0 (wordBytes w) } := by
    simp [State.setBuffer, State.give]
  rw [State.settle_takeRead (State.give_tableOk T h i f) (State.give_entriesOk T h i hOk) hreset hdue
      (.inr hasks) hqueue (by rw [← hf]; exact hop), State.takeRead_eq (by simp), hread]
  dsimp only
  have hend := State.endEntry_only T h (i := i)
    (e := { f with buffer := placeBytes f.buffer 0 (wordBytes w) }) hstate (by simp [← hf, horigin])
    hroute (by simp [← hf, hop]) .ok none none
  rw [hset, hend, State.settle_of_empty (by exact h)]
  simp [Entry.response, Entry.ended, Entry.bytes, ← hf, hop, Op.isRead]

/-- A management read of the processor in an empty table: its response carries the word that the object
reads as before the request (R151). -/
theorem State.requestP_read {s : State} (T : s.TableOk) (h : s.order = []) {r : Request}
    (hr : s.refusal .p .p r = none) (hs : r.space = some .mgmt)
    (hn : r.node = 0 ∨ r.node = s.setup.straps.slot) (hop : r.op = .read) {o : MgmtObject}
    (ho : objectAt r.address.toNat = some o) (hocc : o ≠ .occupancy) {w : Word}
    (hw : s.readObject o = some w) :
    s.requestP r = { s with
      freshCount := s.freshCount + 1
      pSent := if s.lines.pLink = true then
          s.pSent ++ [.response { tag := r.tag, status := .ok, data := some (wordBytes w)
                                  faultAddress := none, detail := none }]
        else s.pSent } := by
  have hlength : (s.entryP .mgmt r).length = (wordBytes w).length := Request.length_of_mgmt hr hs
  have hread := (State.readObject_give_of_empty h 0
    (e := { s.entryP .mgmt r with route := some .mgmt }) rfl hocc).trans hw
  rw [State.requestP_mgmt T h hr hs hn,
    State.settle_only_read T h ⟨rfl, rfl, rfl, rfl, rfl⟩ rfl hop
      (State.serveRead_word (by rw [State.remoteRefused_iff]; rintro ⟨⟨⟩, _⟩) ho hread),
    hlength, placeBytes_take _ _ (by simp [wordBytes_length])]
  rfl

end Sys2Proof.Machine
end

section
/-!
PROOFS. Management reads (R151) as a whole: the check that fails or the word, the take of a read at the head,
the map, and what each object reads as.
-/

namespace Sys2Proof.Machine

/-! ## Codes as numbers (9.5, 9.6) -/

theorem PortState.code_toNat (x : PortState) :
    x.code.toNat = match x with | .absent => 0 | .online => 1 | .offline => 2 := by
  cases x <;> rfl

theorem UnitSize.code_toNat (x : UnitSize) :
    x.code.toNat = match x with | .one => 0 | .two => 1 | .four => 2 | .sixteen => 3 := by
  cases x <;> rfl

theorem ChannelState.code_toNat (x : ChannelState) :
    x.code.toNat = match x with
      | .idle => 0 | .fetching => 1 | .running => 2 | .pausing => 3 | .paused => 4
      | .stopping _ => 5 := by
  cases x <;> rfl

theorem RunOutcome.code_toNat (x : RunOutcome) :
    x.code.toNat = match x with | .none => 0 | .complete => 1 | .stopped => 2 | .faulted => 3 := by
  cases x <;> rfl

theorem Rights.code_toNat (x : Rights) :
    x.code.toNat = match x with | .none => 0 | .read => 1 | .readWrite => 2 | .noRight => 3 := by
  cases x <;> rfl

/-! ## What an object reads as -/

/-- The object reads as the word of this number. -/
def State.ReadsAs (s : State) (o : MgmtObject) (n : Nat) : Prop :=
  s.readObject o = some (BitVec.ofNat 32 n)

theorem State.readsAs_of_word {s : State} {o : MgmtObject} {w : Word} {n : Nat}
    (hw : s.readObject o = some w) (hn : w.toNat = n) : s.ReadsAs o n :=
  hw.trans (congrArg some (eq_ofNat_of_toNat hn))

theorem State.portStatus_readsAs {s : State} (I : s.IssuedOk) (R : s.RangesOk) (p : PortNo) :
    s.ReadsAs (.portStatus p 0) (s.ports[p].state.code.toNat +
      2 ^ 4 * (s.kind (Entry.pieceOutAt p)).length + 2 ^ 8 * s.ports[p].noAnswer) ∧
    s.ReadsAs (.portStatus p 1) (s.ports[p].hold.elim 0 fun x => x.holder.code.val) := by
  have hcount : s.issuedCount p = (s.kind (Entry.pieceOutAt p)).length := by
    simp [State.issuedCount, State.issuedSet, State.kind]
  refine ⟨?_, rfl⟩
  rw [← hcount]
  exact State.readsAs_of_word rfl (State.portStatusWord_zero_toNat (I p) (R.1 p))

theorem State.generation_readsAs {s : State} (T : s.TableOk) :
    s.ReadsAs .generation (s.setup.generation.toNat + 2 ^ 16 * s.earlierCount) := by
  have hcount := State.earlierCount_lt T
  refine State.readsAs_of_word rfl ?_
  simp only [toNat_append_eq_add, BitVec.toNat_ofNat]
  omega

theorem State.attentionStatus_readsAs {s : State} (A : s.attention.Ok) :
    s.ReadsAs .attentionStatus
      (s.attention.queue.length + 2 ^ 8 * s.attention.overflow.toNat) := by
  obtain ⟨hlength, _⟩ := A
  refine State.readsAs_of_word rfl ?_
  simp only [toNat_append_eq_add, BitVec.toNat_ofNat, BitVec.toNat_ofBool]
  omega

theorem State.identity1_readsAs (s : State) :
    s.ReadsAs .identity1 (s.setup.straps.slot.toNat + 2 ^ 4 * s.setup.straps.bootp.toNat +
      2 ^ 8 * s.setup.straps.bootw.toNat) := by
  refine State.readsAs_of_word rfl ?_
  simp only [toNat_append_eq_add, BitVec.toNat_ofNat]
  omega

theorem Channel.statusWord_readsAs {s : State} (R : s.RangesOk) (c : ChannelNo) :
    let ch := s.channels[c]
    s.ReadsAs (.channelStatus c 0) (ch.state.code.toNat + 2 ^ 4 * ch.outcome.code.toNat +
      2 ^ 8 * ch.units.length + 2 ^ 12 * ch.paceCredit +
      2 ^ 16 * (ch.faultStatus.elim 15#4 Status.code).toNat +
      2 ^ 24 * (ch.faultDetail.getD 0xFF#8).toNat) ∧
    s.ReadsAs (.channelStatus c 1) (ch.remaining.toNat + 2 ^ 16 * ch.completed.toNat) ∧
    s.ReadsAs (.channelStatus c 2) (ch.faultAddress.getD 0).toNat ∧
    s.ReadsAs (.channelStatus c 3) ch.destinationCursor.toNat :=
  ⟨State.readsAs_of_word rfl (Channel.statusWord_zero_toNat (R.2 c).1 (R.2 c).2),
    State.readsAs_of_word rfl (Channel.statusWord_one_toNat _), State.readsAs_of_word rfl rfl,
    State.readsAs_of_word rfl rfl⟩

theorem State.settings_readAs (s : State) :
    let t := s.setup.settings
    s.ReadsAs .backplane s.bLinkUp.toNat ∧ s.ReadsAs .remoteManagement t.remoteManagement.toNat ∧
    s.ReadsAs .nodeMask t.nodeMask.toNat ∧
    s.ReadsAs .timers (t.holdLimit.toNat + 2 ^ 8 * t.holdOff.toNat) ∧
    s.ReadsAs .remoteLimit t.remoteLimit.toNat ∧
    s.ReadsAs .attentionEnables (t.kindEnables.toNat + 2 ^ 16 * t.portEnables.toNat) ∧
    s.ReadsAs .argument t.argument.toNat :=
  ⟨State.readsAs_of_word rfl (by cases s.bLinkUp <;> rfl),
    State.readsAs_of_word rfl (by cases s.setup.settings.remoteManagement <;> rfl),
    State.readsAs_of_word rfl (BitVec.toNat_setWidth_of_le (by decide)),
    State.readsAs_of_word rfl s.setup.settings.timersWord_toNat,
    State.readsAs_of_word rfl (BitVec.toNat_setWidth_of_le (by decide)),
    State.readsAs_of_word rfl s.setup.settings.enablesWord_toNat, State.readsAs_of_word rfl rfl⟩

theorem State.portConfig_readsAs {s : State} (C : s.ConfigOk) (p : PortNo) :
    let x := s.setup.portConfig[p]
    s.ReadsAs (.portConfig p 0) (x.width.bytes + 2 ^ 4 * x.credit + 2 ^ 8 * x.offlineThreshold +
      2 ^ 12 * x.retryLimit) ∧
    s.ReadsAs (.portConfig p 1) x.responseLimit ∧ s.ReadsAs (.portConfig p 2) x.retryInterval :=
  ⟨State.readsAs_of_word rfl (PortConfig.word_zero_toNat (C.1 p)), rfl, rfl⟩

theorem State.descriptor_readsAs (s : State) (c : ChannelNo) :
    let d := s.channels[c].descriptor
    s.ReadsAs (.descriptor c 0) d.source.toNat ∧ s.ReadsAs (.descriptor c 1) d.destination.toNat ∧
    s.ReadsAs (.descriptor c 2) (d.count.toNat + 2 ^ 16 * d.unit.code.toNat +
      2 ^ 18 * d.sourceFixed.toNat + 2 ^ 19 * d.destinationFixed.toNat + 2 ^ 20 * d.pace.toNat +
      2 ^ 23 * d.notify.toNat) ∧
    s.ReadsAs (.descriptor c 3) d.link.toNat :=
  ⟨State.readsAs_of_word rfl rfl, State.readsAs_of_word rfl rfl,
    State.readsAs_of_word rfl s.channels[c].descriptor.word_two_toNat, State.readsAs_of_word rfl rfl⟩

theorem State.live_readsAs (s : State) (i : Fin 32) :
    let w := s.setup.live[i]
    s.ReadsAs (.live i 0) (w.base.toNat + 2 ^ 31 * w.valid.toNat) ∧
    s.ReadsAs (.live i 1) w.limit.toNat ∧
    s.ReadsAs (.live i 2) (w.targetPage.toNat + 2 ^ 28 * w.port.val) ∧
    s.ReadsAs (.live i 3) (w.localRights.code.toNat + 2 ^ 2 * w.remoteRights.code.toNat +
      2 ^ 8 * w.guarded.toNat) := by
  obtain ⟨hzero, hone, htwo, hthree⟩ := s.setup.live[i].words_toNat
  exact ⟨State.readsAs_of_word rfl hzero, State.readsAs_of_word rfl hone,
    State.readsAs_of_word rfl htwo, State.readsAs_of_word rfl hthree⟩

/-! ## The take of a read -/

/-- A read at the head that fails a check is ended with its status, one that passes them with the word in
its buffer (R151). -/
theorem State.settle_read_at_head {s : State} (T : s.TableOk) (E : s.EntriesOk)
    (hreset : s.resetDue = false) (hdue : s.Undue)
    (hasks : s.attention.walk.isSome = true ∨ s.asks = []) {i : EntryNo} {e : Entry}
    {rest : List (EntryNo × Entry)} (hl : s.mgmtQueue = (i, e) :: rest) (hop : e.op = .read) :
    (∀ st, s.serveRead e = .error st → s.settle = (s.endEntry i st none none).settle) ∧
    ∀ w, s.serveRead e = .ok w → ∃ b : Vector Byte 64, b.toList.take 4 = wordBytes w ∧
      s.settle = ((s.setBuffer i e b).endEntry i .ok none none).settle := by
  have he : s.entries[i] = some e :=
    (State.inService_of_mgmtQueue E (hl ▸ List.mem_cons_self)).entry
  have hsettle := State.settle_takeRead T E hreset hdue hasks hl hop
  rw [State.takeRead_eq he] at hsettle
  refine ⟨fun st hst => ?_, fun w hw => ⟨placeBytes e.buffer 0 (wordBytes w), ?_, ?_⟩⟩
  · rw [hst] at hsettle; exact hsettle
  · exact placeBytes_take e.buffer (wordBytes w) (by simp [wordBytes_length])
  · rw [hw] at hsettle; exact hsettle

/-- Settles O41: the checks are `serveRead`'s, a read at the head is taken by `settle_takeRead`, the map is
`MgmtObject.offset` and its inverse, and the words are read off field by field. -/
theorem managementReadsAnswerTheObject : Obligations.ManagementReadsAnswerTheObject := by
  refine ⟨fun s e => ?_, fun s msg r o hrun T hempty hparse hr hs hn hop ho hcmd hocc => ?_,
    fun s i e rest T E hreset hdue hasks hl hop =>
      State.settle_read_at_head T E hreset hdue hasks hl hop,
    ⟨objectAt_offset, by decide, fun a ha => ?_⟩, fun s T Q E I C R A => ?_⟩
  · dsimp only
    rw [← s.remoteRefused_iff e]
    refine ⟨State.serveRead_refused, State.serveRead_unmapped, fun h ha => ?_, fun o h ho hc => ?_⟩
    · exact State.serveRead_unreadable h (o := .command) (by rw [ha]; rfl) rfl
    · obtain ⟨w, hw⟩ := s.readObject_isSome hc
      exact ⟨w, hw, State.serveRead_word h ho hw⟩
  · obtain ⟨hporst, hcrst⟩ := hrun
    obtain ⟨w, hw⟩ := s.readObject_isSome hcmd
    refine ⟨w, hw, ?_⟩
    simp only [exec, execRequestOnPLink, hporst, hcrst, hparse, Bool.or_self, Bool.false_eq_true,
      if_false, State.requestP_read T hempty hr hs hn hop ho hocc hw]
  · cases ho : objectAt a with
    | none => rfl
    | some o => exact absurd (offset_of_objectAt ho) (ha o)
  · obtain ⟨hbackplane, hremote, hmask, htimers, hlimit, henables, hargument⟩ := s.settings_readAs
    refine ⟨rfl, s.identity1_readsAs, hbackplane, hremote, hmask, htimers, hlimit, henables,
      hargument, rfl, s.generation_readsAs T,
      State.readsAs_of_word rfl (State.occupancyWord_toNat Q E), s.attentionStatus_readsAs A,
      State.readsAs_of_word rfl (by cases s.guard <;> rfl), fun p => ?_, fun c => ?_,
      fun i k => rfl, fun i => ?_⟩
    · obtain ⟨hwidths, hresponse, hretry⟩ := State.portConfig_readsAs C p
      obtain ⟨hstatus, hhold⟩ := s.portStatus_readsAs I R p
      rw [PortState.code_toNat] at hstatus
      refine ⟨hwidths, hresponse, hretry, hstatus, hhold.trans ?_⟩
      rcases s.ports[p].hold with _ | ⟨_ | _, _⟩ <;> rfl
    · obtain ⟨hsource, hdestination, hfields, hlink⟩ := s.descriptor_readsAs c
      obtain ⟨hstate, hcounts, haddress, hcursor⟩ := Channel.statusWord_readsAs R c
      rw [UnitSize.code_toNat] at hfields
      rw [ChannelState.code_toNat, RunOutcome.code_toNat] at hstate
      refine ⟨hsource, hdestination, hfields, hlink, hstate.trans ?_, hcounts, haddress.trans ?_,
        hcursor⟩
      · rcases s.channels[c].faultStatus with _ | status
        · cases s.channels[c].faultDetail <;> rfl
        · cases status <;> cases s.channels[c].faultDetail <;> rfl
      · cases s.channels[c].faultAddress <;> rfl
    · obtain ⟨hbase, hlimit, hpage, hrights⟩ := s.live_readsAs i
      rw [Rights.code_toNat, Rights.code_toNat] at hrights
      exact ⟨hbase, hlimit, hpage, hrights⟩

end Sys2Proof.Machine
end

section
/-!
PROOFS. The Transaction Table and its orders: a FREE entry for every origin within its quota (R44, R49, R50),
which entries are older than another (R44), the entries that are eligible at a port (R51, R81, R97, R133), and
what ends and the close of an event leave alone (R47).
-/

namespace Sys2Proof.Machine

/-! ## Room in the table -/

/-- Every entry is owned by the P origin, the B origin or one of the four channels (R49). -/
theorem State.owned_sum (s : State) :
    (s.owned fun o => decide (o = .p)) + s.owned Origin.isB +
      (s.ownedM 0 + s.ownedM 1 + s.ownedM 2 + s.ownedM 3) = s.table.length := by
  simp only [State.ownedM, State.owned_eq_countIf, State.countIf]
  induction s.table with
  | nil => rfl
  | cons ie l ih =>
    simp only [List.countP_cons, List.length_cons]
    have hone : (if decide (ie.2.origin = .p) = true then 1 else 0) +
        (if ie.2.origin.isB = true then 1 else 0) +
        ((if decide (ie.2.origin = .m 0) = true then 1 else 0) +
          (if decide (ie.2.origin = .m 1) = true then 1 else 0) +
          (if decide (ie.2.origin = .m 2) = true then 1 else 0) +
          (if decide (ie.2.origin = .m 3) = true then 1 else 0)) = 1 := by
      cases ie.2.origin with
      | p => rfl
      | b x => simp [Origin.isB]
      | m c => revert c; decide
    omega

/-- A table with no FREE entry has 24 entries. -/
theorem State.table_length_of_full {s : State} (T : s.TableOk) (h : s.lowestFree = none) :
    24 ≤ s.table.length := by
  have hfull (i : EntryNo) : i ∈ s.table.map Prod.fst := by
    have hi := List.find?_eq_none.1 h i (List.mem_finRange i)
    cases he : s.entries[i] with
    | none => exact absurd (by rw [he]; rfl) hi
    | some e =>
      exact List.mem_map.2 ⟨(i, e), State.mem_table.2 ⟨(T.2 i).2 (by rw [he]; rfl), he⟩, rfl⟩
  have hlength := (List.subperm_of_subset (List.nodup_finRange 24) fun i _ => hfull i).length_le
  simpa using hlength

/-- Settles O9: the quotas sum to the 24 entries of the table, so with room in one of them the table is not
full. -/
theorem roomMeansAFreeEntry : Obligations.RoomMeansAFreeEntry := by
  intro s T ⟨hp, hb, hm⟩ hroom
  have hsum := s.owned_sum
  have h0 := hm 0
  have h1 := hm 1
  have h2 := hm 2
  have h3 := hm 3
  have hshort : s.table.length < 24 := by
    rcases hroom with hroom | hroom | ⟨c, hroom⟩
    · omega
    · omega
    · match c, hroom with
      | 0, hroom | 1, hroom | 2, hroom | 3, hroom => omega
  cases hfree : s.lowestFree with
  | none => exact absurd (State.table_length_of_full T hfree) (by omega)
  | some i =>
    obtain ⟨hi, hlow⟩ := find?_finRange_eq_some.1 hfree
    exact ⟨i, rfl, by simpa using hi, fun j hj => by simpa using hlow j hj⟩

/-! ## Ends and the setup -/

/-- An end that finds its entry FREE, COMPLETE or ORPHANED does nothing (R47). -/
theorem State.endEntry_of_over {s : State} {i : EntryNo}
    (h : ∀ e, s.entries[i] = some e → e.state = .complete ∨ e.state = .orphaned) (st : Status)
    (a : Option Word) (d : Option Detail) : s.endEntry i st a d = s := by
  cases he : s.entries[i] with
  | none => simp only [State.endEntry, he]
  | some e => simp only [State.endEntry, he, if_pos (h e he)]

/-- Settles O20: an end is a chain of acts, and so is the close of an event; no act changes the setup. -/
theorem endsHappenOnceAndKeepTheSetup : Obligations.EndsHappenOnceAndKeepTheSetup :=
  ⟨fun _ _ st a d h => State.endEntry_of_over h st a d,
    fun s i st a d => (s.endEntry_acts i st a d).untouched, State.settle_untouched⟩

/-! ## Older entries -/

/-- Splitting a list without repetition at an element gives the part before it. -/
theorem takeWhile_ne_of_split {α : Type} [DecidableEq α] {l x z : List α} {i : α} (hd : l.Nodup)
    (h : l = x ++ i :: z) : l.takeWhile (fun j => decide (j ≠ i)) = x := by
  subst h
  have hx : ∀ j ∈ x, decide (j ≠ i) = true := fun j hj =>
    decide_eq_true fun hji => (List.nodup_append.1 hd).2.2 j hj i List.mem_cons_self hji
  rw [List.takeWhile_append_of_pos hx]
  simp

/-- The entries older than a live entry are those before it in the arrival order (R44). -/
theorem State.mem_olderThan {s : State} (T : s.TableOk) {i j : EntryNo} {e f : Entry}
    (he : s.entries[i] = some e) : (j, f) ∈ s.olderThan i ↔
      s.entries[j] = some f ∧ ∃ x y z, s.order = x ++ j :: y ++ i :: z := by
  obtain ⟨w, z, hsplit⟩ := List.append_of_mem ((T.2 i).2 (by rw [he]; rfl))
  have holder : s.olderThan i = w.filterMap fun k => s.entries[k].map fun g => (k, g) := by
    have hw : ∀ jf ∈ w.filterMap (fun k => s.entries[k].map fun g => (k, g)),
        decide (jf.1 ≠ i) = true := by
      intro jf hjf
      obtain ⟨k, hk, hmap⟩ := List.mem_filterMap.1 hjf
      obtain ⟨g, _, rfl⟩ := Option.map_eq_some_iff.1 hmap
      exact decide_eq_true fun hki => (List.nodup_append.1 (hsplit ▸ T.1)).2.2 k hk i
        List.mem_cons_self hki
    rw [State.olderThan, State.table, hsplit, List.filterMap_append,
      List.takeWhile_append_of_pos hw, List.filterMap_cons, he]
    simp
  have hmem : (j, f) ∈ s.olderThan i ↔ j ∈ w ∧ s.entries[j] = some f := by
    rw [holder, List.mem_filterMap]
    simp only [Option.map_eq_some_iff, Prod.mk.injEq]
    constructor
    · rintro ⟨k, hk, g, hg, rfl, rfl⟩; exact ⟨hk, hg⟩
    · rintro ⟨hj, hf⟩; exact ⟨j, hj, f, hf, rfl, rfl⟩
  rw [hmem, and_comm]
  refine and_congr_right fun _ => ⟨fun hj => ?_, ?_⟩
  · obtain ⟨x, y, rfl⟩ := List.append_of_mem hj
    exact ⟨x, y, z, hsplit⟩
  · rintro ⟨x, y, z', h⟩
    have hw : w = x ++ j :: y :=
      (takeWhile_ne_of_split T.1 hsplit).symm.trans (takeWhile_ne_of_split T.1 h)
    rw [hw]
    simp

/-! ## Eligible entries -/

theorem State.blockedByOrder_eq_false_iff {s : State} (T : s.TableOk) {i : EntryNo} {e : Entry}
    (he : s.entries[i] = some e) (p : PortNo) : s.blockedByOrder p i e = false ↔
      ∀ (j : EntryNo) (f : Entry) (x y z : List EntryNo), s.order = x ++ j :: y ++ i :: z →
        s.entries[j] = some f → f.origin = e.origin → f.route = some (.port p) →
          f.state ≠ .waiting ∧ f.state ≠ .backoff := by
  simp only [State.blockedByOrder, List.any_eq_false, Prod.forall, State.mem_olderThan T he,
    Bool.and_eq_true, Bool.or_eq_true, decide_eq_true_eq, not_and, not_or, and_imp,
    forall_exists_index]
  exact ⟨fun h j f x y z ho hf => h j f hf x y z ho, fun h j f hf x y z ho => h j f x y z ho hf⟩

theorem State.heldBack_eq_false_iff (s : State) (p : PortNo) (i : EntryNo) (e : Entry) :
    s.heldBack p i e = false ↔ ∀ h, s.ports[p].hold = some h →
      h.holder.origin = e.origin ∧ (e.op = .readHold → h.phase = .awaitingRead i) := by
  unfold State.heldBack
  cases s.ports[p].hold with
  | none => simp
  | some x => simp

/-- The conditions of an issue that R81 and R133 share, spelled out. -/
theorem State.dueAt_iff {s : State} (T : s.TableOk) {i : EntryNo} {e : Entry}
    (he : s.entries[i] = some e) (p : PortNo) : s.dueAt p i e = true ↔
      e.state = .waiting ∧ e.route = some (.port p) ∧
      (∀ (j : EntryNo) (f : Entry) (x y z : List EntryNo), s.order = x ++ j :: y ++ i :: z →
        s.entries[j] = some f → f.origin = e.origin → f.route = some (.port p) →
          f.state ≠ .waiting ∧ f.state ≠ .backoff) ∧
      ∀ h, s.ports[p].hold = some h →
        h.holder.origin = e.origin ∧ (e.op = .readHold → h.phase = .awaitingRead i) := by
  simp only [State.dueAt, Bool.and_eq_true, decide_eq_true_eq, Bool.not_eq_true', and_assoc,
    State.blockedByOrder_eq_false_iff T he, State.heldBack_eq_false_iff]

theorem Op.isRead_iff (op : Op) : op.isRead = true ↔ op = .read ∨ op = .readHold := by
  cases op <;> simp [Op.isRead]

theorem Op.isRead_eq_false_iff (op : Op) : op.isRead = false ↔ op = .write ∨ op = .writeRelease := by
  cases op <;> simp [Op.isRead]

theorem Entry.guardedWrite_iff (e : Entry) : e.guardedWrite = true ↔
    (e.op = .write ∨ e.op = .writeRelease) ∧ ∃ d, e.decode = some d ∧ d.guarded = true := by
  simp [Entry.guardedWrite, Op.isRead_eq_false_iff, Option.any_eq_true]

theorem Entry.guardedWrite_eq_false_iff (e : Entry) : e.guardedWrite = false ↔
    e.op = .read ∨ e.op = .readHold ∨ ∀ d, e.decode = some d → d.guarded = false := by
  rw [← or_assoc, ← Op.isRead_iff]
  cases hd : e.decode <;> cases hop : e.op.isRead <;> simp [Entry.guardedWrite, hd, hop]

/-- Settles O26: `eligible` is `dueAt` without a guarded write while the guard is closed. -/
theorem eligibleEntriesOfAPort : Obligations.EligibleEntriesOfAPort := by
  intro s p i e T he
  have hmem : (i, e) ∈ s.table := State.mem_table.2 ⟨(T.2 i).2 (by rw [he]; rfl), he⟩
  have hguard : (!(e.guardedWrite && s.guardClosed)) = true ↔
      s.guard = .opened ∨ e.op = .read ∨ e.op = .readHold ∨
        ∀ d, e.decode = some d → d.guarded = false := by
    rw [Bool.not_eq_true', Bool.and_eq_false_iff, Entry.guardedWrite_eq_false_iff, or_comm]
    simp [State.guardClosed]
  simp only [State.eligibleAt, List.mem_filter, hmem, true_and, State.eligible, Bool.and_eq_true,
    hguard, State.dueAt_iff T he, and_assoc]

end Sys2Proof.Machine
end

section
/-!
PROOFS. The end of an entry with a status other than OK (R47, R52 to R55, R99, R101, R123): what it changes
of the entries, the ports, the messages and the channels. Such an end starts nothing new.
-/

namespace Sys2Proof.Machine

/-! ## What a report of a failure raises -/

/-- The channels with no CHANNEL_FAULT in the attention queue. -/
def Attention.unfaulted (a : Attention) : Finset ChannelNo :=
  Finset.univ.filter fun c => a.holds (.channel c) .channelFault = false

/-- The records of the attention queue, and one for each channel that may still add its CHANNEL_FAULT to them
(R137, R138). -/
def Attention.faultBound (a : Attention) : Nat := a.queue.length + a.unfaulted.card

theorem Attention.mem_unfaulted {a : Attention} {c : ChannelNo} :
    c ∈ a.unfaulted ↔ a.holds (.channel c) .channelFault = false := by
  simp [Attention.unfaulted]

theorem Attention.faultBound_le (a : Attention) : a.faultBound ≤ a.queue.length + 4 :=
  Nat.add_le_add_left ((Finset.card_le_univ _).trans (by simp)) _

/-- A record that merges changes the counts of records alone. -/
theorem Attention.record_merge {a : Attention} {source : AttnSource} {kind : AttnKind}
    (h : a.holds source kind = true) (detail : Option (Status × Word)) :
    (a.record source kind detail).queue.length = a.queue.length ∧
      ∀ source' kind', (a.record source kind detail).holds source' kind' = a.holds source' kind' := by
  rw [Attention.record, if_pos h]
  refine ⟨List.length_map _, fun source' kind' => ?_⟩
  simp only [Attention.holds, List.any_map]
  congr 1
  funext r
  simp only [Function.comp]
  split <;> rfl

/-- A CHANNEL_FAULT merges with the record of its channel, takes the place kept for it, or overflows. -/
theorem Attention.faultBound_record_le (a : Attention) (c : ChannelNo)
    (detail : Option (Status × Word)) :
    (a.record (.channel c) .channelFault detail).faultBound ≤ a.faultBound := by
  by_cases hh : a.holds (.channel c) .channelFault = true
  · obtain ⟨hlength, hholds⟩ := Attention.record_merge hh detail
    simp only [Attention.faultBound, Attention.unfaulted, hlength, hholds, le_refl]
  by_cases hroom : a.queue.length < Config.attentionCapacity
  · have hrecord : a.record (.channel c) .channelFault detail = { a with
        queue := a.queue ++ [{ source := .channel c, kind := .channelFault, count := 1, detail }] } := by
      rw [Attention.record, if_neg hh, if_pos hroom]
    have hless : (a.record (.channel c) .channelFault detail).unfaulted ⊂ a.unfaulted := by
      refine (Finset.ssubset_iff_of_subset fun k hk => ?_).2
        ⟨c, Attention.mem_unfaulted.2 (Bool.eq_false_iff.2 hh), fun hc => ?_⟩
      · rw [Attention.mem_unfaulted, hrecord, Attention.holds, List.any_append,
          Bool.or_eq_false_iff] at hk
        exact Attention.mem_unfaulted.2 hk.1
      · rw [Attention.mem_unfaulted, hrecord] at hc
        simp [Attention.holds] at hc
    have hcard := Finset.card_lt_card hless
    have hlength : (a.record (.channel c) .channelFault detail).queue.length = a.queue.length + 1 := by
      simp [hrecord]
    simp only [Attention.faultBound]
    omega
  · have hrecord : a.record (.channel c) .channelFault detail = { a with overflow := true } := by
      rw [Attention.record, if_neg hh, if_neg hroom]
    rw [hrecord]
    exact le_refl _

/-- What the report of a failure changes: channels, and the CHANNEL_FAULT events that they raise. -/
structure FaultsOnly (s t : State) : Prop where
  frame : t = { s with channels := t.channels, attention := t.attention, pSent := t.pSent }
  bound : t.attention.faultBound ≤ s.attention.faultBound

theorem FaultsOnly.refl (s : State) : FaultsOnly s s := ⟨rfl, le_refl _⟩

theorem FaultsOnly.then {s t u : State} (h : FaultsOnly s t) (h' : FaultsOnly t u) : FaultsOnly s u where
  frame := by rw [h'.frame, h.frame]
  bound := h'.bound.trans h.bound

theorem FaultsOnly.modChannel (s : State) (c : ChannelNo) (f : Channel → Channel) :
    FaultsOnly s (s.modChannel c f) := ⟨rfl, le_refl _⟩

theorem FaultsOnly.raise (s : State) (c : ChannelNo) (d : Option (Status × Word)) :
    FaultsOnly s (s.raise (.channel c) .channelFault d) where
  frame := rfl
  bound := by
    change (if s.kindEnabled .channelFault then _ else _ : Attention).faultBound ≤ _
    split
    · exact s.attention.faultBound_record_le c d
    · exact le_refl _

theorem FaultsOnly.faultIdle (s : State) (c : ChannelNo) : FaultsOnly s (s.faultIdle c) :=
  (FaultsOnly.modChannel s c fun ch => ch.enterIdle .faulted).then (.raise _ c _)

theorem FaultsOnly.restChannel (s : State) (c : ChannelNo) : FaultsOnly s (s.restChannel c) := by
  simp only [State.restChannel]
  repeat' split
  all_goals first
    | exact .refl s
    | exact .faultIdle s c
    | exact .modChannel s c _

theorem FaultsOnly.fetchReport (s : State) (c : ChannelNo) {st : Status} (h : st ≠ .ok)
    (a : Option Word) (d : Option Detail) (data : List Byte) :
    FaultsOnly s (s.fetchReport c st a d data) := by
  simp only [State.fetchReport, if_neg h]
  repeat' split
  · exact .refl s
  · exact (FaultsOnly.modChannel s c _).then (.faultIdle _ c)
  · exact .modChannel s c _

theorem FaultsOnly.unitReport (s : State) (c : ChannelNo) (k : Nat) (u : UnitRecord) (a : Word)
    {st : Status} (h : st ≠ .ok) (fa : Option Word) (d : Option Detail) (data : List Byte) :
    FaultsOnly s (s.unitReport c k u a st fa d data) := by
  simp only [State.unitReport, if_neg h]
  repeat' split
  all_goals first
    | exact .refl s
    | exact .modChannel s c _

/-- The report of a failure creates no entry (R112, R123, R124). -/
theorem FaultsOnly.report (s : State) (c : ChannelNo) (i : EntryNo) (a : Word) {st : Status}
    (h : st ≠ .ok) (fa : Option Word) (d : Option Detail) (data : List Byte) :
    FaultsOnly s (s.report c i a st fa d data) := by
  simp only [State.report]
  refine FaultsOnly.then ?_ (.restChannel _ c)
  repeat' split
  · exact .unitReport s c _ _ a h fa d data
  · exact .refl s
  · exact .fetchReport s c h fa d data

/-! ## One end -/

/-- The entry has not ended and is not ORPHANED, so an end acts on it (R47). -/
def Entry.Live (e : Entry) : Prop := e.state ≠ .complete ∧ e.state ≠ .orphaned

theorem Entry.live_of_queued {e : Entry} (h : e.queued = true) : e.Live := by
  rcases (by simpa [Entry.queued] using h : e.state = .waiting ∨ e.state = .backoff) with hs | hs <;>
    simp [Entry.Live, hs]

theorem Entry.live_of_onWaitList {p : PortNo} {e : Entry} (h : e.onWaitList p = true) : e.Live := by
  obtain ⟨_, hs⟩ : e.route = some (.port p) ∧
      ((e.state = .waiting ∨ e.state = .issued) ∨ e.state = .backoff) := by
    simpa [Entry.onWaitList] using h
  rcases hs with (hs | hs) | hs <;> simp [Entry.Live, hs]

/-- The end of a live entry, by its origin (R53 to R55). -/
theorem State.endEntry_live {s : State} {i : EntryNo} {e : Entry} (he : s.entries[i] = some e)
    (hl : e.Live) (st : Status) (a : Option Word) (d : Option Detail) :
    s.endEntry i st a d =
      match e.origin with
      | .p => ((s.holdAtEnd i e st).modEntry i fun _ => e.ended st a d).deliverP
      | .b x => ((s.holdAtEnd i e st).sendB (s.bResponse x (e.ended st a d))).free i
      | .m c => ((s.holdAtEnd i e st).free i).report c i e.address st a d e.bytes := by
  have hover : ¬ (e.state = .complete ∨ e.state = .orphaned) := not_or.2 hl
  have hsetup : (s.holdAtEnd i e st).setup = s.setup := (s.holdAtEnd_acts i e st).untouched.setup
  simp only [State.endEntry, he, if_neg hover, State.bResponse, hsetup]
  rfl

/-- The end of an entry writes the hold of a port alone before it acts on the entry. -/
theorem State.holdAtEnd_frame (s : State) (i : EntryNo) (e : Entry) (st : Status) :
    s.holdAtEnd i e st = { s with ports := (s.holdAtEnd i e st).ports } := by
  unfold State.holdAtEnd
  repeat' split
  all_goals rfl

/-- The hold waits for the end of this entry at port p: the entry is its hold read or its release (R93). -/
def Hold.awaits (p : PortNo) (je : EntryNo × Entry) (x : Hold) : Bool :=
  decide (je.2.route = some (.port p)) &&
    (decide (x.phase = .awaitingRead je.1) || decide (x.phase = .awaitingRelease je.1))

/-- The end of an entry changes no field of a port but its hold. -/
theorem State.holdAtEnd_port_eq (s : State) (i : EntryNo) (e : Entry) (st : Status) (p : PortNo) :
    (s.holdAtEnd i e st).ports[p] = { s.ports[p] with hold := (s.holdAtEnd i e st).holdAt p } := by
  unfold State.holdAt State.holdAtEnd
  repeat' split
  all_goals first
    | rfl
    | (rw [State.modPort_port]; split <;> rfl)

/-- A port after the end of an entry with a status other than OK: a hold that waits for the entry is absent,
and nothing else changes (R99, R101). -/
theorem State.holdAtEnd_port (s : State) (i : EntryNo) (e : Entry) {st : Status} (h : st ≠ .ok)
    (p : PortNo) : (s.holdAtEnd i e st).ports[p] =
      { s.ports[p] with hold := s.ports[p].hold.filter fun x => !x.awaits p (i, e) } := by
  rw [State.holdAtEnd_port_eq, State.holdAtEnd_holdAt, State.holdAt]
  cases hx : s.ports[p].hold with
  | none => simp
  | some x =>
    by_cases hr : e.route = some (.port p)
    · by_cases h1 : x.phase = .awaitingRead i <;> by_cases h2 : x.phase = .awaitingRelease i <;>
        simp [Hold.awaits, Hold.afterRead, Option.filter, hr, h1, h2, h]
    · simp [Hold.awaits, Option.filter, hr]

/-- The response that the end of an entry produces on the B link: that of a B entry, with no data, since the
status is not OK (R13, R54). -/
def Entry.endResponse (slot : BitVec 4) (st : Status) (a : Option Word) (e : Entry) :
    Option BMessage :=
  match e.origin with
  | .b source => some (.response source slot (e.returnStamp.getD 0)
      { tag := e.tag.getD 0, status := st, data := none, faultAddress := a, detail := none })
  | .p => none
  | .m _ => none

/-- What the end of a live entry with a status other than OK writes (R47, R53 to R55). -/
theorem State.endEntry_frame {s : State} {i : EntryNo} {e : Entry} (he : s.entries[i] = some e)
    (hl : e.Live) {st : Status} (h : st ≠ .ok) (a : Option Word) :
    let t := s.endEntry i st a none
    t = { s with
      entries := t.entries, order := t.order, ports := (s.holdAtEnd i e st).ports
      channels := t.channels, attention := t.attention, pSent := t.pSent
      bSent := if s.lines.bLink = true then
          s.bSent ++ (e.endResponse s.setup.straps.slot st a).toList else s.bSent } ∧
    t.attention.faultBound ≤ s.attention.faultBound := by
  dsimp only
  rw [State.endEntry_live he hl, s.holdAtEnd_frame i e st]
  cases ho : e.origin with
  | p =>
    obtain ⟨x, y, z, hd⟩ := State.deliverUpTo_frame 24
      (State.modEntry { s with ports := (s.holdAtEnd i e st).ports } i fun _ => e.ended st a none)
    simp only [State.deliverP, hd, Entry.endResponse, ho]
    exact ⟨by simp [State.modEntry], le_refl _⟩
  | b x =>
    simp only [Entry.endResponse, ho]
    refine ⟨?_, le_refl _⟩
    simp [State.sendB, State.free, State.bResponse, Entry.response, Entry.ended, h]
  | m c =>
    have hr := FaultsOnly.report (State.free { s with ports := (s.holdAtEnd i e st).ports } i) c i
      e.address h a none e.bytes
    simp only [Entry.endResponse, ho]
    refine ⟨?_, hr.bound⟩
    rw [hr.frame]
    simp [State.free]

end Sys2Proof.Machine
end

section
/-!
PROOFS. Ends of all entries of a kind, one after another, with a status other than OK: what is left of the
table, the ports and the messages (R53 to R55, R61, R73, R99, R101, R134).
-/

namespace Sys2Proof.Machine

/-! ## The entries after one end -/

theorem State.holdAtEnd_order (s : State) (i : EntryNo) (e : Entry) (st : Status) :
    (s.holdAtEnd i e st).order = s.order := by rw [s.holdAtEnd_frame i e st]

theorem State.kind_congr {s t : State} (ho : t.order = s.order) (he : t.entries = s.entries)
    (q : Entry → Bool) : t.kind q = s.kind q := by
  rw [State.kind, State.table_congr ho he, State.kind]

theorem State.kind_holdAtEnd (s : State) (i : EntryNo) (e : Entry) (st : Status) (q : Entry → Bool) :
    (s.holdAtEnd i e st).kind q = s.kind q :=
  State.kind_congr (s.holdAtEnd_order i e st) (s.holdAtEnd_entries i e st) q

/-- The end of a live entry takes it off its kind, and no other entry off a kind of entries that have not
ended. -/
theorem State.kind_endEntry {s : State} {i : EntryNo} {e : Entry} (he : s.entries[i] = some e)
    (hl : e.Live) {st : Status} (h : st ≠ .ok) (a : Option Word) (d : Option Detail)
    {q : Entry → Bool} (hq : ∀ e, e.state = .complete → q e = false) :
    (s.endEntry i st a d).kind q = without i (s.kind q) := by
  rw [State.endEntry_live he hl, ← s.kind_holdAtEnd i e st q]
  cases e.origin with
  | p => exact (State.kind_deliverUpTo hq _ _).trans (State.kind_modEntry fun _ _ => hq _ rfl)
  | b x => exact State.kind_free _ _ _
  | m c =>
    have hr := (FaultsOnly.report ((s.holdAtEnd i e st).free i) c i e.address h a d e.bytes).frame
    dsimp only
    rw [hr]
    exact State.kind_free _ _ _

/-- What a delivery leaves of an entry: it stays, or it is a P entry that has ended and leaves (R53). -/
def Delivered (x y : Option Entry) : Prop :=
  y = x ∨ ∃ e, x = some e ∧ e.origin = .p ∧ e.state = .complete ∧ y = none

theorem State.deliverUpTo_entry (n : Nat) (s : State) (j : EntryNo) :
    Delivered s.entries[j] (s.deliverUpTo n).entries[j] := by
  induction n generalizing s with
  | zero => exact .inl rfl
  | succ n ih =>
    rw [State.deliverUpTo]
    cases hl : s.pList with
    | nil => simp only [State.deliverHead, hl]; exact .inl rfl
    | cons ie rest =>
      obtain ⟨i, e⟩ := ie
      rw [State.deliverHead_cons hl]
      by_cases hleaves : leavesAtHead (i, e) = true
      · obtain ⟨hstate, _⟩ : e.state = .complete ∧ e.isCardReset = false := by
          simpa [leavesAtHead] using hleaves
        obtain ⟨hmem, horigin⟩ := List.mem_filter.1
          (hl ▸ List.mem_cons_self : (i, e) ∈ s.pList)
        obtain ⟨_, he⟩ := State.mem_table.1 hmem
        have hnext := ih ((s.sendP (.response e.response)).free i)
        rw [if_pos hleaves]
        rw [State.free_entry] at hnext
        by_cases hij : i = j
        · subst hij
          rw [if_pos rfl] at hnext
          refine .inr ⟨e, he, by simpa using horigin, hstate, ?_⟩
          rcases hnext with hnext | ⟨_, hsome, _⟩
          · exact hnext
          · cases hsome
        · rw [if_neg hij] at hnext
          exact hnext
      · rw [if_neg hleaves]; exact .inl rfl

/-- What the end of an entry leaves of its own record: nothing, or an ended record of the P origin that has not
left yet (R53 to R55). -/
theorem State.endEntry_entry_self {s : State} {i : EntryNo} {e : Entry} (he : s.entries[i] = some e)
    (hl : e.Live) {st : Status} (h : st ≠ .ok) (a : Option Word) (d : Option Detail) :
    (s.endEntry i st a d).entries[i] = none ∨
      (e.origin = .p ∧ (s.endEntry i st a d).entries[i] = some (e.ended st a d)) := by
  rw [State.endEntry_live he hl]
  cases e.origin with
  | p =>
    have hd := State.deliverUpTo_entry 24
      ((s.holdAtEnd i e st).modEntry i fun _ => e.ended st a d) i
    rw [State.modEntry_entry, if_pos rfl, State.holdAtEnd_entries, he, Option.map_some] at hd
    rcases hd with hd | ⟨_, _, _, _, hd⟩
    · exact .inr ⟨rfl, hd⟩
    · exact .inl hd
  | b x => exact .inl (by simp)
  | m c =>
    have hr := (FaultsOnly.report ((s.holdAtEnd i e st).free i) c i e.address h a d e.bytes).frame
    dsimp only
    rw [hr]
    exact .inl (by simp)

/-- What the end of an entry leaves of another entry. -/
theorem State.endEntry_entry_other {s : State} {i j : EntryNo} {e : Entry}
    (he : s.entries[i] = some e) (hl : e.Live) {st : Status} (h : st ≠ .ok) (a : Option Word)
    (d : Option Detail) (hij : i ≠ j) : Delivered s.entries[j] (s.endEntry i st a d).entries[j] := by
  rw [State.endEntry_live he hl, ← s.holdAtEnd_entries i e st]
  cases e.origin with
  | p =>
    have hd := State.deliverUpTo_entry 24
      ((s.holdAtEnd i e st).modEntry i fun _ => e.ended st a d) j
    rw [State.modEntry_entry, if_neg hij] at hd
    exact hd
  | b x => exact .inl ((State.free_entry _ _ _).trans (if_neg hij))
  | m c =>
    have hr := (FaultsOnly.report ((s.holdAtEnd i e st).free i) c i e.address h a d e.bytes).frame
    dsimp only
    rw [hr]
    exact .inl ((State.free_entry _ _ _).trans (if_neg hij))

/-! ## Ends of a kind -/

/-- The kind is one of entries that an end acts on. -/
def LiveKind (q : Entry → Bool) : Prop := ∀ e, q e = true → e.Live

theorem LiveKind.complete {q : Entry → Bool} (hq : LiveKind q) (e : Entry) (h : e.state = .complete) :
    q e = false := by
  cases hqe : q e with
  | false => rfl
  | true => exact absurd h (hq e hqe).1

theorem State.mem_kind {s : State} {q : Entry → Bool} {i : EntryNo} {e : Entry}
    (h : (i, e) ∈ s.kind q) : s.entries[i] = some e ∧ q e = true := by
  obtain ⟨hmem, hq⟩ := List.mem_filter.1 h
  exact ⟨(State.mem_table.1 hmem).2, hq⟩

theorem State.kind_of_entry {s : State} (T : s.TableOk) {q : Entry → Bool} {i : EntryNo} {e : Entry}
    (he : s.entries[i] = some e) (hq : q e = true) : (i, e) ∈ s.kind q :=
  List.mem_filter.2 ⟨State.mem_table.2 ⟨(T.2 i).2 (by rw [he]; rfl), he⟩, hq⟩

/-- No index stands twice in the entries of a kind. -/
theorem State.kind_keys_nodup {s : State} (T : s.TableOk) (q : Entry → Bool) :
    ((s.kind q).map Prod.fst).Nodup :=
  ((List.Sublist.map _ List.filter_sublist).trans s.table_keys_sublist).nodup T.1

theorem State.without_head {s : State} (T : s.TableOk) {q : Entry → Bool} {i : EntryNo} {e : Entry}
    {rest : List (EntryNo × Entry)} (hl : s.kind q = (i, e) :: rest) :
    without i (s.kind q) = rest := by
  have hk := s.kind_keys_nodup T q
  rw [hl, List.map_cons, List.nodup_cons] at hk
  rw [hl, without_cons_self]
  exact List.filter_eq_self.2 fun x hx => decide_eq_true fun hxi =>
    hk.1 (List.mem_map.2 ⟨x, hx, hxi⟩)

/-- The ends of a kind, one by one: what is left of the kind after the first end is still to end. -/
theorem State.endKind_induction {q : Entry → Bool} (hq : LiveKind q) {st : Status} (h : st ≠ .ok)
    (f : Entry → Option Word) {P : State → State → Prop}
    (nil : ∀ s, s.TableOk → s.kind q = [] → P s s)
    (cons : ∀ s t i e, s.TableOk → s.entries[i] = some e → q e = true →
      s.kind q = (i, e) :: (s.endEntry i st (f e) none).kind q →
      P (s.endEntry i st (f e) none) t → P s t) {s : State} (T : s.TableOk) :
    P s (s.endAll st f (s.kind q)) := by
  generalize hl : s.kind q = l
  induction l generalizing s with
  | nil => exact nil s T hl
  | cons ie rest ih =>
    obtain ⟨i, e⟩ := ie
    obtain ⟨he, hqe⟩ := State.mem_kind (hl ▸ List.mem_cons_self)
    have hrest : (s.endEntry i st (f e) none).kind q = rest := by
      rw [State.kind_endEntry he (hq e hqe) h _ _ hq.complete, State.without_head T hl]
    exact cons s _ i e T he hqe (by rw [hrest, hl])
      (ih ((s.endEntry_acts i st (f e) none).tableOk T) hrest)

/-- The state t is what the ends of a kind of entries, with this status and these fault addresses, leave
of s. -/
structure KindEnded (q : Entry → Bool) (st : Status) (f : Entry → Option Word) (s t : State) : Prop where
  /-- Which fields they write, and the responses that leave on the B link (R54). -/
  frame : t = { s with
    entries := t.entries, order := t.order, ports := t.ports, channels := t.channels
    attention := t.attention, pSent := t.pSent
    bSent := if s.lines.bLink = true then s.bSent ++ (s.kind q).filterMap fun je =>
        je.2.endResponse s.setup.straps.slot st (f je.2) else s.bSent }
  /-- The reports raise CHANNEL_FAULT alone. -/
  bound : t.attention.faultBound ≤ s.attention.faultBound
  /-- A hold that waits for one of the entries is absent (R99, R101). -/
  port : ∀ p : PortNo, t.ports[p] =
    { s.ports[p] with hold := s.ports[p].hold.filter fun x => !(s.kind q).any fun je => x.awaits p je }
  /-- An entry of the kind is FREE, or an ended P entry that has not left (R53 to R55). -/
  ended : ∀ (j : EntryNo) (e : Entry), s.entries[j] = some e → q e = true →
    t.entries[j] = none ∨ (e.origin = .p ∧ t.entries[j] = some (e.ended st (f e) none))
  /-- Every other entry stands, or was ended before and leaves (R53). -/
  other : ∀ j : EntryNo, (∀ e, s.entries[j] = some e → q e = false) →
    Delivered s.entries[j] t.entries[j]

theorem KindEnded.nil {q : Entry → Bool} (st : Status) (f : Entry → Option Word) {s : State}
    (T : s.TableOk) (h : s.kind q = []) : KindEnded q st f s s where
  frame := by simp [h]
  bound := le_refl _
  port p := by
    have hall (o : Option Hold) : o.filter (fun _ => true) = o := by cases o <;> rfl
    simp [h, hall]
  ended j e he hqe := by
    have hmem := State.kind_of_entry T he hqe
    rw [h] at hmem
    cases hmem
  other _ _ := .inl rfl

/-- A P entry that has ended, or a FREE one, is of no kind of live entries. -/
theorem Delivered.other {q : Entry → Bool} {x y : Option Entry}
    (h : Delivered x y) (hx : ∀ e, x = some e → q e = false) : ∀ e, y = some e → q e = false := by
  rcases h with rfl | ⟨_, _, _, _, rfl⟩
  · exact hx
  · intro e he; cases he

theorem Delivered.trans {x y z : Option Entry} (h : Delivered x y) (h' : Delivered y z) :
    Delivered x z := by
  rcases h' with rfl | ⟨e, rfl, hp, hc, rfl⟩
  · exact h
  · rcases h with h | ⟨_, _, _, _, h⟩
    · exact .inr ⟨e, h.symm, hp, hc, rfl⟩
    · cases h

theorem KindEnded.cons {q : Entry → Bool} (hq : LiveKind q) {st : Status} (h : st ≠ .ok)
    (f : Entry → Option Word) {s t : State} {i : EntryNo} {e : Entry} (he : s.entries[i] = some e)
    (hqe : q e = true) (hkind : s.kind q = (i, e) :: (s.endEntry i st (f e) none).kind q)
    (ht : KindEnded q st f (s.endEntry i st (f e) none) t) : KindEnded q st f s t := by
  obtain ⟨hu, hone⟩ := State.endEntry_frame he (hq e hqe) h (f e)
  have hself := State.endEntry_entry_self he (hq e hqe) h (f e) none
  have hothers := fun j => State.endEntry_entry_other (j := j) he (hq e hqe) h (f e) none
  have hports (p : PortNo) : (s.endEntry i st (f e) none).ports[p] = (s.holdAtEnd i e st).ports[p] := by
    rw [hu]
  generalize s.endEntry i st (f e) none = u at *
  obtain ⟨frame, bound, port, ended, other⟩ := ht
  refine ⟨?_, bound.trans hone, fun p => ?_, fun j g hg hqg => ?_, fun j hj => ?_⟩
  · rw [frame, hkind, hu, List.filterMap_cons]
    dsimp only
    cases e.endResponse s.setup.straps.slot st (f e) <;> cases s.lines.bLink <;> simp
  · rw [port, hports, s.holdAtEnd_port i e h, hkind]
    simp [Option.filter_filter]
  · by_cases hij : i = j
    · subst hij
      cases he.symm.trans hg
      rcases hself with hnone | ⟨hp, hsome⟩
      · rcases other i (by simp [hnone]) with hd | ⟨_, _, _, _, hd⟩
        · exact .inl (hd.trans hnone)
        · exact .inl hd
      · rcases other i (fun x hx => by
          cases hsome.symm.trans hx; exact hq.complete _ rfl) with hd | ⟨_, _, _, _, hd⟩
        · exact .inr ⟨hp, hd.trans hsome⟩
        · exact .inl hd
    · rcases hothers j hij with hd | ⟨x, hx, _, hcomplete, _⟩
      · exact ended j g (hd.trans hg) hqg
      · cases hx.symm.trans hg
        exact absurd hcomplete (hq _ hqg).1
  · have hij : i ≠ j := by
      rintro rfl
      rw [hj e he] at hqe
      cases hqe
    exact (hothers j hij).trans (other j ((hothers j hij).other hj))

/-- What the ends of a kind of entries leave. -/
theorem State.endKind_ended {q : Entry → Bool} (hq : LiveKind q) {st : Status} (h : st ≠ .ok)
    (f : Entry → Option Word) {s : State} (T : s.TableOk) :
    KindEnded q st f s (s.endAll st f (s.kind q)) :=
  State.endKind_induction hq h f (P := KindEnded q st f) (fun _ T hnil => .nil st f T hnil)
    (fun _ _ _ _ _ he hqe hkind ih => .cons hq h f he hqe hkind ih) T

/-- A port whose hold waits for none of the entries keeps its record. -/
theorem KindEnded.port_kept {q : Entry → Bool} {st : Status} {f : Entry → Option Word} {s t : State}
    (h : KindEnded q st f s t) {p : PortNo}
    (hx : ∀ x, s.ports[p].hold = some x → ∀ je ∈ s.kind q, ¬ x.awaits p je = true) :
    t.ports[p] = s.ports[p] := by
  have hhold : (s.ports[p].hold.filter fun x => !(s.kind q).any fun je => x.awaits p je) =
      s.ports[p].hold := by
    cases hold : s.ports[p].hold with
    | none => rfl
    | some x =>
      have hnone : (s.kind q).any (fun je => x.awaits p je) = false :=
        List.any_eq_false.2 (hx x hold)
      simp [Option.filter, hnone]
  rw [h.port, hhold]

/-- A hold that waits for one of the entries is absent. -/
theorem KindEnded.port_dropped {q : Entry → Bool} {st : Status} {f : Entry → Option Word}
    {s t : State} (h : KindEnded q st f s t) {p : PortNo} {x : Hold} (hx : s.ports[p].hold = some x)
    {je : EntryNo × Entry} (hje : je ∈ s.kind q) (ha : x.awaits p je = true) :
    t.ports[p] = { s.ports[p] with hold := none } := by
  have hany : (s.kind q).any (fun je => x.awaits p je) = true := List.any_eq_true.2 ⟨je, hje, ha⟩
  rw [h.port, hx]
  simp [Option.filter, hany]

end Sys2Proof.Machine
end

section
/-!
PROOFS. The loss of a port (R61, R72, R73, R102): the ends of its wait list, its ORPHANED entries, its hold.
-/

namespace Sys2Proof.Machine

theorem State.mem_kind_keys {s : State} (T : s.TableOk) {q : Entry → Bool} {j : EntryNo} :
    j ∈ (s.kind q).map Prod.fst ↔ s.entries[j].any q = true := by
  rw [State.kind, s.keys_filter_table, List.mem_filter, T.2 j]
  cases s.entries[j] <;> simp

theorem State.freeAll_frame (s : State) (l : List (EntryNo × Entry)) :
    s.freeAll l = { s with entries := (s.freeAll l).entries, order := (s.freeAll l).order } := by
  induction l generalizing s with
  | nil => rfl
  | cons ie l ih => rw [State.freeAll, ih]; rfl

/-- A hold that is left over is broken: absent, with the port in its holder's note (R102). -/
theorem State.breakHold_eq (s : State) (p : PortNo) : s.breakHold p = { s with
    ports := s.ports.set p { s.ports[p] with hold := none }
    notes := s.ports[p].hold.elim s.notes fun x => s.notes.set x.holder.code (some p) } := by
  unfold State.breakHold
  cases hx : s.ports[p].hold with
  | some x => rfl
  | none =>
    have hport : { s.ports[p] with hold := none } = s.ports[p] := by rw [← hx]
    have hset : s.ports.set p s.ports[p] = s.ports := Vector.set_getElem_self _
    simp only [hport, hset, Option.elim_none]

/-- The wait list of a port is a kind of live entries. -/
theorem liveKind_onWaitList (p : PortNo) : LiveKind (Entry.onWaitList p) :=
  fun _ => Entry.live_of_onWaitList

theorem Entry.onWaitList_route {p : PortNo} {e : Entry} (h : e.onWaitList p = true) :
    e.route = some (.port p) := by
  rw [Entry.onWaitList, Bool.and_eq_true] at h
  exact of_decide_eq_true h.1

/-- A piece is out at the port: the entry is on the wait list there, ISSUED, or it is ORPHANED (R58). -/
theorem Entry.orphaned_of_pieceOutAt {p : PortNo} {e : Entry} (h : e.pieceOutAt p = true)
    (hw : e.onWaitList p = false) : e.state = .orphaned := by
  obtain ⟨hroute, hstate⟩ : e.route = some (.port p) ∧ (e.state = .issued ∨ e.state = .orphaned) := by
    simpa [Entry.pieceOutAt] using h
  refine hstate.resolve_left fun hissued => ?_
  simp [Entry.onWaitList, hroute, hissued] at hw

/-- The port with the state that its loss gives it, before its entries end. -/
def State.lost (s : State) (p : PortNo) (x : PortState) : State :=
  s.modPort p fun port => { port with state := x }

/-- The hold of a port after the ends of its wait list: one that waits for an entry there is absent (R73). -/
def State.holdLeft (s : State) (p : PortNo) : Option Hold :=
  s.ports[p].hold.filter fun x => !(s.waitList p).any fun je => x.awaits p je

theorem State.lost_port (s : State) (p : PortNo) (x : PortState) :
    (s.lost p x).ports[p] = { s.ports[p] with state := x } := by
  rw [State.lost, State.modPort_port, if_pos rfl]

/-- The ports after the ends of the wait list of one: the others keep their records. -/
theorem State.endWaitList_ports {s t : State} {p : PortNo} {x : PortState} {st : Status}
    {f : Entry → Option Word} (h : KindEnded (Entry.onWaitList p) st f (s.lost p x) t) :
    t.ports = s.ports.set p { s.ports[p] with state := x, hold := s.holdLeft p } := by
  ext1 k hk
  by_cases hp : p.val = k
  · subst hp
    rw [Vector.getElem_set_self]
    exact (h.port p).trans (by rw [State.lost_port]; rfl)
  · rw [Vector.getElem_set_ne _ _ hp]
    have hkept : t.ports[(⟨k, hk⟩ : PortNo)] = (s.lost p x).ports[(⟨k, hk⟩ : PortNo)] := by
      refine h.port_kept fun _ _ je hje ha => hp ?_
      have hroute := Entry.onWaitList_route (State.mem_kind hje).2
      rw [Hold.awaits, hroute, Bool.and_eq_true] at ha
      have hpk : p = ⟨k, hk⟩ := by simpa using of_decide_eq_true ha.1
      exact congrArg Fin.val hpk
    exact hkept.trans (Vector.getElem_set_ne p.isLt hk hp)

/-- The state after the loss of a port, before attention is raised for it: the entries of these keys are
FREE and a hold left over is broken, where u is what the ends of the wait list leave. -/
theorem KindEnded.afterLoss_frame {s u : State} {p : PortNo} {x : PortState}
    (hu : KindEnded (Entry.onWaitList p) .noTarget (fun _ => none) (s.lost p x) u)
    (l : List (EntryNo × Entry)) :
    (u.freeAll l).breakHold p = { s with
      entries := (u.freeAll l).entries, order := (u.freeAll l).order
      ports := s.ports.set p { s.ports[p] with state := x, hold := none }
      notes := (s.holdLeft p).elim s.notes fun y => s.notes.set y.holder.code (some p)
      channels := u.channels, attention := u.attention, pSent := u.pSent
      bSent := if s.lines.bLink = true then s.bSent ++ (s.waitList p).filterMap fun je =>
          je.2.endResponse s.setup.straps.slot .noTarget none else s.bSent } := by
  have hports := State.endWaitList_ports hu
  have hport : u.ports[p] = { s.ports[p] with state := x, hold := s.holdLeft p } := by
    rw [hports]; simp
  rw [State.breakHold_eq, State.freeAll_frame]
  dsimp only
  rw [hport, hports, hu.frame]
  rw [Vector.set_set]
  rfl

/-- When the ORPHANED entries are freed, an entry is as before, but one with a piece out there is FREE (R61). -/
theorem State.freeOut_entry {u : State} (T : u.TableOk) (p : PortNo) (j : EntryNo) :
    (u.freeAll (u.kind (Entry.pieceOutAt p))).entries[j] =
      if u.entries[j].any (Entry.pieceOutAt p) = true then none else u.entries[j] := by
  rw [State.freeAll_entry]
  exact if_congr (State.mem_kind_keys T) rfl rfl

/-- An entry at the port is FREE after its loss, or an ended P entry that has not left (R61, R73). -/
theorem KindEnded.loss_at {s u : State} {p : PortNo} {x : PortState} {f : Entry → Option Word}
    {st : Status} (hu : KindEnded (Entry.onWaitList p) st f (s.lost p x) u) (T : u.TableOk)
    {j : EntryNo} {e : Entry} (he : s.entries[j] = some e)
    (hat : e.onWaitList p = true ∨ e.pieceOutAt p = true) :
    (u.freeAll (u.kind (Entry.pieceOutAt p))).entries[j] = none ∨
      (e.origin = .p ∧ (u.freeAll (u.kind (Entry.pieceOutAt p))).entries[j] =
        some (e.ended st (f e) none)) := by
  rw [State.freeOut_entry T]
  cases hw : e.onWaitList p with
  | true =>
    rcases hu.ended j e he hw with hnone | ⟨hp, hsome⟩
    · exact .inl (by simp [hnone])
    · exact .inr ⟨hp, by rw [hsome]; simp [Entry.pieceOutAt, Entry.ended]⟩
  | false =>
    have hout : e.pieceOutAt p = true := hat.resolve_left (by simp [hw])
    have horphan := Entry.orphaned_of_pieceOutAt hout hw
    rcases hu.other j fun f hf => by cases he.symm.trans hf; exact hw with hd | ⟨f, hf, _, hc, _⟩
    · exact .inl (if_pos (by rw [hd]; change s.entries[j].any _ = true; rw [he]; exact hout))
    · cases he.symm.trans hf
      rw [horphan] at hc
      cases hc

/-- An entry that is not at the port stands after its loss, or has ended before and leaves (R53, R73). -/
theorem KindEnded.loss_elsewhere {s u : State} {p : PortNo} {x : PortState} {f : Entry → Option Word}
    {st : Status} (hu : KindEnded (Entry.onWaitList p) st f (s.lost p x) u) (T : u.TableOk)
    {j : EntryNo} (hw : ∀ e, s.entries[j] = some e → e.onWaitList p = false)
    (ho : ∀ e, s.entries[j] = some e → e.pieceOutAt p = false) :
    Delivered s.entries[j] (u.freeAll (u.kind (Entry.pieceOutAt p))).entries[j] := by
  have hd : Delivered s.entries[j] u.entries[j] := hu.other j hw
  rw [State.freeOut_entry T, if_neg]
  · exact hd
  · cases hj : u.entries[j] with
    | none => simp
    | some e => simpa using hd.other ho e hj

/-- A hold in TIMING, and no other, is left over when the wait list of its port has ended: one that waits for an
entry of the wait list is absent (R73, R102). -/
theorem State.holdLeft_timing {s : State} {p : PortNo} {y : Hold} {n : Nat}
    (hx : s.ports[p].hold = some y) (hy : y.phase = .timing n) : s.holdLeft p = some y := by
  rw [State.holdLeft, hx]
  simp [Hold.awaits, hy, Option.filter]

theorem State.holdLeft_awaiting {s : State} (T : s.TableOk) {p : PortNo} {y : Hold} {i : EntryNo}
    {e : Entry} (hx : s.ports[p].hold = some y)
    (hy : y.phase = .awaitingRead i ∨ y.phase = .awaitingRelease i) (he : s.entries[i] = some e)
    (hw : e.onWaitList p = true) : s.holdLeft p = none := by
  have hany : ((s.waitList p).any fun je => y.awaits p je) = true :=
    List.any_eq_true.2 ⟨(i, e), State.kind_of_entry T he hw, by
      simpa [Hold.awaits, Entry.onWaitList_route hw] using hy⟩
  rw [State.holdLeft, hx]
  simp [Option.filter, hany]

/-- The loss of a port, whether it goes OFFLINE or its link goes down from ONLINE (R72, R73). -/
theorem State.loss_eq {s t : State} {p : PortNo} {x : PortState} {kind : AttnKind}
    (hon : s.ports[p].state = .online)
    (h : (x = .offline ∧ kind = .portOffline ∧ t = s.goOffline p) ∨
      (x = .absent ∧ kind = .portLost ∧ t = s.loseLink p)) :
    t = (((s.lost p x).endAtPort p).breakHold p).raise (.port p) kind none := by
  rcases h with ⟨rfl, rfl, rfl⟩ | ⟨rfl, rfl, rfl⟩
  · rfl
  · simp only [State.loseLink, hon]; rfl

/-- Settles O33: `KindEnded` over the wait list, then the ORPHANED entries and the hold. -/
theorem lossOfAPortEndsItsEntries : Obligations.LossOfAPortEndsItsEntries := by
  intro s p x kind t T E hon h
  have hu : KindEnded (Entry.onWaitList p) .noTarget (fun _ => none) (s.lost p x)
      ((s.lost p x).endAll .noTarget (fun _ => none) (s.waitList p)) :=
    State.endKind_ended (liveKind_onWaitList p) (by decide) _ (s := s.lost p x) T
  have hT : ((s.lost p x).endAll .noTarget (fun _ => none) (s.waitList p)).TableOk :=
    (State.endAll_acts _ _ _ _).tableOk T
  have hended := (s.lost p x).endAll_eq_foldl .noTarget (fun _ => none) (s.waitList p)
  have hv : ((s.lost p x).endAtPort p).breakHold p =
      (((s.lost p x).endAll .noTarget (fun _ => none) (s.waitList p)).freeAll
        (((s.lost p x).endAll .noTarget (fun _ => none) (s.waitList p)).kind
          (Entry.pieceOutAt p))).breakHold p := rfl
  refine ⟨_, State.loss_eq hon h, ?_⟩
  rw [hv]
  generalize (s.lost p x).endAll .noTarget (fun _ => none) (s.waitList p) = u at *
  rw [hu.afterLoss_frame]
  refine ⟨rfl, fun i e he hat => ?_, fun i e he hw ho => ?_, fun i hi => ?_, fun hx => ?_,
    fun y n hx hy => ?_, fun y i e hx hy he hw => ?_, s.keys_filter_table _, ?_, ?_, rfl, rfl, rfl,
    rfl, rfl, rfl⟩
  · exact hu.loss_at hT he hat
  · rcases hu.loss_elsewhere hT (j := i) (fun f hf => by cases he.symm.trans hf; exact hw)
      (fun f hf => by cases he.symm.trans hf; exact ho) with hd | ⟨f, hf, hp, hc, hd⟩
    · exact .inl (hd.trans he)
    · cases he.symm.trans hf
      exact .inr ⟨hp, hc, hd⟩
  · rcases hu.loss_elsewhere hT (j := i) (by simp [hi]) (by simp [hi]) with hd | ⟨_, _, _, _, hd⟩
    · exact hd.trans hi
    · exact hd
  · rw [State.holdLeft, hx]; rfl
  · rw [State.holdLeft_timing hx hy]; rfl
  · rw [State.holdLeft_awaiting T hx hy he hw]; rfl
  · dsimp only
    rw [hended]
    exact ⟨rfl, rfl, rfl⟩
  · rfl

end Sys2Proof.Machine
end

section
/-!
PROOFS. The power alert guard (R128 to R131) and its sweep (R134): the ends of the guarded writes that wait
or back off, and the P responses that leave with them, in order.
-/

namespace Sys2Proof.Machine

/-! ## The commands of the guard -/

theorem Lines.eventTaken_eq_false_iff (l : Lines) :
    (!l.eventTaken) = true ↔ l.early.head? = some true := by
  unfold Lines.eventTaken
  cases l.early with
  | nil => simp
  | cons b rest => cases b <;> simp

/-- The PALERT line takes a level, and the first of the lines that move ahead of their events is taken off the
list (log entry 17). -/
def State.palertLine (s : State) (level : Bool) : State :=
  { s with lines := { s.lines with palert := level, early := s.lines.early.tail } }

/-- PALERT_ASSERT closes the guard, or changes the line alone (R129). -/
theorem exec_palertAssert (s : State) : exec .palertAssert s =
    if s.lines.early.head? = some true ∨ s.lines.porst = true ∨ s.guard = .guarded then
      .next (s.palertLine true)
    else .next (s.palertLine true).closeGuard :=
  if_congr (or_congr_left s.lines.eventTaken_eq_false_iff) rfl rfl

/-- PALERT_DEASSERT starts the hold-off, or changes the line alone (R130). -/
theorem exec_palertDeassert (s : State) : exec .palertDeassert s =
    if ¬ s.lines.early.head? = some true ∧ s.lines.porst = false ∧ s.guard = .guarded then
      .next { s.palertLine false with guard := .releasing s.setup.settings.holdOff.toNat }
    else .next (s.palertLine false) := by
  have htaken : s.lines.eventTaken = true ↔ ¬ s.lines.early.head? = some true := by
    rw [← s.lines.eventTaken_eq_false_iff]; simp
  have hporst : (!s.lines.porst) = true ↔ s.lines.porst = false := by simp
  exact if_congr (and_congr htaken (and_congr_left' hporst)) rfl rfl

/-! ## The sweep -/

/-- A guarded write that waits or backs off (R134). -/
def Entry.swept (e : Entry) : Bool := e.guardedWrite && e.queued

theorem State.sweep_eq (s : State) :
    s.sweep = s.endAll .guarded (fun e => some e.pieceAddress) (s.kind Entry.swept) := rfl

theorem Entry.swept_eq (e : Entry) : e.swept =
    ((decide (e.state = .waiting) || decide (e.state = .backoff)) &&
      (decide (e.op = .write) || decide (e.op = .writeRelease)) &&
      e.decode.any fun d => d.guarded) := by
  have hop : (!e.op.isRead) = (decide (e.op = .write) || decide (e.op = .writeRelease)) := by
    cases e.op <;> rfl
  rw [Entry.swept, Entry.guardedWrite, hop, Bool.and_comm, ← Bool.and_assoc]
  rfl

theorem Entry.swept_iff (e : Entry) : e.swept = true ↔
    (e.state = .waiting ∨ e.state = .backoff) ∧ (e.op = .write ∨ e.op = .writeRelease) ∧
      ∃ d, e.decode = some d ∧ d.guarded = true := by
  simp [Entry.swept, Entry.guardedWrite_iff, Entry.queued]
  tauto

theorem liveKind_swept : LiveKind Entry.swept := fun _ h =>
  Entry.live_of_queued ((Bool.and_eq_true _ _).mp h).2

theorem State.sweep_ended {s : State} (T : s.TableOk) :
    KindEnded Entry.swept .guarded (fun e => some e.pieceAddress) s s.sweep := by
  rw [State.sweep_eq]
  exact State.endKind_ended liveKind_swept (by decide) _ T

/-! ## The P responses that leave -/

/-- The entries at the head of the P response list that leave have left (R53). -/
theorem State.pList_deliverUpTo (n : Nat) {s : State} (hn : s.pList.length ≤ n) (hd : s.order.Nodup) :
    (s.deliverUpTo n).pList = s.pList.dropWhile leavesAtHead := by
  induction n generalizing s with
  | zero =>
    have hnil : s.pList = [] := List.length_eq_zero_iff.1 (Nat.le_zero.1 hn)
    simp [State.deliverUpTo, hnil]
  | succ n ih =>
    rw [State.deliverUpTo]
    cases hl : s.pList with
    | nil => simp only [State.deliverHead, hl, List.dropWhile_nil]
    | cons ie rest =>
      obtain ⟨i, e⟩ := ie
      rw [State.deliverHead_cons hl]
      by_cases hleaves : leavesAtHead (i, e) = true
      · have hrest := State.pList_after_head hd hl (.response e.response)
        rw [hl, List.length_cons] at hn
        rw [if_pos hleaves, List.dropWhile_cons_of_pos hleaves, ← hrest]
        exact ih (by rw [hrest]; omega) (hd.filter _)
      · rw [if_neg hleaves, List.dropWhile_cons_of_neg hleaves]
        exact hl

theorem takeWhile_dropWhile {α : Type} (p : α → Bool) (l : List α) :
    (l.dropWhile p).takeWhile p = [] := by
  induction l with
  | nil => rfl
  | cons x l ih => cases hx : p x <;> simp [hx, ih]

/-- The record that a P entry of the kind has once all the kind have ended. -/
def endOf (q : Entry → Bool) (st : Status) (f : Entry → Option Word) (je : EntryNo × Entry) :
    EntryNo × Entry :=
  if q je.2 = true then (je.1, je.2.ended st (f je.2) none) else je

/-- The P entries of the list that leave, in order, once the entries of the kind have ended (R53). -/
def leavingOf (q : Entry → Bool) (st : Status) (f : Entry → Option Word) (l : List (EntryNo × Entry)) :
    List (EntryNo × Entry) :=
  (l.map (endOf q st f)).takeWhile leavesAtHead

theorem leavingOf_of_left {q : Entry → Bool} (hq : LiveKind q) (st : Status) (f : Entry → Option Word)
    (l : List (EntryNo × Entry)) :
    leavingOf q st f l =
      l.takeWhile leavesAtHead ++ leavingOf q st f (l.dropWhile leavesAtHead) := by
  have hsame : ∀ je ∈ l.takeWhile leavesAtHead, endOf q st f je = je := by
    intro je hje
    have hleaves := List.mem_takeWhile_imp hje
    rw [leavesAtHead, Bool.and_eq_true, decide_eq_true_eq] at hleaves
    rw [endOf, hq.complete _ hleaves.1]
    rfl
  conv_lhs => rw [leavingOf, ← List.takeWhile_append_dropWhile (p := leavesAtHead) (l := l), List.map_append,
    List.map_congr_left hsame, List.map_id']
  exact List.takeWhile_append_of_pos fun je hje => List.mem_takeWhile_imp hje

/-- The list with the record of entry i ended. -/
def endIn (i : EntryNo) (e : Entry) (l : List (EntryNo × Entry)) : List (EntryNo × Entry) :=
  l.map fun jf => if i = jf.1 then (jf.1, e) else jf

theorem State.mem_pList {s : State} {i : EntryNo} {e : Entry} (h : (i, e) ∈ s.pList) :
    s.entries[i] = some e ∧ e.origin = .p := by
  obtain ⟨he, hp⟩ := State.mem_kind (q := fun e => decide (e.origin = .p)) h
  exact ⟨he, of_decide_eq_true hp⟩

/-- A change of a P record that leaves it a P record changes the P response list there alone. -/
theorem State.pList_modEntry {s : State} {i : EntryNo} {e f : Entry} (he : s.entries[i] = some e)
    (ho : e.origin = .p) (hf : f.origin = .p) :
    (s.modEntry i fun _ => f).pList = endIn i f s.pList := by
  rw [State.pList, State.table_modEntry, List.filter_map, endIn, State.pList]
  congr 1
  refine List.filter_congr fun jf hjf => ?_
  simp only [Function.comp]
  split
  · rename_i hij
    obtain ⟨_, hj⟩ := State.mem_table.1 hjf
    cases he.symm.trans (hij ▸ hj)
    simp [ho, hf]
  · rfl

/-- Along the end of a P entry: the entries that can leave do, and the rest of the list is left (R53). -/
theorem State.endEntry_pList {s : State} (T : s.TableOk) {i : EntryNo} {e : Entry}
    (he : s.entries[i] = some e) (hl : e.Live) (ho : e.origin = .p) (st : Status) (a : Option Word) :
    let list := endIn i (e.ended st a none) s.pList
    let u := s.endEntry i st a none
    u.pList = list.dropWhile leavesAtHead ∧ u.channels = s.channels ∧ u.attention = s.attention ∧
      u.lines = s.lines ∧ u.pSent = if s.lines.pLink = true then
        s.pSent ++ (list.takeWhile leavesAtHead).map fun jf => .response jf.2.response else s.pSent := by
  dsimp only
  rw [State.endEntry_live he hl, ho]
  dsimp only
  rw [s.holdAtEnd_frame i e st]
  generalize (s.holdAtEnd i e st).ports = ports
  have hlist : (State.modEntry { s with ports } i fun _ => e.ended st a none).pList =
      endIn i (e.ended st a none) s.pList :=
    State.pList_modEntry (s := { s with ports }) he ho ho
  have hn := State.pList_length_le (s := State.modEntry { s with ports } i fun _ => e.ended st a none) T.1
  obtain ⟨hstate, _⟩ := State.deliverUpTo_spec 24
    (State.modEntry { s with ports } i fun _ => e.ended st a none) hn T.1
  refine ⟨(State.pList_deliverUpTo 24 hn T.1).trans (by rw [hlist]), ?_⟩
  rw [State.deliverP, hstate, hlist]
  exact ⟨rfl, rfl, rfl, rfl⟩

/-- The end of a B entry leaves the P response list and the P link alone (R54). -/
theorem State.endEntry_pList_b {s : State} {i : EntryNo} {e : Entry} (he : s.entries[i] = some e)
    (hl : e.Live) {x : BitVec 4} (ho : e.origin = .b x) (st : Status) (a : Option Word) :
    let u := s.endEntry i st a none
    u.pList = s.pList ∧ u.channels = s.channels ∧ u.attention = s.attention ∧ u.lines = s.lines ∧
      u.pSent = s.pSent := by
  dsimp only
  rw [State.endEntry_live he hl, ho]
  dsimp only
  rw [s.holdAtEnd_frame i e st]
  refine ⟨?_, rfl, rfl, rfl, rfl⟩
  rw [State.pList_eq, State.kind_free]
  exact State.without_kind fun f hf => by cases he.symm.trans hf; simp [ho]

/-- Once one of the kind has ended, the rest of the kind is still to end. -/
theorem leavingOf_endIn {q : Entry → Bool} (hq : LiveKind q) {st : Status} {f : Entry → Option Word}
    {s : State} {i : EntryNo} {e : Entry} (he : s.entries[i] = some e) (hqe : q e = true) :
    leavingOf q st f (endIn i (e.ended st (f e) none) s.pList) = leavingOf q st f s.pList := by
  have hended := hq.complete (e.ended st (f e) none) rfl
  rw [leavingOf, leavingOf, endIn, List.map_map]
  congr 1
  refine List.map_congr_left fun jf hjf => ?_
  simp only [Function.comp]
  split
  · rename_i hij
    cases he.symm.trans (hij ▸ (State.mem_pList hjf).1)
    simp [endOf, hqe, hended]
  · rfl

/-- With no channel entry of the kind and no ended entry at the head, the ends of the kind send the P responses
that can then leave, in order, and change no channel and no attention (R53). -/
theorem State.endKind_pSent {q : Entry → Bool} (hq : LiveKind q) {st : Status} (h : st ≠ .ok)
    (f : Entry → Option Word) {s : State} (T : s.TableOk)
    (hm : ∀ je ∈ s.kind q, je.2.origin.isM = false) (hhead : s.pList.takeWhile leavesAtHead = []) :
    let t := s.endAll st f (s.kind q)
    t.channels = s.channels ∧ t.attention = s.attention ∧
      t.pSent = if s.lines.pLink = true then
        s.pSent ++ (leavingOf q st f s.pList).map fun jf => .response jf.2.response else s.pSent := by
  refine State.endKind_induction hq h f (P := fun s t =>
    (∀ je ∈ s.kind q, je.2.origin.isM = false) → s.pList.takeWhile leavesAtHead = [] →
      t.channels = s.channels ∧ t.attention = s.attention ∧
        t.pSent = if s.lines.pLink = true then
          s.pSent ++ (leavingOf q st f s.pList).map fun jf => .response jf.2.response
        else s.pSent) (fun s T hnil _ hhead => ?_) (fun s t i e T he hqe hkind ih hm hhead => ?_)
    T hm hhead
  · have hsame : s.pList.map (endOf q st f) = s.pList := by
      refine (List.map_congr_left fun jf hjf => if_neg fun hqj => ?_).trans (List.map_id' _)
      have hmem := State.kind_of_entry T (State.mem_pList hjf).1 hqj
      rw [hnil] at hmem
      cases hmem
    simp [leavingOf, hsame, hhead]
  · rw [hkind] at hm
    have hm' := fun je hje => hm je (List.mem_cons_of_mem _ hje)
    have horigin := hm (i, e) List.mem_cons_self
    cases ho : e.origin with
    | m c => simp [ho, Origin.isM] at horigin
    | b x =>
      obtain ⟨hlist, hchannels, hattention, hlines, hsent⟩ :=
        State.endEntry_pList_b he (hq e hqe) ho st (f e)
      have hih := ih hm' (by rw [hlist]; exact hhead)
      rw [hlist, hchannels, hattention, hlines, hsent] at hih
      exact hih
    | p =>
      obtain ⟨hlist, hchannels, hattention, hlines, hsent⟩ :=
        State.endEntry_pList T he (hq e hqe) ho st (f e)
      have hih := ih hm' (by rw [hlist]; exact takeWhile_dropWhile _ _)
      rw [hlist, hchannels, hattention, hlines, hsent] at hih
      rw [← leavingOf_endIn hq he hqe, leavingOf_of_left hq, List.map_append]
      obtain ⟨h1, h2, h3⟩ := hih
      refine ⟨h1, h2, h3.trans ?_⟩
      split <;> simp

/-- No ended entry is at the head between two events, so none leaves (R53). -/
theorem State.HeadOk.takeWhile {s : State} (h : s.HeadOk) : s.pList.takeWhile leavesAtHead = [] := by
  cases hl : s.pList with
  | nil => rfl
  | cons x rest => exact List.takeWhile_cons_of_neg (by simp [leavesAtHead, h x rest hl])

/-- Settles O54: the commands by `exec_palertAssert` and its like; the sweep by `KindEnded` over the guarded
writes that wait or back off. -/
theorem guardClosesReleasesAndOpens : Obligations.GuardClosesReleasesAndOpens := by
  refine ⟨fun s => ?_, fun s T E => ?_, fun s => ?_⟩
  · refine ⟨fun he hp hg => ?_, fun h => ?_, fun he hp hg => ?_, fun h => ?_, fun n hp hg => ?_,
      fun h => ?_⟩
    · rw [exec_palertAssert, if_neg (by simp [hp, hg]; exact he)]
      rfl
    · rw [exec_palertAssert, if_pos h]
      rfl
    · rw [exec_palertDeassert, if_pos ⟨he, hp, hg⟩]
      rfl
    · rw [exec_palertDeassert, if_neg (by
        rintro ⟨he, hp, hg⟩
        rcases h with h | h | h
        · exact he h
        · rw [hp] at h; cases h
        · exact h hg)]
      rfl
    · simp only [exec, execHoldOffTimerExpiry, hg, hp]
      rfl
    · simp only [exec, execHoldOffTimerExpiry]
      cases hg : s.guard with
      | releasing n => exact if_pos (h.resolve_right fun h => h n hg)
      | opened => rfl
      | guarded => rfl
  · have hs := State.sweep_ended T
    refine ⟨fun i e d he hstate hop hd hguarded => ?_, fun i e he h => ?_, ?_,
      s.sweep_acts.untouched, by rw [hs.frame], by rw [hs.frame]⟩
    · exact hs.ended i e he (e.swept_iff.2 ⟨hstate, hop, d, hd, hguarded⟩)
    · have hkept : e.swept = false := by
        rw [← Bool.not_eq_true, Entry.swept_iff]
        rintro ⟨hstate, hop, d, hd, hguarded⟩
        rcases h with ⟨hw, hb⟩ | h | h | h
        · exact hstate.elim hw hb
        · simp [h] at hop
        · simp [h] at hop
        · rw [h d hd] at hguarded; cases hguarded
      rcases hs.other i fun f hf => by cases he.symm.trans hf; exact hkept with
        hd | ⟨f, hf, hp, hc, hd⟩
      · exact .inl (hd.trans he)
      · cases he.symm.trans hf
        exact .inr ⟨hp, hc, hd⟩
    · calc s.sweep.attention.queue.length ≤ s.sweep.attention.faultBound := Nat.le_add_right _ _
        _ ≤ s.attention.faultBound := hs.bound
        _ ≤ s.attention.queue.length + 4 := s.attention.faultBound_le
  · have hswept := Entry.swept_eq
    dsimp only
    simp only [← hswept]
    refine ⟨s.keys_filter_table Entry.swept, s.endAll_eq_foldl _ _ _, fun T E => ?_⟩
    have hs := State.sweep_ended T
    refine ⟨by rw [hs.frame]; rfl, fun p x hx => ?_, fun p hp => ?_, by rw [hs.frame], fun H hm => ?_⟩
    · rintro ⟨je, hje, hroute, hphase⟩
      exact hs.port_dropped hx hje (by simpa [Hold.awaits, hroute] using hphase)
    · refine hs.port_kept fun x hx je hje ha => hp x hx ⟨je, hje, ?_⟩
      simpa [Hold.awaits] using ha
    · exact State.endKind_pSent liveKind_swept (by decide) _ T hm H.takeWhile

end Sys2Proof.Machine
end

section
/-!
PROOFS. The close of an event (R64, R133, R143, R151): what it leaves to follow, and the oldest guarded
write that is due.
-/

namespace Sys2Proof.Machine

/-! ## Guarded writes that are due -/

/-- Which guarded writes are due for refusal, spelled out (R133). -/
theorem State.guardDue_iff {s : State} (T : s.TableOk) {j : EntryNo} {f : Entry}
    (hf : s.entries[j] = some f) : s.guardDue j f = true ↔ ∃ p,
      f.state = .waiting ∧ f.route = some (.port p) ∧ s.ports[p].state = .online ∧
      (f.op = .write ∨ f.op = .writeRelease) ∧ (∃ d, f.decode = some d ∧ d.guarded = true) ∧
      s.guard ≠ .opened ∧
      (∀ (k : EntryNo) (g : Entry) (a b c : List EntryNo), s.order = a ++ k :: b ++ j :: c →
        s.entries[k] = some g → g.origin = f.origin → g.route = some (.port p) →
          g.state ≠ .waiting ∧ g.state ≠ .backoff) ∧
      ∀ h, s.ports[p].hold = some h → h.holder.origin = f.origin := by
  have hport : s.guardDue j f = true ↔ ∃ p, f.route = some (.port p) ∧
      s.guardClosed = true ∧ f.guardedWrite = true ∧ s.ports[p].state = .online ∧
        s.dueAt p j f = true := by
    unfold State.guardDue
    rcases f.route with _ | ⟨p⟩ | _ | _ | _ <;> simp [and_assoc]
  rw [hport]
  refine exists_congr fun p => ?_
  rw [State.dueAt_iff T hf, Entry.guardedWrite_iff]
  constructor
  · rintro ⟨hr, hg, ⟨hop, hd⟩, hon, hw, _, horder, hhold⟩
    exact ⟨hw, hr, hon, hop, hd, of_decide_eq_true hg, horder, fun h hh => (hhold h hh).1⟩
  · rintro ⟨hw, hr, hon, hop, hd, hg, horder, hhold⟩
    refine ⟨hr, decide_eq_true hg, ⟨hop, hd⟩, hon, hw, hr, horder, fun h hh => ⟨hhold h hh, ?_⟩⟩
    rcases hop with hop | hop <;> simp [hop]

theorem State.swept_of_guardDue {s : State} {j : EntryNo} {f : Entry} (h : s.guardDue j f = true) :
    f.swept = true := by
  simp only [State.guardDue, Bool.and_eq_true] at h
  obtain ⟨⟨_, hw⟩, h⟩ := h
  rw [Entry.swept, hw, Bool.true_and, Entry.queued, Bool.or_eq_true]
  split at h
  · simp only [Bool.and_eq_true, State.dueAt, decide_eq_true_eq] at h
    exact .inl (decide_eq_true h.2.1.1.1)
  · cases h

/-- The oldest guarded write that is due has ended GUARDED (R133). -/
def State.refuse (s : State) (i : EntryNo) (e : Entry) : State :=
  s.endEntry i .guarded (some e.pieceAddress) none

theorem State.refuseUpTo_due {s : State} (hr : s.resetDue = false) {i : EntryNo} {e : Entry}
    (hfind : (s.table.find? fun ie => s.guardDue ie.1 ie.2) = some (i, e)) (n : Nat) :
    s.refuseUpTo (n + 1) = (s.refuse i e).refuseUpTo n := by
  simp only [State.refuseUpTo, hr, hfind, Bool.false_eq_true, if_false]
  rfl

theorem State.refuseUpTo_of_resetDue {s : State} (h : s.resetDue = true) (n : Nat) :
    s.refuseUpTo n = s := by
  cases n with
  | zero => rfl
  | succ n => exact if_pos h

theorem State.undue_of_find {s : State}
    (h : (s.table.find? fun ie => s.guardDue ie.1 ie.2) = none) : s.Undue := fun i e hmem =>
  Bool.eq_false_iff.2 (List.find?_eq_none.1 h (i, e) hmem)

theorem State.undue_of_none_swept {s : State} (h : (s.kind Entry.swept).length = 0) : s.Undue := by
  refine fun i e hmem => Bool.eq_false_iff.2 fun hdue => ?_
  have hkind : (i, e) ∈ s.kind Entry.swept :=
    List.mem_filter.2 ⟨hmem, State.swept_of_guardDue hdue⟩
  rw [List.length_eq_zero_iff.1 h] at hkind
  cases hkind

/-- A refusal leaves one guarded write less that waits or backs off. -/
theorem State.swept_refuse_lt {s : State} {i : EntryNo} {e : Entry}
    (hfind : (s.table.find? fun ie => s.guardDue ie.1 ie.2) = some (i, e)) :
    ((s.refuse i e).kind Entry.swept).length < (s.kind Entry.swept).length := by
  have hmem := List.mem_of_find?_eq_some hfind
  have hdue : s.guardDue i e = true :=
    List.find?_some (p := fun ie : EntryNo × Entry => s.guardDue ie.1 ie.2) hfind
  have hq := State.swept_of_guardDue hdue
  have hkind : (i, e) ∈ s.kind Entry.swept := List.mem_filter.2 ⟨hmem, hq⟩
  rw [State.refuse, State.kind_endEntry (State.mem_table.1 hmem).2 (liveKind_swept e hq) (by decide) _ _
    liveKind_swept.complete]
  exact List.length_filter_lt_length_iff_exists.2 ⟨(i, e), hkind, by simp⟩

/-- As many refusals as guarded writes wait or back off are enough: then a card reset is due or no write is
(R64, R133). -/
theorem State.refuseUpTo_leaves (n : Nat) {s : State} (h : (s.kind Entry.swept).length ≤ n) :
    (s.refuseUpTo n).resetDue = true ∨ (s.refuseUpTo n).Undue := by
  induction n generalizing s with
  | zero => exact .inr (State.undue_of_none_swept (Nat.le_zero.1 h))
  | succ n ih =>
    cases hr : s.resetDue with
    | true => rw [State.refuseUpTo_of_resetDue hr]; exact .inl hr
    | false =>
      cases hfind : s.table.find? fun ie => s.guardDue ie.1 ie.2 with
      | none =>
        have hdue := State.undue_of_find hfind
        rw [State.refuseUpTo_of_undue hdue]
        exact .inr hdue
      | some ie =>
        obtain ⟨i, e⟩ := ie
        rw [State.refuseUpTo_due hr hfind]
        have hless := State.swept_refuse_lt hfind
        exact ih (by omega)

/-- One more refusal than guarded writes wait or back off does nothing. -/
theorem State.refuseUpTo_succ (n : Nat) {s : State} (h : (s.kind Entry.swept).length ≤ n) :
    s.refuseUpTo (n + 1) = s.refuseUpTo n := by
  induction n generalizing s with
  | zero => exact State.refuseUpTo_of_undue (State.undue_of_none_swept (Nat.le_zero.1 h)) 1
  | succ n ih =>
    cases hr : s.resetDue with
    | true => rw [State.refuseUpTo_of_resetDue hr, State.refuseUpTo_of_resetDue hr]
    | false =>
      cases hfind : s.table.find? fun ie => s.guardDue ie.1 ie.2 with
      | none =>
        have hdue := State.undue_of_find hfind
        rw [State.refuseUpTo_of_undue hdue, State.refuseUpTo_of_undue hdue]
      | some ie =>
        obtain ⟨i, e⟩ := ie
        have hless := State.swept_refuse_lt hfind
        rw [State.refuseUpTo_due hr hfind, State.refuseUpTo_due hr hfind]
        exact ih (by omega)

theorem State.kind_length_le {s : State} (T : s.TableOk) (q : Entry → Bool) :
    (s.kind q).length ≤ 24 := (List.length_filter_le _ _).trans (State.table_length_le T)

/-- The close of an event refuses the oldest guarded write that is due, and closes from there (R133). -/
theorem State.settle_refuse {s : State} (T : s.TableOk) (hr : s.resetDue = false) {i : EntryNo}
    {e : Entry} (hfind : (s.table.find? fun ie => s.guardDue ie.1 ie.2) = some (i, e)) :
    s.settle = (s.refuse i e).settle := by
  have hrefuse : s.refuseGuarded = (s.refuse i e).refuseGuarded := by
    have hless := State.swept_refuse_lt hfind
    have hlength := State.kind_length_le T Entry.swept
    calc s.refuseGuarded = (s.refuse i e).refuseUpTo 23 := State.refuseUpTo_due hr hfind 23
      _ = (s.refuse i e).refuseUpTo 24 := (State.refuseUpTo_succ 23 (by omega)).symm
  rw [State.settle, State.settle, hrefuse]

/-! ## The asks -/

/-- An ask is served by the attention unit (R46, R143). -/
theorem State.inService_of_asks {s : State} (E : s.EntriesOk) {i : EntryNo} {e : Entry}
    (h : (i, e) ∈ s.asks) : s.InService i e := by
  obtain ⟨he, hq⟩ := State.mem_kind (q := Entry.isAsk) h
  obtain ⟨hroute, hstate⟩ : e.route = some .attn ∧ e.state = .serving := by
    simpa [Entry.isAsk] using hq
  exact
    { entry := he, state := hstate, origin := (E i e he).serving hstate
      route := fun p hp => by rw [hroute] at hp; cases hp }

/-- Entry i, which a block serves, has ended: the other entries of a kind of live entries are as before, and so
are the ports, the guard and the walk. -/
structure ServedEnded (s t : State) (i : EntryNo) : Prop where
  kind : ∀ q : Entry → Bool, (∀ e, e.state = .complete → q e = false) →
    t.kind q = without i (s.kind q)
  ports : t.ports = s.ports
  guard : t.guard = s.guard
  walk : t.attention.walk = s.attention.walk

/-- The end of a served entry makes no guarded write due (R133). -/
theorem ServedEnded.undue {s t : State} {i : EntryNo} {e : Entry} (h : ServedEnded s t i)
    (hserved : s.InService i e) (hdue : s.Undue) : t.Undue := by
  refine hdue.congr ?_ h.ports h.guard
  rw [h.kind _ fun f hf => by simp [Entry.queued, hf]]
  refine State.without_kind fun f hf => ?_
  cases hserved.entry.symm.trans hf
  simp [Entry.queued, hserved.state]

theorem Entry.isAsk_of_complete (e : Entry) (h : e.state = .complete) : e.isAsk = false := by
  simp [Entry.isAsk, h]

theorem ServedEnded.asks {s t : State} {i : EntryNo} (h : ServedEnded s t i) :
    t.asks = without i s.asks := h.kind Entry.isAsk Entry.isAsk_of_complete

theorem State.setBuffer_endEntry {s : State} {i : EntryNo} {e : Entry} (h : s.InService i e)
    (b : Vector Byte 64) (st : Status) :
    ServedEnded s ((s.setBuffer i e b).endEntry i st none none) i := by
  obtain ⟨_, _, _, _, hframe⟩ := State.endEntry_served_frame (h.setBuffer b) st none none
  refine ⟨fun q hq => ?_, by rw [hframe]; rfl, by rw [hframe]; rfl, by rw [hframe]; rfl⟩
  rw [State.kind_endEntry_served (h.setBuffer b) hq, ← State.setBuffer_eq h.entry fun _ => b,
    State.without_kind_modEntry]

theorem State.endAsk_ended {s : State} {i : EntryNo} {e : Entry} (h : s.InService i e) (a : Answer) :
    ServedEnded s (s.endAsk i a) i := by
  have hset := State.setBuffer_eq h.entry fun b =>
    placeBytes b 0 (a.bytes s.attention.queue.length s.attention.overflow)
  simp only [State.endAsk, hset]
  exact State.setBuffer_endEntry h _ .ok

theorem State.takeRead_ended {s : State} {i : EntryNo} {e : Entry} (h : s.InService i e) :
    ServedEnded s (s.takeRead i e) i := by
  obtain ⟨b, st, hread⟩ := State.takeRead_cases h.entry
  rw [hread]
  exact State.setBuffer_endEntry h b st

/-- An ASK that is sent makes no guarded write due (R17, R146). -/
theorem State.sendAsk_undue {s : State} (h : s.Undue) (i : EntryNo) (p : PortNo) :
    (s.sendAsk i p).Undue := by
  have hport (q : PortNo) : (s.sendAsk i p).ports[q].state = s.ports[q].state ∧
      (s.sendAsk i p).ports[q].hold = s.ports[q].hold := by
    have hports : (s.sendAsk i p).ports =
        (s.modPort p fun port => { port with askNumber := s.ports[p].askNumber + 1 }).ports := rfl
    rw [hports, State.modPort_port]
    split <;> exact ⟨rfl, rfl⟩
  intro j e hmem
  have hdue := h j e hmem
  simp only [State.guardDue, State.dueAt, State.heldBack, hport] at hdue ⊢
  exact hdue

theorem State.walkOn_cases (s : State) (i : EntryNo) (l : List PortNo) :
    s.walkOn i l = s.endAsk i .empty ∨ ∃ p, s.walkOn i l = s.sendAsk i p := by
  induction l with
  | nil => exact .inl rfl
  | cons p l ih =>
    rw [State.walkOn]
    split
    · exact .inr ⟨p, rfl⟩
    · exact ih

/-- An ask that is taken is answered, or a walk begins for it (R143, R146). -/
theorem State.takeAsk_cases {s : State} {i : EntryNo} {e : Entry} (h : s.InService i e) :
    ServedEnded s (s.takeAsk i) i ∨ ∃ p, s.takeAsk i = s.sendAsk i p := by
  have hpopped (a : Attention) (ha : a.walk = s.attention.walk) (x : Answer) :
      ServedEnded s (({ s with attention := a } : State).evalPending.endAsk i x) i := by
    obtain ⟨hkind, hports, hguard, hwalk⟩ := State.endAsk_ended
      (s := ({ s with attention := a } : State).evalPending) ⟨h.entry, h.state, h.origin, h.route⟩ x
    exact ⟨hkind, hports, hguard, hwalk.trans ha⟩
  unfold State.takeAsk
  split
  · rename_i r queue _
    exact .inl (hpopped { s.attention with queue } rfl (.record r))
  · split
    · exact .inl (hpopped { s.attention with overflow := false } rfl .overflow)
    · rcases s.walkOn_cases i (List.finRange 4) with hw | ⟨p, hw⟩
      · rw [hw]; exact .inl (State.endAsk_ended h _)
      · exact .inr ⟨p, hw⟩

/-- No guarded write is due and no ask can be taken (R133, R143). -/
def State.NoRefusalNoAsk (s : State) : Prop :=
  s.Undue ∧ (s.attention.walk.isSome = true ∨ s.asks = [])

/-- As many takes as asks wait are enough: then a card reset is due, or no ask can be taken (R64, R143). -/
theorem State.takeAsksUpTo_leaves (n : Nat) {s : State} (E : s.EntriesOk) (hdue : s.Undue)
    (h : s.asks.length ≤ n) :
    (s.takeAsksUpTo n).resetDue = true ∨ (s.takeAsksUpTo n).NoRefusalNoAsk := by
  induction n generalizing s with
  | zero => exact .inr ⟨hdue, .inr (List.length_eq_zero_iff.1 (Nat.le_zero.1 h))⟩
  | succ n ih =>
    by_cases hw : s.attention.walk.isSome = true ∨ s.asks = []
    · rw [State.takeAsksUpTo_of_none hw]
      exact .inr ⟨hdue, hw⟩
    rw [not_or] at hw
    obtain ⟨hwalk, hasks⟩ := hw
    cases hr : s.resetDue with
    | true => rw [State.takeAsksUpTo, if_pos (by simp [hr])]; exact .inl hr
    | false =>
      obtain ⟨⟨i, e⟩, rest, hl⟩ := List.exists_cons_of_ne_nil hasks
      have hserved := State.inService_of_asks E (hl ▸ List.mem_cons_self)
      have htake : s.takeAsksUpTo (n + 1) = (s.takeAsk i).takeAsksUpTo n := by
        simp [State.takeAsksUpTo, hr, hwalk, hl]
      rw [htake]
      rcases State.takeAsk_cases hserved with hended | ⟨p, hsend⟩
      · refine ih ((s.takeAsk_acts i).entriesOk E) (hended.undue hserved hdue) ?_
        rw [hl, List.length_cons] at h
        rw [hended.asks, hl, without_cons_self]
        exact (List.length_filter_le _ _).trans (Nat.le_of_succ_le_succ h)
      · rw [hsend, State.takeAsksUpTo_of_none (.inl rfl)]
        exact .inr ⟨State.sendAsk_undue hdue i p, .inl rfl⟩

/-! ## The reads -/

/-- As many takes as the queue is long are enough: then a card reset is due, or no read is at the head
(R64, R151). -/
theorem State.takeReadsUpTo_leaves (n : Nat) {s : State} (E : s.EntriesOk) (ha : s.NoRefusalNoAsk)
    (h : s.mgmtQueue.length ≤ n) :
    (s.takeReadsUpTo n).resetDue = true ∨ ((s.takeReadsUpTo n).NoRefusalNoAsk ∧
      ∀ i e rest, (s.takeReadsUpTo n).mgmtQueue = (i, e) :: rest → e.op ≠ .read) := by
  induction n generalizing s with
  | zero =>
    refine .inr ⟨ha, fun i e rest hl => ?_⟩
    rw [State.takeReadsUpTo, List.length_eq_zero_iff.1 (Nat.le_zero.1 h)] at hl
    cases hl
  | succ n ih =>
    cases hr : s.resetDue with
    | true => rw [State.takeReadsUpTo_of_resetDue hr]; exact .inl hr
    | false =>
      cases hl : s.mgmtQueue with
      | nil =>
        rw [State.takeReadsUpTo_of_empty hl]
        exact .inr ⟨ha, fun i e rest hcons => by rw [hl] at hcons; cases hcons⟩
      | cons ie rest =>
        obtain ⟨i, e⟩ := ie
        have hserved := State.inService_of_mgmtQueue E (hl ▸ List.mem_cons_self)
        rw [State.takeReadsUpTo_cons hr hl]
        by_cases hop : e.op = .read
        · have hended := State.takeRead_ended hserved
          have hlength := State.mgmtQueue_takeRead E hl
          rw [hl, List.length_cons] at h
          rw [if_pos hop]
          refine ih ((s.takeRead_acts i e).entriesOk E) ⟨hended.undue hserved ha.1, ?_⟩ (by omega)
          refine ha.2.imp (fun hw => by rw [hended.walk]; exact hw) fun hasks => ?_
          rw [hended.asks, hasks]
          rfl
        · rw [if_neg hop]
          refine .inr ⟨ha, fun j f rest' hcons => ?_⟩
          rw [hl] at hcons
          cases hcons
          exact hop

/-! ## The close of an event -/

/-- With an empty table nothing is left to follow. -/
theorem State.calm_of_empty {s : State} (h : s.order = []) : s.Calm where
  guard i e hmem := by
    rw [State.mem_table, h] at hmem
    cases hmem.1
  reads i e rest hl := by
    rw [s.mgmtQueue_eq, State.kind_of_empty h] at hl
    cases hl
  asks := .inr (s.asks_eq.trans (State.kind_of_empty h _))
  reset := State.resetDue_of_empty h

/-- A state at rest is left as it stands. -/
theorem State.Calm.settle {s : State} (h : s.Calm) : s.settle = s := by
  have hreads : s.takeReads = s := by
    cases hl : s.mgmtQueue with
    | nil => exact State.takeReadsUpTo_of_empty hl 24
    | cons ie rest =>
      exact (State.takeReadsUpTo_cons h.reset hl 23).trans (if_neg (h.reads _ _ _ hl))
  rw [State.settle_eq_takeReads h.guard h.asks, hreads, State.closeEvent_of_not_due h.reset]

/-- A card reset that is due closes the event: its state is the state after the close (R64). -/
theorem State.settle_of_resetDue {s : State} (h : s.resetDue = true) : s.settle = s.closeReset := by
  have hempty := State.closeReset_order h
  have hasks : s.takeAsks = s := if_pos (by simp [h])
  have hclose : s.closeEvent = s.closeReset := if_pos h
  have hreads : s.closeReset.takeReads = s.closeReset :=
    State.takeReadsUpTo_of_empty ((State.mgmtQueue_eq _).trans (State.kind_of_empty hempty _)) 24
  rw [State.settle, State.refuseGuarded, State.refuseUpTo_of_resetDue h, hasks, hclose, hreads,
    State.closeEvent_of_not_due (State.resetDue_of_empty hempty)]

/-- After the refusals and the asks a card reset is due, or nothing is left of either (R64, R133, R143). -/
theorem State.takeAsks_leaves {s : State} (T : s.TableOk) (E : s.EntriesOk) :
    s.refuseGuarded.takeAsks.resetDue = true ∨ s.refuseGuarded.takeAsks.NoRefusalNoAsk := by
  have T' := s.refuseGuarded_acts.tableOk T
  have E' := s.refuseGuarded_acts.entriesOk E
  rcases State.refuseUpTo_leaves 24 (State.kind_length_le T Entry.swept) with hr | hdue
  · have hasks : s.refuseGuarded.takeAsks = s.refuseGuarded := if_pos (by simp [hr, State.refuseGuarded])
    rw [hasks]
    exact .inl hr
  · exact State.takeAsksUpTo_leaves 24 E' hdue (State.kind_length_le T' Entry.isAsk)

/-- The close of an event leaves nothing to follow (R64, R133, R143, R151). -/
theorem State.settle_calm {s : State} (T : s.TableOk) (E : s.EntriesOk) : s.settle.Calm := by
  have hleaves := State.takeAsks_leaves T E
  have hacts := s.refuseGuarded_acts.then (State.takeAsks_acts _)
  have T' := hacts.tableOk T
  have E' := hacts.entriesOk E
  rw [State.settle]
  generalize s.refuseGuarded.takeAsks = u at *
  cases hr : u.resetDue with
  | true =>
    have hempty := State.closeReset_order hr
    have hclose : u.closeEvent = u.closeReset := if_pos hr
    have hcalm := State.calm_of_empty hempty
    rw [hclose, State.takeReads, State.takeReadsUpTo_of_empty
      ((State.mgmtQueue_eq _).trans (State.kind_of_empty hempty _)),
      State.closeEvent_of_not_due hcalm.reset]
    exact hcalm
  | false =>
    have hleft := hleaves.resolve_left (by simp [hr])
    rw [State.closeEvent_of_not_due hr]
    have hreads := State.takeReadsUpTo_leaves 24 E' hleft
      (State.kind_length_le T' Entry.onMgmtQueue)
    rw [State.takeReads]
    generalize u.takeReadsUpTo 24 = t at *
    cases hrt : t.resetDue with
    | true =>
      have hclose : t.closeEvent = t.closeReset := if_pos hrt
      rw [hclose]
      exact State.calm_of_empty (State.closeReset_order hrt)
    | false =>
      obtain ⟨⟨hdue, hasks⟩, hhead⟩ := hreads.resolve_left (by simp [hrt])
      rw [State.closeEvent_of_not_due hrt]
      exact ⟨hdue, hhead, hasks, hrt⟩

/-- The oldest guarded write that is due is the first of the table that is (R44, R133). -/
theorem State.find_guardDue {s : State} {i : EntryNo} {e : Entry} {x y : List EntryNo}
    (ho : s.order = x ++ i :: y) (he : s.entries[i] = some e) (hdue : s.guardDue i e = true)
    (hold : ∀ j ∈ x, ∀ f, s.entries[j] = some f → ¬ s.guardDue j f = true) :
    (s.table.find? fun ie => s.guardDue ie.1 ie.2) = some (i, e) := by
  have hnone : (x.filterMap fun j => s.entries[j].map fun f => (j, f)).find?
      (fun ie => s.guardDue ie.1 ie.2) = none := by
    refine List.find?_eq_none.2 fun ie hie => ?_
    obtain ⟨j, hj, hmap⟩ := List.mem_filterMap.1 hie
    obtain ⟨f, hf, rfl⟩ := Option.map_eq_some_iff.1 hmap
    exact hold j hj f hf
  rw [State.table, ho, List.filterMap_append, List.find?_append, hnone, Option.none_or,
    List.filterMap_cons, he]
  simp [hdue]

/-- Settles O21: `State.Calm.settle`, `State.settle_calm`, and `State.settle_refuse` for the oldest guarded
write that is due. -/
theorem settlingLeavesNothingDue : Obligations.SettlingLeavesNothingDue := by
  refine ⟨fun s h => h.settle, fun s T E => State.settle_calm T E, ?_⟩
  intro s i e x y T hr due ho he hdue hold
  refine State.settle_refuse T hr (State.find_guardDue ho he ?_ fun j hj f hf h => ?_)
  · exact (State.guardDue_iff T he).2 hdue
  · obtain ⟨p, hp⟩ := (State.guardDue_iff T hf).1 h
    exact hold j hj f hf p hp

end Sys2Proof.Machine
end

section
/-!
PROOFS. DEFER, FAULT and the timers of a port (R58, R61, R86 to R89, R99).
-/

namespace Sys2Proof.Machine

/-- The index field of an answer names an entry by its number (R161). -/
theorem entryOfIndex_eq {index : BitVec 5} {i : EntryNo} (h : index.toNat = i.val) :
    entryOfIndex index = some i := by
  have hlt : index.toNat < 24 := h ▸ i.isLt
  rw [entryOfIndex, dif_pos hlt]
  exact congrArg some (Fin.ext h)

theorem Entry.pieceOutAt_iff (p : PortNo) (e : Entry) : e.pieceOutAt p = true ↔
    e.route = some (.port p) ∧ (e.state = .issued ∨ e.state = .orphaned) := by
  simp [Entry.pieceOutAt]

/-- An answer is taken for the entry that its stamp names, when a piece of it is out at the port (R58). -/
theorem State.answeredAt_eq {s : State} {p : PortNo} {index : BitVec 5} {i : EntryNo} {e : Entry}
    (hindex : index.toNat = i.val) (he : s.entries[i] = some e) (hout : e.pieceOutAt p = true) :
    s.answeredAt p index s.rounds[i] = some (i, e) := by
  simp only [State.answeredAt, entryOfIndex_eq hindex, Option.bind_some, he, hout, and_self, if_true]

theorem exec_targetDefer {s : State} {p : PortNo} {msg data : List Byte} {index : BitVec 5}
    {i : EntryNo} {e : Entry} (hporst : s.lines.porst = false) (hindex : index.toNat = i.val)
    (he : s.entries[i] = some e) (hout : e.pieceOutAt p = true)
    (hparse : parseAnswer 9 msg = some (index, s.rounds[i], data)) :
    exec (.targetDefer p msg) s = .next (s.takeDefer p i e) := by
  simp only [exec, execTargetDefer, hparse, State.answeredAt_eq hindex he hout, hporst]
  rfl

theorem exec_targetFault {s : State} {p : PortNo} {msg data : List Byte} {index : BitVec 5}
    {i : EntryNo} {e : Entry} (hporst : s.lines.porst = false) (hindex : index.toNat = i.val)
    (he : s.entries[i] = some e) (hout : e.pieceOutAt p = true)
    (hparse : parseAnswer 10 msg = some (index, s.rounds[i], data)) :
    exec (.targetFault p msg) s = .next (s.takeFault p i e) := by
  simp only [exec, execTargetFault, hparse, State.answeredAt_eq hindex he hout, hporst]
  rfl

/-- Settles O30: the answer is taken by `exec_targetDefer` or `exec_targetFault`, and what it does follows the
state of the entry and its retries. -/
theorem deferAndFaultAnswerThePiece : Obligations.DeferAndFaultAnswerThePiece := by
  intro s p msg data index round i e hporst hindex hround he hroute v freed address
  subst hround
  have hout (h : e.state = .issued ∨ e.state = .orphaned) : e.pieceOutAt p = true :=
    (e.pieceOutAt_iff p).2 ⟨hroute, h⟩
  have hlive (h : e.state = .issued) : ¬ e.state = .orphaned := by simp [h]
  refine ⟨fun hparse => ⟨fun h => ?_, fun h hretry => ?_, fun h hretry => ?_⟩,
    fun hparse => ⟨fun h => ?_, fun h => ?_⟩⟩
  · rw [exec_targetDefer hporst hindex he (hout (.inr h)) hparse, State.takeDefer]
    rw [if_pos h]
    rfl
  · rw [exec_targetDefer hporst hindex he (hout (.inl h)) hparse, State.takeDefer]
    rw [if_neg (hlive h), if_neg (by exact Nat.not_le.2 hretry)]
    have hmod (f : Entry → Entry) : (s.zeroNoAnswer p).modEntry i f =
        { v with entries := s.entries.set i (some (f e)) } := by
      rw [State.modEntry, show (s.zeroNoAnswer p).entries[i] = some e from he]
      rfl
    rw [hmod]
    rfl
  · rw [exec_targetDefer hporst hindex he (hout (.inl h)) hparse, State.takeDefer]
    rw [if_neg (hlive h), if_pos (by exact hretry)]
    rfl
  · rw [exec_targetFault hporst hindex he (hout (.inr h)) hparse, State.takeFault]
    rw [if_pos h]
    rfl
  · rw [exec_targetFault hporst hindex he (hout (.inl h)) hparse, State.takeFault]
    rw [if_neg (hlive h)]
    rfl

/-! ## Timers -/

/-- A port after the end of an entry with a status other than OK: nothing but its hold can differ. -/
theorem State.endEntry_port {s : State} {i : EntryNo} {e : Entry} (he : s.entries[i] = some e)
    (hl : e.Live) {st : Status} (h : st ≠ .ok) (a : Option Word) (p : PortNo) :
    (s.endEntry i st a none).ports[p] =
      { s.ports[p] with hold := s.ports[p].hold.filter fun x => !x.awaits p (i, e) } := by
  obtain ⟨hframe, _⟩ := State.endEntry_frame he hl h a
  rw [hframe]
  exact s.holdAtEnd_port i e h p

/-- The state at the expiry of a response timer before the silence is counted (R61, R89). -/
def State.silenced (s : State) (i : EntryNo) (e : Entry) : State :=
  if e.state = .orphaned then s.free i else s.endEntry i .noAnswer (some e.pieceAddress) none

/-- It has the port's state and no-answer count, and the configuration, of the state before. -/
theorem State.silenced_same {s : State} {i : EntryNo} {e : Entry} (he : s.entries[i] = some e)
    (hstate : e.state = .issued ∨ e.state = .orphaned) (p : PortNo) :
    (s.silenced i e).ports[p].state = s.ports[p].state ∧
      (s.silenced i e).ports[p].noAnswer = s.ports[p].noAnswer ∧
      (s.silenced i e).setup.portConfig[p] = s.setup.portConfig[p] := by
  unfold State.silenced
  split
  · exact ⟨rfl, rfl, rfl⟩
  · rename_i hno
    have hissued := hstate.resolve_right hno
    rw [State.endEntry_port he ⟨by simp [hissued], by simp [hissued]⟩ (by decide)]
    exact ⟨rfl, rfl, congrArg (fun x : Setup => x.portConfig[p])
      (s.endEntry_acts i _ _ _).untouched.setup⟩

/-- The silence of a port is counted, up to 7, and may take the port OFFLINE (R89). -/
theorem State.countSilence_eq (s : State) (p : PortNo) :
    let n := min 7 (s.ports[p].noAnswer + 1)
    let w : State := { s with ports := s.ports.set p { s.ports[p] with noAnswer := n } }
    s.countSilence p =
      if s.ports[p].state = .online ∧ s.setup.portConfig[p].offlineThreshold ≤ n then w.goOffline p
      else w := by
  have hport : (s.modPort p fun port =>
      { port with noAnswer := min Config.noAnswerMax (port.noAnswer + 1) }).ports[p] =
        { s.ports[p] with noAnswer := min 7 (s.ports[p].noAnswer + 1) } := by
    rw [State.modPort_port, if_pos rfl]; rfl
  simp only [State.countSilence, hport]
  rfl

theorem exec_responseTimerExpiry {s : State} {i : EntryNo} {e : Entry} {p : PortNo}
    (hporst : s.lines.porst = false) (he : s.entries[i] = some e) (hroute : e.route = some (.port p))
    (ht : e.timer.isSome = true) (hstate : e.state = .issued ∨ e.state = .orphaned) :
    exec (.responseTimerExpiry i) s = .next ((s.silenced i e).countSilence p).settle := by
  simp only [exec, execResponseTimerExpiry, he, hroute]
  exact if_pos ⟨by simp [hporst], (e.pieceOutAt_iff p).2 ⟨hroute, hstate⟩, ht⟩

/-- Without a response timer that runs nothing happens (log entries 5 and 6). -/
theorem exec_responseTimerExpiry_idle {s : State} {i : EntryNo}
    (h : s.lines.porst = true ∨ ∀ e, s.entries[i] = some e → e.timer = none ∨
      (e.state ≠ .issued ∧ e.state ≠ .orphaned) ∨ ∀ p, e.route ≠ some (.port p)) :
    exec (.responseTimerExpiry i) s = .next s := by
  simp only [exec, execResponseTimerExpiry]
  cases he : s.entries[i] with
  | none => rfl
  | some e =>
    dsimp only
    split
    · rename_i p hroute
      refine if_neg ?_
      rintro ⟨hporst, hout, ht⟩
      obtain ⟨_, hstate⟩ := (e.pieceOutAt_iff p).1 hout
      rcases h with h | h
      · simp [h] at hporst
      · rcases h e he with h | ⟨h1, h2⟩ | h
        · simp [h] at ht
        · exact hstate.elim h1 h2
        · exact h p hroute
    · rfl

theorem exec_retryTimerExpiry {s : State} {i : EntryNo} {e : Entry}
    (hporst : s.lines.porst = false) (he : s.entries[i] = some e) (hstate : e.state = .backoff)
    (ht : e.timer.isSome = true) :
    exec (.retryTimerExpiry i) s = .next (State.settle { s with
      entries := s.entries.set i (some { e with state := .waiting, timer := none }) }) := by
  simp only [exec, execRetryTimerExpiry, State.modEntry, he]
  exact if_pos ⟨by simp [hporst], hstate, ht⟩

/-- Without a retry timer that runs nothing happens (log entries 5 and 6). -/
theorem exec_retryTimerExpiry_idle {s : State} {i : EntryNo}
    (h : s.lines.porst = true ∨ ∀ e, s.entries[i] = some e → e.timer = none ∨ e.state ≠ .backoff) :
    exec (.retryTimerExpiry i) s = .next s := by
  simp only [exec, execRetryTimerExpiry]
  cases he : s.entries[i] with
  | none => rfl
  | some e =>
    refine if_neg ?_
    rintro ⟨hporst, hstate, ht⟩
    rcases h with h | h
    · simp [h] at hporst
    · rcases h e he with h | h
      · simp [h] at ht
      · exact h hstate

/-- Settles O32: each expiry acts on the timer that runs, and `silenced` keeps what the count of the silence
looks at. -/
theorem portTimersExpire : Obligations.PortTimersExpire := by
  intro s
  refine ⟨fun i e p hporst he hroute ht hstate => ?_,
    fun i e hporst he hstate ht => exec_retryTimerExpiry hporst he hstate ht,
    fun p x n hporst hx hphase => ?_, fun i h => exec_responseTimerExpiry_idle h,
    fun i h => exec_retryTimerExpiry_idle h, fun p h => ?_⟩
  · intro v n w
    have hv : s.silenced i e = v := rfl
    obtain ⟨hport, hcount, hconfig⟩ := State.silenced_same he hstate p
    rw [hv] at hport hcount hconfig
    rw [exec_responseTimerExpiry hporst he hroute ht hstate, hv, State.countSilence_eq, hport, hcount,
      hconfig]
  · simp only [exec, execHoldTimerExpiry, hx, hphase, hporst]
    rfl
  · simp only [exec, execHoldTimerExpiry]
    rcases hx : s.ports[p].hold with _ | ⟨holder, limit | _ | _⟩
    · rfl
    · rfl
    · exact if_pos (h.resolve_right fun h => h _ hx _ rfl)
    · rfl

end Sys2Proof.Machine
end

section
/-!
PROOFS. CHANNEL PAUSE, CONTINUE and STOP (R119 to R121), with the fetch that a CONTINUE starts (R112, R120).
-/

namespace Sys2Proof.Machine

/-- The channel a command word names, by the number of the word (R158). -/
theorem commandTarget_eq {w : Word} {c : Fin 4} (h : c.val = w.toNat / 256 % 4) :
    commandTarget w = c := by
  apply Fin.ext
  rw [h]
  simp [commandTarget, Nat.shiftRight_eq_div_pow]

/-- A fetch whose entry decodes: the entry waits at its port and the channel is FETCHING (R50, R120). -/
theorem State.startFetch_placed {s : State} {c : ChannelNo} {a : Word} {k : EntryNo} {d : DecodeRecord}
    (hq : s.ownedM c < 2) (hk : s.lowestFree = some k)
    (hd : s.decodeAddress (.m c) .read a = .ok d) :
    s.startFetch c a =
      { s.give k ((s.newEntry (.m c) none none none .data .read a 16 []).placed d) with
        channels := s.channels.set c
          { s.channels[c] with state := .fetching, fetchAddress := some a } } := by
  have hcreate := State.createMove_placed
    (s := s.modChannel c fun ch => { ch with state := .fetching, fetchAddress := some a })
    hq hk hd 16 []
  simp only [State.startFetch, hcreate]
  rfl

/-- A fetch that its decode ends: the channel is IDLE and FAULTED, and CHANNEL_FAULT is raised (R112). -/
theorem State.startFetch_ended {s : State} {c : ChannelNo} {a : Word} {k : EntryNo} {st : Status}
    {detail : Option Detail} (hq : s.ownedM c < 2) (hk : s.lowestFree = some k)
    (hd : s.decodeAddress (.m c) .read a = .error (st, detail)) :
    s.startFetch c a = State.raise { s with channels := s.channels.set c { s.channels[c] with
        state := .idle, outcome := .faulted, paceCredit := 0, fetchAddress := none
        faultStatus := some st, faultAddress := some a, faultDetail := detail } }
      (.channel c) .channelFault (some (st, a)) := by
  have hcreate := State.createMove_ended
    (s := s.modChannel c fun ch => { ch with state := .fetching, fetchAddress := some a })
    hq hk hd 16 []
  simp only [State.startFetch, hcreate, State.fetchFault, State.faultIdle, State.modChannel_modChannel,
    State.modChannel_channel, if_true]
  rfl

theorem State.Takes.exec_channelPause {s : State} {i : EntryNo} {e : Entry}
    (h : s.Takes .channelPause i e) {c : ChannelNo} (hc : commandTarget e.word = c) :
    exec .channelPause s = .next
      ((s.pauseChannel c).1.answered i (s.pauseChannel c).2.1 (s.pauseChannel c).2.2) :=
  hc ▸ h.takeWrite servePause

theorem State.Takes.exec_channelContinue {s : State} {i : EntryNo} {e : Entry}
    (h : s.Takes .channelContinue i e) {c : ChannelNo} (hc : commandTarget e.word = c) :
    exec .channelContinue s = .next
      ((s.continueChannel c).1.answered i (s.continueChannel c).2.1 (s.continueChannel c).2.2) :=
  hc ▸ h.takeWrite serveContinue

theorem State.Takes.exec_channelStop {s : State} {i : EntryNo} {e : Entry}
    (h : s.Takes .channelStop i e) {c : ChannelNo} (hc : commandTarget e.word = c) :
    exec .channelStop s = .next
      ((s.stopChannel c).1.answered i (s.stopChannel c).2.1 (s.stopChannel c).2.2) :=
  hc ▸ h.takeWrite serveStop

/-- CONTINUE of a channel paused with no units remaining starts the fetch at its link address (R120). -/
theorem State.continueChannel_fetch {s : State} {c : ChannelNo} (hs : s.channels[c].state = .paused)
    (hr : s.channels[c].remaining = 0) :
    s.continueChannel c = (s.startFetch c s.channels[c].descriptor.link, .ok, none) := by
  simp only [State.continueChannel, hs, hr, if_true]

theorem State.continueChannel_running {s : State} {c : ChannelNo}
    (h : s.channels[c].state = .pausing ∨
      (s.channels[c].state = .paused ∧ s.channels[c].remaining ≠ 0)) :
    s.continueChannel c = (s.modChannel c fun ch => { ch with state := .running }, .ok, none) := by
  rcases h with h | ⟨h, hr⟩
  · simp only [State.continueChannel, h]
  · simp only [State.continueChannel, h, if_neg hr]

theorem State.continueChannel_busy {s : State} {c : ChannelNo} (h1 : s.channels[c].state ≠ .pausing)
    (h2 : s.channels[c].state ≠ .paused) : s.continueChannel c = (s, .busy, none) := by
  cases h : s.channels[c].state with
  | pausing => exact absurd h h1
  | paused => exact absurd h h2
  | _ => simp only [State.continueChannel, h]

/-- A unit list that a STOP empties was empty (R121). -/
theorem stopUnits_isEmpty (l : List UnitRecord) : (stopUnits l).isEmpty = true ↔ l = [] := by
  cases l with
  | nil => simp [stopUnits]
  | cons u rest => cases h : u.phase <;> simp [stopUnits, h]

/-- STOP of a RUNNING or PAUSING channel: IDLE at once with an empty unit list, else STOPPING (R121). -/
theorem State.stopChannel_active {s : State} {c : ChannelNo}
    (h : s.channels[c].state = .running ∨ s.channels[c].state = .pausing) :
    s.stopChannel c =
      (if (stopUnits s.channels[c].units).isEmpty = true then
          s.modChannel c fun ch => Channel.enterIdle
            { ch with state := .stopping .stop, units := stopUnits ch.units } .stopped
        else s.modChannel c fun ch =>
          { ch with state := .stopping .stop, units := stopUnits ch.units }, .ok, none) := by
  rcases h with h | h <;> simp only [State.stopChannel, h]

/-- STOP of a PAUSED channel, or of an active one with no unit: IDLE, STOPPED (R121). -/
theorem State.stopChannel_at_once {s : State} {c : ChannelNo}
    (h : s.channels[c].state = .paused ∨
      ((s.channels[c].state = .running ∨ s.channels[c].state = .pausing) ∧
        s.channels[c].units = [])) :
    s.stopChannel c = (s.modChannel c fun ch => ch.enterIdle .stopped, .ok, none) := by
  rcases h with h | ⟨h, hu⟩
  · simp only [State.stopChannel, h]
  · have hsame : Channel.enterIdle
        { s.channels[c] with state := .stopping .stop, units := stopUnits s.channels[c].units }
          .stopped = s.channels[c].enterIdle .stopped := by
      simp only [hu, stopUnits, Channel.enterIdle]
    rw [State.stopChannel_active h, if_pos ((stopUnits_isEmpty _).2 hu)]
    simp only [State.modChannel, hsame]

/-- Settles O46: each command is the take of its row, whose service goes by the state of the channel. -/
theorem channelPauseContinueStop : Obligations.ChannelPauseContinueStop := by
  intro s i e c hc
  have htarget := commandTarget_eq hc
  refine ⟨fun ht h => ?_, fun ht h => ?_, fun ht h => ?_, fun ht h hr => ?_,
    fun k d ht h hr hq hk hd => ⟨freshBuffer s.freshCount [], ?_⟩, fun k st d ht h hr hq hk hd => ?_,
    fun ht h1 h2 => ?_, fun ht h => ?_, fun ht h => ?_, fun ht h hu => ?_,
    fun n m j k b => ⟨rfl, rfl, rfl, rfl, rfl, rfl⟩, fun ht h => ?_⟩
  · have hpause : s.pauseChannel c = (s.modChannel c fun ch =>
        { ch with state := if ch.units.isEmpty then .paused else .pausing }, .ok, none) :=
      if_neg (not_not.2 h)
    rw [ht.exec_channelPause htarget, hpause]
    simp only [State.modChannel, List.isEmpty_iff]
  · have hpause : s.pauseChannel c = (s, .busy, none) := if_pos h
    rw [ht.exec_channelPause htarget, hpause]
  · rw [ht.exec_channelContinue htarget, State.continueChannel_running h]
    rfl
  · rw [ht.exec_channelContinue htarget, State.continueChannel_fetch h hr]
  · rw [ht.exec_channelContinue htarget, State.continueChannel_fetch h hr,
      State.startFetch_placed hq hk hd]
    rfl
  · rw [ht.exec_channelContinue htarget, State.continueChannel_fetch h hr,
      State.startFetch_ended hq hk hd]
  · rw [ht.exec_channelContinue htarget, State.continueChannel_busy h1 h2]
  · have hstop : s.stopChannel c =
        (s.modChannel c fun ch => { ch with state := .stopping .stop }, .ok, none) := by
      simp only [State.stopChannel, h]
    rw [ht.exec_channelStop htarget, hstop]
    rfl
  · rw [ht.exec_channelStop htarget, State.stopChannel_at_once h]
    rfl
  · rw [ht.exec_channelStop htarget, State.stopChannel_active h,
      if_neg (mt (stopUnits_isEmpty _).1 hu)]
    rfl
  · have hstop : s.stopChannel c = (s, .busy, none) := by
      rcases h with h | ⟨cause, h⟩ <;> simp only [State.stopChannel, h]
    rw [ht.exec_channelStop htarget, hstop]

end Sys2Proof.Machine
end

section
/-!
PROOFS. The CARD RESET command (R64, R159): its take, its delivery and the card reset.
-/

namespace Sys2Proof.Machine

/-- Code 9 of the command word names the CARD RESET command (R158). -/
theorem commandRow_cardReset {w : Word} (h : commandRow w = .cardResetCommand) :
    w.extractLsb' 0 8 = 9#8 := by
  unfold commandRow at h
  split at h
  case h_9 hcode => exact BitVec.eq_of_toNat_eq hcode
  case h_5 => split at h <;> cases h
  all_goals cases h

/-- The row of a write to the command word with code 9 (R158). -/
theorem Entry.mgmtRow_cardReset {e : Entry} (h : e.mgmtRow = .cardResetCommand) :
    e.address = 0x080#32 ∧ e.word.extractLsb' 0 8 = 9#8 := by
  unfold Entry.mgmtRow at h
  split at h
  case h_1 ho =>
    exact ⟨BitVec.eq_of_toNat_eq (objectAt_eq_some_iff.1 ho), commandRow_cardReset h⟩
  all_goals cases h

theorem Entry.isCardReset_iff (e : Entry) : e.isCardReset = true ↔
    e.origin = .p ∧ e.route = some .mgmt ∧ e.op = .write ∧ e.address = 0x080#32 ∧
      e.word.extractLsb' 0 8 = 9#8 ∧ e.finalStatus = some .ok := by
  simp [Entry.isCardReset, and_assoc]

/-- An ended CARD RESET command at the head of the P response list leaves at the close of the event, which takes
the card reset (R64). -/
theorem State.settle_cardReset {s : State} {i : EntryNo} {e : Entry} {rest : List (EntryNo × Entry)}
    (hl : s.pList = (i, e) :: rest) (hstate : e.state = .complete) (hreset : e.isCardReset = true) :
    s.settle = State.cardReset { s with
      entries := s.entries.set i none
      order := s.order.filter fun j => j ≠ i
      pSent := if s.lines.pLink = true then
          s.pSent ++ [.response { tag := e.tag.getD 0, status := .ok, data := none,
                                  faultAddress := e.faultAddress, detail := e.detail }]
        else s.pSent } := by
  have hdue : s.resetDue = true := by simp [State.resetDue, hl, hstate, hreset]
  obtain ⟨_, _, hop, _, _, hok⟩ := e.isCardReset_iff.1 hreset
  have hresponse : e.response = { tag := e.tag.getD 0, status := .ok, data := none
                                  faultAddress := e.faultAddress, detail := e.detail } := by
    simp [Entry.response, hok, hop, Op.isRead]
  rw [State.settle_of_resetDue hdue]
  simp only [State.closeReset, hl, hresponse]
  rfl

/-- The end of a CARD RESET command that is the oldest P entry: it is COMPLETE at the head and stays there
until the close of the event (R64). -/
theorem State.endEntry_cardReset {s : State} {i : EntryNo} {e : Entry}
    {rest : List (EntryNo × Entry)} (hserved : s.InService i e) (hl : s.pList = (i, e) :: rest)
    (hreset : (e.ended .ok none none).isCardReset = true) :
    s.endEntry i .ok none none = { s with entries := s.entries.set i (some (e.ended .ok none none)) } ∧
      (s.endEntry i .ok none none).pList = (i, e.ended .ok none none) ::
        endIn i (e.ended .ok none none) rest := by
  have ho := (State.mem_pList (hl ▸ List.mem_cons_self)).2
  have hlist := State.pList_modEntry (f := e.ended .ok none none) hserved.entry ho ho
  have hcons : endIn i (e.ended .ok none none) s.pList =
      (i, e.ended .ok none none) :: endIn i (e.ended .ok none none) rest := by
    rw [hl]; simp [endIn]
  have hstays : (s.modEntry i fun _ => e.ended .ok none none).deliverP =
      s.modEntry i fun _ => e.ended .ok none none := by
    have hhead := State.deliverHead_cons (hlist.trans hcons)
    rw [if_neg (by simp [leavesAtHead, hreset])] at hhead
    simp only [State.deliverP, State.deliverUpTo, hhead]
  rw [State.endEntry_served hserved, ho]
  dsimp only
  rw [hstays]
  refine ⟨?_, hlist.trans hcons⟩
  simp only [State.modEntry, hserved.entry, Option.map_some]

/-- Settles O47: a CARD RESET command at the head acts by `State.settle_cardReset`, and its take is that of its
row. -/
theorem cardResetCommandResetsAtItsDelivery : Obligations.CardResetCommandResetsAtItsDelivery := by
  refine ⟨fun s i e rest hl hstate hok hroute hop haddress hcode => ?_, fun s i e ht => ?_⟩
  · have hword : e.word.extractLsb' 0 8 = 9#8 := by
      rw [extractLsb'_eq_ofNat]; simp [hcode]
    exact State.settle_cardReset hl hstate (e.isCardReset_iff.2
      ⟨(State.mem_pList (hl ▸ List.mem_cons_self)).2, hroute, hop, haddress, hword, hok⟩)
  have htake := ht.takeWrite serveCardReset
  refine ⟨fun hb => ?_, fun hb => ?_, fun rest _ ho hl => ?_⟩
  · refine htake.trans ?_
    simp only [serveCardReset, hb, if_true]
  · refine htake.trans ?_
    simp only [serveCardReset, hb, Bool.false_eq_true, if_false]
  · obtain ⟨queue, hqueue⟩ := ht.head
    have hb : e.origin.isB = false := by rw [ho]; rfl
    obtain ⟨he, hserves⟩ := State.mem_kind (q := Entry.onMgmtQueue)
      (hqueue ▸ List.mem_cons_self : (i, e) ∈ s.mgmtQueue)
    obtain ⟨hroute, hstate⟩ : e.route = some .mgmt ∧ e.state = .serving := by
      simpa [Entry.onMgmtQueue] using hserves
    have hserved : s.InService i e :=
      ⟨he, hstate, by rw [ho]; rfl, fun p hp => by rw [hroute] at hp; cases hp⟩
    obtain ⟨haddress, hcode⟩ := Entry.mgmtRow_cardReset ht.row
    have hreset : (e.ended .ok none none).isCardReset = true :=
      (Entry.isCardReset_iff _).2 ⟨ho, hroute, ht.write, haddress, hcode, rfl⟩
    obtain ⟨hend, hlist⟩ := State.endEntry_cardReset hserved hl hreset
    refine htake.trans ?_
    simp only [serveCardReset, hb, Bool.false_eq_true, if_false, State.answered]
    rw [State.settle_cardReset hlist rfl hreset, hend]
    simp only [Vector.set_set]
    rfl

end Sys2Proof.Machine
end

section
/-!
PROOFS. The piece plan (R78): each piece is the largest that the width, the bytes left and the address allow,
and the pieces follow one another to the end of the range.
-/

namespace Sys2Proof.Machine

/-- A piece of n bytes at address a, with r bytes uncovered, is possible at width w (R78). -/
def PieceFits (w a r n : Nat) : Prop := (n = 1 ∨ n = 2 ∨ n = 4) ∧ n ≤ w ∧ n ≤ r ∧ a % n = 0

/-- While bytes are uncovered, the size of the piece is possible and no larger size is (R78). -/
theorem pieceSize_largest {w r : Nat} (a : Nat) (hw : 1 ≤ w) (hr : 1 ≤ r) :
    PieceFits w a r (pieceSize w a r) ∧ ∀ n, PieceFits w a r n → n ≤ pieceSize w a r := by
  unfold PieceFits pieceSize
  by_cases h4 : 4 ≤ w ∧ 4 ≤ r ∧ a % 4 = 0
  · rw [if_pos h4]
    exact ⟨⟨by omega, h4⟩, fun n hn => by omega⟩
  · rw [if_neg h4]
    by_cases h2 : 2 ≤ w ∧ 2 ≤ r ∧ a % 2 = 0
    · rw [if_pos h2]
      refine ⟨⟨by omega, h2⟩, ?_⟩
      rintro n ⟨rfl | rfl | rfl, hn⟩
      · omega
      · omega
      · exact absurd hn h4
    · rw [if_neg h2]
      refine ⟨⟨by omega, hw, hr, Nat.mod_one a⟩, ?_⟩
      rintro n ⟨rfl | rfl | rfl, hn⟩
      · omega
      · exact absurd hn h2
      · exact absurd hn h4

theorem planFrom_zero (w a fuel dist : Nat) : planFrom w a fuel dist 0 = [] := by
  cases fuel <;> rfl

theorem planFrom_succ {r : Nat} (w a fuel dist : Nat) (hr : 1 ≤ r) :
    planFrom w a (fuel + 1) dist r = (dist, pieceSize w (a + dist) r) ::
      planFrom w a fuel (dist + pieceSize w (a + dist) r) (r - pieceSize w (a + dist) r) := by
  simp only [planFrom]
  exact if_neg (by omega)

/-- With fuel for every byte the pieces cover what is uncovered (R78). -/
theorem planFrom_sum {w a : Nat} (hw : 1 ≤ w) (fuel dist r : Nat) (h : r ≤ fuel) :
    ((planFrom w a fuel dist r).map Prod.snd).sum = r := by
  induction fuel generalizing dist r with
  | zero => exact (Nat.le_zero.1 h).symm
  | succ fuel ih =>
    obtain rfl | hr := Nat.eq_zero_or_pos r
    · rw [planFrom_zero]; rfl
    · obtain ⟨⟨hsize, _, hle, _⟩, _⟩ := pieceSize_largest (a + dist) hw hr
      rw [planFrom_succ w a fuel dist hr, List.map_cons, List.sum_cons, ih _ _ (by omega)]
      omega

/-- A piece starts where the pieces before it end, inside the range, and its size is that of the largest
piece there (R78). -/
theorem planFrom_getElem? {w a d n : Nat} (hw : 1 ≤ w) (fuel dist r k : Nat)
    (h : (planFrom w a fuel dist r)[k]? = some (d, n)) :
    d = dist + (((planFrom w a fuel dist r).take k).map Prod.snd).sum ∧ d < dist + r ∧
      n = pieceSize w (a + d) (dist + r - d) := by
  induction fuel generalizing dist r k with
  | zero => cases h
  | succ fuel ih =>
    obtain rfl | hr := Nat.eq_zero_or_pos r
    · rw [planFrom_zero] at h; cases h
    · rw [planFrom_succ w a fuel dist hr] at h ⊢
      obtain ⟨⟨hsize, _, hle, _⟩, _⟩ := pieceSize_largest (a + dist) hw hr
      cases k with
      | zero =>
        cases h
        exact ⟨rfl, by omega, by rw [Nat.add_sub_cancel_left]⟩
      | succ k =>
        obtain ⟨hd, hlt, hn⟩ := ih _ _ k h
        rw [Nat.add_assoc, Nat.add_sub_cancel' hle] at hlt hn
        rw [List.take_succ_cons, List.map_cons, List.sum_cons, ← Nat.add_assoc]
        exact ⟨hd, hlt, hn⟩

theorem Width.one_le_bytes (w : Width) : 1 ≤ w.bytes := by cases w <;> decide

/-- Settles O25: the plan is `planFrom` from distance 0, and the size of each piece is the largest possible by
`pieceSize_largest`. -/
theorem piecePlanCoversTheRange : Obligations.PiecePlanCoversTheRange := by
  intro a length w
  refine ⟨planFrom_sum w.one_le_bytes length 0 length le_rfl, fun k dist size h => ?_⟩
  obtain ⟨hdist, hlt, hsize⟩ := planFrom_getElem? w.one_le_bytes length 0 length k h
  rw [Nat.zero_add] at hdist hlt hsize
  obtain ⟨⟨hone, hw, hr, hdvd⟩, hlargest⟩ :=
    pieceSize_largest (r := length - dist) (a.toNat + dist) w.one_le_bytes (by omega)
  rw [← hsize] at hone hw hr hdvd hlargest
  exact ⟨hdist, hone, hw, by omega, hdvd, fun m hm hmw hmr hma =>
    hlargest m ⟨hm, hmw, by omega, hma⟩⟩

end Sys2Proof.Machine
end

section
/-!
PROOFS. The arbiter of a port (R83): which eligible entry it chooses.
-/

namespace Sys2Proof.Machine

/-- The first entry of a list with a property, the list oldest first. -/
theorem find?_of_first {l : List (EntryNo × Entry)} {c : EntryNo × Entry} {f : Entry → Bool}
    {q : Entry → Prop} (hf : ∀ e, f e = true ↔ q e)
    (h : ∃ before after, l = before ++ c :: after ∧ q c.2 ∧ ∀ x ∈ before, ¬ q x.2) :
    (l.find? fun ie => f ie.2) = some c := by
  obtain ⟨before, after, hl, hc, hbefore⟩ := h
  refine List.find?_eq_some_iff_append.2 ⟨(hf c.2).2 hc, before, after, hl, fun x hx => ?_⟩
  simpa [← hf] using hbefore x hx

theorem find?_of_none {l : List (EntryNo × Entry)} {f : Entry → Bool} {q : Entry → Prop}
    (hf : ∀ e, f e = true ↔ q e) (h : ∀ x ∈ l, ¬ q x.2) : (l.find? fun ie => f ie.2) = none :=
  List.find?_eq_none.2 fun x hx hx' => h x hx ((hf x.2).1 hx')

/-- Settles O27: `choose` tries the four searches in the order of R83, each for the oldest of its class. -/
theorem arbiterChoosesByAgeAndClass : Obligations.ArbiterChoosesByAgeAndClass := by
  intro l c first no aged ofB ofP ofM
  have haged (e : Entry) : decide (Config.agedSkip ≤ e.skipCount) = true ↔ aged e := decide_eq_true_iff
  have hB (e : Entry) : e.origin.isB = true ↔ ofB e := Iff.rfl
  have hP (e : Entry) : decide (e.origin = .p) = true ↔ ofP e := decide_eq_true_iff
  have hM (e : Entry) : e.origin.isM = true ↔ ofM e := Iff.rfl
  refine ⟨fun hl => ?_, fun h => ?_, fun h1 h => ?_, fun h1 h2 h => ?_, fun h1 h2 h3 h => ?_⟩
  · rw [hl]; rfl
  · rw [choose, find?_of_first haged h]; rfl
  · rw [choose, find?_of_none haged h1, find?_of_first hB h]; rfl
  · rw [choose, find?_of_none haged h1, find?_of_none hB h2, find?_of_first hP h]; rfl
  · rw [choose, find?_of_none haged h1, find?_of_none hB h2, find?_of_none hP h3,
      find?_of_first hM h]; rfl

end Sys2Proof.Machine
end

section
/-!
PROOFS. The state of a port: T_LINK_UP and T_LINK_DOWN (R71, R72, R148), PORT RESUME and PORT OFFLINE (R73 to
R75, R158).
-/

namespace Sys2Proof.Machine

/-- A level alone changes nothing that a state at rest waits for. -/
theorem State.Calm.modLines {s : State} (h : s.Calm) (f : Lines → Lines) : (s.modLines f).Calm :=
  ⟨h.guard, h.reads, h.asks, h.reset⟩

theorem State.linkUpAt_absent {s : State} {p : PortNo} (h : s.ports[p].state = .absent) :
    s.linkUpAt p = { s with
      ports := s.ports.set p { s.ports[p] with state := .online, noAnswer := 0, hold := none } } :=
  if_pos h

theorem State.linkUpAt_present {s : State} {p : PortNo} (h : s.ports[p].state ≠ .absent) :
    s.linkUpAt p = s :=
  if_neg h

theorem State.loseLink_offline {s : State} {p : PortNo} (h : s.ports[p].state = .offline) :
    s.loseLink p = State.raise { s with
      ports := s.ports.set p { s.ports[p] with state := .absent } } (.port p) .portLost none := by
  simp only [State.loseLink, h]
  rfl

theorem State.loseLink_absent {s : State} {p : PortNo} (h : s.ports[p].state = .absent) :
    s.loseLink p = s := by
  simp only [State.loseLink, h]

/-- A port at which no ASK is outstanding is passed by no walk (R148). -/
theorem State.passPort_elsewhere {s : State} {p : PortNo}
    (h : ∀ w, s.attention.walk = some w → w.port ≠ p) : s.passPort p = s := by
  unfold State.passPort
  cases hw : s.attention.walk with
  | none => rfl
  | some w => exact if_neg (h w hw)

theorem exec_tLinkDown {s : State} (p : PortNo) (hporst : s.lines.porst = false) :
    exec (.tLinkDown p) s = .next ((((s.modLines fun l =>
      { l with tLink := l.tLink.set p false }).loseLink p).passPort p).settle) :=
  if_neg (by simp [hporst])

/-- Settles O34: the link events of `linkUpAt` and `loseLink` go by the state of the port; at an ABSENT port a
walk of a state at rest has no ASK, and nothing follows in the event. -/
theorem targetLinkChanges : Obligations.TargetLinkChanges := by
  intro s p up down
  have hup (hporst : s.lines.porst = false) : exec (.tLinkUp p) s = .next (up.linkUpAt p) :=
    if_neg (by simp [hporst])
  refine ⟨fun hporst h => ?_, fun h => ?_, fun hporst _ => exec_tLinkDown p hporst,
    fun hporst h => ?_, fun hporst h hrest => ?_, fun hporst => ?_⟩
  · rw [hup hporst, State.linkUpAt_absent (s := up) h]
  · cases hporst : s.lines.porst with
    | true => exact if_pos hporst
    | false =>
      rw [hup hporst, State.linkUpAt_present (s := up) (h.resolve_left (by simp [hporst]))]
  · intro absent
    rw [exec_tLinkDown p hporst, State.loseLink_offline (by exact h)]
    rfl
  · have hpass : ∀ w, s.attention.walk = some w → w.port ≠ p := by
      rintro w hw rfl
      exact hrest.walk w hw h
    rw [exec_tLinkDown p hporst, State.loseLink_absent (by exact h),
      State.passPort_elsewhere (by exact hpass), (hrest.calm.modLines _).settle]
    rfl
  · exact if_pos hporst

/-- Settles O43: each command is the take of its row, whose service goes by the state of the port. -/
theorem portCommandsActOnTheirPort : Obligations.PortCommandsActOnTheirPort := by
  intro s i e p hp
  have htarget := commandTarget_eq hp
  have hresume (ht : s.Takes .portResume i e) := ht.takeWrite servePortResume
  have hoffline (ht : s.Takes .portOffline i e) := ht.takeWrite servePortOffline
  simp only [servePortResume, servePortOffline, htarget] at hresume hoffline
  refine ⟨fun ht h => ?_, fun ht h => ?_, fun ht h => ?_, fun ht h => ?_⟩
  · refine (hresume ht).trans ?_
    rw [if_pos h]
    rfl
  · refine (hresume ht).trans ?_
    rw [if_neg h]
  · refine (hoffline ht).trans ?_
    rw [if_pos h]
  · refine (hoffline ht).trans ?_
    rw [if_neg h]

end Sys2Proof.Machine
end

section
/-!
PROOFS. GRANT (R79, R82 to R84, R96): the entries passed over, the hold that is taken, and the state after the
grant.
-/

namespace Sys2Proof.Machine

/-- A grant to another entry passes an eligible one over (R83). -/
def Entry.passedOver (e : Entry) : Entry :=
  { e with skipCount := min Config.agedSkip (e.skipCount + 1) }

theorem State.skipOthers_cons (s : State) (i j : EntryNo) (f : Entry) (l : List (EntryNo × Entry)) :
    s.skipOthers i ((j, f) :: l) =
      (if j = i then s else s.modEntry j Entry.passedOver).skipOthers i l := rfl

/-- Passing entries over writes the records alone. -/
theorem State.skipOthers_frame (s : State) (i : EntryNo) (l : List (EntryNo × Entry)) :
    s.skipOthers i l = { s with entries := (s.skipOthers i l).entries } := by
  induction l generalizing s with
  | nil => rfl
  | cons jf l ih =>
    rw [State.skipOthers_cons]
    split
    · exact ih s
    · exact ih (s.modEntry jf.1 Entry.passedOver)

/-- An entry that the list does not name is not passed over. -/
theorem State.skipOthers_entry_of_notMem {s : State} {i k : EntryNo} {l : List (EntryNo × Entry)}
    (h : k ∉ l.map Prod.fst) : (s.skipOthers i l).entries[k] = s.entries[k] := by
  induction l generalizing s with
  | nil => rfl
  | cons jf l ih =>
    rw [List.map_cons, List.mem_cons, not_or] at h
    rw [State.skipOthers_cons, ih h.2]
    split
    · rfl
    · rw [State.modEntry_entry, if_neg (Ne.symm h.1)]

/-- An entry that the list names once, other than i, is passed over once (R83). -/
theorem State.skipOthers_entry_of_mem {s : State} {i k : EntryNo} {l : List (EntryNo × Entry)}
    (hd : (l.map Prod.fst).Nodup) (hk : k ≠ i) (h : k ∈ l.map Prod.fst) :
    (s.skipOthers i l).entries[k] = s.entries[k].map Entry.passedOver := by
  induction l generalizing s with
  | nil => cases h
  | cons jf l ih =>
    rw [List.map_cons, List.nodup_cons] at hd
    rw [State.skipOthers_cons]
    obtain rfl | h := List.mem_cons.1 h
    · rw [if_neg hk, State.skipOthers_entry_of_notMem hd.1, State.modEntry_entry, if_pos rfl]
    · have hne : jf.1 ≠ k := fun hjk => hd.1 (hjk ▸ h)
      rw [ih hd.2 h]
      split
      · rfl
      · rw [State.modEntry_entry, if_neg hne]

/-- The list of eligible entries names each once (R44, R81). -/
theorem State.eligibleAt_keys_nodup {s : State} (T : s.TableOk) (p : PortNo) :
    ((s.eligibleAt p).map Prod.fst).Nodup :=
  ((List.filter_sublist.map _).trans s.table_keys_sublist).nodup T.1

theorem State.entry_of_mem_eligibleAt {s : State} {p : PortNo} {ie : EntryNo × Entry}
    (h : ie ∈ s.eligibleAt p) : s.entries[ie.1] = some ie.2 :=
  (State.mem_table.1 (List.mem_of_mem_filter h)).2

theorem State.mem_eligibleAt_keys {s : State} {p : PortNo} {j : EntryNo} {f : Entry}
    (hf : s.entries[j] = some f) : j ∈ (s.eligibleAt p).map Prod.fst ↔ (j, f) ∈ s.eligibleAt p := by
  refine ⟨fun h => ?_, fun h => List.mem_map_of_mem h⟩
  obtain ⟨ie, hie, rfl⟩ := List.mem_map.1 h
  cases (State.entry_of_mem_eligibleAt hie).symm.trans hf
  exact hie

/-- The conditions on which a grant takes the hold of the port (R96). -/
def State.TakesHold (s : State) (p : PortNo) (e : Entry) : Prop :=
  e.origin.isM = false ∧ e.op = .readHold ∧ e.nextPiece = 0 ∧ s.ports[p].hold = none

theorem State.takeHold_taken {s : State} {p : PortNo} {e : Entry} (h : s.TakesHold p e)
    {holder : Holder} (ho : holder.origin = e.origin) (i : EntryNo) :
    s.takeHold p i e = { s with
      ports := s.ports.set p
        { s.ports[p] with hold := some { holder, phase := .awaitingRead i } } } := by
  obtain ⟨_, h⟩ := h
  simp only [State.takeHold, Origin.holder_eq_some.2 ho.symm]
  exact if_pos h

theorem State.takeHold_untaken {s : State} {p : PortNo} {e : Entry} (h : ¬ s.TakesHold p e)
    (i : EntryNo) : s.takeHold p i e = s := by
  unfold State.takeHold
  cases ho : e.origin.holder with
  | none => rfl
  | some holder =>
    have horigin : e.origin.isM = false := by
      rw [Origin.holder_eq_some.1 ho]; cases holder <;> rfl
    exact if_neg fun hc => h ⟨horigin, hc⟩

/-- Taking a hold writes the ports alone. -/
theorem State.takeHold_frame (s : State) (p : PortNo) (i : EntryNo) (e : Entry) :
    s.takeHold p i e = { s with ports := (s.takeHold p i e).ports } := by
  unfold State.takeHold
  cases e.origin.holder with
  | none => rfl
  | some holder => dsimp only; split <;> rfl

/-- The record of an entry whose piece is granted at a port with this response limit (R84). -/
def Entry.issuedFor (responseLimit : Nat) (e : Entry) : Entry :=
  { e with state := .issued, skipCount := 0, timer := some responseLimit }

/-- The state in which the records and the round of a grant are written, and the hold and the link not yet. -/
def State.issueEntry (s : State) (p : PortNo) (i : EntryNo) : State :=
  ((s.skipOthers i (s.eligibleAt p)).bumpRound i).modEntry i
    (Entry.issuedFor s.setup.portConfig[p].responseLimit)

theorem State.issueEntry_frame (s : State) (p : PortNo) (i : EntryNo) :
    s.issueEntry p i = { s with
      entries := (s.issueEntry p i).entries
      rounds := s.rounds.set i (s.rounds[i] + 1) } := by
  unfold State.issueEntry
  rw [State.skipOthers_frame]
  rfl

theorem State.issueEntry_self (s : State) (p : PortNo) (i : EntryNo) :
    (s.issueEntry p i).entries[i] =
      s.entries[i].map (Entry.issuedFor s.setup.portConfig[p].responseLimit) := by
  rw [State.issueEntry, State.modEntry_entry, if_pos rfl, State.bumpRound_entries,
    (s.skipOthers_acts i _).2.1]

theorem State.issueEntry_other (s : State) (p : PortNo) {i j : EntryNo} (h : j ≠ i) :
    (s.issueEntry p i).entries[j] = (s.skipOthers i (s.eligibleAt p)).entries[j] := by
  rw [State.issueEntry, State.modEntry_entry, if_neg h.symm, State.bumpRound_entries]

theorem State.grantPiece_eq (s : State) (p : PortNo) (i : EntryNo) (e : Entry) :
    s.grantPiece p i e =
      ((s.issueEntry p i).takeHold p i e).sendT p ((s.issueEntry p i).pieceMessage i e) :=
  rfl

/-- The message of a piece of the plan, from its distance and its size (R79, R84). -/
theorem State.pieceMessage_eq (s : State) (i : EntryNo) {e : Entry} {d : DecodeRecord}
    {dist size : Nat} (hd : e.decode = some d) (hpiece : e.plan[e.nextPiece]? = some (dist, size)) :
    let isWrite : Bool := decide (e.op = .write) || decide (e.op = .writeRelease)
    s.pieceMessage i e = .piece i s.rounds[i] isWrite (d.target + BitVec.ofNat 32 dist) size
      (if isWrite = true then (e.buffer.toList.drop dist).take size else []) := by
  have hp : e.piece = (dist, size) := by
    rw [Entry.piece, List.getD_eq_getElem?_getD, hpiece]; rfl
  simp only [State.pieceMessage, Entry.pieceTarget, Entry.pieceBytes, hp, hd]
  cases e.op <;> rfl

/-- The records and the ports apart, a grant writes the round of its entry and the link of its port (R84). -/
theorem State.grantPiece_frame (s : State) (p : PortNo) (i : EntryNo) {e : Entry} {d : DecodeRecord}
    {dist size : Nat} (hd : e.decode = some d) (hpiece : e.plan[e.nextPiece]? = some (dist, size)) :
    let isWrite : Bool := decide (e.op = .write) || decide (e.op = .writeRelease)
    s.grantPiece p i e = { s with
      entries := (s.grantPiece p i e).entries
      rounds := s.rounds.set i (s.rounds[i] + 1)
      ports := (s.grantPiece p i e).ports
      tSent := s.tSent.set p (s.tSent[p] ++
        [.piece i (s.rounds[i] + 1) isWrite (d.target + BitVec.ofNat 32 dist) size
          (if isWrite = true then (e.buffer.toList.drop dist).take size else [])]) } := by
  have hround : (s.issueEntry p i).rounds[i] = s.rounds[i] + 1 := by
    rw [State.issueEntry_frame]; simp
  rw [State.grantPiece_eq, State.pieceMessage_eq _ i hd hpiece, hround, State.takeHold_frame,
    State.issueEntry_frame]
  rfl

theorem State.grantPiece_entries (s : State) (p : PortNo) (i : EntryNo) (e : Entry) :
    (s.grantPiece p i e).entries = (s.issueEntry p i).entries := by
  rw [State.grantPiece_eq, State.takeHold_frame]; rfl

theorem State.grantPiece_self {s : State} {i : EntryNo} {e : Entry} (he : s.entries[i] = some e)
    (p : PortNo) : (s.grantPiece p i e).entries[i] =
      some (e.issuedFor s.setup.portConfig[p].responseLimit) := by
  rw [State.grantPiece_entries, State.issueEntry_self, he]; rfl

/-- An entry that is not eligible is not passed over. -/
theorem State.grantPiece_other (s : State) (p : PortNo) (e : Entry) {i j : EntryNo} (hj : j ≠ i)
    (h : j ∉ (s.eligibleAt p).map Prod.fst) :
    (s.grantPiece p i e).entries[j] = s.entries[j] := by
  rw [State.grantPiece_entries, State.issueEntry_other s p hj, State.skipOthers_entry_of_notMem h]

/-- Every other eligible entry is passed over once (R83). -/
theorem State.grantPiece_passedOver {s : State} (T : s.TableOk) {p : PortNo} (e : Entry)
    {i j : EntryNo} (hj : j ≠ i) (h : j ∈ (s.eligibleAt p).map Prod.fst) :
    (s.grantPiece p i e).entries[j] = s.entries[j].map Entry.passedOver := by
  rw [State.grantPiece_entries, State.issueEntry_other s p hj,
    State.skipOthers_entry_of_mem (State.eligibleAt_keys_nodup T p) hj h]

theorem State.issueEntry_ports (s : State) (p : PortNo) (i : EntryNo) :
    (s.issueEntry p i).ports = s.ports := by rw [State.issueEntry_frame]

theorem State.issueEntry_takesHold (s : State) (p : PortNo) (i : EntryNo) (e : Entry) :
    (s.issueEntry p i).TakesHold p e ↔ s.TakesHold p e := by
  rw [State.TakesHold, State.issueEntry_ports]; rfl

theorem State.grantPiece_ports_untaken {s : State} {p : PortNo} {e : Entry} (h : ¬ s.TakesHold p e)
    (i : EntryNo) : (s.grantPiece p i e).ports = s.ports := by
  rw [State.grantPiece_eq, State.takeHold_untaken (mt (s.issueEntry_takesHold p i e).1 h)]
  exact s.issueEntry_ports p i

/-- A READ_HOLD's first piece takes the hold of an unheld port (R96). -/
theorem State.grantPiece_ports_taken {s : State} {p : PortNo} {e : Entry} (h : s.TakesHold p e)
    {holder : Holder} (ho : holder.origin = e.origin) (i : EntryNo) :
    (s.grantPiece p i e).ports = s.ports.set p
      { s.ports[p] with hold := some { holder, phase := .awaitingRead i } } := by
  rw [State.grantPiece_eq, State.takeHold_taken ((s.issueEntry_takesHold p i e).2 h) ho]
  simp only [State.sendT, State.issueEntry_ports]

theorem exec_grant {s : State} {p : PortNo} {i : EntryNo} {e : Entry}
    (hporst : s.lines.porst = false) (honline : s.ports[p].state = .online)
    (hcredit : s.issuedCount p < s.setup.portConfig[p].credit)
    (hchoice : choose (s.eligibleAt p) = some (i, e)) :
    exec (.grant p) s = .next (s.grantPiece p i e).settle := by
  simp only [exec, execGrant, hchoice]
  exact if_pos ⟨by simp [hporst], honline, hcredit⟩

/-- Without the conditions of R82 there is no decision (log entry 5). -/
theorem exec_grant_idle {s : State} {p : PortNo}
    (h : s.lines.porst = true ∨ s.ports[p].state ≠ .online ∨
      s.setup.portConfig[p].credit ≤ s.issuedCount p ∨ s.eligibleAt p = []) :
    exec (.grant p) s = .next s := by
  simp only [exec, execGrant]
  split
  · rename_i hc
    obtain ⟨hporst, honline, hcredit⟩ := hc
    have hnone : s.eligibleAt p = [] := by
      rcases h with h | h | h | h
      · simp [h] at hporst
      · exact absurd honline h
      · exact absurd hcredit (Nat.not_lt.2 h)
      · exact h
    rw [hnone]
    rfl
  · rfl

/-- Settles O28: the decision is `exec_grant` or `exec_grant_idle`, and what the grant writes is stated field by
field in the lemmas about `grantPiece`. -/
theorem grantIssuesTheNextPiece : Obligations.GrantIssuesTheNextPiece := by
  intro s p
  refine ⟨fun i e d dist size hporst honline hcredit T hchoice hd hpiece => ?_, exec_grant_idle⟩
  intro holds isWrite
  have he : s.entries[i] = some e := State.entry_of_mem_eligibleAt (choose_mem hchoice)
  refine ⟨s.grantPiece p i e, exec_grant hporst honline hcredit hchoice,
    s.grantPiece_frame p i hd hpiece, State.grantPiece_self he p, fun j hj hf => ?_,
    fun j f hj hf => ⟨fun hmem => ?_, fun hmem => ?_⟩,
    fun h => State.grantPiece_ports_untaken h i, fun _ h ho => State.grantPiece_ports_taken h ho i⟩
  · have hkeys : j ∉ (s.eligibleAt p).map Prod.fst := by
      intro h
      obtain ⟨ie, hie, rfl⟩ := List.mem_map.1 h
      cases (State.entry_of_mem_eligibleAt hie).symm.trans hf
    rw [s.grantPiece_other p e hj hkeys, hf]
  · rw [State.grantPiece_passedOver T e hj ((State.mem_eligibleAt_keys hf).2 hmem), hf]
    rfl
  · rw [s.grantPiece_other p e hj (mt (State.mem_eligibleAt_keys hf).1 hmem), hf]

end Sys2Proof.Machine
end

section
/-!
PROOFS. The hold of a port at the end of its READ_HOLD or WRITE_RELEASE (R99, R101).
-/

namespace Sys2Proof.Machine

/-! ## The three cases of a held port -/

section
variable {s : State} {i : EntryNo} {e : Entry} {p : PortNo} {x : Hold}

/-- The end of the READ_HOLD that holds the port writes the hold of that port alone (R99). -/
theorem State.holdAtEnd_awaitingRead (hr : e.route = some (.port p)) (hx : s.ports[p].hold = some x)
    (h : x.phase = .awaitingRead i) (status : Status) :
    s.holdAtEnd i e status = s.modPort p fun port =>
      { port with hold := x.afterRead s.setup.settings.holdLimit status } := by
  simp only [State.holdAtEnd, hr, hx]
  exact if_pos h

/-- The end of the accepted WRITE_RELEASE clears the hold of its port alone, whatever the status (R101). -/
theorem State.holdAtEnd_awaitingRelease (hr : e.route = some (.port p))
    (hx : s.ports[p].hold = some x) (h : x.phase = .awaitingRelease i) (status : Status) :
    s.holdAtEnd i e status = s.modPort p fun port => { port with hold := none } := by
  have hread : x.phase ≠ .awaitingRead i := by rw [h]; simp
  simp only [State.holdAtEnd, hr, hx]
  exact (if_neg hread).trans (if_pos h)

/-- A hold that does not wait for the entry is not touched by its end. -/
theorem State.holdAtEnd_notAwaited (hr : e.route = some (.port p)) (hx : s.ports[p].hold = some x)
    (hread : x.phase ≠ .awaitingRead i) (hrelease : x.phase ≠ .awaitingRelease i) (status : Status) :
    s.holdAtEnd i e status = s := by
  simp only [State.holdAtEnd, hr, hx]
  exact (if_neg hread).trans (if_neg hrelease)

end

/-- An end changes no hold if none at the port of the entry waits for it. -/
theorem State.holdAtEnd_idle {s : State} {i : EntryNo} {e : Entry}
    (h : ∀ (p : PortNo) (x : Hold), e.route = some (.port p) → s.ports[p].hold = some x →
      x.phase ≠ .awaitingRead i ∧ x.phase ≠ .awaitingRelease i) (status : Status) :
    s.holdAtEnd i e status = s := by
  by_cases hheld : ∃ p x, e.route = some (.port p) ∧ s.ports[p].hold = some x
  · obtain ⟨p, x, hr, hx⟩ := hheld
    obtain ⟨hread, hrelease⟩ := h p x hr hx
    exact State.holdAtEnd_notAwaited hr hx hread hrelease status
  · refine s.holdAtEnd_unheld i e status fun p hr => ?_
    exact Option.eq_none_iff_forall_ne_some.2 fun x hx => hheld ⟨p, x, hr, hx⟩

/-! ## The end as a whole -/

/-- The end of a P or B entry does to the ports what `holdAtEnd` does, and sets no broken note: what
follows, a delivery or a response, keeps both (R53, R54). -/
theorem State.endEntry_ports_notes {s : State} {i : EntryNo} {e : Entry}
    (he : s.entries[i] = some e) (hl : e.Live) (ho : e.origin.isM = false) (status : Status)
    (a : Option Word) (d : Option Detail) :
    (s.endEntry i status a d).ports = (s.holdAtEnd i e status).ports ∧
      (s.endEntry i status a d).notes = s.notes := by
  rw [State.endEntry_live he hl]
  have hnotes : (s.holdAtEnd i e status).notes = s.notes := by rw [s.holdAtEnd_frame i e status]
  cases horigin : e.origin with
  | p =>
    obtain ⟨entries, order, pSent, hdelivered⟩ := State.deliverUpTo_frame 24
      ((s.holdAtEnd i e status).modEntry i fun _ => e.ended status a d)
    simp only [State.deliverP, hdelivered]
    exact ⟨rfl, hnotes⟩
  | b source => exact ⟨rfl, hnotes⟩
  | m c => simp [horigin, Origin.isM] at ho

/-- Settles O19: a hold waits for the entry as its read, as its release, or not at all, and the rest of
an end keeps ports and notes. -/
theorem holdChangesWithTheEndOfItsEntry : Obligations.HoldChangesWithTheEndOfItsEntry := by
  refine ⟨fun s i e status => ⟨fun p x hr hx => ?_, fun h => State.holdAtEnd_idle h status⟩,
    fun s i e p x status a d he ho hcomplete horphaned hr hx => ?_⟩
  · exact ⟨fun h => State.holdAtEnd_awaitingRead hr hx h status,
      fun h => State.holdAtEnd_awaitingRelease hr hx h status⟩
  · obtain ⟨hports, hnotes⟩ := State.endEntry_ports_notes he ⟨hcomplete, horphaned⟩ ho status a d
    refine ⟨fun h => ?_, fun h => ?_, hnotes⟩
    · rw [hports, State.holdAtEnd_awaitingRead hr hx h, State.modPort_port, if_pos rfl]
      rfl
    · rw [hports, State.holdAtEnd_awaitingRelease hr hx h, State.modPort_port, if_pos rfl]

end Sys2Proof.Machine
end

section
/-!
PROOFS. The records of the move channels: a record that is replaced, a channel that comes to rest (R119, R122,
R124), descriptor checks (R108) and pace pulses (R117).
-/

namespace Sys2Proof.Machine

/-! ## A channel record is replaced -/

/-- The record of channel c is replaced by x. -/
def State.setChannel (s : State) (c : ChannelNo) (x : Channel) : State :=
  { s with channels := s.channels.set c x }

theorem State.modChannel_eq_setChannel (s : State) (c : ChannelNo) (f : Channel → Channel) :
    s.modChannel c f = s.setChannel c (f s.channels[c]) := rfl

theorem State.setChannel_channel (s : State) (c : ChannelNo) (x : Channel) :
    (s.setChannel c x).channels[c] = x := by simp [State.setChannel]

@[simp] theorem State.setChannel_setChannel (s : State) (c : ChannelNo) (x y : Channel) :
    (s.setChannel c x).setChannel c y = s.setChannel c y := by simp [State.setChannel]

/-! ## Coming to rest -/

theorem State.restChannel_pausing {s : State} {c : ChannelNo} (hu : s.channels[c].units = [])
    (h : s.channels[c].state = .pausing) :
    s.restChannel c = s.setChannel c { s.channels[c] with state := .paused } := by
  simp only [State.restChannel, List.isEmpty_iff.2 hu, h, if_true]
  rfl

theorem State.restChannel_stopped {s : State} {c : ChannelNo} (hu : s.channels[c].units = [])
    (h : s.channels[c].state = .stopping .stop) (hq : s.ownedM c = 0) :
    s.restChannel c = s.setChannel c (s.channels[c].enterIdle .stopped) := by
  simp only [State.restChannel, List.isEmpty_iff.2 hu, h, hq, if_true]
  rfl

theorem State.restChannel_faulted {s : State} {c : ChannelNo} (hu : s.channels[c].units = [])
    (h : s.channels[c].state = .stopping .fault) (hq : s.ownedM c = 0) :
    s.restChannel c = s.faultIdle c := by
  simp only [State.restChannel, List.isEmpty_iff.2 hu, h, hq, if_true]

/-- A channel with a unit, or that neither pauses nor stops, stays as it is. -/
theorem State.restChannel_of_active {s : State} {c : ChannelNo}
    (h : s.channels[c].units ≠ [] ∨
      (s.channels[c].state ≠ .pausing ∧ ∀ cause, s.channels[c].state ≠ .stopping cause)) :
    s.restChannel c = s := by
  rcases h with hu | ⟨hpausing, hstopping⟩
  · exact if_neg (mt List.isEmpty_iff.1 hu)
  · cases hstate : s.channels[c].state with
    | pausing => exact absurd hstate hpausing
    | stopping cause => exact absurd hstate (hstopping cause)
    | _ => simp only [State.restChannel, hstate, ite_self]

/-- A stopping channel waits for the entries it owns (R122, R124). -/
theorem State.restChannel_of_owned {s : State} {c : ChannelNo} (hq : s.ownedM c ≠ 0)
    (h : s.channels[c].state ≠ .pausing) : s.restChannel c = s := by
  cases hstate : s.channels[c].state with
  | pausing => exact absurd hstate h
  | stopping cause => cases cause <;> simp only [State.restChannel, hstate, if_neg hq, ite_self]
  | _ => simp only [State.restChannel, hstate, ite_self]

/-- A faulted channel reports its fault fields (R124). -/
theorem State.faultIdle_eq {s : State} {c : ChannelNo} {st : Status} {a : Word}
    (hst : s.channels[c].faultStatus = some st) (ha : s.channels[c].faultAddress = some a) :
    s.faultIdle c = (s.setChannel c (s.channels[c].enterIdle .faulted)).raise (.channel c)
      .channelFault (some (st, a)) := by
  simp only [State.faultIdle, State.modChannel_eq_setChannel, State.setChannel_channel,
    Channel.enterIdle, hst, ha, Option.getD_some]

/-- Settles O37, by the state of the channel. -/
theorem emptyChannelComesToRest : Obligations.EmptyChannelComesToRest := by
  intro s c
  refine ⟨State.restChannel_pausing, State.restChannel_stopped, fun st a hu h hq hst ha => ?_,
    fun h => ?_⟩
  · exact (State.restChannel_faulted hu h hq).trans (State.faultIdle_eq hst ha)
  · rcases h with hu | hstate | ⟨hq, hstate⟩
    · exact State.restChannel_of_active (.inl hu)
    · exact State.restChannel_of_active (.inr hstate)
    · exact State.restChannel_of_owned hq hstate

/-! ## Descriptors -/

/-- Settles O35: each conjunct takes one branch of the checks. -/
theorem descriptorValidation : Obligations.DescriptorValidation := by
  intro d size
  have hsize : size = d.unit.bytes := by cases h : d.unit <;> simp only [size, h, UnitSize.bytes]
  simp only [hsize, Descriptor.invalid]
  refine ⟨fun hc => if_pos hc, fun hc hp => ?_, fun hc hp hs => ?_, fun hc hp hs hd => ?_,
    fun hc hp hs hd hl => ?_, fun hc hp hs hd hl => ?_⟩
  · rw [if_neg hc, if_pos (by omega)]; rfl
  · rw [if_neg hc, if_neg (by omega), if_pos hs]; rfl
  · rw [if_neg hc, if_neg (by omega), if_neg (not_not.2 hs), if_pos hd]; rfl
  · rw [if_neg hc, if_neg (by omega), if_neg (not_not.2 hs), if_neg (not_not.2 hd), if_pos hl]; rfl
  · rw [if_neg hc, if_neg (by omega), if_neg (not_not.2 hs), if_neg (not_not.2 hd),
      if_neg (not_not.2 hl)]

/-! ## Pace pulses -/

/-- The pace field encodes the ports from 1 on (R163). -/
theorem Descriptor.pacePort_eq_some_iff (d : Descriptor) (p : PortNo) :
    d.pacePort = some p ↔ d.pace.toNat = p.val + 1 := by
  have hsome (q : PortNo) : some q = some p ↔ q.val + 1 = p.val + 1 := by
    rw [Option.some.injEq, Fin.ext_iff, Nat.add_right_cancel_iff]
  unfold Descriptor.pacePort
  split
  · next h => rw [h]; exact hsome 0
  · next h => rw [h]; exact hsome 1
  · next h => rw [h]; exact hsome 2
  · next h => rw [h]; exact hsome 3
  · next h0 h1 h2 h3 =>
    rw [imp_false] at h0 h1 h2 h3
    simp only [reduceCtorEq, false_iff]
    omega

theorem Channel.takesPulse_iff (ch : Channel) (p : PortNo) : ch.takesPulse p = true ↔
    (ch.state = .running ∨ ch.state = .pausing ∨ ch.state = .paused) ∧
      ch.descriptor.pace.toNat = p.val + 1 := by
  simp [Channel.takesPulse, or_assoc, ch.descriptor.pacePort_eq_some_iff]

/-- Settles O39: the pulse goes to the first channel of the search by number, or finds none. -/
theorem pacePulseCreditsTheLowestChannel : Obligations.PacePulseCreditsTheLowestChannel := by
  intro s p hporst qualifies
  have htakes (c : ChannelNo) : s.channels[c].takesPulse p = true ↔ qualifies c :=
    s.channels[c].takesPulse_iff p
  have hpulse : exec (.pacePulse p) s = .next (s.pulse p) := if_neg (by simp [hporst])
  refine ⟨fun hnone => ?_, fun c hc hlower => ?_⟩
  · have hfind : (List.finRange 4).find? (fun c => s.channels[c].takesPulse p) = none :=
      List.find?_eq_none.2 fun c _ => mt (htakes c).1 (hnone c)
    rw [hpulse, State.pulse, hfind]
  · have hfind : (List.finRange 4).find? (fun c => s.channels[c].takesPulse p) = some c :=
      find?_finRange_eq_some.2 ⟨(htakes c).2 hc,
        fun x hx => Bool.eq_false_iff.2 (mt (htakes x).1 (hlower x hx))⟩
    rw [hpulse, State.pulse, hfind]
    rfl

end Sys2Proof.Machine
end

section
/-!
PROOFS. CHANNEL START (R110, R111) and the report of a fetch (R112, R122).
-/

namespace Sys2Proof.Machine

/-! ## CHANNEL START -/

theorem State.Takes.exec_channelStartLoaded {s : State} {i : EntryNo} {e : Entry}
    (h : s.Takes .channelStartLoaded i e) {c : ChannelNo} (hc : commandTarget e.word = c) :
    exec .channelStartLoaded s = .next
      ((s.startLoaded c).1.answered i (s.startLoaded c).2.1 (s.startLoaded c).2.2) :=
  hc ▸ h.takeWrite serveStartLoaded

theorem State.Takes.exec_channelStartFetch {s : State} {i : EntryNo} {e : Entry}
    (h : s.Takes .channelStartFetch i e) {c : ChannelNo} (hc : commandTarget e.word = c) :
    exec .channelStartFetch s = .next
      ((s.startFetchForm c).1.answered i (s.startFetchForm c).2.1 (s.startFetchForm c).2.2) :=
  hc ▸ h.takeWrite serveStartFetch

theorem State.startLoaded_busy {s : State} {c : ChannelNo} (h : s.channels[c].state ≠ .idle) :
    s.startLoaded c = (s, .busy, none) := if_pos h

theorem State.startLoaded_valid {s : State} {c : ChannelNo} (h : s.channels[c].state = .idle)
    (hv : s.channels[c].descriptor.invalid = none) :
    s.startLoaded c =
      (s.setChannel c s.channels[c].clearOutcome.becomeCurrent, .ok, none) := by
  simp only [State.startLoaded, if_neg (not_not.2 h), hv]
  rfl

theorem State.startLoaded_invalid {s : State} {c : ChannelNo} (h : s.channels[c].state = .idle)
    {d : Detail} (hv : s.channels[c].descriptor.invalid = some d) :
    s.startLoaded c = (s, .form, some d) := by
  simp only [State.startLoaded, if_neg (not_not.2 h), hv]

theorem State.startFetchForm_busy {s : State} {c : ChannelNo} (h : s.channels[c].state ≠ .idle) :
    s.startFetchForm c = (s, .busy, none) := if_pos h

theorem State.startFetchForm_misaligned {s : State} {c : ChannelNo}
    (h : s.channels[c].state = .idle) (ha : s.setup.settings.argument.toNat % 16 ≠ 0) :
    s.startFetchForm c = (s, .form, some Detail.linkAlign) :=
  (if_neg (not_not.2 h)).trans (if_pos ha)

/-- The record of a channel as the fetch form of a START leaves it before the fetch (R111). -/
def Channel.cleared (ch : Channel) : Channel :=
  { ch.clearOutcome with remaining := 0, started := 0, units := [], paceCredit := 0 }

theorem State.startFetchForm_aligned {s : State} {c : ChannelNo} (h : s.channels[c].state = .idle)
    (ha : s.setup.settings.argument.toNat % 16 = 0) :
    s.startFetchForm c = ((s.setChannel c s.channels[c].cleared).startFetch c
      s.setup.settings.argument, .ok, none) :=
  (if_neg (not_not.2 h)).trans (if_neg (not_not.2 ha))

/-- Settles O44: each form is the take of its row, served by the state of the channel and its descriptor or
the argument; the fetch is the one that a CONTINUE starts as well. -/
theorem channelStartsRunOrFetch : Obligations.ChannelStartsRunOrFetch := by
  intro s i e c hc ch a cleared
  have htarget := commandTarget_eq hc
  refine ⟨fun ht h hv => ?_, fun d ht h hv => ?_, fun ht h => ?_,
    fun k d ht h ha hq hk hd => ⟨freshBuffer s.freshCount [], ?_⟩,
    fun k st d ht h ha hq hk hd => ?_, fun ht h ha => ?_, fun ht h => ?_⟩
  · rw [ht.exec_channelStartLoaded htarget, State.startLoaded_valid h hv]
    rfl
  · rw [ht.exec_channelStartLoaded htarget, State.startLoaded_invalid h hv]
  · rw [ht.exec_channelStartLoaded htarget, State.startLoaded_busy h]
  · rw [ht.exec_channelStartFetch htarget, State.startFetchForm_aligned h ha,
      State.startFetch_placed (s := s.setChannel c ch.cleared) hq hk hd, State.setChannel_channel]
    simp only [State.setChannel, Vector.set_set]
    rfl
  · rw [ht.exec_channelStartFetch htarget, State.startFetchForm_aligned h ha,
      State.startFetch_ended (s := s.setChannel c ch.cleared) hq hk hd, State.setChannel_channel]
    simp only [State.setChannel, Vector.set_set]
    rfl
  · rw [ht.exec_channelStartFetch htarget, State.startFetchForm_misaligned h ha]
    rfl
  · rw [ht.exec_channelStartFetch htarget, State.startFetchForm_busy h]

/-! ## The report of a fetch -/

/-- A channel faulted by its fetch: IDLE, FAULTED, with this fault (R112). -/
def Channel.fetchFaulted (ch : Channel) (st : Status) (a : Word) (d : Option Detail) : Channel :=
  { ch with state := .idle, outcome := .faulted, paceCredit := 0, fetchAddress := none,
            faultStatus := some st, faultAddress := some a, faultDetail := d }

theorem State.fetchFault_eq (s : State) (c : ChannelNo) (st : Status) (a : Word)
    (d : Option Detail) :
    s.fetchFault c st a d = (s.setChannel c (s.channels[c].fetchFaulted st a d)).raise
      (.channel c) .channelFault (some (st, a)) := by
  rw [State.fetchFault, State.modChannel_eq_setChannel,
    State.faultIdle_eq (st := st) (a := a) (by rw [State.setChannel_channel])
      (by rw [State.setChannel_channel]), State.setChannel_setChannel,
    State.setChannel_channel]
  rfl

/-- The report of an entry that no unit record owns is that of the fetch (R112). -/
theorem State.report_of_no_units {s : State} {c : ChannelNo} (hu : s.channels[c].units = [])
    (i : EntryNo) (a : Word) (st : Status) (fa : Option Word) (d : Option Detail)
    (data : List Byte) :
    s.report c i a st fa d data = (s.fetchReport c st fa d data).restChannel c := by
  simp only [State.report, hu, List.findIdx?_nil]

section
variable {s : State} {c : ChannelNo} {fetch : Word} {data : List Byte}
  (hf : s.channels[c].fetchAddress = some fetch)
include hf

theorem State.fetchReport_valid (h : s.channels[c].state = .fetching)
    (hv : (Descriptor.ofBytes data).invalid = none) (fa : Option Word) (d : Option Detail) :
    s.fetchReport c .ok fa d data = s.setChannel c (Channel.becomeCurrent
      { s.channels[c] with descriptor := Descriptor.ofBytes data, fetchAddress := none }) := by
  simp only [State.fetchReport, hf, if_pos h, hv, if_true, State.modChannel_modChannel]
  rfl

theorem State.fetchReport_invalid (h : s.channels[c].state = .fetching) {check : Detail}
    (hv : (Descriptor.ofBytes data).invalid = some check) (fa : Option Word) (d : Option Detail) :
    s.fetchReport c .ok fa d data =
      (s.setChannel c { s.channels[c] with
        descriptor := Descriptor.ofBytes data, fetchAddress := none }).fetchFault c .form fetch
          (some check) := by
  simp only [State.fetchReport, hf, if_pos h, hv, if_true]
  rfl

theorem State.fetchReport_failed (h : s.channels[c].state = .fetching) {st : Status}
    (hst : st ≠ .ok) (fa : Option Word) (d : Option Detail) :
    s.fetchReport c st fa d data = s.fetchFault c st (fa.getD fetch) d := by
  simp only [State.fetchReport, hf, if_pos h, if_neg hst]

/-- A channel that is no longer FETCHING discards the report (R122). -/
theorem State.fetchReport_discarded (h : s.channels[c].state ≠ .fetching) (st : Status)
    (fa : Option Word) (d : Option Detail) :
    s.fetchReport c st fa d data = s.setChannel c { s.channels[c] with fetchAddress := none } := by
  simp only [State.fetchReport, hf, if_neg h]
  rfl

end

/-- A channel that its fetch faulted is at rest. -/
theorem State.restChannel_fetchFault (s : State) (c : ChannelNo) (st : Status) (a : Word)
    (d : Option Detail) : (s.fetchFault c st a d).restChannel c = s.fetchFault c st a d := by
  refine State.restChannel_of_active (.inr ?_)
  rw [State.fetchFault_eq, State.raise_channels, State.setChannel_channel]
  exact ⟨nofun, nofun⟩

/-- Settles O45: with no unit the report is the fetch's, and only a stopping channel has yet to come to
rest. -/
theorem fetchReportsLoadTheDescriptor : Obligations.FetchReportsLoadTheDescriptor := by
  intro s c k a fetch st fa d data ch loaded fault hu hf
  have hreport := State.report_of_no_units hu k a st fa d data
  refine ⟨fun h hst hv => ?_, fun check h hst hv => ?_, fun h hst => ?_, fun h => ?_⟩
  · subst hst
    rw [hreport, State.fetchReport_valid hf h hv]
    refine State.restChannel_of_active (.inr ?_)
    rw [State.setChannel_channel]
    exact ⟨nofun, nofun⟩
  · subst hst
    rw [hreport, State.fetchReport_invalid hf h hv, State.restChannel_fetchFault,
      State.fetchFault_eq, State.setChannel_setChannel, State.setChannel_channel]
    rfl
  · rw [hreport, State.fetchReport_failed hf h hst, State.restChannel_fetchFault,
      State.fetchFault_eq]
    rfl
  · rw [hreport, State.fetchReport_discarded hf (by rw [h]; simp)]
    rfl

end Sys2Proof.Machine
end

section
/-!
PROOFS. What the end of a unit's entry does (R114 to R116, R122 to R124): the record that has its report, the
end of a write, the completion of a descriptor, and the writes and fetches that follow.
-/

namespace Sys2Proof.Machine

/-! ## Records replaced -/

theorem State.setChannel_self (s : State) (c : ChannelNo) : s.setChannel c s.channels[c] = s := by
  simp [State.setChannel]

/-- A record with a unit, or that neither pauses nor stops, is at rest. -/
theorem State.restChannel_setChannel {s : State} {c : ChannelNo} {x : Channel}
    (h : x.units ≠ [] ∨ (x.state ≠ .pausing ∧ ∀ cause, x.state ≠ .stopping cause)) :
    (s.setChannel c x).restChannel c = s.setChannel c x :=
  State.restChannel_of_active (by rwa [State.setChannel_channel])

/-- The record of a channel whose unit has failed, with the records that remain (R123). -/
def Channel.failed (ch : Channel) (others : List UnitRecord) (st : Status) (a : Word)
    (d : Option Detail) : Channel :=
  { ch with faultStatus := some st, faultAddress := some a, faultDetail := d,
            units := dropLater others, state := .stopping .fault }

theorem State.failUnit_eq (s : State) (c : ChannelNo) (others : List UnitRecord) (st : Status)
    (a : Word) (d : Option Detail) :
    s.failUnit c others st a d = s.setChannel c (s.channels[c].failed others st a d) := rfl

/-! ## The write of a unit -/

/-- A new buffer begins with the data it is given (R42). -/
theorem begins_freshBuffer (n : Nat) (data : List Byte) : begins (freshBuffer n data) data := by
  intro k hk
  simp [freshBuffer, hk]

/-- A unit's write that decodes waits at its port, and the unit is WRITING (R114, R115). -/
theorem State.startWrite_placed {s : State} {c : ChannelNo} {x : Channel} {i : EntryNo}
    {w : DecodeRecord} (hq : s.ownedM c < 2) (hi : s.lowestFree = some i)
    (hw : s.decodeAddress (.m c) .write x.destinationCursor = .ok w) (u : UnitRecord)
    (rest : List UnitRecord) (bytes : List Byte) :
    ((s.setChannel c x).startWrite c u rest bytes).restChannel c =
      (s.give i ((s.newEntry (.m c) none none none .data .write x.destinationCursor
          x.descriptor.unit.bytes bytes).placed w)).setChannel c
        { x with units := { u with phase := .writing i } :: rest } := by
  have hcreate := State.createMove_placed (s := s.setChannel c x) hq hi hw
    x.descriptor.unit.bytes bytes
  have hstart : (s.setChannel c x).startWrite c u rest bytes = (State.setChannel (s.give i
      ((s.newEntry (.m c) none none none .data .write x.destinationCursor
        x.descriptor.unit.bytes bytes).placed w)) c
        { x with units := { u with phase := .writing i } :: rest }) := by
    simp only [State.startWrite, State.setChannel_channel, hcreate, State.modChannel_eq_setChannel,
      State.give_channels]
    simp only [State.setChannel, State.give, Vector.set_set]
    rfl
  rw [hstart, State.restChannel_setChannel (.inl (List.cons_ne_nil _ _))]

/-- A unit's write that its decode ends fails the unit (R123). -/
theorem State.startWrite_ended {s : State} {c : ChannelNo} {x : Channel} {i : EntryNo} {st : Status}
    {d : Option Detail} (hq : s.ownedM c < 2) (hi : s.lowestFree = some i)
    (hw : s.decodeAddress (.m c) .write x.destinationCursor = .error (st, d)) (u : UnitRecord)
    (rest : List UnitRecord) (bytes : List Byte) :
    (s.setChannel c x).startWrite c u rest bytes =
      s.setChannel c (x.failed rest st x.destinationCursor d) := by
  have hcreate := State.createMove_ended (s := s.setChannel c x) hq hi hw
    x.descriptor.unit.bytes bytes
  simp only [State.startWrite, State.setChannel_channel, hcreate, State.failUnit_eq,
    State.setChannel_setChannel]

/-! ## A descriptor that is complete -/

/-- The completed count rises and CHANNEL_DONE is raised if the descriptor asks for it (R116). -/
def State.countDone (s : State) (c : ChannelNo) : State :=
  let t := s.setChannel c { s.channels[c] with completed := s.channels[c].completed + 1 }
  if s.channels[c].descriptor.notify = true then t.raise (.channel c) .channelDone none else t

theorem State.countDone_frame (s : State) (c : ChannelNo) :
    s.countDone c =
      { s with
        channels := s.channels.set c
          { s.channels[c] with completed := s.channels[c].completed + 1 }
        attention := (s.countDone c).attention, pSent := (s.countDone c).pSent } := by
  unfold State.countDone
  dsimp only
  split <;> rfl

theorem State.countDone_setChannel (s : State) (c : ChannelNo) (x : Channel) :
    (s.setChannel c x).countDone c =
      if x.descriptor.notify = true then
        (s.setChannel c { x with completed := x.completed + 1 }).raise (.channel c) .channelDone none
      else s.setChannel c { x with completed := x.completed + 1 } := by
  simp only [State.countDone, State.setChannel_channel, State.setChannel_setChannel]

theorem State.countDone_channel (s : State) (c : ChannelNo) :
    (s.countDone c).channels[c] =
      { s.channels[c] with completed := s.channels[c].completed + 1 } := by
  rw [State.countDone_frame]
  simp

theorem State.countDone_creates (s : State) (c : ChannelNo) (op : Op) (a : Word) :
    (s.countDone c).ownedM c = s.ownedM c ∧ (s.countDone c).lowestFree = s.lowestFree ∧
      (s.countDone c).decodeAddress (.m c) op a = s.decodeAddress (.m c) op a := by
  rw [State.countDone_frame]
  exact ⟨rfl, rfl, rfl⟩

/-- The fetch that follows a complete descriptor (R116). -/
theorem State.countDone_startFetch_placed {s : State} {c : ChannelNo} {a : Word} {k : EntryNo}
    {w : DecodeRecord} (hq : s.ownedM c < 2) (hk : s.lowestFree = some k)
    (hw : s.decodeAddress (.m c) .read a = .ok w) :
    (s.countDone c).startFetch c a =
      { (s.countDone c).setChannel c { s.channels[c] with
          completed := s.channels[c].completed + 1, state := .fetching, fetchAddress := some a } with
        entries := s.entries.set k (some
          ((s.newEntry (.m c) none none none .data .read a 16 []).placed w))
        order := s.order ++ [k], freshCount := s.freshCount + 1 } := by
  obtain ⟨hq', hk', hw'⟩ := s.countDone_creates c .read a
  rw [State.startFetch_placed (by rwa [hq']) (hk'.trans hk) (hw'.trans hw), State.countDone_channel]
  have hframe := s.countDone_frame c
  generalize s.countDone c = t at hframe
  rw [hframe]
  rfl

theorem State.countDone_startFetch_ended {s : State} {c : ChannelNo} {a : Word} {k : EntryNo}
    {st : Status} {d : Option Detail} (hq : s.ownedM c < 2) (hk : s.lowestFree = some k)
    (hw : s.decodeAddress (.m c) .read a = .error (st, d)) :
    (s.countDone c).startFetch c a =
      ((s.countDone c).setChannel c (Channel.fetchFaulted
        { s.channels[c] with completed := s.channels[c].completed + 1 } st a d)).raise
          (.channel c) .channelFault (some (st, a)) := by
  obtain ⟨hq', hk', hw'⟩ := s.countDone_creates c .read a
  rw [State.startFetch_ended (by rwa [hq']) (hk'.trans hk) (hw'.trans hw), State.countDone_channel]
  rfl

section
variable {s : State} {c : ChannelNo}

theorem State.completeDescriptor_unlinked
    (h : s.channels[c].state = .running ∨ s.channels[c].state = .pausing)
    (hl : s.channels[c].descriptor.link = 0) :
    s.completeDescriptor c = (s.countDone c).modChannel c fun ch => ch.enterIdle .complete := by
  rcases h with h | h <;>
    simp only [State.completeDescriptor, State.countDone, State.modChannel_eq_setChannel,
      State.setChannel_channel, h, hl, if_true]

theorem State.completeDescriptor_pausing (h : s.channels[c].state = .pausing)
    (hl : s.channels[c].descriptor.link ≠ 0) :
    s.completeDescriptor c = (s.countDone c).modChannel c fun ch => { ch with state := .paused } := by
  simp only [State.completeDescriptor, State.countDone, State.modChannel_eq_setChannel,
    State.setChannel_channel, h, if_neg hl]

theorem State.completeDescriptor_stopping {cause : StopCause}
    (h : s.channels[c].state = .stopping cause) :
    s.completeDescriptor c = (s.countDone c).modChannel c fun ch => ch.enterIdle .stopped := by
  simp only [State.completeDescriptor, State.countDone, State.modChannel_eq_setChannel,
    State.setChannel_channel, h]

/-- A running channel goes on with the fetch at the link address (R116). -/
theorem State.completeDescriptor_linked (h : s.channels[c].state = .running)
    (hl : s.channels[c].descriptor.link ≠ 0) :
    s.completeDescriptor c = (s.countDone c).startFetch c s.channels[c].descriptor.link := by
  simp only [State.completeDescriptor, State.countDone, State.modChannel_eq_setChannel,
    State.setChannel_channel, h, if_neg hl]

end

/-! ## A write that ends OK -/

/-- The counts and the cursor after a unit's write has ended OK, with the records that remain (R115). -/
def Channel.moved (ch : Channel) (others : List UnitRecord) : Channel :=
  { ch with
    units := others, remaining := ch.remaining - 1
    destinationCursor :=
      nextCursor ch.destinationCursor ch.descriptor.destinationFixed ch.descriptor.unit }

section
variable {s : State} {c : ChannelNo} {others : List UnitRecord}

/-- Nothing follows a write under a fault, or one that is not the last and has no STAGED successor
(R115, R124). -/
theorem State.writeDone_alone
    (h : s.channels[c].state = .stopping .fault ∨ s.channels[c].remaining ≠ 1)
    (hnext : ∀ u bytes, others.head? = some u → u.phase ≠ .staged bytes) :
    s.writeDone c others = s.setChannel c (s.channels[c].moved others) := by
  simp only [State.writeDone, State.modChannel_eq_setChannel, State.setChannel_channel]
  by_cases hfault : s.channels[c].state = .stopping .fault
  · rw [if_pos hfault]; rfl
  · have hmore : ¬ s.channels[c].remaining - 1 = 0 :=
      mt sub_eq_zero.1 (h.resolve_left hfault)
    rw [if_neg hfault, if_neg hmore]
    cases others with
    | nil => rfl
    | cons u rest =>
      cases hu : u.phase with
      | staged bytes => exact absurd hu (hnext u bytes rfl)
      | _ => simp only [hu, Channel.moved]

/-- A STAGED successor writes (R115). -/
theorem State.writeDone_staged (hfault : s.channels[c].state ≠ .stopping .fault)
    (hr : s.channels[c].remaining ≠ 1) {u : UnitRecord} {rest : List UnitRecord} {bytes : List Byte}
    (hu : u.phase = .staged bytes) :
    s.writeDone c (u :: rest) =
      (s.setChannel c (s.channels[c].moved (u :: rest))).startWrite c u rest bytes := by
  simp only [State.writeDone, State.modChannel_eq_setChannel, State.setChannel_channel,
    if_neg hfault, if_neg (mt sub_eq_zero.1 hr), hu, Channel.moved]

/-- The last write completes the descriptor (R116). -/
theorem State.writeDone_last (hfault : s.channels[c].state ≠ .stopping .fault)
    (hr : s.channels[c].remaining = 1) :
    s.writeDone c others =
      (s.setChannel c (s.channels[c].moved others)).completeDescriptor c := by
  simp only [State.writeDone, State.modChannel_eq_setChannel, State.setChannel_channel,
    if_neg hfault, if_pos (sub_eq_zero.2 hr), Channel.moved]

end

/-! ## The record that has the report -/

section
variable {s : State} {c : ChannelNo} {k : EntryNo} {n : Nat} {x y : List UnitRecord}

/-- The report goes to the first record that owns the entry (R105). -/
theorem State.report_of_owner {u : UnitRecord} (hu : s.channels[c].units = x ++ u :: y)
    (hx : ∀ v ∈ x, v.owns k = false) (ho : u.owns k = true) (a : Word) (st : Status)
    (fa : Option Word) (d : Option Detail) (data : List Byte) :
    s.report c k a st fa d data = (s.unitReport c x.length u a st fa d data).restChannel c := by
  have hfind : (x ++ u :: y).findIdx? (fun v => v.owns k) = some x.length := by
    rw [List.findIdx?_append, List.findIdx?_eq_none_iff.2 hx, List.findIdx?_cons, if_pos ho]
    simp
  have hat : (x ++ u :: y)[x.length]? = some u := by simp
  simp only [State.report, hu, hfind, hat]

/-- The other records of the list. -/
theorem eraseIdx_of_split (u : UnitRecord) : (x ++ u :: y).eraseIdx x.length = x ++ y := by
  simp [List.eraseIdx_append_of_length_le]

theorem State.report_read_first (hu : s.channels[c].units = { number := n, phase := .reading k } :: y)
    (a : Word) (fa : Option Word) (d : Option Detail) (data : List Byte) :
    s.report c k a .ok fa d data =
      (s.startWrite c { number := n, phase := .reading k } y data).restChannel c := by
  rw [State.report_of_owner (x := []) hu (by simp) (by simp [UnitRecord.owns])]
  simp only [State.unitReport, hu, if_true, List.length_nil, List.eraseIdx_cons_zero]

theorem State.report_read_second {u : UnitRecord}
    (hu : s.channels[c].units = [u, { number := n, phase := .reading k }]) (ho : u.owns k = false)
    (a : Word) (fa : Option Word) (d : Option Detail) (data : List Byte) :
    s.report c k a .ok fa d data = State.restChannel (s.setChannel c { s.channels[c] with
      units := [u, { number := n, phase := .staged data }] }) c := by
  rw [State.report_of_owner (x := [u]) hu (by simpa using ho) (by simp [UnitRecord.owns])]
  simp only [State.unitReport, hu, if_true]
  rfl

theorem State.report_read_failed
    (hu : s.channels[c].units = x ++ { number := n, phase := .reading k } :: y)
    (hx : ∀ v ∈ x, v.owns k = false) {st : Status} (hst : st ≠ .ok) (a : Word) (fa : Option Word)
    (d : Option Detail) (data : List Byte) :
    s.report c k a st fa d data =
      (s.setChannel c (s.channels[c].failed (x ++ y) st (fa.getD a) d)).restChannel c := by
  rw [State.report_of_owner hu hx (by simp [UnitRecord.owns])]
  simp only [State.unitReport, hu, if_neg hst, eraseIdx_of_split, State.failUnit_eq]

theorem State.report_write_ok (hu : s.channels[c].units = { number := n, phase := .writing k } :: y)
    (a : Word) (fa : Option Word) (d : Option Detail) (data : List Byte) :
    s.report c k a .ok fa d data = (s.writeDone c y).restChannel c := by
  rw [State.report_of_owner (x := []) hu (by simp) (by simp [UnitRecord.owns])]
  simp only [State.unitReport, hu, if_true, List.length_nil, List.eraseIdx_cons_zero]

/-- A write that ends OK and that nothing follows moves the counts and the cursor (R115). -/
theorem State.report_write_alone
    (hu : s.channels[c].units = { number := n, phase := .writing k } :: y)
    (h : s.channels[c].state = .stopping .fault ∨ s.channels[c].remaining ≠ 1)
    (hnext : ∀ u bytes, y.head? = some u → u.phase ≠ .staged bytes) (a : Word) (fa : Option Word)
    (d : Option Detail) (data : List Byte) :
    s.report c k a .ok fa d data =
      (s.setChannel c (s.channels[c].moved y)).restChannel c := by
  rw [State.report_write_ok hu, State.writeDone_alone h hnext]

theorem State.report_write_failed
    (hu : s.channels[c].units = { number := n, phase := .writing k } :: y)
    (hfault : s.channels[c].state ≠ .stopping .fault) {st : Status} (hst : st ≠ .ok) (a : Word)
    (fa : Option Word) (d : Option Detail) (data : List Byte) :
    s.report c k a st fa d data =
      (s.setChannel c (s.channels[c].failed y st (fa.getD a) d)).restChannel c := by
  rw [State.report_of_owner (x := []) hu (by simp) (by simp [UnitRecord.owns])]
  simp only [State.unitReport, hu, if_neg hst, if_neg hfault, List.length_nil,
    List.eraseIdx_cons_zero, State.failUnit_eq]

/-- A second failure leaves the fault fields (R124). -/
theorem State.report_write_failed_again
    (hu : s.channels[c].units = { number := n, phase := .writing k } :: y)
    (hfault : s.channels[c].state = .stopping .fault) {st : Status} (hst : st ≠ .ok) (a : Word)
    (fa : Option Word) (d : Option Detail) (data : List Byte) :
    s.report c k a st fa d data =
      (s.setChannel c { s.channels[c] with units := y }).restChannel c := by
  rw [State.report_of_owner (x := []) hu (by simp) (by simp [UnitRecord.owns])]
  simp only [State.unitReport, hu, if_neg hst, if_pos hfault, List.length_nil,
    List.eraseIdx_cons_zero]
  rfl

theorem State.report_discarded
    (hu : s.channels[c].units = x ++ { number := n, phase := .discarding k } :: y)
    (hx : ∀ v ∈ x, v.owns k = false) (a : Word) (st : Status) (fa : Option Word)
    (d : Option Detail) (data : List Byte) :
    s.report c k a st fa d data =
      (s.setChannel c { s.channels[c] with units := x ++ y }).restChannel c := by
  rw [State.report_of_owner hu hx (by simp [UnitRecord.owns])]
  simp only [State.unitReport, hu, eraseIdx_of_split]
  rfl

end

end Sys2Proof.Machine
end

section
/-!
PROOFS. The reports of units (R114 to R116, R122 to R124), from that of the last write to all of them.
-/

namespace Sys2Proof.Machine

/-! ## The report of the last write -/

section
variable {s : State} {c : ChannelNo} {k : EntryNo} {n : Nat}

/-- The channel record when its descriptor is complete, but for what its state and link then ask (R116). -/
def Channel.finished (ch : Channel) : Channel :=
  { ch.moved [] with completed := ch.completed + 1 }

/-- The state once the descriptor's last write is counted, and CHANNEL_DONE raised if asked for (R116). -/
def State.finished (s : State) (c : ChannelNo) : State :=
  (s.setChannel c (s.channels[c].moved [])).countDone c

theorem State.finished_eq (s : State) (c : ChannelNo) :
    s.finished c =
      if s.channels[c].descriptor.notify = true then
        (s.setChannel c s.channels[c].finished).raise (.channel c) .channelDone none
      else s.setChannel c s.channels[c].finished :=
  State.countDone_setChannel s c _

theorem State.finished_channel (s : State) (c : ChannelNo) :
    (s.finished c).channels[c] = s.channels[c].finished := by
  rw [State.finished, State.countDone_channel, State.setChannel_channel]
  rfl

theorem State.moved_channel (s : State) (c : ChannelNo) :
    (s.setChannel c (s.channels[c].moved [])).channels[c] = s.channels[c].moved [] :=
  s.setChannel_channel c _

/-- A channel that completion brings to rest at once. -/
theorem State.restChannel_finished {f : Channel → Channel}
    (h : (f s.channels[c].finished).state ≠ .pausing ∧
      ∀ cause, (f s.channels[c].finished).state ≠ .stopping cause) :
    ((s.finished c).modChannel c f).restChannel c =
      (s.finished c).setChannel c (f s.channels[c].finished) := by
  rw [State.modChannel_eq_setChannel, State.finished_channel, State.restChannel_setChannel (.inr h)]

section
variable (hu : s.channels[c].units = [{ number := n, phase := .writing k }])
  (hr : s.channels[c].remaining = 1)
include hu hr

theorem State.report_last_write (hfault : s.channels[c].state ≠ .stopping .fault) (a : Word)
    (fa : Option Word) (d : Option Detail) (data : List Byte) :
    s.report c k a .ok fa d data =
      ((s.setChannel c (s.channels[c].moved [])).completeDescriptor c).restChannel c := by
  rw [State.report_write_ok hu, State.writeDone_last hfault hr]

theorem State.report_last_write_unlinked
    (h : s.channels[c].state = .running ∨ s.channels[c].state = .pausing)
    (hl : s.channels[c].descriptor.link = 0) (a : Word) (fa : Option Word) (d : Option Detail)
    (data : List Byte) :
    s.report c k a .ok fa d data =
      (s.finished c).setChannel c (s.channels[c].finished.enterIdle .complete) := by
  rw [State.report_last_write hu hr (by rcases h with h | h <;> rw [h] <;> nofun),
    State.completeDescriptor_unlinked (by rwa [State.moved_channel]) (by rwa [State.moved_channel])]
  exact State.restChannel_finished ⟨nofun, nofun⟩

theorem State.report_last_write_pausing (h : s.channels[c].state = .pausing)
    (hl : s.channels[c].descriptor.link ≠ 0) (a : Word) (fa : Option Word) (d : Option Detail)
    (data : List Byte) :
    s.report c k a .ok fa d data =
      (s.finished c).setChannel c { s.channels[c].finished with state := .paused } := by
  rw [State.report_last_write hu hr (by rw [h]; nofun),
    State.completeDescriptor_pausing (by rwa [State.moved_channel]) (by rwa [State.moved_channel])]
  exact State.restChannel_finished ⟨nofun, nofun⟩

theorem State.report_last_write_stopping (h : s.channels[c].state = .stopping .stop) (a : Word)
    (fa : Option Word) (d : Option Detail) (data : List Byte) :
    s.report c k a .ok fa d data =
      (s.finished c).setChannel c (s.channels[c].finished.enterIdle .stopped) := by
  rw [State.report_last_write hu hr (by rw [h]; nofun),
    State.completeDescriptor_stopping (cause := .stop) (by rwa [State.moved_channel])]
  exact State.restChannel_finished ⟨nofun, nofun⟩

theorem State.report_last_write_linked (h : s.channels[c].state = .running)
    (hl : s.channels[c].descriptor.link ≠ 0) (a : Word) (fa : Option Word) (d : Option Detail)
    (data : List Byte) :
    s.report c k a .ok fa d data =
      ((s.finished c).startFetch c s.channels[c].descriptor.link).restChannel c := by
  rw [State.report_last_write hu hr (by rw [h]; nofun),
    State.completeDescriptor_linked (by rwa [State.moved_channel]) (by rwa [State.moved_channel]),
    State.moved_channel]
  rfl

end

/-- The fetch of the next descriptor waits at its port (R116). -/
theorem State.finished_fetch_placed {a : Word} {i : EntryNo} {w : DecodeRecord}
    (hq : s.ownedM c < 2) (hi : s.lowestFree = some i)
    (hw : s.decodeAddress (.m c) .read a = .ok w) :
    ((s.finished c).startFetch c a).restChannel c =
      { (s.finished c).setChannel c
          { s.channels[c].finished with state := .fetching, fetchAddress := some a } with
        entries := s.entries.set i (some
          ((s.newEntry (.m c) none none none .data .read a 16 []).placed w))
        order := s.order ++ [i], freshCount := s.freshCount + 1 } := by
  have hplaced := State.countDone_startFetch_placed (s := s.setChannel c (s.channels[c].moved []))
    hq hi hw
  rw [State.finished, hplaced, State.moved_channel]
  refine State.restChannel_of_active (.inr ?_)
  dsimp only
  rw [State.setChannel_channel]
  exact ⟨nofun, nofun⟩

/-- A fetch of the next descriptor that its decode ends faults the channel (R112, R116). -/
theorem State.finished_fetch_ended {a : Word} {i : EntryNo} {st : Status} {d : Option Detail}
    (hq : s.ownedM c < 2) (hi : s.lowestFree = some i)
    (hw : s.decodeAddress (.m c) .read a = .error (st, d)) :
    ((s.finished c).startFetch c a).restChannel c =
      ((s.finished c).setChannel c (s.channels[c].finished.fetchFaulted st a d)).raise (.channel c)
        .channelFault (some (st, a)) := by
  have hended := State.countDone_startFetch_ended (s := s.setChannel c (s.channels[c].moved []))
    hq hi hw
  rw [State.finished, hended, State.moved_channel]
  refine State.restChannel_of_active (.inr ?_)
  rw [State.raise_channels, State.setChannel_channel]
  exact ⟨nofun, nofun⟩

end

/-! ## All reports -/

/-- Settles O38: the record that has the report, its status and the state of the channel say which of the
laws of reports applies; a channel that still has a unit, or goes on running, is at rest after it. -/
theorem unitReportsMoveTheChannel : Obligations.UnitReportsMoveTheChannel := by
  intro s c k a st fa d data ch report active stopping with' unit moved fault entry writes done
    notified closes idle link
  have hnotified : s.finished c = notified := s.finished_eq c
  have hrunning (h : active) : ch.state ≠ .stopping .fault := by
    rcases h with h | h <;> rw [h] <;> nofun
  have hstopping (h : stopping) : ch.state ≠ .stopping .fault := by rw [h]; nofun
  have hactive (h : active ∨ stopping) : ch.state ≠ .stopping .fault := h.elim hrunning hstopping
  have hwrites (x : Channel) (m : Nat) (rest : List UnitRecord) (bytes : List Byte) (u : UnitRecord)
      (hu : u.number = m) (hx : x.descriptor = ch.descriptor)
      (h : report = ((s.setChannel c x).startWrite c u rest bytes).restChannel c) :
      writes x m rest bytes := by
    subst hu
    refine ⟨fun i w hq hi hw => ⟨freshBuffer s.freshCount bytes, begins_freshBuffer _ _, ?_⟩,
      fun i st' d' hq hi hw => ?_⟩
    · rw [h, State.startWrite_placed hq hi hw, hx]
      rfl
    · rw [h, State.startWrite_ended hq hi hw]
      rfl
  have halone (n : Nat) (rest : List UnitRecord) (hu : ch.units = unit n (.writing k) :: rest)
      (hst : st = .ok) (h : ch.state = .stopping .fault ∨ ch.remaining ≠ 1)
      (hnext : ∀ u bytes, rest.head? = some u → u.phase ≠ .staged bytes) :
      report = (with' { moved with units := rest }).restChannel c := by
    subst hst
    exact State.report_write_alone hu h hnext a fa d data
  refine ⟨fun n rest hu _ hst => ?_, fun u n hu ho _ hst => ?_, fun n hu h hr hst => ?_,
    fun n hu hst h => ?_, fun n m bytes hu h hr hst => ?_, fun n m j hu h hr hst => ?_,
    fun n m j hu hst h => ?_, fun n hu hr hst => ⟨fun h hl => ?_, fun h hl => ?_, fun h => ?_,
      fun i h hl hq hi => ⟨fun w hw => ?_, fun st' d' hw => ?_⟩⟩,
    fun n rest hst hu _ => ?_, fun n rest hst hu h => ?_, fun u n hst hu ho _ => ?_,
    fun n rest hst hu h => ?_, fun n x y hu hx => ?_, fun n j bytes => ⟨rfl, rfl, rfl, rfl, rfl⟩⟩
  · subst hst
    refine hwrites ch n rest data (unit n (.reading k)) rfl rfl ?_
    rw [State.setChannel_self]
    exact State.report_read_first hu a fa d data
  · subst hst
    have hreport : report = _ := State.report_read_second hu ho a fa d data
    exact hreport.trans (State.restChannel_setChannel (.inl (List.cons_ne_nil _ _)))
  · have hstate : moved.state = .running := h
    rw [halone n [] hu hst (.inr hr) nofun]
    exact State.restChannel_setChannel (.inr (by rw [hstate]; exact ⟨nofun, nofun⟩))
  · exact halone n [] hu hst (h.elim (fun h => .inr h.2) .inl) nofun
  · subst hst
    refine hwrites (ch.moved [unit m (.staged bytes)]) m [] bytes (unit m (.staged bytes)) rfl rfl ?_
    have hreport : report = _ := State.report_write_ok hu a fa d data
    rw [hreport, State.writeDone_staged (hactive h) hr rfl]
  · rw [halone n [unit m (.reading j)] hu hst (.inr hr) (by rintro _ _ ⟨⟩; nofun)]
    exact State.restChannel_setChannel (.inl (List.cons_ne_nil _ _))
  · rw [halone n [unit m (.discarding j)] hu hst (h.elim (fun h => .inr h.2) .inl)
      (by rintro _ _ ⟨⟩; nofun)]
    exact State.restChannel_setChannel (.inl (List.cons_ne_nil _ _))
  · subst hst
    exact (State.report_last_write_unlinked hu hr h hl a fa d data).trans (by rw [hnotified]; rfl)
  · subst hst
    exact (State.report_last_write_pausing hu hr h hl a fa d data).trans (by rw [hnotified]; rfl)
  · subst hst
    exact (State.report_last_write_stopping hu hr h a fa d data).trans (by rw [hnotified]; rfl)
  · subst hst
    have hreport : report = _ := State.report_last_write_linked hu hr h hl a fa d data
    refine ⟨freshBuffer s.freshCount [], ?_⟩
    rw [hreport, State.finished_fetch_placed hq hi hw, hnotified]
    rfl
  · subst hst
    have hreport : report = _ := State.report_last_write_linked hu hr h hl a fa d data
    rw [hreport, State.finished_fetch_ended hq hi hw, hnotified]
    rfl
  · exact State.report_read_failed (x := []) hu nofun hst a fa d data
  · exact State.report_write_failed hu (hactive h) hst a fa d data
  · exact State.report_read_failed (x := [u]) hu (by simpa using ho) hst a fa d data
  · exact State.report_write_failed_again hu h hst a fa d data
  · exact State.report_discarded hu hx a st fa d data

end Sys2Proof.Machine
end

section
/-!
PROOFS. The attention unit's own rules (R138, R141, R142): the pending condition, what its evaluation changes,
and what a raised event records.
-/

namespace Sys2Proof.Machine

/-! ## The pending condition -/

/-- A line counts when its enable is set and it is asserted (R141). -/
theorem State.lineWants_iff {s : State} {p : PortNo} : s.lineWants p = true ↔
    s.setup.settings.portEnables.getLsbD p.val = true ∧ s.lines.tattn[p] = true :=
  Bool.and_eq_true_iff

/-- The three disjuncts of the pending condition (R141). -/
theorem State.pendingCondition_iff {s : State} : s.pendingCondition = true ↔
    s.attention.queue ≠ [] ∨ s.attention.overflow = true ∨
      ∃ p : PortNo, s.setup.settings.portEnables.getLsbD p.val = true ∧ s.lines.tattn[p] = true := by
  simp only [State.pendingCondition, Bool.or_eq_true, Bool.not_eq_true', List.isEmpty_eq_false_iff,
    List.any_eq_true, List.mem_finRange, true_and, State.lineWants_iff, or_assoc, ne_eq]

/-- An evaluation sets ATTN_OUT and, where it rises with the P link up, sends one notice; nothing else
changes (R141, R142). -/
theorem State.evalPending_eq (s : State) : s.evalPending = { s with
    attention := { s.attention with out := s.pendingCondition }
    pSent := if s.pendingCondition = true ∧ s.attention.out = false ∧ s.lines.pLink = true then
        s.pSent ++ [.notice s.attention.queue.length] else s.pSent } := by
  simp only [State.evalPending, Bool.and_eq_true, Bool.not_eq_true', and_assoc]

/-! ## Recording an event -/

theorem Attention.holds_iff {a : Attention} {source : AttnSource} {kind : AttnKind} :
    a.holds source kind = true ↔ ∃ r ∈ a.queue, r.source = source ∧ r.kind = kind := by
  simp only [Attention.holds, List.any_eq_true, Bool.and_eq_true, decide_eq_true_eq]

/-- The record with the event's source and kind counts it, and is the only one that does, since no other
record of the queue has both (R137, R138). -/
theorem Attention.record_same {a : Attention} (h : a.Ok) {x y : List AttnRecord} {r : AttnRecord}
    (hq : a.queue = x ++ r :: y) (detail : Option (Status × Word)) :
    a.record r.source r.kind detail =
      { a with queue := x ++ { r with count := min 255 (r.count + 1) } :: y } := by
  obtain ⟨_, hpairwise, _⟩ := h
  rw [hq, List.pairwise_append, List.pairwise_cons] at hpairwise
  obtain ⟨_, ⟨hafter, _⟩, hbefore⟩ := hpairwise
  have hheld : a.holds r.source r.kind = true :=
    Attention.holds_iff.2 ⟨r, by simp [hq], rfl, rfl⟩
  have hx : ∀ t ∈ x, ¬ (t.source = r.source ∧ t.kind = r.kind) := fun t ht =>
    hbefore t ht r List.mem_cons_self
  have hy : ∀ t ∈ y, ¬ (t.source = r.source ∧ t.kind = r.kind) := fun t ht hsame =>
    hafter t ht ⟨hsame.1.symm, hsame.2.symm⟩
  rw [Attention.record, if_pos hheld, hq, List.map_append, List.map_cons, if_pos ⟨rfl, rfl⟩,
    List.map_congr_left fun t ht => if_neg (hx t ht),
    List.map_congr_left fun t ht => if_neg (hy t ht), List.map_id', List.map_id']

section
variable {a : Attention} {source : AttnSource} {kind : AttnKind}
  (hnew : ∀ r ∈ a.queue, ¬ (r.source = source ∧ r.kind = kind))
include hnew

theorem Attention.not_holds_of_new : ¬ a.holds source kind = true := fun h =>
  let ⟨r, hr, hsame⟩ := Attention.holds_iff.1 h
  hnew r hr hsame

/-- An event of a new source and kind joins the tail of a queue with room (R138). -/
theorem Attention.record_new (hroom : a.queue.length < 16) (detail : Option (Status × Word)) :
    a.record source kind detail =
      { a with queue := a.queue ++ [{ source, kind, count := 1, detail }] } := by
  rw [Attention.record, if_neg (Attention.not_holds_of_new hnew)]
  exact if_pos hroom

/-- An event of a new source and kind that finds the queue full sets the overflow flag alone (R138). -/
theorem Attention.record_full (hfull : 16 ≤ a.queue.length) (detail : Option (Status × Word)) :
    a.record source kind detail = { a with overflow := true } := by
  rw [Attention.record, if_neg (Attention.not_holds_of_new hnew)]
  exact if_neg (Nat.not_lt.2 hfull)

end

/-- Recording never touches the walk or ATTN_OUT. -/
theorem Attention.record_frame (a : Attention) (source : AttnSource) (kind : AttnKind)
    (detail : Option (Status × Word)) :
    (a.record source kind detail).walk = a.walk ∧ (a.record source kind detail).out = a.out := by
  unfold Attention.record
  split
  · exact ⟨rfl, rfl⟩
  · split <;> exact ⟨rfl, rfl⟩

/-- The attention unit after an event and before the pending condition is evaluated: the event is recorded if
its kind is enabled (R138, R140). -/
def State.recorded (s : State) (source : AttnSource) (kind : AttnKind)
    (detail : Option (Status × Word)) : Attention :=
  if s.kindEnabled kind then s.attention.record source kind detail else s.attention

theorem State.raise_eq (s : State) (source : AttnSource) (kind : AttnKind)
    (detail : Option (Status × Word)) :
    s.raise source kind detail =
      State.evalPending { s with attention := s.recorded source kind detail } := rfl

theorem State.recorded_frame (s : State) (source : AttnSource) (kind : AttnKind)
    (detail : Option (Status × Word)) :
    (s.recorded source kind detail).walk = s.attention.walk ∧
      (s.recorded source kind detail).out = s.attention.out := by
  unfold State.recorded
  split
  · exact s.attention.record_frame source kind detail
  · exact ⟨rfl, rfl⟩

/-- Settles O50: the four cases are those of `Attention.record`, and the output and the notice are those of
`State.evalPending_eq`. -/
theorem raisedAttentionIsRecordedAndNotified : Obligations.RaisedAttentionIsRecordedAndNotified := by
  intro s source kind detail a t enabled same
  have hrecorded (h : enabled) : s.recorded source kind detail = a.record source kind detail :=
    if_pos h
  have hqueue : t.attention.queue = (s.recorded source kind detail).queue := rfl
  have hoverflow : t.attention.overflow = (s.recorded source kind detail).overflow := rfl
  obtain ⟨hwalk, hout⟩ := s.recorded_frame source kind detail
  refine ⟨fun h => ?_, fun x r y h hok hq hsame => ?_, fun h hnew hroom => ?_, fun h hnew hfull => ?_,
    hwalk, rfl, ?_⟩
  · have hskipped : s.recorded source kind detail = a := if_neg h
    rw [hqueue, hoverflow, hskipped]
    exact ⟨rfl, rfl⟩
  · obtain ⟨rfl, rfl⟩ := hsame
    rw [hqueue, hoverflow, hrecorded h, Attention.record_same hok hq]
    exact ⟨rfl, rfl⟩
  · rw [hqueue, hoverflow, hrecorded h, Attention.record_new hnew hroom]
    exact ⟨rfl, rfl⟩
  · rw [hqueue, hoverflow, hrecorded h, Attention.record_full hnew hfull]
    exact ⟨rfl, rfl⟩
  · have ht : t = _ := (s.raise_eq source kind detail).trans (State.evalPending_eq _)
    rw [hout] at ht
    exact ht

/-- Settles O51: the line is set and the pending condition evaluated, by `State.evalPending_eq`. -/
theorem lineChangeEvaluatesThePendingCondition :
    Obligations.LineChangeEvaluatesThePendingCondition := by
  intro s p level tattn
  have hexec : exec (.targetAttentionLineChange p level) s =
    .next (State.evalPending { s with lines := { s.lines with tattn } }) := rfl
  exact ⟨_, State.pendingCondition_iff, hexec.trans (congrArg _ (State.evalPending_eq _))⟩

end Sys2Proof.Machine
end

section
/-!
PROOFS. Writes to the setting words, the remote management word, the attention enables, the command argument
and the offsets that no other row takes (R140, R141, R152, R153, R155, R157, R158).
-/

namespace Sys2Proof.Machine

/-! ## Setting words -/

/-- A setting write whose values are in range stores the settings (R155). -/
theorem State.Takes.exec_settingWrite_stored {s : State} {i : EntryNo} {e : Entry}
    (h : s.Takes .settingWrite i e) {o : MgmtObject} (ha : e.address.toNat = o.offset) {t : Settings}
    (ht : s.setup.settings.write o e.word = some t) :
    exec .settingWrite s =
      .next (State.answered { s with setup := { s.setup with settings := t } } i .ok none) := by
  refine (h.takeWrite serveSettingWrite).trans ?_
  simp only [serveSettingWrite, objectAt_eq_some_iff.2 ha, ht]
  rfl

/-- A setting write with a value out of range is answered FORM and stores nothing (R155). -/
theorem State.Takes.exec_settingWrite_refused {s : State} {i : EntryNo} {e : Entry}
    (h : s.Takes .settingWrite i e) {o : MgmtObject} (ha : e.address.toNat = o.offset)
    (ht : s.setup.settings.write o e.word = none) :
    exec .settingWrite s = .next (s.answered i .form none) := by
  refine (h.takeWrite serveSettingWrite).trans ?_
  simp only [serveSettingWrite, objectAt_eq_some_iff.2 ha, ht]

/-! ## The remote management word -/

/-- A write from the backplane is answered DENIED (R153). -/
theorem State.Takes.exec_remoteManagementWrite_denied {s : State} {i : EntryNo} {e : Entry}
    (h : s.Takes .remoteManagementWrite i e) (hb : e.origin.isB = true) :
    exec .remoteManagementWrite s = .next (s.answered i .denied none) := by
  refine (h.takeWrite serveRemoteManagementWrite).trans ?_
  simp only [serveRemoteManagementWrite, hb, if_true]

/-- A write from the processor stores bit 0 (R153). -/
theorem State.Takes.exec_remoteManagementWrite_stored {s : State} {i : EntryNo} {e : Entry}
    (h : s.Takes .remoteManagementWrite i e) (hb : e.origin.isB = false) :
    exec .remoteManagementWrite s = .next (State.answered { s with setup := { s.setup with
      settings := { s.setup.settings with remoteManagement := e.word.getLsbD 0 } } } i .ok none) := by
  refine (h.takeWrite serveRemoteManagementWrite).trans ?_
  simp only [serveRemoteManagementWrite, hb, Bool.false_eq_true, if_false]
  rfl

/-! ## The offsets that no other row takes -/

/-- The offsets of the objects that can be read and not written (9.5). -/
def ReadOnlyOffset (a : Nat) : Prop :=
  a % 4 = 0 ∧ (a = 0x000 ∨ a = 0x004 ∨ a = 0x010 ∨ (0x0C0 ≤ a ∧ a < 0x0D0) ∨
    (0x140 ≤ a ∧ a < 0x160) ∨ (0x240 ≤ a ∧ a < 0x280) ∨ (0x600 ≤ a ∧ a < 0x800))

/-- The offsets of the objects that can be written, the command word among them (9.5). -/
def WritableOffset (a : Nat) : Prop :=
  a % 4 = 0 ∧ ((0x040 ≤ a ∧ a ≤ 0x050) ∨ a = 0x080 ∨ a = 0x084 ∨
    (0x100 ≤ a ∧ a < 0x140 ∧ a / 4 % 4 ≠ 3) ∨ (0x200 ≤ a ∧ a < 0x240) ∨ (0x400 ≤ a ∧ a < 0x600))

/-- A read-only offset is that of an object, which is not the command word. -/
theorem ReadOnlyOffset.object {a : Nat} (h : ReadOnlyOffset a) :
    ∃ o : MgmtObject, a = o.offset ∧ o ≠ .command := by
  obtain ⟨h4, rfl | rfl | rfl | hword | hport | hchannel | hlive⟩ := h
  · exact ⟨.identity0, rfl, nofun⟩
  · exact ⟨.identity1, rfl, nofun⟩
  · exact ⟨.backplane, rfl, nofun⟩
  · obtain rfl | rfl | rfl | rfl : a = 0x0C0 ∨ a = 0x0C4 ∨ a = 0x0C8 ∨ a = 0x0CC := by omega
    · exact ⟨.generation, rfl, nofun⟩
    · exact ⟨.occupancy, rfl, nofun⟩
    · exact ⟨.attentionStatus, rfl, nofun⟩
    · exact ⟨.guardState, rfl, nofun⟩
  · refine ⟨.portStatus ⟨(a - 0x140) / 8, by omega⟩ ⟨(a - 0x140) / 4 % 2, by omega⟩, ?_, nofun⟩
    simp only [MgmtObject.offset]
    omega
  · refine ⟨.channelStatus ⟨(a - 0x240) / 16, by omega⟩ ⟨(a - 0x240) / 4 % 4, by omega⟩, ?_, nofun⟩
    simp only [MgmtObject.offset]
    omega
  · refine ⟨.live ⟨(a - 0x600) / 16, by omega⟩ ⟨(a - 0x600) / 4 % 4, by omega⟩, ?_, nofun⟩
    simp only [MgmtObject.offset]
    omega

/-- Every object stands at a read-only or a writable offset. -/
theorem MgmtObject.offset_readOnly_or_writable (o : MgmtObject) :
    ReadOnlyOffset o.offset ∨ WritableOffset o.offset := by
  unfold ReadOnlyOffset WritableOffset
  cases o with
  | identity0 | identity1 | backplane | generation | occupancy | attentionStatus | guardState =>
    exact .inl (by decide)
  | remoteManagement | nodeMask | timers | remoteLimit | attentionEnables | command | argument =>
    exact .inr (by decide)
  | portConfig | portStatus | descriptor | channelStatus | staging | live =>
    simp only [MgmtObject.offset]
    omega

section
variable {s : State} {i : EntryNo} {e : Entry} (h : s.Takes .mgmtWrite i e)
include h

/-- A command word that no row takes holds a code that names no command (R158). -/
theorem State.Takes.exec_mgmtWrite_command (ha : e.address.toNat = 0x080) :
    exec .mgmtWrite s = .next (s.answered i .form (some Detail.command)) := by
  have hobject : objectAt e.address.toNat = some .command := objectAt_eq_some_iff.2 ha
  refine (h.takeWrite serveOtherWrite).trans ?_
  simp only [serveOtherWrite, hobject]

theorem State.Takes.exec_mgmtWrite_readOnly (ha : ReadOnlyOffset e.address.toNat) :
    exec .mgmtWrite s = .next (s.answered i .denied none) := by
  obtain ⟨o, ho, hcommand⟩ := ha.object
  refine (h.takeWrite serveOtherWrite).trans ?_
  simp only [serveOtherWrite, objectAt_eq_some_iff.2 ho]

theorem State.Takes.exec_mgmtWrite_unmapped (hread : ¬ ReadOnlyOffset e.address.toNat)
    (hwrite : ¬ WritableOffset e.address.toNat) :
    exec .mgmtWrite s = .next (s.answered i .unmapped none) := by
  have hobject : objectAt e.address.toNat = none := by
    refine Option.eq_none_iff_forall_not_mem.2 fun o ho => ?_
    have hoffset := offset_of_objectAt ho
    rcases o.offset_readOnly_or_writable with hr | hw
    · exact hread (hoffset ▸ hr)
    · exact hwrite (hoffset ▸ hw)
  refine (h.takeWrite serveOtherWrite).trans ?_
  simp only [serveOtherWrite, hobject]

end

/-- Settles O49: each row stores what `Settings.write` or its own word gives; the last row answers by the
place of its offset in the map. -/
theorem settingWritesTakeEffectAtTheTake : Obligations.SettingWritesTakeEffectAtTheTake := by
  intro s i e a w with' old readOnly writable
  refine ⟨fun h ha => ?_, fun h ha => ⟨fun hzero => ?_, fun hhold hoff => ?_⟩,
    fun h ha => ⟨fun hzero => ?_, fun hlimit => ?_⟩,
    fun h => ⟨h.exec_remoteManagementWrite_denied, h.exec_remoteManagementWrite_stored⟩,
    fun h => h.takeWrite serveEnablesWrite, fun h => h.takeWrite serveArgumentWrite,
    fun h => ⟨h.exec_mgmtWrite_command, h.exec_mgmtWrite_readOnly, h.exec_mgmtWrite_unmapped⟩⟩
  · exact h.exec_settingWrite_stored (o := .nodeMask) ha rfl
  · exact h.exec_settingWrite_refused (o := .timers) ha (if_pos hzero)
  · exact h.exec_settingWrite_stored (o := .timers) ha (if_neg (not_or.2 ⟨hhold, hoff⟩))
  · exact h.exec_settingWrite_refused (o := .remoteLimit) ha (if_pos hzero)
  · exact h.exec_settingWrite_stored (o := .remoteLimit) ha (if_neg hlimit)

end Sys2Proof.Machine
end

section
/-!
PROOFS. Which row takes a management write, and when it is taken (R150, R152, R158, section 9.5).
-/

namespace Sys2Proof.Machine

/-! ## The row of an offset and a word -/

/-- The row that takes writes of a word to an object: that of the command word depends on the word (R158). -/
def MgmtObject.row (w : Word) : MgmtObject → MgmtRow
  | .command => commandRow w
  | .staging _ _ => .stagingWrite
  | .descriptor _ _ => .loadedDescriptorWrite
  | .portConfig _ _ => .portConfigurationWrite
  | .nodeMask | .timers | .remoteLimit => .settingWrite
  | .remoteManagement => .remoteManagementWrite
  | .attentionEnables => .attentionEnablesWrite
  | .argument => .commandArgumentWrite
  | _ => .mgmtWrite

/-- The row of a write is that of the object at its offset; with no object there, it is MGMT_WRITE. -/
theorem Entry.mgmtRow_eq (e : Entry) :
    e.mgmtRow = (objectAt e.address.toNat).elim .mgmtWrite (MgmtObject.row e.word) := by
  unfold Entry.mgmtRow
  cases objectAt e.address.toNat with
  | none => rfl
  | some o => cases o <;> rfl

theorem Entry.mgmtRow_of_offset {e : Entry} {o : MgmtObject} (h : e.address.toNat = o.offset) :
    e.mgmtRow = o.row e.word := by
  rw [e.mgmtRow_eq, objectAt_eq_some_iff.2 h, Option.elim_some]

theorem MgmtObject.row_eq_mgmtWrite_of_not_writable {o : MgmtObject} (w : Word)
    (h : ¬ WritableOffset o.offset) : o.row w = .mgmtWrite := by
  cases o with
  | identity0 | identity1 | backplane | generation | occupancy | attentionStatus | guardState
  | portStatus | channelStatus | live => rfl
  | remoteManagement | nodeMask | timers | remoteLimit | attentionEnables | command | argument =>
    unfold WritableOffset at h
    exact absurd (by decide) h
  | portConfig | descriptor | staging =>
    simp only [WritableOffset, MgmtObject.offset] at h
    omega

/-- MGMT_WRITE takes the writes to read-only and unassigned offsets (R158). -/
theorem Entry.mgmtRow_of_not_writable {e : Entry} (h : ¬ WritableOffset e.address.toNat) :
    e.mgmtRow = .mgmtWrite := by
  rw [e.mgmtRow_eq]
  cases ho : objectAt e.address.toNat with
  | none => rfl
  | some o => exact o.row_eq_mgmtWrite_of_not_writable e.word (offset_of_objectAt ho ▸ h)

theorem Entry.mgmtRow_staging {e : Entry} (h4 : e.address.toNat % 4 = 0)
    (hlow : 0x400 ≤ e.address.toNat) (hhigh : e.address.toNat < 0x600) :
    e.mgmtRow = .stagingWrite := by
  refine Entry.mgmtRow_of_offset (o := .staging ⟨(e.address.toNat - 0x400) / 16, by omega⟩
    ⟨(e.address.toNat - 0x400) / 4 % 4, by omega⟩) ?_
  simp only [MgmtObject.offset]
  omega

theorem Entry.mgmtRow_descriptor {e : Entry} (h4 : e.address.toNat % 4 = 0)
    (hlow : 0x200 ≤ e.address.toNat) (hhigh : e.address.toNat < 0x240) :
    e.mgmtRow = .loadedDescriptorWrite := by
  refine Entry.mgmtRow_of_offset (o := .descriptor ⟨(e.address.toNat - 0x200) / 16, by omega⟩
    ⟨(e.address.toNat - 0x200) / 4 % 4, by omega⟩) ?_
  simp only [MgmtObject.offset]
  omega

/-- The fourth word of a port's row is assigned to no object (9.5). -/
theorem Entry.mgmtRow_portConfig {e : Entry} (h4 : e.address.toNat % 4 = 0)
    (hlow : 0x100 ≤ e.address.toNat) (hhigh : e.address.toNat < 0x140)
    (hword : e.address.toNat / 4 % 4 ≠ 3) : e.mgmtRow = .portConfigurationWrite := by
  refine Entry.mgmtRow_of_offset (o := .portConfig ⟨(e.address.toNat - 0x100) / 16, by omega⟩
    ⟨(e.address.toNat - 0x100) / 4 % 4, by omega⟩) ?_
  simp only [MgmtObject.offset]
  omega

theorem Entry.mgmtRow_setting {e : Entry} (h : e.address.toNat = 0x44 ∨ e.address.toNat = 0x48 ∨
    e.address.toNat = 0x4C) : e.mgmtRow = .settingWrite := by
  obtain h | h | h := h
  · exact Entry.mgmtRow_of_offset (o := .nodeMask) h
  · exact Entry.mgmtRow_of_offset (o := .timers) h
  · exact Entry.mgmtRow_of_offset (o := .remoteLimit) h

/-- The row of a command word by the code in its low byte, and for CHANNEL START by the form in bit 12
(R158). -/
theorem commandRow_eq (w : Word) : commandRow w =
    let code := w.toNat % 256
    if code = 1 then .commit else if code = 2 then .copyBack else if code = 3 then .portResume
    else if code = 4 then .portOffline
    else if code = 5 then
      (if w.getLsbD 12 = true then .channelStartFetch else .channelStartLoaded)
    else if code = 6 then .channelPause else if code = 7 then .channelContinue
    else if code = 8 then .channelStop else if code = 9 then .cardResetCommand
    else .mgmtWrite := by
  have hcode : (w.extractLsb' 0 8).toNat = w.toNat % 256 := by simp
  unfold commandRow
  rw [hcode]
  split
  case h_10 h1 h2 h3 h4 h5 h6 h7 h8 h9 =>
    simp only [if_neg h1, if_neg h2, if_neg h3, if_neg h4, if_neg h5, if_neg h6, if_neg h7,
      if_neg h8, if_neg h9]
  all_goals next hvalue => simp only [hvalue]; rfl

/-! ## The take -/

/-- The command of a row takes the writes of that row, each row with its own service. -/
theorem MgmtRow.exec_command (row : MgmtRow) :
    ∃ serve, ∀ s, exec row.command s = s.takeWrite row serve := by
  cases row <;> exact ⟨_, fun _ => rfl⟩

theorem State.headWrite_of_empty {s : State} (h : s.mgmtQueue = []) (row : MgmtRow) :
    s.headWrite row = none := by
  simp only [State.headWrite, h]

theorem State.headWrite_of_head {s : State} {i : EntryNo} {e : Entry}
    {rest : List (EntryNo × Entry)} (h : s.mgmtQueue = (i, e) :: rest) (row : MgmtRow) :
    s.headWrite row = if e.op = .write ∧ e.mgmtRow = row then some (i, e) else none := by
  simp only [State.headWrite, h]

theorem State.takeWrite_of_headWrite_none {s : State} {row : MgmtRow}
    (h : s.headWrite row = none) (serve : Entry → State → Served) :
    s.takeWrite row serve = .next s := by
  simp only [State.takeWrite, h]

/-- While PORST is asserted the management block takes nothing (log entry 5). -/
theorem State.takeWrite_of_porst {s : State} (h : s.lines.porst = true) (row : MgmtRow)
    (serve : Entry → State → Served) : s.takeWrite row serve = .next s := by
  simp only [State.takeWrite, h, if_true]
  split <;> rfl

/-- A write from the backplane while remote management is off ends DENIED, whatever its row would do
(R152). -/
theorem State.takeWrite_of_remoteRefused {s : State} {row : MgmtRow} {i : EntryNo} {e : Entry}
    (hporst : s.lines.porst = false) (hhead : s.headWrite row = some (i, e))
    (hrefused : s.remoteRefused e = true) (serve : Entry → State → Served) :
    s.takeWrite row serve = .next (s.answered i .denied none) := by
  simp only [State.takeWrite, hhead, hporst, State.serveWrite, hrefused, if_true]
  rfl

/-- Settles O40: the map gives the row of each offset, and every row's command is a `takeWrite` of that row. -/
theorem managementWritesAreTakenByTheirRow : Obligations.ManagementWritesAreTakenByTheirRow := by
  refine ⟨?_, fun s row h => ?_, fun s row i e rest hporst hqueue hop hrow horigin hoff => ?_⟩
  · intro e a code other
    refine ⟨fun h => Entry.mgmtRow_of_not_writable ?_, fun h => ?_,
      Entry.mgmtRow_staging, Entry.mgmtRow_descriptor, Entry.mgmtRow_portConfig,
      Entry.mgmtRow_setting, Entry.mgmtRow_of_offset (o := .remoteManagement),
      Entry.mgmtRow_of_offset (o := .attentionEnables), Entry.mgmtRow_of_offset (o := .argument)⟩
    · unfold WritableOffset
      omega
    · exact (Entry.mgmtRow_of_offset (o := .command) h).trans (commandRow_eq e.word)
  · obtain ⟨serve, hexec⟩ := row.exec_command
    rw [hexec]
    obtain hporst | hempty | ⟨i, e, rest, hqueue, hother⟩ := h
    · exact State.takeWrite_of_porst hporst row serve
    · exact State.takeWrite_of_headWrite_none (State.headWrite_of_empty hempty row) serve
    · have hnone : s.headWrite row = none :=
        (State.headWrite_of_head hqueue row).trans (if_neg (not_and_or.2 hother))
      exact State.takeWrite_of_headWrite_none hnone serve
  · obtain ⟨serve, hexec⟩ := row.exec_command
    have hhead : s.headWrite row = some (i, e) :=
      (State.headWrite_of_head hqueue row).trans (if_pos ⟨hop, hrow⟩)
    rw [hexec]
    exact State.takeWrite_of_remoteRefused hporst hhead
      ((s.remoteRefused_iff e).2 ⟨horigin, hoff⟩) serve

end Sys2Proof.Machine
end

section
/-!
PROOFS. The laws of the Transaction Table along every step (R6, R42 to R44, R46, R49, R69, R82): each law looks
at the records, the arrival order and the configuration alone, and few events write those.
-/

namespace Sys2Proof.Machine

/-- The laws of the Transaction Table together. -/
structure State.TableLaws (s : State) : Prop where
  table : s.TableOk
  quota : s.QuotaOk
  tags : s.TagsOk
  config : s.ConfigOk
  issued : s.IssuedOk
  entries : s.EntriesOk
  retry : s.RetryOk

/-- The laws are about the records, the arrival order and the configuration. -/
theorem State.TableLaws.congr {s t : State} (h : s.TableLaws) (he : t.entries = s.entries)
    (ho : t.order = s.order) (hp : t.setup.portConfig = s.setup.portConfig)
    (hs : s.setup.settings.Ok → t.setup.settings.Ok) : t.TableLaws where
  table := by simpa only [State.TableOk, he, ho] using h.table
  quota := by simpa only [State.QuotaOk, State.owned, State.ownedM, State.table_congr ho he] using h.quota
  tags := by simpa only [State.TagsOk, he] using h.tags
  config := ⟨by simpa only [hp] using h.config.1, hs h.config.2⟩
  issued := by
    have hcount := h.issued
    simp only [State.IssuedOk, State.issuedCount_eq_countIf] at hcount ⊢
    exact fun p => (State.countIf_congr (State.table_congr ho he) _).trans_le (hcount p)
  entries := by simpa only [State.EntriesOk, he] using h.entries
  retry := by simpa only [State.RetryOk, he, hp] using h.retry

/-- The quotas hold in a state where no origin owns more entries. -/
theorem State.QuotaOk.of_le {s t : State} (h : s.QuotaOk)
    (hle : ∀ f : Origin → Bool, (t.countIf fun e => f e.origin) ≤ s.countIf fun e => f e.origin) :
    t.QuotaOk := by
  simp only [State.QuotaOk, State.ownedM, State.owned_eq_countIf] at h ⊢
  obtain ⟨hp, hb, hm⟩ := h
  exact ⟨(hle fun o => decide (o = .p)).trans hp, (hle Origin.isB).trans hb,
    fun c => (hle fun o => decide (o = .m c)).trans (hm c)⟩

theorem State.IssuedOk.of_le {s t : State} (h : s.IssuedOk)
    (hle : ∀ p, t.countIf (Entry.pieceOutAt p) ≤ s.countIf (Entry.pieceOutAt p)) : t.IssuedOk := by
  simp only [State.IssuedOk, State.issuedCount_eq_countIf] at h ⊢
  exact fun p => (hle p).trans (h p)

/-- With every entry FREE the laws of the table are those of the configuration. -/
theorem State.TableLaws.of_empty {s : State} (ho : s.order = []) (he : ∀ i : EntryNo, s.entries[i] = none)
    (hc : s.ConfigOk) : s.TableLaws where
  table := ⟨by simp [ho], fun i => by simp [ho, he]⟩
  quota := by
    simp only [State.QuotaOk, State.ownedM, State.owned_eq_countIf, State.countIf_of_empty ho]
    exact ⟨by omega, by omega, fun _ => by omega⟩
  tags := fun i _ e _ h => by simp [he] at h
  config := hc
  issued := fun p => by rw [State.issuedCount_eq_countIf, State.countIf_of_empty ho]; omega
  entries := fun i e h => by simp [he] at h
  retry := fun i e h => by simp [he] at h

/-! ## The acts -/

/-- Where the record of an entry comes from after one record has changed. -/
theorem State.modEntry_some {s : State} {i j : EntryNo} {f : Entry → Entry} {e : Entry}
    (h : (s.modEntry i f).entries[j] = some e) :
    ∃ e₀, s.entries[j] = some e₀ ∧ (e = e₀ ∨ i = j ∧ e = f e₀) := by
  rw [State.modEntry_entry] at h
  split at h
  · obtain ⟨e₀, he₀, rfl⟩ := Option.map_eq_some_iff.1 h
    exact ⟨e₀, he₀, .inr ⟨by assumption, rfl⟩⟩
  · exact ⟨e, h, .inl rfl⟩

/-- The change of one record keeps the laws when the record keeps what it must. -/
theorem State.TableLaws.modEntry {s : State} (h : s.TableLaws) {i : EntryNo} {f : Entry → Entry}
    (hf : ∀ e, s.entries[i] = some e → EntryKept s e (f e)) : (s.modEntry i f).TableLaws := by
  have act : Act s (s.modEntry i f) := .edit s i f hf
  have kept {j : EntryNo} {e : Entry} (he : (s.modEntry i f).entries[j] = some e) :
      ∃ e₀, s.entries[j] = some e₀ ∧ (e = e₀ ∨ EntryKept s e₀ e) := by
    obtain ⟨e₀, he₀, rfl | ⟨rfl, rfl⟩⟩ := State.modEntry_some he
    · exact ⟨e, he₀, .inl rfl⟩
    · exact ⟨e₀, he₀, .inr (hf e₀ he₀)⟩
  refine ⟨act.tableOk h.table, h.quota.of_le fun g => ?_, ?_, h.config, fun p => ?_,
    act.entriesOk h.entries, ?_⟩
  · exact s.countIf_modEntry_le i f _ fun e he => by rw [(hf e he).origin]; exact id
  · intro j k x y hx hy hjk ho ht hsx hsy
    obtain ⟨x₀, hx₀, hkx⟩ := kept hx
    obtain ⟨y₀, hy₀, hky⟩ := kept hy
    have same {z z₀ : Entry} (hz : z = z₀ ∨ EntryKept s z₀ z) : z.origin = z₀.origin ∧
        z.tag = z₀.tag ∧ (z.state ≠ .orphaned → z₀.state ≠ .orphaned) := by
      obtain rfl | hz := hz
      · exact ⟨rfl, rfl, id⟩
      · exact ⟨hz.origin, hz.tag, mt hz.orphaned⟩
    obtain ⟨hox, htx, hsx₀⟩ := same hkx
    obtain ⟨hoy, hty, hsy₀⟩ := same hky
    rw [htx, hty]
    exact h.tags j k x₀ y₀ hx₀ hy₀ hjk (hox ▸ hoy ▸ ho) (htx ▸ ht) (hsx₀ hsx) (hsy₀ hsy)
  · rw [State.issuedCount_eq_countIf]
    by_cases hcredit : s.issuedCount p < s.setup.portConfig[p].credit
    · have hone := s.countIf_modEntry_le_succ h.table.1 i f (Entry.pieceOutAt p)
      have hmax := (h.config.1 p).1.2
      have hbelow : s.countIf (Entry.pieceOutAt p) < s.setup.portConfig[p].credit :=
        (s.issuedCount_eq_countIf p).symm.trans_lt hcredit
      exact hone.trans (by omega)
    · have hfour := h.issued p
      rw [State.issuedCount_eq_countIf] at hfour
      exact (s.countIf_modEntry_le i f (Entry.pieceOutAt p) fun e he hout =>
        ((hf e he).out p hout).resolve_right hcredit).trans hfour
  · intro j e he p hw
    obtain ⟨e₀, he₀, rfl | hk⟩ := kept he
    · exact h.retry j e he₀ p hw
    · obtain hlimit | ⟨hw₀, hle⟩ := hk.retry p hw
      · exact hlimit
      · exact hle.trans (h.retry j e₀ he₀ p hw₀)

/-- Where the record of an entry comes from after an entry has been given. -/
theorem State.give_some {s : State} {i j : EntryNo} {e f : Entry}
    (h : (s.give i e).entries[j] = some f) : i = j ∧ f = e ∨ i ≠ j ∧ s.entries[j] = some f := by
  rw [State.give_entry] at h
  split at h
  · exact .inl ⟨by assumption, (Option.some.inj h).symm⟩
  · exact .inr ⟨by assumption, h⟩

/-- An entry that is given within its quota, with a tag that is free, keeps the laws. -/
theorem State.TableLaws.give {s : State} (h : s.TableLaws) {i : EntryNo} {e : Entry}
    (hn : s.entries[i] = none) (hf : s.Fresh e) : (s.give i e).TableLaws := by
  have act : Act s (s.give i e) := .give s i e hn hf
  have hnew : i ∉ s.order := fun hi => by rw [h.table.2, hn] at hi; simp at hi
  have hcount (q : Entry → Bool) := State.countIf_give hnew e q
  have hfree {j : EntryNo} {f : Entry} (hj : s.entries[j] = some f) (ho : f.origin = e.origin)
      (ht : e.tag.isSome = true) (heq : f.tag = e.tag) : f.state = .orphaned :=
    hf.tag ht (j, f) (State.mem_table.2 ⟨(h.table.2 j).2 (by rw [hj]; rfl), hj⟩) ho heq
  refine ⟨act.tableOk h.table, ?_, ?_, h.config, fun p => ?_, act.entriesOk h.entries, ?_⟩
  · have hroom := hf.room
    have hquota := h.quota
    simp only [State.QuotaOk, State.ownedM, State.owned_eq_countIf, hcount] at hquota ⊢
    obtain ⟨hp, hb, hm⟩ := hquota
    cases ho : e.origin with
    | p =>
      simp only [ho, State.Room, State.owned_eq_countIf] at hroom
      simp only [Origin.isB, reduceCtorEq, decide_true, decide_false, if_true, Bool.false_eq_true, if_false]
      exact ⟨hroom, hb, hm⟩
    | b x =>
      simp only [ho, State.Room, State.owned_eq_countIf] at hroom
      simp only [Origin.isB, reduceCtorEq, decide_false, if_true, Bool.false_eq_true, if_false]
      exact ⟨hp, hroom, hm⟩
    | m c =>
      simp only [ho, State.Room, State.ownedM, State.owned_eq_countIf] at hroom
      simp only [Origin.isB, reduceCtorEq, decide_false, Bool.false_eq_true, if_false]
      refine ⟨hp, hb, fun d => ?_⟩
      by_cases hcd : c = d
      · subst hcd
        exact le_trans (Nat.add_le_add_left (ite_le_one (le_refl 1) (Nat.zero_le 1)) _) hroom
      · simpa [hcd] using hm d
  · intro j k x y hx hy hjk ho ht hsx hsy heq
    obtain ⟨rfl, rfl⟩ | ⟨_, hx'⟩ := State.give_some hx
    · obtain ⟨rfl, _⟩ | ⟨_, hy'⟩ := State.give_some hy
      · exact hjk rfl
      · exact hsy (hfree hy' ho.symm ht heq.symm)
    · obtain ⟨rfl, rfl⟩ | ⟨_, hy'⟩ := State.give_some hy
      · exact hsx (hfree hx' ho (heq ▸ ht) heq)
      · exact h.tags j k x y hx' hy' hjk ho ht hsx hsy heq
  · have hfour := h.issued p
    have hin : e.pieceOutAt p = false := by
      rcases hf.state with hs | hs <;> simp [Entry.pieceOutAt, hs]
    rw [State.issuedCount_eq_countIf] at hfour ⊢
    rw [hcount, hin]
    exact hfour
  · intro j f hj p hw
    obtain ⟨_, rfl⟩ | ⟨_, hj⟩ := State.give_some hj
    · rw [hf.retry]; exact Nat.zero_le _
    · exact h.retry j f hj p hw

theorem State.TableLaws.free {s : State} (h : s.TableLaws) (i : EntryNo) : (s.free i).TableLaws := by
  have act : Act s (s.free i) := .free s i
  have old {j : EntryNo} {e : Entry} (he : (s.free i).entries[j] = some e) : s.entries[j] = some e := by
    rw [State.free_entry] at he
    split at he
    · cases he
    · exact he
  exact
    { table := act.tableOk h.table
      quota := h.quota.of_le fun _ => s.countIf_free_le i _
      tags := fun j k x y hx hy => h.tags j k x y (old hx) (old hy)
      config := h.config
      issued := h.issued.of_le fun _ => s.countIf_free_le i _
      entries := act.entriesOk h.entries
      retry := fun j e he => h.retry j e (old he) }

/-- Every act keeps the laws of the table. -/
theorem Act.tableLaws {s t : State} (h : Act s t) (L : s.TableLaws) : t.TableLaws := by
  cases h with
  | edit i f hf => exact L.modEntry hf
  | give i e hn hf => exact L.give hn hf
  | free i => exact L.free i
  | cardReset =>
    refine .of_empty s.cardReset_order (fun i => by simp [State.cardReset_entries]) ?_
    have hsetup := s.cardReset_untouched.setup
    simpa only [State.ConfigOk, hsetup] using L.config
  | _ => exact L.congr rfl rfl rfl id

/-! ## The further events -/

/-- The configuration of a port and the settings after a power-on reset are in range (R68, R155). -/
theorem Setup.atPowerOn_ok (x : Straps) : (∀ p : PortNo, (Setup.atPowerOn x).portConfig[p].Ok) ∧
    (Setup.atPowerOn x).settings.Ok := by
  have hport (w : Width) : (PortConfig.atPowerOn w).Ok := by
    simp [PortConfig.Ok, PortConfig.atPowerOn]
  refine ⟨fun p => ?_, by simp only [Setup.atPowerOn, Settings.atPowerOn, Settings.Ok]; decide⟩
  simp only [Setup.atPowerOn, Fin.getElem_fin, Vector.getElem_set]
  split
  · exact hport _
  · simpa using hport .four

/-- An ORPHANED record has the laws of the ISSUED B record that it was (R46, R60). -/
theorem Entry.Ok.orphan {e : Entry} (h : e.Ok) (hb : e.origin.isB = true) (hs : e.state = .issued) :
    Entry.Ok { e with state := .orphaned } where
  serving := nofun
  forwarded := nofun
  remote := nofun
  complete := nofun
  orphaned _ := hb
  final := by have := h.final; simp only [hs, reduceCtorEq, iff_false] at this; simp [this]
  atPort _ := h.atPort (.inr (.inl hs))
  skip := h.skip

/-- Where the record of an entry comes from after the ISSUED B entries have become ORPHANED. -/
theorem State.orphanIssued_some {s : State} {j : EntryNo} {e : Entry}
    (h : s.orphanIssued.entries[j] = some e) : s.entries[j] = some e ∨
      ∃ e₀, s.entries[j] = some e₀ ∧ e₀.origin.isB = true ∧ e₀.state = .issued ∧
        e = { e₀ with state := .orphaned } := by
  rw [State.orphanIssued_entry] at h
  obtain ⟨e₀, he₀, rfl⟩ := Option.map_eq_some_iff.1 h
  split
  · rename_i hc; exact .inr ⟨e₀, he₀, hc.1, hc.2, rfl⟩
  · exact .inl he₀

theorem State.TableLaws.orphanIssued {s : State} (h : s.TableLaws) : s.orphanIssued.TableLaws where
  table := ⟨h.table.1, fun j => by
    rw [State.orphanIssued_entry, Option.isSome_map]; exact h.table.2 j⟩
  quota := h.quota.of_le fun _ => s.countIf_orphanIssued _ fun _ hq _ _ => hq
  tags := by
    have same {j : EntryNo} {e : Entry} (he : s.orphanIssued.entries[j] = some e)
        (hs : e.state ≠ .orphaned) : s.entries[j] = some e := by
      obtain he | ⟨_, _, _, _, rfl⟩ := State.orphanIssued_some he
      · exact he
      · exact absurd rfl hs
    intro j k x y hx hy hjk ho ht hsx hsy
    exact h.tags j k x y (same hx hsx) (same hy hsy) hjk ho ht hsx hsy
  config := h.config
  issued := h.issued.of_le fun p => s.countIf_orphanIssued _ fun e hq hs _ => by
    simpa [Entry.pieceOutAt, hs] using hq
  entries := fun j e he => by
    obtain he | ⟨e₀, he₀, hb, hs, rfl⟩ := State.orphanIssued_some he
    · exact h.entries j e he
    · exact (h.entries j e₀ he₀).orphan hb hs
  retry := fun j e he p hw => by
    obtain he | ⟨e₀, he₀, hb, hs, rfl⟩ := State.orphanIssued_some he
    · exact h.retry j e he p hw
    · simp [Entry.onWaitList] at hw

/-- A record with another retry count. -/
theorem Entry.Ok.retryCount {e : Entry} (h : e.Ok) (n : Nat) : Entry.Ok { e with retryCount := n } :=
  ⟨h.serving, h.forwarded, h.remote, h.complete, h.orphaned, h.final, h.atPort, h.skip⟩

/-- A new configuration of a port that is in range keeps the laws: the retry counts above its retry limit
are lowered to it (R69). -/
theorem State.TableLaws.setPortConfig {s : State} (h : s.TableLaws) {p : PortNo} {c : PortConfig}
    (hc : c.Ok) : (s.setPortConfig p c).TableLaws := by
  obtain ⟨m, hm⟩ := s.setPortConfig_fields p c
  have hconfig : (s.setPortConfig p c).setup.portConfig = s.setup.portConfig.set p c := by rw [hm]
  have hsettings : (s.setPortConfig p c).setup.settings = s.setup.settings := by rw [hm]
  have horder : (s.setPortConfig p c).order = s.order := by rw [hm]
  have hentry := State.setPortConfig_entry h.table p c
  have old {j : EntryNo} {e : Entry} (he : (s.setPortConfig p c).entries[j] = some e) :
      ∃ e₀, s.entries[j] = some e₀ ∧ ∃ n, e = { e₀ with retryCount := n } ∧
        (e₀.onWaitList p = true → n ≤ c.retryLimit) ∧ n ≤ e₀.retryCount := by
    rw [hentry] at he
    obtain ⟨e₀, he₀, rfl⟩ := Option.map_eq_some_iff.1 he
    refine ⟨e₀, he₀, ?_⟩
    split
    · exact ⟨_, rfl, fun _ => Nat.min_le_left _ _, Nat.min_le_right _ _⟩
    · rename_i hw; exact ⟨e₀.retryCount, rfl, fun hw' => absurd hw' hw, le_refl _⟩
  have hcount (q : Entry → Bool) (hq : ∀ e m, q { e with retryCount := m } = q e) :=
    s.countIf_setPortConfig p c q hq
  refine ⟨⟨by rw [horder]; exact h.table.1, fun j => ?_⟩, h.quota.of_le fun g => hcount _ fun _ _ => rfl,
    ?_, ⟨fun q => ?_, by rw [hsettings]; exact h.config.2⟩,
    h.issued.of_le fun q => hcount _ fun _ _ => rfl, ?_, ?_⟩
  · rw [horder, hentry, Option.isSome_map]; exact h.table.2 j
  · intro j k x y hx hy hjk ho ht hsx hsy
    obtain ⟨x₀, hx₀, _, rfl, _⟩ := old hx
    obtain ⟨y₀, hy₀, _, rfl, _⟩ := old hy
    exact h.tags j k x₀ y₀ hx₀ hy₀ hjk ho ht hsx hsy
  · rw [hconfig]
    simp only [Fin.getElem_fin, Vector.getElem_set]
    split
    · exact hc
    · exact h.config.1 q
  · intro j e he
    obtain ⟨e₀, he₀, n, rfl, _⟩ := old he
    exact (h.entries j e₀ he₀).retryCount n
  · intro j e he q hw
    obtain ⟨e₀, he₀, n, rfl, hlimit, hle⟩ := old he
    have hw₀ : e₀.onWaitList q = true := hw
    rw [hconfig]
    simp only [Fin.getElem_fin, Vector.getElem_set, Fin.val_inj]
    split
    · rename_i hpq; subst hpq; exact hlimit hw₀
    · exact hle.trans (h.retry j e₀ he₀ q hw₀)

/-- Every event keeps the laws of the table. -/
theorem Event.tableLaws {s t : State} (h : Event s t) (L : s.TableLaws) : t.TableLaws := by
  cases h with
  | act h => exact h.tableLaws L
  | orphan => exact L.orphanIssued
  | settings f h _ => exact L.congr rfl rfl rfl h
  | enables f h => exact L.congr rfl rfl rfl h
  | portConfig p c h => exact L.setPortConfig (h (L.config.1 p))
  | powerOn x => exact .of_empty rfl (fun i => by simp [State.withDefaults]) (Setup.atPowerOn_ok x)
  | _ => exact L.congr rfl rfl rfl id

/-- Settles O56: every event of a step keeps the laws, the acts by what `EntryKept` and `State.Fresh` say of the
record they write. -/
theorem stepKeepsTheTableLaws : Obligations.StepKeepsTheTableLaws := by
  intro s t htable hquota htags hconfig hissued hentries hretry hstep
  have laws : s.TableLaws := ⟨htable, hquota, htags, hconfig, hissued, hentries, hretry⟩
  have kept : t.TableLaws :=
    kept_by_step (fun _ _ L => L.congr rfl rfl rfl id) (fun _ _ h => h.tableLaws) laws hstep
  exact ⟨kept.table, kept.quota, kept.tags, kept.config, kept.issued, kept.entries, kept.retry⟩

end Sys2Proof.Machine
end

section
/-!
PROOFS. The laws of the attention unit, the live table, the counters and the B port along every step (R3, R19,
R38, R67, R105, R137, R138, R141).
-/

namespace Sys2Proof.Machine

/-- The laws of the attention unit, the live table, the ranges of counters and lists, and the B port. -/
structure State.UnitLaws (s : State) : Prop where
  attention : s.attention.Ok
  out : s.OutOk
  live : s.LiveOk
  ranges : s.RangesOk
  standalone : s.StandaloneOk

/-! ## The attention queue -/

theorem Attention.ok_of_empty {a : Attention} (h : a.queue = []) : a.Ok := by
  simp [Attention.Ok, h]

/-- An event that is recorded keeps the laws of the queue: it merges with the record of its source and kind,
joins a queue with room, or overflows (R137, R138). -/
theorem Attention.Ok.record {a : Attention} (h : a.Ok) (source : AttnSource) (kind : AttnKind)
    (detail : Option (Status × Word)) : (a.record source kind detail).Ok := by
  obtain ⟨hlength, hpairwise, hcounts⟩ := h
  by_cases hheld : a.holds source kind = true
  · rw [Attention.record, if_pos hheld]
    refine ⟨by simpa using hlength, List.pairwise_map.2 (hpairwise.imp fun {r t} hrt => ?_), fun r hr => ?_⟩
    · split <;> split <;> exact hrt
    · obtain ⟨t, ht, rfl⟩ := List.mem_map.1 hr
      obtain ⟨hlow, hhigh⟩ := hcounts t ht
      split
      · exact ⟨by simp only; omega, by simp only; omega⟩
      · exact ⟨hlow, hhigh⟩
  · have hnew : ∀ r ∈ a.queue, ¬ (r.source = source ∧ r.kind = kind) :=
      fun r hr hsame => hheld (Attention.holds_iff.2 ⟨r, hr, hsame⟩)
    by_cases hroom : a.queue.length < 16
    · rw [Attention.record_new hnew hroom]
      refine ⟨by simp only [List.length_append, List.length_singleton]; omega, ?_, ?_⟩
      · refine List.pairwise_append.2 ⟨hpairwise, List.pairwise_singleton _ _, fun r hr t ht => ?_⟩
        rw [List.mem_singleton.1 ht]
        exact hnew r hr
      · intro r hr
        obtain hr | hr := List.mem_append.1 hr
        · exact hcounts r hr
        · rw [List.mem_singleton.1 hr]; exact ⟨le_refl 1, Nat.le_of_ble_eq_true rfl⟩
    · rw [Attention.record_full hnew (Nat.le_of_not_lt hroom)]
      exact ⟨hlength, hpairwise, hcounts⟩

theorem Attention.Ok.raise {s : State} (h : s.attention.Ok) (source : AttnSource) (kind : AttnKind)
    (detail : Option (Status × Word)) : (s.raise source kind detail).attention.Ok := by
  have hrecorded : (s.recorded source kind detail).Ok := by
    unfold State.recorded
    split
    · exact h.record source kind detail
    · exact h
  exact hrecorded

/-! ## The acts -/

/-- The laws are about the attention unit, the lines and settings that it looks at, the live table, the ports, the
channels and the B link state. -/
theorem State.UnitLaws.congr {s t : State} (h : s.UnitLaws) (ha : t.attention = s.attention)
    (hl : t.lines.tattn = s.lines.tattn)
    (he : t.setup.settings.portEnables = s.setup.settings.portEnables)
    (hlive : t.setup.live = s.setup.live) (hports : t.ports = s.ports) (hch : t.channels = s.channels)
    (hslot : t.setup.straps = s.setup.straps) (hb : t.bLinkUp = s.bLinkUp) : t.UnitLaws where
  attention := ha ▸ h.attention
  out := by
    have hwants : t.lineWants = s.lineWants := by
      funext p; simp only [State.lineWants, hl, he]
    have hpending : t.pendingCondition = s.pendingCondition := by
      simp only [State.pendingCondition, ha, hwants]
    rw [State.OutOk, ha, hpending]; exact h.out
  live := by simpa only [State.LiveOk, hlive] using h.live
  ranges := by simpa only [State.RangesOk, hports, hch] using h.ranges
  standalone := by simpa only [State.StandaloneOk, hslot, hb] using h.standalone

/-- A change of the attention unit that evaluates the pending condition. -/
theorem State.UnitLaws.evaluated {s t : State} (h : s.UnitLaws) (ha : t.attention.Ok)
    (hout : t.attention.out = t.pendingCondition) (hlive : t.setup.live = s.setup.live)
    (hports : t.ports = s.ports) (hch : t.channels = s.channels)
    (hslot : t.setup.straps = s.setup.straps) (hb : t.bLinkUp = s.bLinkUp) : t.UnitLaws where
  attention := ha
  out := hout
  live := by simpa only [State.LiveOk, hlive] using h.live
  ranges := by simpa only [State.RangesOk, hports, hch] using h.ranges
  standalone := by simpa only [State.StandaloneOk, hslot, hb] using h.standalone

theorem State.RangesOk.modPort {s : State} (h : s.RangesOk) {p : PortNo} {f : Port → Port}
    (hf : s.ports[p].noAnswer ≤ 7 → (f s.ports[p]).noAnswer ≤ 7) : (s.modPort p f).RangesOk := by
  refine ⟨fun q => ?_, h.2⟩
  rw [State.modPort_port]
  split
  · rename_i hpq; subst hpq; exact hf (h.1 p)
  · exact h.1 q

theorem State.RangesOk.modChannel {s : State} (h : s.RangesOk) {c : ChannelNo} {f : Channel → Channel}
    (hf : ChannelKept s.channels[c] (f s.channels[c])) : (s.modChannel c f).RangesOk := by
  refine ⟨h.1, fun d => ?_⟩
  rw [State.modChannel_channel]
  split
  · rename_i hcd; subst hcd; exact ⟨hf.pace (h.2 c).1, hf.units (h.2 c).2⟩
  · exact h.2 d

/-- A card reset clears the counters, the unit lists and the attention queue (R77, R106, R149). -/
theorem State.UnitLaws.cardReset {s : State} (h : s.UnitLaws) : s.cardReset.UnitLaws := by
  obtain ⟨hqueue, _, _, hout⟩ := s.cardReset_attention
  have same := s.cardReset_untouched
  exact
    { attention := Attention.ok_of_empty hqueue
      out := hout
      live := by simpa only [State.LiveOk, same.setup] using h.live
      ranges := by
        refine ⟨fun p => ?_, fun c => ?_⟩
        · simp [State.cardReset_ports, Port.atCardReset]
        · simp [State.cardReset_channels, Channel.atReset]
      standalone := by simpa only [State.StandaloneOk, same.setup, same.bLinkUp] using h.standalone }

/-- Every act keeps the laws of the unit. -/
theorem Act.unitLaws {s t : State} (h : Act s t) (L : s.UnitLaws) : t.UnitLaws := by
  cases h with
  | port p f hf => exact ⟨L.attention, L.out, L.live, L.ranges.modPort hf, L.standalone⟩
  | channel c f hf => exact ⟨L.attention, L.out, L.live, L.ranges.modChannel hf, L.standalone⟩
  | raise a k d => exact L.evaluated (L.attention.raise a k d) rfl rfl rfl rfl rfl rfl
  | popRecord r q hq =>
    obtain ⟨hlength, hpairwise, hcounts⟩ := L.attention
    rw [hq] at hlength hpairwise hcounts
    refine L.evaluated ⟨?_, (List.pairwise_cons.1 hpairwise).2, fun t ht => ?_⟩ rfl rfl rfl rfl rfl rfl
    · exact (Nat.le_succ _).trans hlength
    · exact hcounts t (List.mem_cons_of_mem _ ht)
  | clearOverflow => exact L.evaluated L.attention rfl rfl rfl rfl rfl rfl
  | walk w => exact ⟨L.attention, L.out, L.live, L.ranges, L.standalone⟩
  | cardReset => exact L.cardReset
  | _ => exact L.congr rfl rfl rfl rfl rfl rfl rfl rfl

/-! ## The further events -/

/-- A COMMIT of a staging table that passes validation leaves a sound live table (R36, R38). -/
theorem State.commitTables_liveOk {s : State} (h : s.badStaging = none) : s.commitTables.LiveOk := by
  intro i hvalid
  have hsound := List.find?_eq_none.1 h i (List.mem_finRange i)
  have hcell : s.commitTables.setup.live[i] = Window.ofWords s.setup.staging[i] := by
    simp [State.commitTables]
  rw [hcell] at hvalid ⊢
  simp only [Window.unsound, hvalid, Bool.true_and, Bool.or_eq_true, decide_eq_true_eq, not_or] at hsound
  exact ⟨Nat.le_of_not_lt hsound.1.1, hsound.1.2, hsound.2⟩

/-- The live table after a power-on reset has one valid window, the boot window (R25). -/
theorem liveAtPowerOn_sound (bootp : BitVec 2) (i : Fin 32)
    (hvalid : (liveAtPowerOn bootp)[i].valid = true) :
    (liveAtPowerOn bootp)[i].base ≤ (liveAtPowerOn bootp)[i].limit ∧
      (liveAtPowerOn bootp)[i].localRights ≠ .noRight ∧
      (liveAtPowerOn bootp)[i].remoteRights ≠ .noRight := by
  by_cases hi : i = 0
  · subst hi
    simp [liveAtPowerOn, Window.boot]
  · have hzero : (0 : Nat) ≠ i.val := fun h => hi (Fin.ext h.symm)
    simp [liveAtPowerOn, hzero, Window.empty] at hvalid

/-- The state that a power-on reset sets has the laws of the unit (R19, R25, R68, R106, R149). -/
theorem State.withDefaults_unitLaws (s : State) (x : Straps) : (s.withDefaults x).UnitLaws where
  attention := Attention.ok_of_empty rfl
  out := by
    have hquiet : (List.finRange 4).any (s.withDefaults x).lineWants = false := by
      simp [State.lineWants, State.withDefaults, Setup.atPowerOn, Settings.atPowerOn]
    simp only [State.OutOk, State.pendingCondition, hquiet]
    rfl
  live := liveAtPowerOn_sound x.bootp
  ranges := ⟨fun p => by simp [State.withDefaults, Port.atPowerOn],
    fun c => by simp [State.withDefaults, Channel.atReset]⟩
  standalone _ := rfl

/-- The link down of the B port changes the holds of ports alone (R103). -/
theorem State.dropBHolds_noAnswer (s : State) (p : PortNo) :
    s.dropBHolds.ports[p].noAnswer = s.ports[p].noAnswer := by
  simp only [State.dropBHolds, mapCells_eq_map, Fin.getElem_fin, Vector.getElem_map]
  split <;> rfl

/-- Every event keeps the laws of the unit. -/
theorem Event.unitLaws {s t : State} (h : Event s t) (L : s.UnitLaws) : t.UnitLaws := by
  cases h with
  | act h => exact h.unitLaws L
  | dropB =>
    exact ⟨L.attention, L.out, L.live, ⟨fun p => (s.dropBHolds_noAnswer p).trans_le (L.ranges.1 p),
      L.ranges.2⟩, L.standalone⟩
  | bLink b hb =>
    refine ⟨L.attention, L.out, L.live, L.ranges, fun hslot => ?_⟩
    cases b
    · rfl
    · exact absurd hslot (hb rfl)
  | commit hb => exact ⟨L.attention, L.out, State.commitTables_liveOk hb, L.ranges, L.standalone⟩
  | settings f _ he => exact L.congr rfl rfl he rfl rfl rfl rfl rfl
  | enables f _ => exact L.evaluated L.attention rfl rfl rfl rfl rfl rfl
  | portConfig p c =>
    obtain ⟨m, hm⟩ := s.setPortConfig_fields p c
    rw [hm]
    exact L.congr rfl rfl rfl rfl rfl rfl rfl rfl
  | lines f h => exact L.congr rfl h rfl rfl rfl rfl rfl rfl
  | attnLine f => exact L.evaluated L.attention rfl rfl rfl rfl rfl rfl
  | powerOn x => exact s.withDefaults_unitLaws x
  | _ => exact L.congr rfl rfl rfl rfl rfl rfl rfl rfl

/-! ## Holds and broken notes -/

/-- A command that writes levels alone, or nothing the laws of holds look at. -/
theorem State.HoldsOk.congr {s t : State} (H : s.HoldsOk) (hp : t.ports = s.ports)
    (hn : t.notes = s.notes) (he : t.entries = s.entries) : t.HoldsOk :=
  (HoldSame.of_eq hp hn he).holdsOk H

/-- Between two events no entry works at a port that is ABSENT (R72). -/
theorem State.Resting.no_work_at_absent {s : State} (R : s.Resting) {p : PortNo}
    (hp : s.ports[p].state = .absent) (i : EntryNo) (op : Op) (k : Holder) :
    s.work i ≠ some (op, k, some (.port p)) := by
  intro hw
  obtain ⟨e, he, hwork⟩ := Option.bind_eq_some_iff.1 hw
  rw [R.online i e p he (Entry.onWaitList_of_holdWork hwork)] at hp
  cases hp

/-- While PORST is asserted no entry works at a port (R65). -/
theorem State.Resting.no_work_in_reset {s : State} (T : s.TableOk) (R : s.Resting)
    (hp : s.lines.porst = true) (i : EntryNo) : s.work i = none :=
  State.work_of_none (State.entries_of_empty T (R.porst hp) i)

theorem State.bLinkUpEvent_holdSame (s : State) : HoldSame s s.bLinkUpEvent := by
  unfold State.bLinkUpEvent
  split <;> exact ⟨rfl, rfl, rfl⟩

/-- What the management block serves keeps the laws of holds. -/
theorem MgmtRow.serve_holdsOk {s : State} (T : s.TableOk) (H : s.HoldsOk) (row : MgmtRow) {t : State}
    (h : exec row.command s = .next t) : t.HoldsOk := by
  have take {r : MgmtRow} {serve : Entry → State → Served}
      (hs : ∀ e, (serve e s).1.HoldsOk) (ht : s.takeWrite r serve = .next t) : t.HoldsOk :=
    State.takeWrite_holdsOk H hs ht
  cases row with
  | commit =>
    refine take (fun e => ?_) h
    unfold serveCommit
    split
    · exact H
    · exact H.congr rfl rfl rfl
  | copyBack => exact take (fun e => H.congr rfl rfl rfl) h
  | portResume =>
    refine take (fun e => ?_) h
    unfold servePortResume
    split
    · exact State.resumePort_holdsOk H _
    · exact H
  | portOffline =>
    refine take (fun e => ?_) h
    unfold servePortOffline
    split
    · exact State.goOffline_holdsOk T H _
    · exact H
  | channelStartLoaded => exact take (fun e => (s.startLoaded_holdSame _).holdsOk H) h
  | channelStartFetch => exact take (fun e => (s.startFetchForm_holdSame _).holdsOk H) h
  | channelPause => exact take (fun e => (s.pauseChannel_holdSame _).holdsOk H) h
  | channelContinue => exact take (fun e => (s.continueChannel_holdSame _).holdsOk H) h
  | channelStop => exact take (fun e => (s.stopChannel_holdSame _).holdsOk H) h
  | cardResetCommand =>
    refine take (fun e => ?_) h
    unfold serveCardReset
    split <;> exact H
  | stagingWrite =>
    refine take (fun e => ?_) h
    unfold serveStagingWrite
    split
    · exact H.congr rfl rfl rfl
    · exact H
  | loadedDescriptorWrite =>
    refine take (fun e => ?_) h
    unfold serveDescriptorWrite
    split
    · split
      · exact H.congr rfl rfl rfl
      · exact H
    · exact H
  | portConfigurationWrite =>
    refine take (fun e => ?_) h
    unfold servePortConfigWrite
    split
    · split
      · exact (s.setPortConfig_holdSame _ _).holdsOk H
      · exact H
    · exact H
  | settingWrite =>
    refine take (fun e => ?_) h
    unfold serveSettingWrite
    split
    · split
      · exact H.congr rfl rfl rfl
      · exact H
    · exact H
  | remoteManagementWrite =>
    refine take (fun e => ?_) h
    unfold serveRemoteManagementWrite
    split
    · exact H
    · exact H.congr rfl rfl rfl
  | attentionEnablesWrite => exact take (fun e => H.congr rfl rfl rfl) h
  | commandArgumentWrite => exact take (fun e => H.congr rfl rfl rfl) h
  | mgmtWrite =>
    refine take (fun e => ?_) h
    unfold serveOtherWrite
    split <;> exact H

/-- The state that a power-on reset sets has no hold, no note and no entry (R65, R93, R94). -/
theorem State.withDefaults_holdsOk (s : State) (x : Straps) : (s.withDefaults x).HoldsOk := by
  refine State.holdsOk_of_empty (fun p => ?_) (fun k => ?_) (fun i => ?_)
  · simp [State.holdAt, State.withDefaults, Port.atPowerOn]
  · simp [State.note, State.withDefaults]
  · exact State.work_of_none (by simp [State.withDefaults])

/-- A command that does nothing, or what keeps the laws of holds, keeps them. -/
theorem State.HoldsOk.of_next {t u : State}
    (h : (Host.Outcome.next u : Host.Outcome State Fault Refusal) = .next t) (hu : u.HoldsOk) :
    t.HoldsOk := by
  cases h
  exact hu

theorem State.HoldsOk.closeGuard {s : State} (H : s.HoldsOk) : s.closeGuard.HoldsOk :=
  State.settle_holdsOk (State.sweep_holdsOk
    (((HoldSame.of_eq (s := s) (t := { s with guard := .guarded }) rfl rfl rfl).then
      (.raise _ _ _ _)).holdsOk H))

theorem State.HoldsOk.modLines {s : State} (H : s.HoldsOk) (f : Lines → Lines) :
    (s.modLines f).HoldsOk := H.congr rfl rfl rfl

theorem State.HoldsOk.pulse {s : State} (H : s.HoldsOk) (p : PortNo) : (s.pulse p).HoldsOk := by
  unfold State.pulse
  split
  · exact H
  · exact H.congr rfl rfl rfl

theorem State.HoldsOk.bLinkUpIf {s : State} (H : s.HoldsOk) (up : Bool) :
    (if up then s.bLinkUpEvent else s).HoldsOk := by
  cases up
  · exact H
  · exact (State.bLinkUpEvent_holdSame _).holdsOk H

theorem execGrant_holdsOk {s t : State} (H : s.HoldsOk) {p : PortNo} (h : execGrant p s = .next t) :
    t.HoldsOk := by
  unfold execGrant at h
  split at h
  · split at h
    · exact .of_next h H
    · rename_i hc
      exact .of_next h (State.settle_holdsOk (State.grantPiece_holdsOk H (choose_mem hc)))
  · exact .of_next h H

theorem execTargetDone_holdsOk {s t : State} (H : s.HoldsOk) {p : PortNo} {msg : List Byte}
    (h : execTargetDone p msg s = .next t) : t.HoldsOk := by
  unfold execTargetDone at h
  split at h
  · exact .of_next h H
  · split at h
    · exact .of_next h H
    · rename_i ha
      obtain ⟨he, ho, _⟩ := State.answeredAt_some ha
      split at h
      · exact .of_next h H
      · exact .of_next h (State.takeDone_holdsOk H he ho _)

theorem execTargetDefer_holdsOk {s t : State} (H : s.HoldsOk) {p : PortNo} {msg : List Byte}
    (h : execTargetDefer p msg s = .next t) : t.HoldsOk := by
  unfold execTargetDefer at h
  split at h
  · exact .of_next h H
  · split at h
    · exact .of_next h H
    · rename_i ha
      obtain ⟨he, ho, _⟩ := State.answeredAt_some ha
      split at h
      · exact .of_next h H
      · exact .of_next h (State.takeDefer_holdsOk H he ho)

theorem execTargetFault_holdsOk {s t : State} (H : s.HoldsOk) {p : PortNo} {msg : List Byte}
    (h : execTargetFault p msg s = .next t) : t.HoldsOk := by
  unfold execTargetFault at h
  split at h
  · exact .of_next h H
  · split at h
    · exact .of_next h H
    · rename_i ha
      obtain ⟨he, _, _⟩ := State.answeredAt_some ha
      split at h
      · exact .of_next h H
      · exact .of_next h (State.takeFault_holdsOk H he)

/-- An entry whose response timer expires ends, or is freed if ORPHANED; then the silence is counted (R89). -/
theorem State.expireResponse_holdsOk {s : State} (T : s.TableOk) (H : s.HoldsOk) {p : PortNo} {i : EntryNo}
    {e : Entry} (he : s.entries[i] = some e) : (s.expireResponse p i e).HoldsOk := by
  refine State.settle_holdsOk ?_
  split
  · rename_i ho
    exact State.countSilence_holdsOk ((Acts.one (.free s i)).tableOk T)
      (State.freeOrphan_holdsOk H he ho) p
  · exact State.countSilence_holdsOk ((s.endEntry_acts i _ _ _).tableOk T)
      (State.endEntry_holdsOk H i _ _ _) p

theorem execResponseTimerExpiry_holdsOk {s t : State} (T : s.TableOk) (H : s.HoldsOk) {i : EntryNo}
    (h : execResponseTimerExpiry i s = .next t) : t.HoldsOk := by
  unfold execResponseTimerExpiry at h
  split at h
  · exact .of_next h H
  · rename_i he
    split at h
    · split at h
      · exact .of_next h (State.expireResponse_holdsOk T H he)
      · exact .of_next h H
    · exact .of_next h H

theorem execRetryTimerExpiry_holdsOk {s t : State} (H : s.HoldsOk) {i : EntryNo}
    (h : execRetryTimerExpiry i s = .next t) : t.HoldsOk := by
  unfold execRetryTimerExpiry at h
  split at h
  · exact .of_next h H
  · rename_i e he
    split at h
    · rename_i hb
      refine .of_next h (State.settle_holdsOk ((HoldSame.modEntry fun f hf => ?_).holdsOk H))
      rw [he, Option.some.injEq] at hf
      exact hf ▸ Entry.holdWork_at rfl rfl rfl (.inl rfl) (.inr (.inr hb.2.1))
    · exact .of_next h H

theorem execHoldTimerExpiry_holdsOk {s t : State} (H : s.HoldsOk) {p : PortNo}
    (h : execHoldTimerExpiry p s = .next t) : t.HoldsOk := by
  unfold execHoldTimerExpiry at h
  split at h
  · exact .of_next h H
  · rename_i x hx
    split at h
    · rename_i n hn
      split at h
      · exact .of_next h H
      · exact .of_next h (State.expireHold_holdsOk H hx hn)
    · exact .of_next h H
    · exact .of_next h H

theorem execTargetCode_holdsOk {s t : State} (H : s.HoldsOk) {p : PortNo} {msg : List Byte}
    (h : execTargetCode p msg s = .next t) : t.HoldsOk := by
  unfold execTargetCode at h
  split at h
  · exact .of_next h H
  · split at h
    · exact .of_next h H
    · split at h
      · exact .of_next h H
      · exact .of_next h (State.settle_holdsOk (State.endAsk_holdsOk
          (s := { s with attention := { s.attention with walk := none } }) (H.congr rfl rfl rfl) _ _))

theorem execTargetPass_holdsOk {s t : State} (H : s.HoldsOk) {p : PortNo} {msg : List Byte}
    (h : execTargetPass p msg s = .next t) : t.HoldsOk := by
  unfold execTargetPass at h
  split at h
  · exact .of_next h H
  · split at h
    · exact .of_next h H
    · split at h
      · exact .of_next h H
      · exact .of_next h (State.settle_holdsOk (State.passPort_holdsOk H p))

theorem execPorstRelease_holdsOk {s t : State} (T : s.TableOk) (R : s.Resting) (H : s.HoldsOk)
    (h : execPorstRelease s = .next t) : t.HoldsOk := by
  unfold execPorstRelease at h
  split at h
  · rename_i hp
    refine .of_next h (State.HoldsOk.bLinkUpIf (State.linkUpsAtRelease_holdsOk ?_ ?_ _) _)
    · exact H.congr rfl rfl rfl
    · exact fun i => R.no_work_in_reset T hp i
  · exact .of_next h H

/-- Between two events every command keeps the laws of holds and broken notes. -/
theorem exec_holdsOk {s : State} (T : s.TableOk) (R : s.Resting) (H : s.HoldsOk) {c : Instr} {t : State}
    (h : exec c s = .next t) : t.HoldsOk := by
  cases c with
  | requestOnPLink msg =>
    simp only [exec, execRequestOnPLink] at h
    split at h
    · exact .of_next h H
    · split at h
      · exact .of_next h H
      · exact .of_next h (State.requestP_holdsOk T H _)
  | requestOnBLink msg =>
    simp only [exec, execRequestOnBLink] at h
    split at h
    · exact .of_next h H
    · split at h
      · exact .of_next h H
      · split at h
        · exact .of_next h H
        · exact .of_next h (State.requestB_holdsOk T H _)
  | bLinkResponse msg =>
    simp only [exec, execBLinkResponse] at h
    split at h
    · exact .of_next h H
    · split at h
      · exact .of_next h H
      · split at h
        · exact .of_next h H
        · split at h
          · exact .of_next h H
          · exact .of_next h (State.relay_holdsOk H _ _ _)
  | remoteResponseTimerExpiry i =>
    simp only [exec, execRemoteResponseTimerExpiry] at h
    split at h
    · exact .of_next h H
    · split at h
      · exact .of_next h (State.settle_holdsOk (State.endEntry_holdsOk H _ _ _ _))
      · exact .of_next h H
  | grant p => exact execGrant_holdsOk H h
  | targetDone p msg => exact execTargetDone_holdsOk H h
  | targetDefer p msg => exact execTargetDefer_holdsOk H h
  | targetFault p msg => exact execTargetFault_holdsOk H h
  | responseTimerExpiry i => exact execResponseTimerExpiry_holdsOk T H h
  | retryTimerExpiry i => exact execRetryTimerExpiry_holdsOk H h
  | holdTimerExpiry p => exact execHoldTimerExpiry_holdsOk H h
  | unitStartDecision c =>
    simp only [exec, execUnitStartDecision] at h
    split at h
    · exact .of_next h (State.settle_holdsOk ((s.startUnit_holdSame c).holdsOk H))
    · exact .of_next h H
  | commit => exact MgmtRow.serve_holdsOk T H .commit h
  | copyBack => exact MgmtRow.serve_holdsOk T H .copyBack h
  | portResume => exact MgmtRow.serve_holdsOk T H .portResume h
  | portOffline => exact MgmtRow.serve_holdsOk T H .portOffline h
  | channelStartLoaded => exact MgmtRow.serve_holdsOk T H .channelStartLoaded h
  | channelStartFetch => exact MgmtRow.serve_holdsOk T H .channelStartFetch h
  | channelPause => exact MgmtRow.serve_holdsOk T H .channelPause h
  | channelContinue => exact MgmtRow.serve_holdsOk T H .channelContinue h
  | channelStop => exact MgmtRow.serve_holdsOk T H .channelStop h
  | cardResetCommand => exact MgmtRow.serve_holdsOk T H .cardResetCommand h
  | stagingWrite => exact MgmtRow.serve_holdsOk T H .stagingWrite h
  | loadedDescriptorWrite => exact MgmtRow.serve_holdsOk T H .loadedDescriptorWrite h
  | portConfigurationWrite => exact MgmtRow.serve_holdsOk T H .portConfigurationWrite h
  | settingWrite => exact MgmtRow.serve_holdsOk T H .settingWrite h
  | remoteManagementWrite => exact MgmtRow.serve_holdsOk T H .remoteManagementWrite h
  | attentionEnablesWrite => exact MgmtRow.serve_holdsOk T H .attentionEnablesWrite h
  | commandArgumentWrite => exact MgmtRow.serve_holdsOk T H .commandArgumentWrite h
  | mgmtWrite => exact MgmtRow.serve_holdsOk T H .mgmtWrite h
  | targetCode p msg => exact execTargetCode_holdsOk H h
  | targetPass p msg => exact execTargetPass_holdsOk H h
  | askTimerExpiry =>
    simp only [exec, execAskTimerExpiry] at h
    split at h
    · exact .of_next h H
    · split at h
      · exact .of_next h H
      · exact .of_next h (State.settle_holdsOk (State.passPort_holdsOk H _))
  | targetAttentionLineChange p b => exact .of_next h (H.congr rfl rfl rfl)
  | pacePulse p =>
    simp only [exec, execPacePulse] at h
    split at h
    · exact .of_next h H
    · exact .of_next h (H.pulse p)
  | palertAssert =>
    simp only [exec, execPalertAssert] at h
    split at h
    · exact .of_next h (H.congr rfl rfl rfl)
    · exact .of_next h (State.HoldsOk.closeGuard (H.congr rfl rfl rfl))
  | palertDeassert =>
    simp only [exec, execPalertDeassert] at h
    split at h <;> exact .of_next h (H.congr rfl rfl rfl)
  | holdOffTimerExpiry =>
    simp only [exec, execHoldOffTimerExpiry] at h
    split at h
    · split at h
      · exact .of_next h H
      · exact .of_next h (State.settle_holdsOk (H.congr rfl rfl rfl))
    · exact .of_next h H
    · exact .of_next h H
  | tLinkUp p =>
    simp only [exec, execTLinkUp] at h
    split at h
    · exact .of_next h (H.congr rfl rfl rfl)
    · exact .of_next h (State.linkUpAt_holdsOk (H.modLines _) p fun ha => R.no_work_at_absent ha)
  | tLinkDown p =>
    simp only [exec, execTLinkDown] at h
    split at h
    · exact .of_next h (H.congr rfl rfl rfl)
    · exact .of_next h (State.settle_holdsOk (State.passPort_holdsOk
        (State.loseLink_holdsOk (s := s.modLines _) T (H.modLines _) p) p))
  | bLinkUp =>
    simp only [exec, execBLinkUp] at h
    split at h
    · exact .of_next h (H.congr rfl rfl rfl)
    · exact .of_next h ((State.bLinkUpEvent_holdSame _).holdsOk (H.congr rfl rfl rfl))
  | bLinkDown =>
    simp only [exec, execBLinkDown] at h
    split at h
    · refine .of_next h (State.settle_holdsOk (State.bLinkDownEvent_holdsOk (H.congr rfl rfl rfl) ?_))
      exact (State.endAll_acts _ _ _ _).tableOk T
    · exact .of_next h (H.congr rfl rfl rfl)
  | cardReset =>
    simp only [exec, execCardReset] at h
    split at h
    · exact .of_next h (H.congr rfl rfl rfl)
    · exact .of_next h (State.cardReset_holdsOk _)
  | powerOnReset slot bootp bootw =>
    exact .of_next h ((s.withDefaults_holdsOk { slot, bootp, bootw }).modLines _)
  | porstRelease => exact execPorstRelease_holdsOk T R H h
  | crstRelease => exact .of_next h (H.congr rfl rfl rfl)
  | pLinkDown => exact .of_next h (H.congr rfl rfl rfl)
  | pLinkUp => exact .of_next h (H.congr rfl rfl rfl)

/-! ## The obligation -/

/-- The laws of the unit are kept by every step. -/
theorem step_unitLaws {s t : State} (L : s.UnitLaws) (h : step s = .next t) : t.UnitLaws :=
  kept_by_step (fun _ _ L => L.congr rfl rfl rfl rfl rfl rfl rfl rfl) (fun _ _ h L => h.unitLaws L) L h

/-- The laws of holds are kept by the command at the front of the queue, and by an idle step. -/
theorem step_holdsOk {s t : State} (T : s.TableOk) (R : s.Resting) (H : s.HoldsOk)
    (h : step s = .next t) : t.HoldsOk := by
  unfold step at h
  split at h
  · exact .of_next h H
  · rename_i c rest _
    exact exec_holdsOk (s := { s with pending := rest }) T
      ⟨⟨R.calm.guard, R.calm.reads, R.calm.asks, R.calm.reset⟩, R.head, R.online, R.walk, R.porst⟩
      (H.congr rfl rfl rfl) h

/-- Settles O57: the laws of the unit are kept event by event, those of holds and broken notes command by command
between two events. -/
theorem stepKeepsTheUnitLaws : Obligations.StepKeepsTheUnitLaws := by
  intro s t ha ho hl hr hs h
  have L := step_unitLaws ⟨ha, ho, hl, hr, hs⟩ h
  exact ⟨L.attention, L.out, L.live, L.ranges, L.standalone, fun T R H => step_holdsOk T R H h⟩

end Sys2Proof.Machine
end

section
/-!
PROOFS. What a step runs, the commands that set lines alone, the laws after reset, and the hold of PORST (R1, R62,
R65, R68).
-/

namespace Sys2Proof.Machine

/-! ## Steps -/

/-- Settles O1: the two branches of a step. -/
theorem stepRunsTheFrontCommand : Obligations.StepRunsTheFrontCommand := by
  refine ⟨fun c rest s h => ?_, fun s h => ?_⟩
  · rw [step, h]
  · rw [step, h]

/-- Settles O2: a chain of events leads to the answer of every command, and no event touches the queue. -/
theorem everyCommandAnswersANextState : Obligations.EveryCommandAnswersANextState := by
  intro c s
  obtain ⟨t, ht, hevents⟩ := exec_events c s
  exact ⟨t, ht, hevents.pending⟩

/-- Settles O6: these commands write one line. -/
theorem lineOnlyCommands : Obligations.LineOnlyCommands :=
  fun _ => ⟨rfl, rfl, rfl⟩

/-! ## The laws after reset -/

/-- The state after reset is one that a power-on reset sets. -/
theorem State.reset_eq_withDefaults :
    State.reset = State.reset.withDefaults { slot := 0, bootp := 0, bootw := 0 } := rfl

theorem State.withDefaults_tableLaws (s : State) (x : Straps) : (s.withDefaults x).TableLaws :=
  .of_empty rfl (fun i => by simp [State.withDefaults]) (Setup.atPowerOn_ok x)

/-- With no entry and no walk the bridge is at rest. -/
theorem State.Resting.of_empty {s : State} (ho : s.order = []) (he : ∀ i : EntryNo, s.entries[i] = none)
    (hw : s.attention.walk = none) : s.Resting where
  calm := State.calm_of_empty ho
  head x rest hl := by simp [State.pList_eq, State.kind_of_empty ho] at hl
  online i e p hi := by simp [he i] at hi
  walk w h := by simp [hw] at h
  porst _ := ho

theorem State.withDefaults_resting (s : State) (x : Straps) : (s.withDefaults x).Resting :=
  .of_empty rfl (fun i => by simp [State.withDefaults]) rfl

/-- Settles O58: the state after reset is one that a power-on reset sets, which has all the laws. -/
theorem resetMeetsTheLaws : Obligations.ResetMeetsTheLaws := by
  unfold Obligations.ResetMeetsTheLaws
  rw [State.reset_eq_withDefaults]
  generalize State.reset = s
  generalize ({ slot := 0, bootp := 0, bootw := 0 } : Straps) = x
  have T := s.withDefaults_tableLaws x
  have U := s.withDefaults_unitLaws x
  exact ⟨T.table, T.quota, T.tags, T.config, T.issued, T.entries, T.retry, U.attention, U.out, U.live, U.ranges,
    U.standalone, s.withDefaults_resting x, s.withDefaults_holdsOk x⟩

/-! ## The hold of PORST -/

/-- While PORST is asserted an answer of a target link is discarded (R1). -/
theorem exec_answer_of_porst {s : State} (h : s.lines.porst = true) (p : PortNo) (msg : List Byte) :
    exec (.targetDone p msg) s = .next s ∧ exec (.targetDefer p msg) s = .next s ∧
      exec (.targetFault p msg) s = .next s := by
  refine ⟨?_, ?_, ?_⟩
  · simp only [exec, execTargetDone, h, Bool.true_or, if_true]
    repeat' split
    all_goals rfl
  · simp only [exec, execTargetDefer, h, if_true]
    repeat' split
    all_goals rfl
  · simp only [exec, execTargetFault, h, if_true]
    repeat' split
    all_goals rfl

/-- While PORST is asserted the commands that set no line change nothing (R1, R65, R68). -/
theorem exec_of_porst {s : State} (h : s.lines.porst = true) (c : Instr)
    (hc : match c with
      | .palertAssert | .palertDeassert | .tLinkUp _ | .tLinkDown _ | .bLinkUp | .bLinkDown
      | .pLinkUp | .pLinkDown | .cardReset | .crstRelease | .powerOnReset _ _ _ | .porstRelease
      | .targetAttentionLineChange _ _ => False
      | _ => True) : exec c s = .next s := by
  have held (row : MgmtRow) : exec row.command s = .next s := by
    obtain ⟨serve, hserve⟩ := row.exec_command
    rw [hserve, State.takeWrite_of_porst h]
  cases c with
  | requestOnPLink msg => simp [exec, execRequestOnPLink, h]
  | requestOnBLink msg => simp [exec, execRequestOnBLink, h]
  | bLinkResponse msg => simp [exec, execBLinkResponse, h]
  | remoteResponseTimerExpiry i => simp only [exec, execRemoteResponseTimerExpiry]; split <;> simp [h]
  | grant p => simp [exec, execGrant, h]
  | targetDone p msg => exact (exec_answer_of_porst h p msg).1
  | targetDefer p msg => exact (exec_answer_of_porst h p msg).2.1
  | targetFault p msg => exact (exec_answer_of_porst h p msg).2.2
  | responseTimerExpiry i => exact exec_responseTimerExpiry_idle (.inl h)
  | retryTimerExpiry i => exact exec_retryTimerExpiry_idle (.inl h)
  | holdTimerExpiry p =>
    simp only [exec, execHoldTimerExpiry, h, if_true]
    repeat' split
    all_goals rfl
  | unitStartDecision c => simp [exec, execUnitStartDecision, h]
  | commit => exact held .commit
  | copyBack => exact held .copyBack
  | portResume => exact held .portResume
  | portOffline => exact held .portOffline
  | channelStartLoaded => exact held .channelStartLoaded
  | channelStartFetch => exact held .channelStartFetch
  | channelPause => exact held .channelPause
  | channelContinue => exact held .channelContinue
  | channelStop => exact held .channelStop
  | cardResetCommand => exact held .cardResetCommand
  | stagingWrite => exact held .stagingWrite
  | loadedDescriptorWrite => exact held .loadedDescriptorWrite
  | portConfigurationWrite => exact held .portConfigurationWrite
  | settingWrite => exact held .settingWrite
  | remoteManagementWrite => exact held .remoteManagementWrite
  | attentionEnablesWrite => exact held .attentionEnablesWrite
  | commandArgumentWrite => exact held .commandArgumentWrite
  | mgmtWrite => exact held .mgmtWrite
  | targetCode p msg =>
    simp only [exec, execTargetCode, h, true_or, if_true]
    repeat' split
    all_goals rfl
  | targetPass p msg =>
    simp only [exec, execTargetPass, h, if_true]
    repeat' split
    all_goals rfl
  | askTimerExpiry => simp only [exec, execAskTimerExpiry, h, if_true]; split <;> rfl
  | pacePulse p => simp [exec, execPacePulse, h]
  | holdOffTimerExpiry => simp only [exec, execHoldOffTimerExpiry, h, if_true]; split <;> rfl
  | _ => exact hc.elim

/-- Settles O55: the commands of lines and links set their level alone, and `exec_of_porst` for the others. -/
theorem assertedPorstHoldsTheBridge : Obligations.AssertedPorstHoldsTheBridge := by
  refine ⟨fun s h => ⟨?_, ?_, fun p => ?_, fun p => ?_, ?_, ?_, rfl, rfl, ?_, rfl⟩,
    fun s c h hc => exec_of_porst h c hc⟩
  · exact (exec_palertAssert s).trans (if_pos (.inr (.inl h)))
  · exact (exec_palertDeassert s).trans (if_neg (by simp [h]))
  · exact if_pos h
  · exact if_pos h
  · exact if_pos h
  · exact if_neg (by simp [State.modLines, h])
  · exact if_pos h

/-! ## Answers that name no piece -/

theorem entryOfIndex_some {index : BitVec 5} {i : EntryNo} (h : entryOfIndex index = some i) :
    index.toNat = i.val := by
  unfold entryOfIndex at h
  split at h
  · cases h; rfl
  · cases h

/-- An answer that names no piece out at the port under its round is taken for none (R58). -/
theorem State.answeredAt_eq_none {s : State} {p : PortNo} {index : BitVec 5} {round : BitVec 8}
    (h : ∀ i : EntryNo, index.toNat = i.val → ∀ e, s.entries[i] = some e →
      e.route ≠ some (.port p) ∨ (e.state ≠ .issued ∧ e.state ≠ .orphaned) ∨ s.rounds[i] ≠ round) :
    s.answeredAt p index round = none := by
  simp only [State.answeredAt, Option.bind_eq_none_iff]
  intro i hi e he
  refine if_neg ?_
  rintro ⟨hout, hround⟩
  obtain ⟨hroute, hstate⟩ := (Entry.pieceOutAt_iff p e).1 hout
  obtain hr | hs | hn := h i (entryOfIndex_some hi) e he
  · exact hr hroute
  · exact not_or.2 hs hstate
  · exact hn hround

/-- Settles O31: PORST, a message that is no such answer, or no piece under its stamp. -/
theorem strayAnswersAreDiscarded : Obligations.StrayAnswersAreDiscarded := by
  rintro s p msg kind c hkind (hporst | hnone | ⟨index, round, data, hparse, hstray⟩)
  · obtain ⟨hdone, hdefer, hfault⟩ := exec_answer_of_porst hporst p msg
    obtain ⟨_, rfl⟩ | ⟨_, rfl⟩ | ⟨_, rfl⟩ := hkind
    · exact hdone
    · exact hdefer
    · exact hfault
  · obtain ⟨rfl, rfl⟩ | ⟨rfl, rfl⟩ | ⟨rfl, rfl⟩ := hkind
    · simp only [exec, execTargetDone, hnone]
    · simp only [exec, execTargetDefer, hnone]
    · simp only [exec, execTargetFault, hnone]
  · have hno := State.answeredAt_eq_none hstray
    obtain ⟨rfl, rfl⟩ | ⟨rfl, rfl⟩ | ⟨rfl, rfl⟩ := hkind
    · simp only [exec, execTargetDone, hparse, hno]
    · simp only [exec, execTargetDefer, hparse, hno]
    · simp only [exec, execTargetFault, hparse, hno]

/-! ## The remote response timer -/

/-- Settles O23: the timer of a FORWARDED entry ends it, and any other entry has none (R21). -/
theorem remoteTimerExpiryEndsTheForward : Obligations.RemoteTimerExpiryEndsTheForward := by
  refine fun s i => ⟨fun e hporst he hstate ht => ?_, fun hnone => ?_⟩
  · simp only [exec, execRemoteResponseTimerExpiry, he]
    exact if_pos ⟨by simp [hporst], hstate, ht⟩
  · simp only [exec, execRemoteResponseTimerExpiry]
    split
    · rfl
    · rename_i e he
      refine if_neg ?_
      rintro ⟨_, hstate, ht⟩
      obtain hs | hn := hnone e he
      · exact hs hstate
      · simp [hn] at ht

end Sys2Proof.Machine
end

section
/-!
PROOFS. What acceptance refuses, and that a refusal leaves no trace (R5 to R8).
-/

namespace Sys2Proof.Machine

/-! ## The form checks -/

/-- A piece of at most 64 bytes stays in its block exactly when its first and its last byte are in the same
one. -/
theorem block_iff {a n : Nat} (h : 1 ≤ n ∧ n ≤ 64) : ¬ 64 < a % 64 + n ↔ a / 64 = (a + n - 1) / 64 := by
  omega

/-- The data that a request carries: its length for a write, none for a read (R5). -/
theorem Request.data_iff (r : Request) :
    (¬ if r.op.isRead then r.data ≠ [] else r.data.length ≠ r.length.toNat) ↔
      r.data.length = if r.op = .write ∨ r.op = .writeRelease then r.length.toNat else 0 := by
  cases r.op <;> simp [Op.isRead]

/-- The first form check of R5: the fields. -/
theorem Request.field_iff (l : Link) (r : Request) :
    (r.space = none ∨ (l = .b ∧ r.node = 0) ∨
      (if r.op.isRead then r.data ≠ [] else r.data.length ≠ r.length.toNat)) ↔
    ¬ (r.space ≠ none ∧ (l = .b → r.node ≠ 0) ∧
      r.data.length = if r.op = .write ∨ r.op = .writeRelease then r.length.toNat else 0) := by
  rw [← Request.data_iff]
  tauto

/-- The checks of R5 as the statement has them. -/
theorem Request.formCheck_eq (l : Link) (r : Request) :
    let n := r.length.toNat
    Request.formCheck l r =
      if ¬ (r.space ≠ none ∧ (l = .b → r.node ≠ 0) ∧
        r.data.length = if r.op = .write ∨ r.op = .writeRelease then n else 0) then some 64
      else if ¬ (1 ≤ n ∧ n ≤ 64) then some 65
      else if ¬ (r.address.toNat / 64 = (r.address.toNat + n - 1) / 64) then some 66
      else if ¬ (r.op = .readHold ∨ r.op = .writeRelease →
        (n = 1 ∨ n = 2 ∨ n = 4) ∧ r.address.toNat % n = 0 ∧ r.space = some .data) then some 67
      else if ¬ (r.space = some .mgmt →
        (r.op = .read ∨ r.op = .write) ∧ n = 4 ∧ r.address.toNat % 4 = 0) then some 68
      else if ¬ (r.space = some .attn → r.op = .read ∧ n = 16 ∧ r.address = 0) then some 69
      else none := by
  refine if_congr (Request.field_iff l r) rfl (ite_congr (propext (by omega)) (fun _ => rfl) fun hn => ?_)
  refine if_congr ?_ rfl (if_congr (Classical.not_imp).symm rfl
    (if_congr (Classical.not_imp).symm rfl (if_congr (Classical.not_imp).symm rfl rfl)))
  rw [← block_iff (not_not.1 hn), not_not]

/-! ## What a refusal leaves -/

/-- A request refused on the P link is answered, and nothing else changes (R8). -/
theorem exec_requestOnPLink_refused {s : State} {msg : List Byte} {r : Request} {status : Status}
    {d : Option Detail} (hrun : s.Running) (hparse : parseRequest .p msg = some r)
    (hr : s.refusal .p .p r = some (status, d)) :
    exec (.requestOnPLink msg) s = .next (s.sendP (.response (refusalResponse r.tag status d))) := by
  obtain ⟨hporst, hcrst⟩ := hrun
  simp only [exec, execRequestOnPLink, hporst, hcrst, hparse, State.requestP, hr]
  rfl

/-- A request refused on the B link is answered, and nothing else changes (R8). -/
theorem exec_requestOnBLink_refused {s : State} {msg : List Byte} {r : Request} {status : Status}
    {d : Option Detail} (hb : s.BTakes) (hparse : parseRequest .b msg = some r) (hsource : r.source ≠ 0)
    (hr : s.refusal .b (.b r.source) r = some (status, d)) :
    exec (.requestOnBLink msg) s = .next (s.sendB (.response r.source s.setup.straps.slot r.stamp
      (refusalResponse r.tag status d))) := by
  obtain ⟨⟨hporst, hcrst⟩, hslot, hup⟩ := hb
  simp only [exec, execRequestOnBLink, hporst, hcrst, hslot, hup, hparse, if_neg hsource, State.requestB, hr]
  rfl

/-- A B request whose source node is 0 is discarded (R5). -/
theorem exec_requestOnBLink_sourceless {s : State} {msg : List Byte} {r : Request}
    (hparse : parseRequest .b msg = some r) (hsource : r.source = 0) :
    exec (.requestOnBLink msg) s = .next s := by
  simp only [exec, execRequestOnBLink, hparse, if_pos hsource, ite_self]

/-- The form check comes first (R5). -/
theorem State.refusal_form {l : Link} {r : Request} {d : Detail} (h : Request.formCheck l r = some d)
    (s : State) (o : Origin) : s.refusal l o r = some (.form, some d) := by
  simp only [State.refusal, h]

/-- Settles O7: the checks by `formCheck_eq`, and what a refusal answers. -/
theorem formChecksRefuseInOrder : Obligations.FormChecksRefuseInOrder := by
  refine ⟨fun l r => ?_, fun s msg r d hrun hparse hd => ?_, fun s msg r d hb hparse hsource hd => ?_,
    fun s msg r hparse hsource => exec_requestOnBLink_sourceless hparse hsource⟩
  · intro n c1 c2 c3 c4 c5 c6
    have heq : Request.formCheck l r = if ¬ c1 then some 64 else if ¬ c2 then some 65
        else if ¬ c3 then some 66 else if ¬ c4 then some 67 else if ¬ c5 then some 68
        else if ¬ c6 then some 69 else none := Request.formCheck_eq l r
    have pass {c : Prop} [Decidable c] (h : c) (x y : Option Detail) :
        (if ¬ c then x else y) = y := if_neg (not_not.2 h)
    refine ⟨fun h => ?_, fun h1 h => ?_, fun h1 h2 h => ?_, fun h1 h2 h3 h => ?_,
      fun h1 h2 h3 h4 h => ?_, fun h1 h2 h3 h4 h5 h => ?_, fun h1 h2 h3 h4 h5 h6 => ?_⟩
    · rw [heq, if_pos h]
    · rw [heq, pass h1, if_pos h]
    · rw [heq, pass h1, pass h2, if_pos h]
    · rw [heq, pass h1, pass h2, pass h3, if_pos h]
    · rw [heq, pass h1, pass h2, pass h3, pass h4, if_pos h]
    · rw [heq, pass h1, pass h2, pass h3, pass h4, pass h5, if_pos h]
    · rw [heq, pass h1, pass h2, pass h3, pass h4, pass h5, pass h6]
  · exact exec_requestOnPLink_refused hrun hparse (State.refusal_form hd s .p)
  · exact exec_requestOnBLink_refused hb hparse hsource (State.refusal_form hd s _)

/-- Settles O10: the response is all that a refusal produces. -/
theorem refusedRequestLeavesNoTrace : Obligations.RefusedRequestLeavesNoTrace :=
  ⟨fun _ _ _ _ _ hrun hparse hr => exec_requestOnPLink_refused hrun hparse hr,
    fun _ _ _ _ _ hb hparse hsource hr => exec_requestOnBLink_refused hb hparse hsource hr⟩

/-! ## Tags and quotas -/

/-- A tag is in use by an entry of the origin that is not ORPHANED (R6). -/
theorem State.tagInUse_iff {s : State} (T : s.TableOk) (o : Origin) (tag : BitVec 4) :
    s.tagInUse o tag = true ↔ ∃ i : EntryNo, ∃ e, s.entries[i] = some e ∧ e.origin = o ∧
      e.tag = some tag ∧ e.state ≠ .orphaned := by
  simp only [State.tagInUse, List.any_eq_true, Prod.exists, State.mem_table, Bool.and_eq_true,
    decide_eq_true_eq, and_assoc]
  refine exists_congr fun i => exists_congr fun e => ⟨fun ⟨_, h⟩ => h, fun h => ⟨?_, h⟩⟩
  exact (T.2 i).2 (by rw [h.1]; rfl)

/-- Past the form checks a tag in use is answered TAG_IN_USE, and nothing else is (R6, R7). -/
theorem State.refusal_tag_iff {s : State} {l : Link} {o : Origin} {r : Request}
    (h : Request.formCheck l r = none) :
    s.refusal l o r = some (.form, some 70) ↔ s.tagInUse o r.tag = true := by
  simp only [State.refusal, h]
  by_cases ht : s.tagInUse o r.tag = true
  · simp only [ht, if_true, iff_true]
    rfl
  · simp only [ht]
    cases s.quotaFull o <;> simp

/-- Past the form checks and the tag the quota decides (R7). -/
theorem State.refusal_quota {s : State} {l : Link} {o : Origin} {r : Request}
    (h : Request.formCheck l r = none) (ht : s.tagInUse o r.tag = false) :
    s.refusal l o r = if s.quotaFull o = true then some (.full, none) else none := by
  simp only [State.refusal, h, ht]
  rfl

/-- Settles O8: a P entry is never ORPHANED (R46), and the quota of an origin is 8 entries. -/
theorem tagsAndQuotasRefuseRequests : Obligations.TagsAndQuotasRefuseRequests := by
  refine ⟨⟨fun s r T E h => ?_, fun s r T h => ?_⟩, fun s r h ht => ?_, fun s r h ht => ?_⟩
  · rw [State.refusal_tag_iff h, State.tagInUse_iff T]
    refine exists_congr fun i => exists_congr fun e => ⟨?_, ?_⟩
    · rintro ⟨he, ho, htag, _⟩
      exact ⟨he, ho, htag⟩
    · rintro ⟨he, ho, htag⟩
      refine ⟨he, ho, htag, fun hs => ?_⟩
      have hb := (E i e he).orphaned hs
      rw [ho] at hb
      cases hb
  · rw [State.refusal_tag_iff h, State.tagInUse_iff T]
  · exact (State.refusal_quota h ht).trans (if_congr decide_eq_true_iff rfl rfl)
  · exact (State.refusal_quota h ht).trans (if_congr decide_eq_true_iff rfl rfl)

end Sys2Proof.Machine
end

section
/-!
PROOFS. What becomes of an accepted request in its acceptance event: it waits at its port, is served, forwarded, or
ended (R9 to R12, R20, R31, R42, R44, R95, R100).
-/

namespace Sys2Proof.Machine

/-! ## The event of an accepted request -/

theorem State.modEntry_give (s : State) (i : EntryNo) (e : Entry) (f : Entry → Entry) :
    (s.give i e).modEntry i f = s.give i (f e) := by
  simp [State.modEntry, State.give]

/-- The entry that acceptance gives has the buffer of a new entry (R42). -/
def State.acceptedEntry (s : State) (l : Link) (r : Request) : Entry :=
  requestEntry l r (freshBuffer s.freshCount r.data)

theorem State.entryP_eq (s : State) {r : Request} {space : Space} (h : r.space = some space) :
    s.entryP space r = s.acceptedEntry .p r := by
  simp only [State.acceptedEntry, requestEntry, h]
  rfl

theorem State.entryB_eq (s : State) {r : Request} {space : Space} (h : r.space = some space) :
    s.entryB space r = s.acceptedEntry .b r := by
  simp only [State.acceptedEntry, requestEntry, h]
  rfl

/-- A request that acceptance admits is given its entry and routed, and what follows in the event follows
(R9). -/
theorem exec_request {s : State} {l : Link} {msg : List Byte} {r : Request} {space : Space}
    (h : s.Admits l msg r) (hs : r.space = some space) :
    exec (requestCommand l msg) s = .next
      ((s.acceptEntry (requester l r) (s.acceptedEntry l r) r (s.routed l space r)).settle) := by
  obtain ⟨hparse, hr, hlink⟩ := h
  cases l with
  | p =>
    obtain ⟨hporst, hcrst⟩ := hlink
    have hr : s.refusal .p .p r = none := hr
    simp only [exec, requestCommand, execRequestOnPLink, hporst, hcrst, hparse, State.requestP, hr, hs,
      s.entryP_eq hs]
    rfl
  | b =>
    obtain ⟨⟨⟨hporst, hcrst⟩, hslot, hup⟩, hsource⟩ := hlink
    have hr : s.refusal .b (.b r.source) r = none := hr
    simp only [exec, requestCommand, execRequestOnBLink, hporst, hcrst, hslot, hup, hparse, if_neg hsource,
      State.requestB, hr, hs, s.entryB_eq hs]
    rfl

/-- The routing of a request for this card to its target ports or to the management block (R10, R11). -/
theorem State.routed_here {s : State} {l : Link} {r : Request}
    (h : r.node = s.setup.straps.slot ∨ l = .p ∧ r.node = 0) :
    s.routed l .data r = s.routeData (requester l r) r.op r.address ∧ s.routed l .mgmt r = .mgmt := by
  cases l with
  | p =>
    have hnode : r.node = 0 ∨ r.node = s.setup.straps.slot := by tauto
    exact ⟨if_pos hnode, if_pos hnode⟩
  | b =>
    have hnode : ¬ r.node ≠ s.setup.straps.slot := by simpa using h
    exact ⟨if_neg hnode, if_neg hnode⟩

/-- An accepted request is given the lowest FREE entry. -/
theorem State.acceptEntry_eq {s : State} {i : EntryNo} (hi : s.lowestFree = some i) (h : Holder) (e : Entry)
    (r : Request) (x : Routing) :
    s.acceptEntry h e r x = ((s.give i e).holdAtDecode h r.op i x).applyRouting i r x := by
  simp only [State.acceptEntry, hi]

/-! ## What the decode of a hold operation changes -/

/-- Only hold operations that reach a decode change a hold or a note (R95, R100). -/
theorem State.holdAtDecode_of_ended (s : State) (h : Holder) (op : Op) (i : EntryNo) (status : Status)
    (detail : Option Detail) : s.holdAtDecode h op i (.ended status detail) =
      if op = .writeRelease ∧ status = .holdBroken then s.setNote h none else s := by
  cases op <;> cases status <;> rfl

theorem State.holdAtDecode_of_access {op : Op} (hop : op = .read ∨ op = .write) (s : State) (h : Holder)
    (i : EntryNo) (x : Routing) : s.holdAtDecode h op i x = s := by
  obtain rfl | rfl := hop <;> rfl

theorem State.holdAtDecode_of_elsewhere {x : Routing} (hx : x = .remote ∨ x = .mgmt ∨ x = .attn) (s : State)
    (h : Holder) (op : Op) (i : EntryNo) : s.holdAtDecode h op i x = s := by
  obtain rfl | rfl | rfl := hx <;> cases op <;> rfl

/-- An entry routed to the management block is SERVING (R48, R150). -/
theorem State.acceptEntry_mgmt {s : State} {i : EntryNo} (hi : s.lowestFree = some i) (h : Holder) (e : Entry)
    (r : Request) : s.acceptEntry h e r .mgmt = s.give i { e with route := some .mgmt } := by
  rw [State.acceptEntry_eq hi, State.holdAtDecode_of_elsewhere (.inr (.inl rfl))]
  exact State.modEntry_give s i e _

/-- An entry routed to the attention unit is SERVING (R48, R143). -/
theorem State.acceptEntry_attn {s : State} {i : EntryNo} (hi : s.lowestFree = some i) (h : Holder) (e : Entry)
    (r : Request) : s.acceptEntry h e r .attn = s.give i { e with route := some .attn } := by
  rw [State.acceptEntry_eq hi, State.holdAtDecode_of_elsewhere (.inr (.inr rfl))]
  exact State.modEntry_give s i e _

/-- A READ or WRITE that decodes waits at its port (R31). -/
theorem State.acceptEntry_port {s : State} {i : EntryNo} (hi : s.lowestFree = some i) (h : Holder) (e : Entry)
    {r : Request} (hop : r.op = .read ∨ r.op = .write) (d : DecodeRecord) :
    s.acceptEntry h e r (.port d) = s.give i (e.placed d) := by
  rw [State.acceptEntry_eq hi, State.holdAtDecode_of_access hop]
  exact State.modEntry_give s i e _

/-- An entry that routing ends, ends at once (R10 to R12, R31). -/
theorem State.acceptEntry_ended {s : State} {i : EntryNo} (hi : s.lowestFree = some i) (h : Holder) (e : Entry)
    (r : Request) (status : Status) (detail : Option Detail) :
    s.acceptEntry h e r (.ended status detail) =
      State.endEntry { s.give i e with
        notes := if r.op = .writeRelease ∧ status = .holdBroken then s.notes.set h.code none else s.notes }
        i status none detail := by
  rw [State.acceptEntry_eq hi, State.holdAtDecode_of_ended]
  split <;> rfl

/-- A forwarded entry has a fresh round and its request leaves on the B link (R20, R43). -/
theorem State.acceptEntry_remote {s : State} {i : EntryNo} (hi : s.lowestFree = some i) (h : Holder)
    (e : Entry) (r : Request) :
    s.acceptEntry h e r .remote = { s.give i { e with
        state := .forwarded, route := some .remote, timer := some s.setup.settings.remoteLimit.toNat } with
      rounds := s.rounds.set i (s.rounds[i] + 1)
      bSent := if s.lines.bLink then
          s.bSent ++ [.request { r with
            source := s.setup.straps.slot, stamp := stampNumber i (s.rounds[i] + 1) }]
        else s.bSent } := by
  rw [State.acceptEntry_eq hi, State.holdAtDecode_of_elsewhere (.inl rfl)]
  simp [State.applyRouting, State.forward, State.bumpRound, State.modEntry, State.give, State.sendB]

/-! ## The routing tables -/

/-- A request that the decode ends is ended so (R31). -/
theorem State.routeData_error {s : State} {h : Holder} {op : Op} {a : Word} {status : Status}
    {detail : Option Detail} (hd : s.decodeAddress h.origin op a = .error (status, detail)) :
    s.routeData h op a = .ended status detail := by
  simp only [State.routeData, hd]

/-- A READ or WRITE that decodes is routed to its port (R31). -/
theorem State.routeData_access {s : State} {h : Holder} {op : Op} (hop : op = .read ∨ op = .write) {a : Word}
    {d : DecodeRecord} (hd : s.decodeAddress h.origin op a = .ok d) : s.routeData h op a = .port d := by
  obtain rfl | rfl := hop <;> simp only [State.routeData, hd]

/-- Settles O13: the branches of the tables, and an entry that routing ends (`acceptEntry_ended`). -/
theorem routingFollowsTheTables : Obligations.RoutingFollowsTheTables := by
  refine ⟨fun s space r => ?_, fun s space r => ?_, fun s h op a status detail hd => State.routeData_error hd,
    fun s l msg r space i status detail hadmits hspace hi hrouted => ?_⟩
  · intro slot here allowed
    refine ⟨fun hh hs => ?_, fun hh hs => ?_, fun hh hs => ?_, fun hh h0 => ?_, fun hh h0 ha => ?_,
      fun hh h0 ha hb => ?_, fun hh h0 ha hb => ?_⟩
    · subst hs; exact if_pos hh
    · subst hs; exact if_pos hh
    · subst hs; exact if_pos hh
    · exact (if_neg hh).trans (if_pos h0)
    · exact (if_neg hh).trans ((if_neg h0).trans (if_pos (by simpa [allowed] using ha)))
    · exact (if_neg hh).trans ((if_neg h0).trans ((if_neg (by simpa [allowed] using ha)).trans
        (if_pos (by simp [hb]))))
    · exact (if_neg hh).trans ((if_neg h0).trans ((if_neg (by simpa [allowed] using ha)).trans
        (if_neg (by simp [hb]))))
  · intro here
    refine ⟨fun hh => if_pos hh, fun hh hs => ?_, fun hh hs => ?_, fun hh hs => ?_⟩
    · subst hs; exact if_neg (not_not.2 hh)
    · subst hs; exact if_neg (not_not.2 hh)
    · subst hs; exact if_neg (not_not.2 hh)
  · refine ⟨freshBuffer s.freshCount r.data, begins_freshBuffer _ _, ?_⟩
    rw [exec_request hadmits hspace, hrouted, State.acceptEntry_ended hi]
    rfl

/-! ## Data and management requests -/

/-- A READ or WRITE for this card that decodes waits at its port. -/
theorem exec_request_access {s : State} {l : Link} {msg : List Byte} {r : Request} {d : DecodeRecord}
    {i : EntryNo} (h : s.Accepts l msg r) (hs : r.space = some .data) (hop : r.op = .read ∨ r.op = .write)
    (hd : s.decodeAddress (requester l r).origin r.op r.address = .ok d) (hi : s.lowestFree = some i) :
    exec (requestCommand l msg) s = .next (s.give i ((s.acceptedEntry l r).placed d)).settle := by
  obtain ⟨hadmits, hnode⟩ := h
  rw [exec_request hadmits hs, (State.routed_here hnode).1, State.routeData_access hop hd,
    State.acceptEntry_port hi _ _ hop]

/-- Settles O11: a decoded READ or WRITE is placed at its port, a management request is served. -/
theorem acceptedDataRequestWaitsAtItsPort : Obligations.AcceptedDataRequestWaitsAtItsPort := by
  refine ⟨fun s msg r d i hrun hparse hr hs hnode hop hd hi => ?_,
    fun s msg r d i hb hparse hsource hr hs hnode hop hd hi => ?_, fun s l msg r i h hs hi => ?_⟩
  · have hnode : r.node = s.setup.straps.slot ∨ Link.p = .p ∧ r.node = 0 := by tauto
    refine ⟨freshBuffer s.freshCount r.data, begins_freshBuffer _ _,
      (exec_request_access (l := .p) ⟨⟨hparse, hr, hrun⟩, hnode⟩ hs hop hd hi).trans ?_⟩
    simp only [State.acceptedEntry, requestEntry, hs]
    rfl
  · refine ⟨freshBuffer s.freshCount r.data, begins_freshBuffer _ _,
      (exec_request_access (l := .b) ⟨⟨hparse, hr, hb, hsource⟩, .inl hnode⟩ hs hop hd hi).trans ?_⟩
    simp only [State.acceptedEntry, requestEntry, hs]
    rfl
  · refine ⟨freshBuffer s.freshCount r.data, begins_freshBuffer _ _, ?_⟩
    rw [exec_request h.1 hs, (State.routed_here h.2).2, State.acceptEntry_mgmt hi]
    rfl

/-- Settles O12: the routing of a request for another node is the B port, whatever its operation. -/
theorem remoteRequestIsForwarded : Obligations.RemoteRequestIsForwarded := by
  intro s msg r space i hrun hparse hr hs hnode hslot hother hmask hup hi
  have hroute : s.routed .p space r = .remote := by
    have hhere : ¬ (r.node = 0 ∨ r.node = s.setup.straps.slot) := not_or.2 ⟨hnode, hother⟩
    exact (if_neg hhere).trans ((if_neg hslot).trans ((if_neg (by simp [hmask])).trans
      (if_neg (by simp [hup]))))
  refine ⟨freshBuffer s.freshCount r.data, begins_freshBuffer _ _,
    (exec_request (l := .p) ⟨hparse, hr, hrun⟩ hs).trans ?_⟩
  rw [hroute, State.acceptEntry_remote hi]
  simp only [State.acceptedEntry, requestEntry, hs]
  rfl

end Sys2Proof.Machine
end

section
/-!
PROOFS. The hold checks at decode, and what an accepted READ_HOLD and WRITE_RELEASE change (R93 to R95, R100).
-/

namespace Sys2Proof.Machine

/-! ## The holder's port and its hold operations -/

/-- A holder holds a port (R93). -/
theorem State.holdOf_isSome_iff {s : State} {h : Holder} : (s.holdOf h).isSome = true ↔
    ∃ p : PortNo, ∃ x, s.ports[p].hold = some x ∧ x.holder = h := by
  constructor
  · intro hs
    obtain ⟨⟨p, x⟩, hpx⟩ := Option.isSome_iff_exists.1 hs
    exact ⟨p, x, State.holdOf_some hpx⟩
  · rintro ⟨p, x, hx, hh⟩
    cases hn : s.holdOf h with
    | none => exact absurd hh (State.holdOf_none hn p x hx)
    | some _ => rfl

theorem State.holdOf_eq_none {s : State} {h : Holder}
    (hn : ∀ (p : PortNo) (x : Hold), s.ports[p].hold = some x → x.holder ≠ h) : s.holdOf h = none := by
  rw [← Option.not_isSome_iff_eq_none, State.holdOf_isSome_iff]
  rintro ⟨p, x, hx, hh⟩
  exact hn p x hx hh

/-- The lowest-numbered port that the holder holds is the one it is said to hold (R93). -/
theorem State.holdOf_eq_some {s : State} {h : Holder} {p : PortNo} {x : Hold} (hx : s.ports[p].hold = some x)
    (hh : x.holder = h) (hlow : ∀ q : PortNo, q < p → ∀ y, s.ports[q].hold = some y → y.holder ≠ h) :
    s.holdOf h = some (p, x) := by
  have hsome : (s.holdOf h).isSome = true := State.holdOf_isSome_iff.2 ⟨p, x, hx, hh⟩
  obtain ⟨⟨q, y⟩, hqy⟩ := Option.isSome_iff_exists.1 hsome
  obtain ⟨hy, hyh⟩ := State.holdOf_some hqy
  obtain ⟨before, q', after, hsplit, hq', hbefore⟩ := List.findSome?_eq_some_iff.1 hqy
  have hq : q' = q := by
    obtain ⟨_, _, hif⟩ := Option.bind_eq_some_iff.1 hq'
    split at hif <;> cases hif
    rfl
  subst hq
  have hsorted : (before ++ q' :: after).Pairwise (· < ·) := hsplit ▸ List.pairwise_lt_finRange 4
  have hmem : p ∈ before ++ q' :: after := hsplit ▸ List.mem_finRange p
  have hpq : p = q' := by
    obtain hp | hp := List.mem_append.1 hmem
    · have hno := hbefore p hp
      rw [show s.ports[p].hold = some x from hx] at hno
      simp [hh] at hno
    · obtain rfl | hp := List.mem_cons.1 hp
      · rfl
      · have hlt : q' < p := (List.pairwise_cons.1 (List.pairwise_append.1 hsorted).2.1).1 p hp
        exact absurd hyh (hlow q' hlt y hy)
  subst hpq
  rw [hqy]
  rw [State.holdAt, hx, Option.some.injEq] at hy
  rw [hy]

/-- The origin has an entry of the operation in one of the states. -/
theorem State.hasEntry_iff {s : State} {o : Origin} {op : Op} {states : List EntryState} :
    s.hasEntry o op states = true ↔
      ∃ jf ∈ s.table, jf.2.origin = o ∧ jf.2.op = op ∧ jf.2.state ∈ states := by
  simp [State.hasEntry, and_assoc]

/-- A hold operation of the origin is at its port (R95). -/
theorem State.hasEntry_atPort {s : State} {o : Origin} {op : Op} :
    s.hasEntry o op [.waiting, .issued, .backoff] = true ↔
      ∃ jf ∈ s.table, jf.2.origin = o ∧ jf.2.op = op ∧
        (jf.2.state = .waiting ∨ jf.2.state = .issued ∨ jf.2.state = .backoff) := by
  simp only [State.hasEntry_iff, List.mem_cons, List.not_mem_nil, or_false]

/-- An operation of the origin waits at its port (R100). -/
theorem State.hasEntry_waits {s : State} {o : Origin} {op : Op} :
    s.hasEntry o op [.waiting, .backoff] = true ↔
      ∃ jf ∈ s.table, jf.2.origin = o ∧ jf.2.op = op ∧
        (jf.2.state = .waiting ∨ jf.2.state = .backoff) := by
  simp only [State.hasEntry_iff, List.mem_cons, List.not_mem_nil, or_false]

/-! ## The decode of a hold operation -/

/-- A READ_HOLD that fails a check is answered FORM with its detail (R95). -/
theorem State.routeData_readHold_ended {s : State} {h : Holder} {a : Word} {d : DecodeRecord}
    (hd : s.decodeAddress h.origin .readHold a = .ok d) {check : Detail}
    (hc : s.readHoldCheck h = some check) : s.routeData h .readHold a = .ended .form (some check) := by
  simp only [State.routeData, hd, hc]

theorem State.routeData_readHold_passed {s : State} {h : Holder} {a : Word} {d : DecodeRecord}
    (hd : s.decodeAddress h.origin .readHold a = .ok d) (hc : s.readHoldCheck h = none) :
    s.routeData h .readHold a = .port d := by
  simp only [State.routeData, hd, hc]

/-- A WRITE_RELEASE that is not accepted is answered with the status and detail of its case (R100). -/
theorem State.routeData_release_ended {s : State} {h : Holder} {a : Word} {d : DecodeRecord}
    (hd : s.decodeAddress h.origin .writeRelease a = .ok d) {status : Status} {detail : Detail}
    (hc : s.releaseCheck h d.port = some (status, detail)) :
    s.routeData h .writeRelease a = .ended status (some detail) := by
  simp only [State.routeData, hd, hc]

theorem State.routeData_release_passed {s : State} {h : Holder} {a : Word} {d : DecodeRecord}
    (hd : s.decodeAddress h.origin .writeRelease a = .ok d) (hc : s.releaseCheck h d.port = none) :
    s.routeData h .writeRelease a = .port d := by
  simp only [State.routeData, hd, hc]

/-- A READ_HOLD that passes its checks waits at its port and clears its requester's note (R95). -/
theorem State.acceptEntry_readHold {s : State} {i : EntryNo} (hi : s.lowestFree = some i) (h : Holder)
    (e : Entry) {r : Request} (hop : r.op = .readHold) (d : DecodeRecord) :
    s.acceptEntry h e r (.port d) =
      { s.give i (e.placed d) with notes := s.notes.set h.code none } := by
  rw [State.acceptEntry_eq hi, hop]
  exact State.modEntry_give (s.setNote h none) i e _

/-- A WRITE_RELEASE that is accepted waits at its port and is named by the hold, whose timer stops (R100). -/
theorem State.acceptEntry_release {s : State} {i : EntryNo} (hi : s.lowestFree = some i) (h : Holder)
    (e : Entry) {r : Request} (hop : r.op = .writeRelease) {d : DecodeRecord} {x : Hold}
    (hx : s.ports[d.port].hold = some x) :
    s.acceptEntry h e r (.port d) =
      { s.give i (e.placed d) with
        ports := s.ports.set d.port { s.ports[d.port] with
          hold := some { x with phase := .awaitingRelease i } } } := by
  rw [State.acceptEntry_eq hi, hop]
  have hgiven : (s.give i e).holdAtDecode h .writeRelease i (.port d) =
      State.give { s with
        ports := s.ports.set d.port { s.ports[d.port] with
          hold := some { x with phase := .awaitingRelease i } } } i e := by
    have hx : s.ports[d.port.val].hold = some x := hx
    simp [State.holdAtDecode, State.modPort, State.give, hx]
  rw [hgiven]
  exact State.modEntry_give _ i e _

/-- An accepted request for this card's ports is routed by its decode. -/
theorem exec_request_data {s : State} {l : Link} {msg : List Byte} {r : Request} (h : s.Accepts l msg r)
    (hs : r.space = some .data) {op : Op} (hop : r.op = op) {x : Routing}
    (hx : s.routeData (requester l r) op r.address = x) :
    exec (requestCommand l msg) s =
      .next (s.acceptEntry (requester l r) (s.acceptedEntry l r) r x).settle := by
  rw [exec_request h.1 hs, (State.routed_here h.2).1, hop, hx]

/-! ## READ_HOLD -/

/-- Settles O15: the checks in their order, and what each answer makes of an accepted request. -/
theorem readHoldIsCheckedAtItsDecode : Obligations.ReadHoldIsCheckedAtItsDecode := by
  intro s h a d hd holding pending
  have hholding : (s.holdOf h).isSome = true ↔ holding := State.holdOf_isSome_iff
  have hpending (op : Op) : s.hasEntry h.origin op [.waiting, .issued, .backoff] = true ↔ pending op :=
    State.hasEntry_atPort
  have held (h1 : holding) : s.routeData h .readHold a = .ended .form (some 71) :=
    State.routeData_readHold_ended hd (if_pos (hholding.2 h1))
  have reading (h1 : ¬ holding) (h2 : pending .readHold) :
      s.routeData h .readHold a = .ended .form (some 72) :=
    State.routeData_readHold_ended hd
      ((if_neg (mt hholding.1 h1)).trans (if_pos ((hpending _).2 h2)))
  have releasing (h1 : ¬ holding) (h2 : ¬ pending .readHold) (h3 : pending .writeRelease) :
      s.routeData h .readHold a = .ended .form (some 73) :=
    State.routeData_readHold_ended hd
      ((if_neg (mt hholding.1 h1)).trans ((if_neg (mt (hpending _).1 h2)).trans (if_pos ((hpending _).2 h3))))
  have passed (h1 : ¬ holding) (h2 : ¬ pending .readHold) (h3 : ¬ pending .writeRelease) :
      s.routeData h .readHold a = .port d :=
    State.routeData_readHold_passed hd
      ((if_neg (mt hholding.1 h1)).trans ((if_neg (mt (hpending _).1 h2)).trans
        (if_neg (mt (hpending _).1 h3))))
  refine ⟨held, reading, releasing, fun h1 h2 h3 => ⟨passed h1 h2 h3, fun i => rfl⟩,
    fun l msg r i haccepts hs hop ha hh hi => ⟨freshBuffer s.freshCount r.data, fun h1 h2 h3 => ?_,
      fun check hcheck => ?_⟩⟩
  · subst hh ha
    rw [exec_request_data haccepts hs hop (passed h1 h2 h3), State.acceptEntry_readHold hi _ _ hop]
    rfl
  · subst hh ha
    have hended : s.routeData (requester l r) .readHold r.address = .ended .form (some check) := by
      obtain ⟨h1, rfl⟩ | ⟨h1, h2, rfl⟩ | ⟨h1, h2, h3, rfl⟩ := hcheck
      · exact held h1
      · exact reading h1 h2
      · exact releasing h1 h2 h3
    rw [exec_request_data haccepts hs hop hended, State.acceptEntry_ended hi, if_neg (by simp [hop])]
    rfl

/-! ## WRITE_RELEASE -/

/-- The release of a holder that holds a port is checked against that port and the phase of its hold
(R100). -/
theorem State.releaseCheck_held {s : State} {h : Holder} {p q : PortNo} {x : Hold}
    (hx : s.holdOf h = some (q, x)) : s.releaseCheck h p =
      if q ≠ p then some (Status.form, (74 : Detail))
      else match x.phase with
        | .timing _ => none
        | .awaitingRead _ => some (Status.form, 72)
        | .awaitingRelease _ => some (Status.form, 73) := by
  simp only [State.releaseCheck, hx]
  rfl

/-- The release of a holder that holds no port is answered by its READ_HOLD that waits, its note, or NO_HOLD
(R100). -/
theorem State.releaseCheck_free {s : State} {h : Holder} (hn : s.holdOf h = none) (p : PortNo) :
    s.releaseCheck h p =
      if s.hasEntry h.origin .readHold [.waiting, .backoff] = true then some (Status.form, 72)
      else match s.note h with
        | some q => some (.holdBroken, BitVec.ofNat 8 q.val)
        | none => some (Status.form, 75) := by
  simp only [State.releaseCheck, hn]
  rfl

/-- Settles O16: the seven cases by the holder's port, its waiting READ_HOLD and its note, and what each makes of
an accepted request. -/
theorem writeReleaseCases : Obligations.WriteReleaseCases := by
  intro s h a d i hd route change holds none' waiting
  have hheld {p : PortNo} {x : Hold} (hx : holds p x) : s.holdOf h = some (p, x) :=
    State.holdOf_eq_some hx.1 hx.2.1 hx.2.2
  have hwaiting : s.hasEntry h.origin .readHold [.waiting, .backoff] = true ↔ waiting :=
    State.hasEntry_waits
  have formed {check : Detail} (hc : s.releaseCheck h d.port = some (.form, check)) :
      route = .ended .form (some check) ∧ change route = s := by
    have hended : route = .ended .form (some check) := State.routeData_release_ended hd hc
    exact ⟨hended, by rw [hended]; rfl⟩
  have accepted {x : Hold} {n : Nat} (hx : holds d.port x) (ht : x.phase = .timing n) : route = .port d := by
    refine State.routeData_release_passed hd ?_
    rw [State.releaseCheck_held (hheld hx), if_neg (not_not.2 rfl), ht]
  refine ⟨fun x n hx ht => ⟨accepted hx ht, ?_⟩, fun p x hx hp => formed ?_, fun x j hx ht => formed ?_,
    fun x j hx ht => formed ?_, fun hn hw => formed ?_, fun q hn hw hq => ?_, fun hn hw hq => formed ?_,
    fun l msg r status detail haccepts hs hop ha hh hi hended => ?_,
    fun l msg r x n haccepts hs hop ha hh hi hx ht => ?_⟩
  · rw [accepted hx ht]
    simp only [change, State.holdAtDecode, State.modPort]
    rw [hx.1]
    rfl
  · rw [State.releaseCheck_held (hheld hx), if_pos hp]
  · rw [State.releaseCheck_held (hheld hx), if_neg (not_not.2 rfl), ht]
  · rw [State.releaseCheck_held (hheld hx), if_neg (not_not.2 rfl), ht]
  · rw [State.releaseCheck_free (State.holdOf_eq_none hn), if_pos (hwaiting.2 hw)]
  · have hbroken : route = .ended .holdBroken (some (BitVec.ofNat 8 q.val)) := by
      refine State.routeData_release_ended hd ?_
      rw [State.releaseCheck_free (State.holdOf_eq_none hn), if_neg (mt hwaiting.1 hw), hq]
    exact ⟨hbroken, by rw [hbroken]; rfl⟩
  · rw [State.releaseCheck_free (State.holdOf_eq_none hn), if_neg (mt hwaiting.1 hw), hq]
  · subst hh ha
    refine ⟨freshBuffer s.freshCount r.data, begins_freshBuffer _ _, ?_⟩
    rw [exec_request_data haccepts hs hop hended, State.acceptEntry_ended hi]
    simp only [hop, true_and]
    rfl
  · subst hh ha
    refine ⟨freshBuffer s.freshCount r.data, begins_freshBuffer _ _, ?_⟩
    rw [exec_request_data haccepts hs hop (accepted hx ht), State.acceptEntry_release hi _ _ hop hx.1]
    rfl

end Sys2Proof.Machine
end

section
/-!
PROOFS. The end of an entry by its origin, and the answers that advance or end an entry: a response on the B link and a
DONE (R13, R18, R21, R47, R52 to R55, R58, R59, R61, R85).
-/

namespace Sys2Proof.Machine

/-! ## The end of an entry -/

/-- The response of an ended entry (R13). -/
theorem Entry.ended_response (e : Entry) (status : Status) (a : Option Word) (d : Option Detail) :
    (e.ended status a d).response =
      { tag := e.tag.getD 0, status,
        data := if status = .ok ∧ (e.op = .read ∨ e.op = .readHold) then
            some (e.buffer.toList.take e.length) else none,
        faultAddress := a, detail := d } := by
  simp only [Entry.response, Entry.ended, Option.some.injEq, Op.isRead_iff, Option.getD_some]
  rfl

theorem endIn_eq (i : EntryNo) (e : Entry) (l : List (EntryNo × Entry)) :
    endIn i e l = l.map fun jf => if jf.1 = i then (i, e) else jf := by
  refine List.map_congr_left fun jf _ => ?_
  by_cases h : jf.1 = i
  · rw [if_pos h, if_pos h.symm, h]
  · rw [if_neg h, if_neg (Ne.symm h)]

/-- The end of a P entry: it is COMPLETE in its place on the P response list, and what has ended at the head of the list
leaves (R47, R52, R53). -/
theorem State.endEntry_p {s : State} (T : s.TableOk) {i : EntryNo} {e : Entry} (he : s.entries[i] = some e)
    (ho : e.origin = .p) (hl : e.Live) (status : Status) (a : Option Word) (d : Option Detail)
    {leaving : List (EntryNo × Entry)}
    (hleaving : (endIn i (e.ended status a d) s.pList).takeWhile leavesAtHead = leaving) :
    let t := s.endEntry i status a d
    t = { s.holdAtEnd i e status with
      entries := t.entries
      order := s.order.filter fun j => j ∉ leaving.map Prod.fst
      pSent := if s.lines.pLink = true then
          s.pSent ++ leaving.map fun jf => .response jf.2.response else s.pSent } ∧
    ∀ j : EntryNo, t.entries[j] = if j ∈ leaving.map Prod.fst then none
      else if j = i then some (e.ended status a d) else s.entries[j] := by
  intro t
  let u : State := (s.holdAtEnd i e status).modEntry i fun _ => e.ended status a d
  have ht : t = u.deliverUpTo 24 := by
    have hend := State.endEntry_live he hl status a d
    rw [ho] at hend
    exact hend
  have horder : u.order = s.order := s.holdAtEnd_order i e status
  have hlist : u.pList.takeWhile leavesAtHead = leaving := by
    have hhold : (s.holdAtEnd i e status).pList = s.pList := by
      rw [State.pList_eq, s.kind_holdAtEnd, State.pList_eq]
    have he' : (s.holdAtEnd i e status).entries[i] = some e := by rw [State.holdAtEnd_entries]; exact he
    rw [State.pList_modEntry (f := e.ended status a d) he' ho ho, hhold, hleaving]
  have hentry (j : EntryNo) : u.entries[j] =
      if j = i then some (e.ended status a d) else s.entries[j] := by
    rw [State.modEntry_entry, State.holdAtEnd_entries]
    by_cases hj : i = j
    · subst hj; rw [if_pos rfl, if_pos rfl, he]; rfl
    · rw [if_neg hj, if_neg (Ne.symm hj)]
  obtain ⟨hframe, hentries⟩ := State.deliverUpTo_spec 24 u
    (State.pList_length_le (horder ▸ T.1)) (horder ▸ T.1)
  have hlink : (s.holdAtEnd i e status).lines = s.lines ∧ (s.holdAtEnd i e status).pSent = s.pSent := by
    rw [s.holdAtEnd_frame i e status]
    exact ⟨rfl, rfl⟩
  rw [← ht, hlist] at hframe hentries
  rw [horder] at hframe
  refine ⟨?_, fun j => (hentries j).trans (by rw [hentry])⟩
  rw [← hlink.1, ← hlink.2]
  exact hframe

/-- Settles O17: what `endEntry_p` says, entry by entry. -/
theorem endedProcessorEntriesLeaveInOrder : Obligations.EndedProcessorEntriesLeaveInOrder := by
  intro s i e status a d T he ho hcomplete horphaned ended list leaving t
  obtain ⟨hframe, hentries⟩ := State.endEntry_p T he ho ⟨hcomplete, horphaned⟩ status a d
    (leaving := leaving) (by rw [endIn_eq]; rfl)
  exact ⟨hframe, fun j hj => (hentries j).trans (if_pos hj), fun j hj => (hentries j).trans (if_neg hj),
    e.ended_response status a d⟩

/-- Settles O18: `endEntry_live` for the origin of the entry. -/
theorem endedBackplaneAndMoveEntries : Obligations.EndedBackplaneAndMoveEntries := by
  intro s i e status a d he hcomplete horphaned v
  have hend := State.endEntry_live he ⟨hcomplete, horphaned⟩ status a d
  have hv : (s.holdAtEnd i e status).free i = v := by
    simp only [State.free, v, State.holdAtEnd_entries, s.holdAtEnd_order]
  refine ⟨fun source ho => ?_, fun c ho => ?_⟩
  · rw [ho] at hend
    have hresponse : s.bResponse source (e.ended status a d) = .response source s.setup.straps.slot
        (e.returnStamp.getD 0) (e.ended status a d).response := rfl
    rw [hend]
    dsimp only
    rw [hresponse, e.ended_response]
    have hframe := s.holdAtEnd_frame i e status
    generalize (s.holdAtEnd i e status).ports = ports at hframe
    simp only [v, hframe, State.sendB, State.free]
  · rw [ho] at hend
    rw [hend]
    dsimp only
    rw [hv]
    rfl

/-! ## DONE -/

/-- A DONE is malformed when its data are not those of the piece (R18). -/
theorem Entry.malformedDone_iff (e : Entry) (data : List Byte) : e.malformedDone data = true ↔
    ¬ (((e.op = .read ∨ e.op = .readHold) → data.length = e.piece.2) ∧
      (¬ (e.op = .read ∨ e.op = .readHold) → data = [])) := by
  unfold Entry.malformedDone
  by_cases hread : e.op.isRead = true
  · have hop := (Op.isRead_iff e.op).1 hread
    rw [if_pos hread]
    simp [hop]
  · have hop := mt (Op.isRead_iff e.op).2 hread
    rw [if_neg hread]
    simp [hop]

theorem exec_targetDone {s : State} {p : PortNo} {msg data : List Byte} {index : BitVec 5}
    {i : EntryNo} {e : Entry} (hporst : s.lines.porst = false) (hindex : index.toNat = i.val)
    (he : s.entries[i] = some e) (hout : e.pieceOutAt p = true)
    (hparse : parseAnswer 8 msg = some (index, s.rounds[i], data)) :
    exec (.targetDone p msg) s =
      if e.malformedDone data = true then .next s else .next (s.takeDone p i e data) := by
  simp only [exec, execTargetDone, hparse, State.answeredAt_eq hindex he hout, hporst, Bool.false_or]

/-- The buffer after a DONE: read data stand at the positions of the piece (R85). -/
theorem Entry.afterDone_buffer (e : Entry) (data : List Byte) (k : Fin 64) :
    (e.afterDone data).buffer[k] =
      if (e.op = .read ∨ e.op = .readHold) ∧ e.piece.1 ≤ k.val then data.getD (k.val - e.piece.1) e.buffer[k]
      else e.buffer[k] := by
  unfold Entry.afterDone
  by_cases hread : e.op.isRead = true
  · have hop := (Op.isRead_iff e.op).1 hread
    simp [hread, hop, placeBytes]
  · have hop := mt (Op.isRead_iff e.op).2 hread
    simp [hread, hop]

/-- Settles O29: a well-formed DONE is taken, and what it does follows the state of the entry and its pieces. -/
theorem doneAdvancesOrEndsItsEntry : Obligations.DoneAdvancesOrEndsItsEntry := by
  intro s p msg data index round i e hporst hparse hindex hround he hroute isRead formed ports
  subst hround
  have hexec (h : e.state = .issued ∨ e.state = .orphaned) :=
    exec_targetDone hporst hindex he ((e.pieceOutAt_iff p).2 ⟨hroute, h⟩) hparse
  have hmalformed : e.malformedDone data = true ↔ ¬ formed := e.malformedDone_iff data
  have taken (hf : formed) (h : e.state = .issued ∨ e.state = .orphaned) :
      exec (.targetDone p msg) s = .next (s.takeDone p i e data) :=
    (hexec h).trans (if_neg fun hm => hmalformed.1 hm hf)
  refine ⟨fun hf h => (hexec h).trans (if_pos (hmalformed.2 hf)),
    fun hf h => ⟨(e.afterDone data).buffer, fun k => ?_, ?_⟩, fun hf h => ?_⟩
  · exact e.afterDone_buffer data k
  · intro v
    have hlive : ¬ e.state = .orphaned := by simp [h]
    have hmod : (s.zeroNoAnswer p).modEntry i (fun e => e.afterDone data) = v := by
      rw [State.modEntry, show (s.zeroNoAnswer p).entries[i] = some e from he]
      rfl
    rw [taken hf (.inl h), State.takeDone]
    dsimp only
    rw [if_neg hlive, hmod]
    exact ⟨fun hmore => by rw [if_pos hmore], fun hlast => by rw [if_neg (Nat.not_lt.2 hlast)]⟩
  · rw [taken hf (.inr h), State.takeDone]
    dsimp only
    rw [if_pos h]
    rfl

/-! ## Responses on the B link -/

/-- The stamp of a round of an entry names both (R59). -/
theorem stampParts_eq {stamp : BitVec 16} {i : EntryNo} {round : BitVec 8}
    (h : stamp.toNat = i.val * 256 + round.toNat) : stampParts stamp = some (i, round) := by
  have hround := round.isLt
  have hi := i.isLt
  have hdiv : stamp.toNat / 256 = i.val := by omega
  have hmod : stamp.setWidth 8 = round := by
    apply BitVec.eq_of_toNat_eq
    rw [BitVec.toNat_setWidth]
    omega
  rw [stampParts, dif_pos (by omega), hmod]
  exact congrArg (fun j => some (j, round)) (Fin.ext hdiv)

/-- What a stamp names. -/
theorem stampParts_some {stamp : BitVec 16} {i : EntryNo} {round : BitVec 8}
    (h : stampParts stamp = some (i, round)) :
    stamp.toNat / 256 = i.val ∧ round.toNat = stamp.toNat % 256 := by
  unfold stampParts at h
  split at h
  · cases h
    exact ⟨rfl, BitVec.toNat_setWidth _ _⟩
  · cases h

/-- The FORWARDED entry under the stamp of a response, of its node (R21, R59). -/
theorem State.forwardedFor_eq {s : State} {x : BResponse} {i : EntryNo} {e : Entry}
    (hnode : x.node = s.setup.straps.slot) (hstamp : x.stamp.toNat = i.val * 256 + s.rounds[i].toNat)
    (he : s.entries[i] = some e) (hstate : e.state = .forwarded) (hsource : e.node = some x.source) :
    s.forwardedFor x = some (i, e) := by
  rw [State.forwardedFor, if_neg (not_not.2 hnode), stampParts_eq hstamp]
  simp only [Option.bind_some, he, hstate, hsource, and_self, if_true]

theorem State.forwardedFor_some {s : State} {x : BResponse} {i : EntryNo} {e : Entry}
    (h : s.forwardedFor x = some (i, e)) : x.node = s.setup.straps.slot ∧ x.stamp.toNat / 256 = i.val ∧
      s.entries[i] = some e ∧ e.state = .forwarded ∧ s.rounds[i].toNat = x.stamp.toNat % 256 ∧
      e.node = some x.source := by
  unfold State.forwardedFor at h
  split at h
  · cases h
  · rename_i hnode
    obtain ⟨⟨j, round⟩, hparts, h⟩ := Option.bind_eq_some_iff.1 h
    obtain ⟨f, hf, h⟩ := Option.bind_eq_some_iff.1 h
    obtain ⟨hdiv, hmod⟩ := stampParts_some hparts
    split at h
    · rename_i hmatch
      obtain ⟨hstate, hround, hsource⟩ := hmatch
      cases h
      exact ⟨not_not.1 hnode, hdiv, hf, hstate, by rw [hround, hmod], hsource⟩
    · cases h

theorem malformedFor_iff (e : Entry) (r : Response) : malformedFor e r = true ↔
    r.status = .ok ∧ (e.op = .read ∨ e.op = .readHold) ∧ (r.data.getD []).length ≠ e.length := by
  simp only [malformedFor, Bool.and_eq_true, decide_eq_true_eq, Op.isRead_iff, and_assoc]

/-- A response that matches and is well formed is taken for its entry (R21). -/
theorem exec_bLinkResponse {s : State} {msg : List Byte} {x : BResponse} {i : EntryNo} {e : Entry}
    (hporst : s.lines.porst = false) (hslot : s.setup.straps.slot ≠ 0) (hparse : parseResponse msg = some x)
    (hfor : s.forwardedFor x = some (i, e)) : exec (.bLinkResponse msg) s =
      if malformedFor e x.body = true then .next s else .next (s.relay i e x.body) := by
  simp only [exec, execBLinkResponse, hporst, hslot, hparse, hfor]
  rfl

/-- Settles O22: what matches and is well formed is relayed, and everything else finds no entry or is malformed. -/
theorem backplaneResponseEndsItsEntry : Obligations.BackplaneResponseEndsItsEntry := by
  refine ⟨fun s msg x i e hporst hslot hparse hnode hstamp he hstate hsource => ?_, fun s msg h => ?_⟩
  · have hexec := exec_bLinkResponse hporst hslot hparse
      (State.forwardedFor_eq hnode hstamp he hstate hsource)
    refine ⟨fun hwrite => ?_, fun data hok hread hdata hlength =>
      ⟨placeBytes e.buffer 0 data, fun k => by simp [placeBytes], ?_⟩⟩
    · have hno : ¬ (x.body.status = .ok ∧ e.op.isRead = true) := by
        rintro ⟨hok, hread⟩
        obtain hs | hop := hwrite
        · exact hs hok
        · rw [(Op.isRead_eq_false_iff e.op).2 hop] at hread
          cases hread
      have hform : ¬ malformedFor e x.body = true := fun hm =>
        hno ⟨((malformedFor_iff e _).1 hm).1, (Op.isRead_iff e.op).2 ((malformedFor_iff e _).1 hm).2.1⟩
      rw [hexec, if_neg hform, State.relay, if_neg hno]
    · have hform : ¬ malformedFor e x.body = true := by
        rw [malformedFor_iff, hdata]
        exact fun hm => hm.2.2 hlength
      rw [hexec, if_neg hform, State.relay, if_pos ⟨hok, (Op.isRead_iff e.op).2 hread⟩,
        State.setBuffer_eq he (fun b => placeBytes b 0 (x.body.data.getD [])), hdata, hok]
      rfl
  · simp only [exec, execBLinkResponse]
    by_cases hoff : s.lines.porst = true ∨ s.setup.straps.slot = 0
    · exact if_pos (by simpa using hoff)
    · obtain hporst | hslot | hnone | ⟨x, hparse, hx⟩ := h
      · exact absurd (.inl hporst) hoff
      · exact absurd (.inr hslot) hoff
      · simp only [hnone, ite_self]
      · rw [if_neg (by simpa using hoff), hparse]
        dsimp only
        cases hfor : s.forwardedFor x with
        | none => rfl
        | some ie =>
          obtain ⟨i, e⟩ := ie
          obtain ⟨hnode, hdiv, he, hstate, hround, hsource⟩ := State.forwardedFor_some hfor
          refine if_pos ((malformedFor_iff e x.body).2 ?_)
          obtain hn | hbig | hmatch := hx
          · exact absurd hnode hn
          · have := i.isLt
            omega
          · obtain hs | hr | hn | hmalformed := hmatch i hdiv e he
            · exact absurd hstate hs
            · exact absurd hround hr
            · exact absurd hsource hn
            · exact hmalformed

end Sys2Proof.Machine
end

section
/-!
PROOFS. The asks and the walk of the attention unit (R17, R18, R143 to R148).
-/

namespace Sys2Proof.Machine

/-! ## The answer of an ask -/

theorem Answer.bytes_length (x : Answer) (n : Nat) (overflow : Bool) : (x.bytes n overflow).length = 16 := by
  cases x <;> simp [Answer.bytes, wordBytes_length]

/-- The answer record stands in the first 16 bytes of the buffer (R145). -/
theorem Answer.placed_take (x : Answer) (n : Nat) (overflow : Bool) (buffer : Vector Byte 64) :
    (placeBytes buffer 0 (x.bytes n overflow)).toList.take 16 = x.bytes n overflow := by
  have hlength := x.bytes_length n overflow
  have htake := placeBytes_take buffer (x.bytes n overflow) (by omega)
  rwa [hlength] at htake

/-- An ask that is answered ends OK with the answer record in its buffer (R143, R145). -/
theorem State.endAsk_eq {s : State} {i : EntryNo} {e : Entry} (he : s.entries[i] = some e) (x : Answer) :
    s.endAsk i x = (s.setBuffer i e (placeBytes e.buffer 0
      (x.bytes s.attention.queue.length s.attention.overflow))).endEntry i .ok none none := by
  simp only [State.endAsk]
  rw [State.setBuffer_eq he fun b => placeBytes b 0 (x.bytes s.attention.queue.length s.attention.overflow)]

/-! ## The walk -/

/-- What a walk asks of a port: it is enabled, asserted and not ABSENT (R146). -/
def State.Wants (s : State) (p : PortNo) : Prop :=
  s.setup.settings.portEnables.getLsbD p.val = true ∧ s.lines.tattn[p] = true ∧ s.ports[p].state ≠ .absent

theorem State.wants_iff {s : State} {p : PortNo} :
    (s.lineWants p = true ∧ s.ports[p].state ≠ .absent) ↔ s.Wants p := by
  rw [State.lineWants_iff, and_assoc, State.Wants]

/-- With none of the ports left wanted the walk's ask ends EMPTY (R146). -/
theorem State.walkOn_none {s : State} (i : EntryNo) {l : List PortNo} (h : ∀ p ∈ l, ¬ s.Wants p) :
    s.walkOn i l = s.endAsk i .empty := by
  induction l with
  | nil => rfl
  | cons p l ih =>
    rw [State.walkOn, if_neg (mt State.wants_iff.1 (h p List.mem_cons_self))]
    exact ih fun q hq => h q (List.mem_cons_of_mem p hq)

/-- The first of the ports left that is wanted is sent an ASK (R146). -/
theorem State.walkOn_first {s : State} (i : EntryNo) {x : List PortNo} {p : PortNo} (y : List PortNo)
    (hx : ∀ q ∈ x, ¬ s.Wants q) (hp : s.Wants p) : s.walkOn i (x ++ p :: y) = s.sendAsk i p := by
  induction x with
  | nil => rw [List.nil_append, State.walkOn, if_pos (State.wants_iff.2 hp)]
  | cons q x ih =>
    rw [List.cons_append, State.walkOn, if_neg (mt State.wants_iff.1 (hx q List.mem_cons_self))]
    exact ih fun q' hq' => hx q' (List.mem_cons_of_mem q hq')

/-- The walk in progress with its ASK outstanding at the port goes on to the ports above it (R147, R148). -/
theorem State.passPort_here {s : State} {p : PortNo} {w : Walk} (hw : s.attention.walk = some w)
    (hp : w.port = p) : s.passPort p =
      State.walkOn { s with attention := { s.attention with walk := none } } w.ask
        ((List.finRange 4).filter fun q => p < q) := by
  simp only [State.passPort, hw, if_pos hp]

theorem State.walkAt_eq {s : State} {p : PortNo} {number : BitVec 8} {w : Walk}
    (hw : s.attention.walk = some w) (hp : w.port = p) (hn : w.number = number) :
    s.walkAt p number = some w := by
  simp only [State.walkAt, hw, Option.bind_some, if_pos (And.intro hp hn)]

/-- No ASK with the number is outstanding at the port (R18). -/
theorem State.walkAt_eq_none {s : State} {p : PortNo} {number : BitVec 8}
    (h : ∀ w, s.attention.walk = some w → w.port ≠ p ∨ w.number ≠ number) : s.walkAt p number = none := by
  rw [State.walkAt, Option.bind_eq_none_iff]
  intro w hw
  exact if_neg (not_and_or.2 (h w hw))

/-- A CODE that answers no ASK, or with code 0, is discarded (R18). -/
theorem exec_targetCode_discarded {s : State} {p : PortNo} {msg : List Byte}
    (h : s.lines.porst = true ∨ parseAskAnswer 11 msg = none ∨
      ∃ number code, parseAskAnswer 11 msg = some (number, code) ∧
        (code = 0 ∨ ∀ w, s.attention.walk = some w → w.port ≠ p ∨ w.number ≠ number)) :
    exec (.targetCode p msg) s = .next s := by
  obtain hporst | hnone | ⟨number, code, hparse, hstray⟩ := h
  · simp only [exec, execTargetCode, hporst, true_or, if_true]
    repeat' split
    all_goals rfl
  · simp only [exec, execTargetCode, hnone]
  · simp only [exec, execTargetCode, hparse]
    obtain hcode | hw := hstray
    · cases s.walkAt p number with
      | none => rfl
      | some w => exact if_pos (.inr hcode)
    · rw [State.walkAt_eq_none hw]

/-- A PASS that answers no ASK is discarded (R18). -/
theorem exec_targetPass_discarded {s : State} {p : PortNo} {msg : List Byte}
    (h : s.lines.porst = true ∨ parseAskAnswer 12 msg = none ∨
      ∃ number code, parseAskAnswer 12 msg = some (number, code) ∧
        ∀ w, s.attention.walk = some w → w.port ≠ p ∨ w.number ≠ number) :
    exec (.targetPass p msg) s = .next s := by
  obtain hporst | hnone | ⟨number, code, hparse, hw⟩ := h
  · simp only [exec, execTargetPass, hporst, if_true]
    repeat' split
    all_goals rfl
  · simp only [exec, execTargetPass, hnone]
  · simp only [exec, execTargetPass, hparse, State.walkAt_eq_none hw]

/-- Settles O53: `passPort`, `walkOn` and the answers by whether they name the ASK of the walk. -/
theorem askAnswersEndOrMoveTheWalk : Obligations.AskAnswersEndOrMoveTheWalk := by
  refine ⟨fun s p => ⟨State.passPort_elsewhere, fun w hw hp => State.passPort_here hw hp⟩,
    fun s i ports => ⟨fun e he hnone => ?_, fun x p y hsplit hx hp => ?_⟩, fun s p msg => ?_⟩
  · refine ⟨_, Answer.placed_take .empty _ _ e.buffer, ?_⟩
    rw [State.walkOn_none i hnone, State.endAsk_eq he]
    rfl
  · rw [hsplit, State.walkOn_first i y hx hp]
    rfl
  · refine ⟨fun w e number code hporst hparse hcode hw hp hn he => ?_,
      fun w number code hporst hparse hw hp hn => ?_, fun w hporst hw => ?_, fun h => ?_,
      exec_targetCode_discarded, exec_targetPass_discarded⟩
    · refine ⟨_, Answer.placed_take (.portCode p code) _ _ e.buffer, ?_⟩
      have hno : ¬ (s.lines.porst = true ∨ code = 0) := not_or.2 ⟨by simp [hporst], hcode⟩
      simp only [exec, execTargetCode, hparse, State.walkAt_eq hw hp hn, if_neg hno]
      exact congrArg (fun t : State => Host.Outcome.next t.settle) (State.endAsk_eq
        (s := { s with attention := { s.attention with walk := none } }) he (.portCode p code))
    · simp only [exec, execTargetPass, hparse, State.walkAt_eq hw hp hn, hporst, State.passPort_here hw hp]
      rfl
    · simp only [exec, execAskTimerExpiry, hw, hporst, State.passPort_here hw rfl]
      rfl
    · simp only [exec, execAskTimerExpiry]
      obtain hporst | hnone := h
      · cases s.attention.walk with
        | none => rfl
        | some w => exact if_pos hporst
      · rw [hnone]

/-! ## The oldest ask is taken -/

/-- As many takes as asks wait are enough (R143). -/
theorem State.takeAsksUpTo_succ (n : Nat) {s : State} (E : s.EntriesOk) (h : s.asks.length ≤ n) :
    s.takeAsksUpTo (n + 1) = s.takeAsksUpTo n := by
  induction n generalizing s with
  | zero =>
    have hnone : s.asks = [] := List.length_eq_zero_iff.1 (Nat.le_zero.1 h)
    rw [State.takeAsksUpTo_of_none (.inr hnone), State.takeAsksUpTo]
  | succ n ih =>
    by_cases hw : s.attention.walk.isSome = true ∨ s.asks = []
    · rw [State.takeAsksUpTo_of_none hw, State.takeAsksUpTo_of_none hw]
    rw [State.takeAsksUpTo, State.takeAsksUpTo]
    split
    · rfl
    · cases hl : s.asks with
      | nil => rfl
      | cons ie rest =>
        obtain ⟨i, e⟩ := ie
        dsimp only
        have hserved := State.inService_of_asks E (hl ▸ List.mem_cons_self)
        obtain hended | ⟨p, hsend⟩ := State.takeAsk_cases hserved
        · refine ih ((s.takeAsk_acts i).entriesOk E) ?_
          rw [hl, List.length_cons] at h
          rw [hended.asks, hl, without_cons_self]
          exact (List.length_filter_le _ _).trans (Nat.le_of_succ_le_succ h)
        · rw [hsend, State.takeAsksUpTo_of_none (.inl rfl), State.takeAsksUpTo_of_none (.inl rfl)]

/-- With no guarded write due and no walk the oldest ask is taken, and the event closes from there (R143). -/
theorem State.settle_takeAsk {s : State} (T : s.TableOk) (E : s.EntriesOk) (hr : s.resetDue = false)
    (hdue : s.Undue) (hwalk : s.attention.walk = none) {i : EntryNo} {e : Entry}
    {rest : List (EntryNo × Entry)} (hl : s.asks = (i, e) :: rest) : s.settle = (s.takeAsk i).settle := by
  have hserved := State.inService_of_asks E (hl ▸ List.mem_cons_self)
  have hundue : (s.takeAsk i).Undue := by
    obtain hended | ⟨p, hsend⟩ := State.takeAsk_cases hserved
    · exact hended.undue hserved hdue
    · rw [hsend]; exact State.sendAsk_undue hdue i p
  have htake : s.takeAsks = (s.takeAsk i).takeAsks := by
    have hone : s.takeAsks = (s.takeAsk i).takeAsksUpTo 23 := by
      simp [State.takeAsks, State.takeAsksUpTo, hr, hwalk, hl]
    rw [hone, State.takeAsks]
    obtain hended | ⟨p, hsend⟩ := State.takeAsk_cases hserved
    · refine (State.takeAsksUpTo_succ 23 ((s.takeAsk_acts i).entriesOk E) ?_).symm
      have hlength : s.asks.length ≤ 24 := State.kind_length_le T Entry.isAsk
      rw [hl, List.length_cons] at hlength
      rw [hended.asks, hl, without_cons_self]
      exact (List.length_filter_le _ _).trans (Nat.le_of_succ_le_succ hlength)
    · rw [hsend, State.takeAsksUpTo_of_none (.inl rfl), State.takeAsksUpTo_of_none (.inl rfl)]
  rw [State.settle, State.settle, State.refuseGuarded, State.refuseGuarded, State.refuseUpTo_of_undue hdue,
    State.refuseUpTo_of_undue hundue, htake]

/-- While ATTN_OUT is asserted an evaluation sends no notice (R141, R142). -/
theorem State.evalPending_of_out {s : State} (h : s.attention.out = true) :
    s.evalPending = { s with attention := { s.attention with out := s.pendingCondition } } := by
  rw [State.evalPending_eq]
  simp [h]

/-- An attention unit with a record or an overflow asserts ATTN_OUT (R141). -/
theorem State.OutOk.asserted {s : State} (h : s.OutOk)
    (hp : s.attention.queue ≠ [] ∨ s.attention.overflow = true) : s.attention.out = true := by
  rw [show s.attention.out = s.pendingCondition from h, State.pendingCondition_iff]
  tauto

/-- The state with another attention unit, ATTN_OUT evaluated (R141). -/
def State.withAttention (s : State) (a : Attention) : State :=
  { s with attention := { a with out := State.pendingCondition { s with attention := a } } }

/-- The ask that finds a record is answered with it, and the record leaves the queue (R143). -/
theorem State.takeAsk_record {s : State} (h : s.OutOk) {x : AttnRecord} {queue : List AttnRecord}
    (hq : s.attention.queue = x :: queue) (i : EntryNo) :
    s.takeAsk i = (s.withAttention { s.attention with queue }).endAsk i (.record x) := by
  have hout := h.asserted (.inl (by simp [hq]))
  simp only [State.takeAsk, hq]
  exact congrArg (fun t : State => t.endAsk i (.record x))
    (State.evalPending_of_out (s := { s with attention := { s.attention with queue } }) hout)

/-- The ask that finds the overflow flag alone is answered with it, and the flag is cleared (R143). -/
theorem State.takeAsk_overflow {s : State} (h : s.OutOk) (hq : s.attention.queue = [])
    (ho : s.attention.overflow = true) (i : EntryNo) :
    s.takeAsk i = (s.withAttention { s.attention with overflow := false }).endAsk i .overflow := by
  have hout := h.asserted (.inr ho)
  simp only [State.takeAsk, hq, ho, if_true]
  refine congrArg (fun t : State => t.endAsk i .overflow) ?_
  exact State.evalPending_of_out (by exact hout)

/-- The ask that finds neither walks from T0 (R143, R146). -/
theorem State.takeAsk_walk {s : State} (hq : s.attention.queue = []) (ho : s.attention.overflow = false)
    (i : EntryNo) : s.takeAsk i = s.walkOn i (List.finRange 4) := by
  simp only [State.takeAsk, hq, ho]
  rfl

/-! ## An ask that is the only entry -/

/-- A P read that a block serves and that is the only entry of the table leaves at its end, and the table is empty
again (R47, R53). -/
theorem State.endEntry_alone {s : State} (T : s.TableOk) (h : s.order = []) {i : EntryNo} {e : Entry}
    (hstate : e.state = .serving) (ho : e.origin = .p) (hroute : ∀ p, e.route ≠ some (.port p))
    (hop : e.op = .read) (st : Status) (a : Option Word) (d : Option Detail) :
    (s.give i e).endEntry i st a d = { s with
      freshCount := s.freshCount + 1
      pSent := if s.lines.pLink = true then
          s.pSent ++ [.response (e.ended st a d).response] else s.pSent } := by
  have hlist : (s.give i e).pList = [(i, e)] := by
    rw [State.pList_eq, State.kind_give_of_empty h, if_pos (by simp [ho])]
  have hleaving : (endIn i (e.ended st a d) (s.give i e).pList).takeWhile leavesAtHead =
      [(i, e.ended st a d)] := by
    simp [hlist, endIn, leavesAtHead, Entry.isCardReset, Entry.ended, hop]
  obtain ⟨hframe, hentries⟩ := State.endEntry_p (State.give_tableOk T h i e) (by simp) ho
    ⟨by simp [hstate], by simp [hstate]⟩ st a d hleaving
  have hhold : (s.give i e).holdAtEnd i e st = s.give i e :=
    State.holdAtEnd_unheld _ i e st fun p hp => absurd hp (hroute p)
  have hsame : ((s.give i e).endEntry i st a d).entries = s.entries := by
    ext1 j hj
    refine (hentries ⟨j, hj⟩).trans ?_
    by_cases hji : (⟨j, hj⟩ : EntryNo) = i
    · rw [if_pos (by simp [hji])]
      exact (State.entries_of_empty T h ⟨j, hj⟩).symm
    · rw [if_neg (by simpa using hji), if_neg hji]
      exact (State.give_entry s i ⟨j, hj⟩ e).trans (if_neg (Ne.symm hji))
  rw [hframe, hhold, hsame]
  simp [State.give, h]

end Sys2Proof.Machine
end

section
/-!
PROOFS. An ask from its acceptance to its answer or to its walk (R143, R145, R146).
-/

namespace Sys2Proof.Machine

/-- An accepted ask reads 16 bytes (R5). -/
theorem Request.of_attn {s : State} {l : Link} {o : Origin} {r : Request} (h : s.refusal l o r = none)
    (hs : r.space = some .attn) : r.op = .read ∧ r.length.toNat = 16 := by
  have hform : Request.formCheck l r = none := by
    unfold State.refusal at h
    split at h
    · cases h
    · assumption
  unfold Request.formCheck at hform
  by_contra hshape
  have hno : ¬ (r.op = .read ∧ r.length.toNat = 16 ∧ r.address = 0) := fun ⟨hop, hn, _⟩ => hshape ⟨hop, hn⟩
  simp only [hs, hno, not_false_eq_true, and_true, if_true] at hform
  split_ifs at hform

/-- The entry of an accepted ask. -/
def State.askEntry (s : State) (r : Request) : Entry :=
  { s.acceptedEntry .p r with route := some .attn }

/-- An accepted ask is given the lowest FREE entry and is served by the attention unit (R10, R48, R143). -/
theorem exec_ask {s : State} {msg : List Byte} {r : Request} {i : EntryNo} (h : s.Admits .p msg r)
    (hs : r.space = some .attn) (hn : r.node = 0 ∨ r.node = s.setup.straps.slot)
    (hi : s.lowestFree = some i) :
    exec (.requestOnPLink msg) s = .next (s.give i (s.askEntry r)).settle := by
  have hrouted : s.routed .p .attn r = .attn := if_pos hn
  refine (exec_request (l := .p) h hs).trans ?_
  rw [hrouted, State.acceptEntry_attn hi]
  rfl

/-! ## The only entry -/

/-- In an empty table the ask that is accepted is the only entry. -/
theorem State.kind_give_ask {s : State} (h : s.order = []) (r : Request) :
    (s.give 0 (s.askEntry r)).asks = [(0, s.askEntry r)] ∧
      (s.give 0 (s.askEntry r)).pList = [(0, s.askEntry r)] ∧
      (s.give 0 (s.askEntry r)).mgmtQueue = [] := by
  rw [State.asks_eq, State.pList_eq, State.mgmtQueue_eq, State.kind_give_of_empty h,
    State.kind_give_of_empty h, State.kind_give_of_empty h]
  exact ⟨rfl, rfl, rfl⟩

theorem State.give_ask_resetDue {s : State} (h : s.order = []) (r : Request) :
    (s.give 0 (s.askEntry r)).resetDue = false := by
  have hstate : (s.askEntry r).state = .serving := rfl
  simp [State.resetDue, (State.kind_give_ask h r).2.1, hstate]

theorem State.give_ask_undue {s : State} (T : s.TableOk) (h : s.order = []) (r : Request) :
    (s.give 0 (s.askEntry r)).Undue := by
  have hroute : (s.askEntry r).route = some .attn := rfl
  intro j g hg
  obtain ⟨_, hg⟩ := State.mem_table.1 hg
  rw [State.give_entry, State.entries_of_empty T h j] at hg
  split at hg
  · cases hg
    simp [State.guardDue, hroute]
  · cases hg

/-- The ask that an empty table is given is taken at the close of its event (R143). -/
theorem State.settle_ask {s : State} (T : s.TableOk) (h : s.order = []) (hwalk : s.attention.walk = none)
    (r : Request) : (s.give 0 (s.askEntry r)).settle = ((s.give 0 (s.askEntry r)).takeAsk 0).settle := by
  have hOk : (s.askEntry r).Ok := Entry.Unrouted.ok ⟨rfl, rfl, rfl, rfl, rfl⟩
  exact State.settle_takeAsk (State.give_tableOk T h 0 _) (State.give_entriesOk T h 0 hOk)
    (State.give_ask_resetDue h r) (State.give_ask_undue T h r) hwalk (State.kind_give_ask h r).1

/-- The only ask is answered: its response carries the answer record, and the table is empty again (R53, R143,
R145). -/
theorem State.endAsk_alone {s : State} (T : s.TableOk) (h : s.order = []) {r : Request} {e : Entry}
    (ho : e.origin = .p) (hstate : e.state = .serving) (hroute : e.route = some .attn) (hop : e.op = .read)
    (htag : e.tag = some r.tag) (hlength : e.length = 16) (x : Answer) :
    (s.give 0 e).endAsk 0 x = { s with
      freshCount := s.freshCount + 1
      pSent := if s.lines.pLink = true then
          s.pSent ++ [.response { tag := r.tag, status := .ok
                                  data := some (x.bytes s.attention.queue.length s.attention.overflow)
                                  faultAddress := none, detail := none }]
        else s.pSent } := by
  let b := placeBytes e.buffer 0 (x.bytes s.attention.queue.length s.attention.overflow)
  have hset : (s.give 0 e).setBuffer 0 e b = s.give 0 { e with buffer := b } := by
    simp [State.setBuffer, State.give]
  have hend := State.endEntry_alone T h (i := 0) (e := { e with buffer := b }) hstate ho
    (fun p hp => by rw [hroute] at hp; cases hp) hop .ok none none
  rw [State.endAsk_eq (by simp : (s.give 0 e).entries[(0 : EntryNo)] = some e)]
  refine (congrArg (fun t : State => t.endEntry 0 .ok none none) hset).trans (hend.trans ?_)
  rw [Entry.ended_response, hop, htag, hlength, x.placed_take]
  rfl

/-- The walk of the only ask waits at the first port that it wants, and nothing else follows in the event (R146). -/
theorem State.settle_sendAsk {s : State} (T : s.TableOk) (h : s.order = []) (r : Request) (p : PortNo) :
    ((s.give 0 (s.askEntry r)).sendAsk 0 p).settle = (s.give 0 (s.askEntry r)).sendAsk 0 p := by
  obtain ⟨_, _, hreads⟩ := State.kind_give_ask h r
  have hcalm : ((s.give 0 (s.askEntry r)).sendAsk 0 p).Calm :=
    { guard := State.sendAsk_undue (State.give_ask_undue T h r) 0 p
      reads := fun i e rest hl => by
        have hempty : ((s.give 0 (s.askEntry r)).sendAsk 0 p).mgmtQueue = [] := hreads
        rw [hempty] at hl
        cases hl
      asks := .inl rfl
      reset := State.give_ask_resetDue h r }
  exact hcalm.settle

/-- The first port that is wanted is sent the ASK of a walk from T0 (R143, R146). -/
theorem State.walkOn_lowest {s : State} (i : EntryNo) {p : PortNo} (hp : s.Wants p)
    (hlow : ∀ q, q < p → ¬ s.Wants q) : s.walkOn i (List.finRange 4) = s.sendAsk i p := by
  classical
  have hfind : (List.finRange 4).find? (fun q => decide (s.Wants q)) = some p :=
    find?_finRange_eq_some.2 ⟨decide_eq_true hp, fun q hq => decide_eq_false (hlow q hq)⟩
  obtain ⟨_, x, y, hsplit, hx⟩ := List.find?_eq_some_iff_append.1 hfind
  rw [hsplit]
  exact State.walkOn_first i y (fun q hq => by simpa using hx q hq) hp

/-- Settles O52: acceptance by `exec_ask`, the take of the oldest ask by `settle_takeAsk`, and the answer of an ask that
is the only entry by `endAsk_alone`. -/
theorem askIsAnsweredOrWalks : Obligations.AskIsAnsweredOrWalks := by
  refine ⟨fun s msg r i h hs hi => ?_, fun s i e rest T E hout hr hdue hwalk hl => ?_,
    fun s msg r hrun T hout horder hwalk hparse hr hs hn => ?_⟩
  · obtain ⟨hadmits, hnode⟩ := h
    exact ⟨_, exec_ask hadmits hs (by tauto) hi⟩
  · have hsettle := State.settle_takeAsk T E hr hdue hwalk hl
    have he : s.entries[i] = some e := (State.inService_of_asks E (hl ▸ List.mem_cons_self)).entry
    intro ends
    refine ⟨fun x queue hq => ?_, fun hq ho => ?_, fun hq ho => ?_⟩
    · refine ⟨_, Answer.placed_take (.record x) _ _ e.buffer, ?_⟩
      rw [hsettle, State.takeAsk_record hout hq]
      exact congrArg State.settle (State.endAsk_eq (by exact he) _)
    · refine ⟨_, Answer.placed_take .overflow _ _ e.buffer, ?_⟩
      rw [hsettle, State.takeAsk_overflow hout hq ho]
      refine congrArg State.settle ((State.endAsk_eq (by exact he) _).trans ?_)
      simp only [State.withAttention, State.setBuffer, hq]
      rfl
    · rw [hsettle, State.takeAsk_walk hq ho]
  · have hexec := (exec_ask ⟨hparse, hr, hrun⟩ hs hn (State.lowestFree_of_empty T horder)).trans
      (congrArg Host.Outcome.next (State.settle_ask T horder hwalk r))
    obtain ⟨hop, hlength⟩ := Request.of_attn hr hs
    intro wants answered
    have alone {v : State} (Tv : v.TableOk) (hv : v.order = []) (x : Answer)
        (htake : (s.give 0 (s.askEntry r)).takeAsk 0 = (v.give 0 (s.askEntry r)).endAsk 0 x) :
        exec (.requestOnPLink msg) s = .next { v with
          freshCount := v.freshCount + 1
          pSent := if v.lines.pLink = true then
              v.pSent ++ [.response { tag := r.tag, status := .ok
                                      data := some (x.bytes v.attention.queue.length v.attention.overflow)
                                      faultAddress := none, detail := none }]
            else v.pSent } := by
      rw [hexec, htake, State.endAsk_alone Tv hv rfl rfl rfl hop rfl hlength x]
      exact congrArg Host.Outcome.next (State.settle_of_empty (by exact hv))
    refine ⟨fun x queue hq => ?_, fun hq ho => ?_, fun hq ho hnone => ?_, fun p hq ho hp hlow => ?_⟩
    · exact alone (v := s.withAttention { s.attention with queue }) T horder (.record x)
        (State.takeAsk_record (s := s.give 0 (s.askEntry r)) hout hq 0)
    · have hempty := alone (v := s.withAttention { s.attention with overflow := false }) T horder .overflow
        (State.takeAsk_overflow (s := s.give 0 (s.askEntry r)) hout hq ho 0)
      have hbytes : Answer.bytes .overflow
          (s.withAttention { s.attention with overflow := false }).attention.queue.length false =
          Answer.bytes .overflow 0 false := by
        simp only [State.withAttention, hq, List.length_nil]
      rw [← hbytes]
      exact hempty
    · have hempty := alone T horder .empty ((State.takeAsk_walk (s := s.give 0 (s.askEntry r)) hq ho 0).trans
        (State.walkOn_none 0 fun p _ => hnone p))
      rw [hq, ho] at hempty
      exact hempty
    · refine ⟨s.askEntry r, rfl, rfl, rfl, rfl, hop, hlength, hexec.trans (congrArg Host.Outcome.next ?_)⟩
      rw [State.takeAsk_walk (s := s.give 0 (s.askEntry r)) hq ho,
        State.walkOn_lowest (s := s.give 0 (s.askEntry r)) 0 hp hlow, State.settle_sendAsk T horder]
      simp only [State.sendAsk, State.give, horder]
      rfl

end Sys2Proof.Machine
end

section
/-!
PROOFS. The release of PORST and the power-on reset (R19, R25, R65, R68, R71, R94, R106, R128, R149, R154, R155).
-/

namespace Sys2Proof.Machine

/-! ## The release of PORST -/

theorem State.linkUpAt_frame (s : State) (p : PortNo) :
    s.linkUpAt p = { s with ports := (s.linkUpAt p).ports } := by
  unfold State.linkUpAt
  split <;> rfl

/-- The link-up events at the release write ports alone (R68). -/
theorem State.linkUpsAtRelease_frame (s : State) (l : List PortNo) :
    s.linkUpsAtRelease l = { s with ports := (s.linkUpsAtRelease l).ports } := by
  induction l generalizing s with
  | nil => rfl
  | cons p l ih =>
    rw [State.linkUpsAtRelease]
    split
    · rw [ih, s.linkUpAt_frame p]
    · exact ih s

/-- A port after a link-up event: from ABSENT it is ONLINE, with no-answer count 0 and no hold (R71). -/
def Port.linkedUp (port : Port) : Port :=
  if port.state = .absent then { port with state := .online, noAnswer := 0, hold := none } else port

theorem Port.linkedUp_linkedUp (port : Port) :
    Port.linkedUp (Port.linkedUp port) = Port.linkedUp port := by
  unfold Port.linkedUp
  by_cases h : port.state = .absent
  · simp [h]
  · simp [h]

/-- A link-up event changes its own port alone (R71). -/
theorem State.linkUpAt_port (s : State) (p q : PortNo) : (s.linkUpAt p).ports[q] =
    if p = q then Port.linkedUp s.ports[q] else s.ports[q] := by
  by_cases ha : s.ports[p].state = .absent
  · rw [State.linkUpAt, if_pos ha, State.modPort_port]
    by_cases hpq : p = q
    · subst hpq
      rw [if_pos rfl, if_pos rfl, Port.linkedUp, if_pos ha]
    · rw [if_neg hpq, if_neg hpq]
  · rw [State.linkUpAt, if_neg ha]
    by_cases hpq : p = q
    · subst hpq
      rw [if_pos rfl, Port.linkedUp, if_neg ha]
    · rw [if_neg hpq]

/-- A port of the list whose link is up takes a link-up event (R68). -/
theorem State.linkUpsAtRelease_port (s : State) (l : List PortNo) (q : PortNo) :
    (s.linkUpsAtRelease l).ports[q] =
      if q ∈ l ∧ s.lines.tLink[q] = true then Port.linkedUp s.ports[q] else s.ports[q] := by
  induction l generalizing s with
  | nil => rw [if_neg (by simp)]; rfl
  | cons p l ih =>
    rw [State.linkUpsAtRelease]
    by_cases hlink : s.lines.tLink[p] = true
    · have hlines : (s.linkUpAt p).lines = s.lines := by rw [s.linkUpAt_frame p]
      rw [if_pos hlink, ih, hlines, s.linkUpAt_port p q]
      by_cases hpq : p = q
      · subst hpq
        rw [if_pos rfl, Port.linkedUp_linkedUp, ite_self, if_pos ⟨List.mem_cons_self, hlink⟩]
      · simp only [if_neg hpq, List.mem_cons, Ne.symm hpq, false_or]
    · rw [if_neg hlink, ih]
      by_cases hpq : p = q
      · subst hpq
        rw [if_neg (mt And.right hlink), if_neg (mt And.right hlink)]
      · simp only [List.mem_cons, Ne.symm hpq, false_or]

/-- Every port whose link is up takes a link-up event (R68). -/
theorem State.linkUpsAtRelease_all (s : State) (q : PortNo) :
    (s.linkUpsAtRelease (List.finRange 4)).ports[q] =
      if s.lines.tLink[q] = true ∧ s.ports[q].state = .absent then
        { s.ports[q] with state := .online, noAnswer := 0, hold := none } else s.ports[q] := by
  rw [State.linkUpsAtRelease_port, Port.linkedUp]
  by_cases hlink : s.lines.tLink[q] = true
  · simp only [List.mem_finRange, hlink, and_self, if_true, true_and]
  · rw [if_neg (mt And.right hlink), if_neg (mt And.left hlink)]

/-- The link-up event of the B port on a rack member in DOWN (R19). -/
theorem State.bLinkUpEvent_of_down {s : State} (hslot : s.setup.straps.slot ≠ 0) (hb : s.bLinkUp = false) :
    s.bLinkUpEvent = State.raise { s with bLinkUp := true } .backplane .blinkUp none :=
  if_pos ⟨hslot, by simp [hb]⟩

theorem State.bLinkUpEvent_idle {s : State} (h : s.setup.straps.slot = 0 ∨ s.bLinkUp = true) :
    s.bLinkUpEvent = s := by
  refine if_neg ?_
  rintro ⟨hslot, hb⟩
  obtain h | h := h
  · exact hslot h
  · simp [h] at hb

/-- Settles O4: the link-up events write ports, the link-up event of the B port the B link state and the attention
unit. -/
theorem porstReleaseTakesLinkUps : Obligations.PorstReleaseTakesLinkUps := by
  refine ⟨fun s h => if_neg (by simp [h]), fun s h => ?_⟩
  let u : State := State.linkUpsAtRelease { s.modLines fun l => { l with porst := false } with
    guard := if s.lines.palert then .guarded else .opened } (List.finRange 4)
  have hports (p : PortNo) : u.ports[p] = if s.lines.tLink[p] = true ∧ s.ports[p].state = .absent then
      { s.ports[p] with state := .online, noAnswer := 0, hold := none } else s.ports[p] :=
    State.linkUpsAtRelease_all _ p
  have hexec : exec .porstRelease s = .next (if u.lines.bLink then u.bLinkUpEvent else u) := if_pos h
  obtain ⟨ports, hu⟩ : ∃ ports, u = { s with
      lines := { s.lines with porst := false }, ports
      guard := if s.lines.palert then .guarded else .opened } := ⟨_, State.linkUpsAtRelease_frame _ _⟩
  rw [hu] at hports hexec
  by_cases hup : s.lines.bLink = true ∧ s.setup.straps.slot ≠ 0 ∧ s.bLinkUp = false
  · obtain ⟨hb, hslot, hdown⟩ := hup
    refine ⟨_, hexec.trans (congrArg Host.Outcome.next
      ((if_pos hb).trans (State.bLinkUpEvent_of_down hslot hdown))), rfl, rfl, hports, ?_,
      fun _ _ _ => ⟨rfl, rfl⟩, fun hno => ?_, rfl, rfl, rfl, rfl, rfl, rfl, rfl, rfl⟩
    · rw [hdown, hb, decide_eq_true hslot]
      rfl
    · obtain hno | hno | hno := hno
      · rw [hb] at hno; cases hno
      · exact absurd hno hslot
      · rw [hdown] at hno; cases hno
  · have hidle : s.lines.bLink = false ∨ s.setup.straps.slot = 0 ∨ s.bLinkUp = true := by
      by_contra hno
      simp only [not_or, Bool.not_eq_false, Bool.not_eq_true] at hno
      exact hup hno
    refine ⟨_, hexec.trans (congrArg Host.Outcome.next ?_), rfl, rfl, hports, ?_,
      fun hb hslot hdown => absurd ⟨hb, hslot, hdown⟩ hup, fun _ => ⟨rfl, rfl⟩,
      rfl, rfl, rfl, rfl, rfl, rfl, rfl, rfl⟩
    · obtain hb | hno := hidle
      · exact if_neg (by simp [hb])
      · rw [State.bLinkUpEvent_idle (by exact hno), ite_self]
    · obtain hb | hslot | hdown := hidle
      · simp [hb]
      · rw [decide_eq_false (not_not.2 hslot), Bool.and_false, Bool.or_false]
      · simp [hdown]

/-! ## The power-on reset -/

/-- The state that a power-on reset leaves: the defaults, with PORST asserted. -/
def State.poweredOn (s : State) (x : Straps) : State :=
  (s.withDefaults x).modLines fun l => { l with porst := true }

/-- The configuration of a port after power-on reset, the width of the boot port by its strap (R68). -/
theorem State.poweredOn_portConfig (s : State) (x : Straps) (p : PortNo) :
    (s.poweredOn x).setup.portConfig[p] =
      PortConfig.atPowerOn (if p = x.bootp.toFin then Width.ofBootw x.bootw else .four) := by
  have hset : (s.poweredOn x).setup.portConfig[p] =
      ((Vector.replicate 4 (PortConfig.atPowerOn .four)).set x.bootp.toFin
        (PortConfig.atPowerOn (Width.ofBootw x.bootw)))[p.val] := rfl
  rw [hset, Vector.getElem_set]
  by_cases hp : p = x.bootp.toFin
  · rw [if_pos hp, if_pos (congrArg Fin.val hp.symm)]
  · rw [if_neg hp, if_neg fun h => hp (Fin.ext h.symm), Vector.getElem_replicate]

/-- The words of a port's configuration after power-on reset (R68, R164). -/
theorem PortConfig.atPowerOn_word (w : Width) :
    (PortConfig.atPowerOn w).word 0 =
        (match w with | .one => 0x00008311 | .two => 0x00008312 | .four => 0x00008314) ∧
      (PortConfig.atPowerOn w).word 1 = 0x00000064 ∧ (PortConfig.atPowerOn w).word 2 = 0x0000000A := by
  cases w <;> exact ⟨rfl, rfl, rfl⟩

theorem Width.ofBootw_word (bootw : BitVec 2) : (PortConfig.atPowerOn (Width.ofBootw bootw)).word 0 =
    if bootw = 0 then 0x00008311 else if bootw = 1 then 0x00008312 else 0x00008314 := by
  unfold Width.ofBootw
  split
  · exact (PortConfig.atPowerOn_word .one).1
  · split
    · exact (PortConfig.atPowerOn_word .two).1
    · exact (PortConfig.atPowerOn_word .four).1

/-- The entries of the live table after power-on reset: the boot window, and invalid ones (R25). -/
theorem State.poweredOn_live (s : State) (x : Straps) (i : Fin 32) :
    (s.poweredOn x).setup.live[i] = if i = 0 then Window.boot x.bootp else Window.empty := by
  have hset : (s.poweredOn x).setup.live[i] =
      ((Vector.replicate 32 Window.empty).set 0 (Window.boot x.bootp))[i.val] := rfl
  rw [hset, Vector.getElem_set, Vector.getElem_replicate]
  exact if_congr ⟨fun h => Fin.ext h.symm, fun h => by rw [h]; rfl⟩ rfl rfl

theorem Window.empty_words (k : Fin 4) : Window.empty.words[k] = 0 := by
  revert k; decide

/-- The words of the boot window (R25, section 9.5). -/
theorem Window.boot_words (bootp : BitVec 2) :
    (Window.boot bootp).words[(0 : Fin 4)] = 0x80000000 ∧ (Window.boot bootp).words[(1 : Fin 4)] = 0x000000FF ∧
      (Window.boot bootp).words[(2 : Fin 4)] = BitVec.ofNat 32 (bootp.toNat * 2 ^ 28) ∧
      (Window.boot bootp).words[(3 : Fin 4)] = 0x00000002 := by
  revert bootp
  decide

/-- The staging table after power-on reset holds the words that the live table reads as (R25). -/
theorem State.poweredOn_staging (s : State) (x : Straps) (i : Fin 32) (k : Fin 4) :
    (s.poweredOn x).setup.staging[i][k] =
      if i = 0 then (Window.boot x.bootp).words[k] else 0 := by
  have hset : (s.poweredOn x).setup.staging[i] = ((Vector.replicate 32 (Vector.replicate 4 0#32)).set 0
      #v[0x80000000#32, 0x000000FF#32, (x.bootp.setWidth 32) <<< 28, 0x00000002#32])[i.val] := rfl
  rw [hset, Vector.getElem_set]
  by_cases hi : i = 0
  · subst hi
    rw [if_pos (show 0 = (0 : Fin 32).val from rfl), if_pos (show (0 : Fin 32) = 0 from rfl)]
    generalize x.bootp = bootp
    revert bootp k
    decide
  · rw [if_neg fun h => hi (Fin.ext h.symm), if_neg hi, Vector.getElem_replicate]
    simp

/-- Settles O3: the defaults as `withDefaults` sets them, and the words that the management space then reads. -/
theorem powerOnResetSetsDefaults : Obligations.PowerOnResetSetsDefaults := by
  refine ⟨fun s slot bootp bootw => ⟨s.poweredOn { slot, bootp, bootw }, rfl, rfl, rfl, fun i => ?_, rfl,
    fun p => ?_, fun h => ?_, rfl, fun c => ?_, rfl, rfl, rfl, rfl, rfl, rfl⟩,
    fun s slot bootp bootw => ⟨s.poweredOn { slot, bootp, bootw }, rfl, ?_⟩⟩
  · simp [State.poweredOn, State.modLines, State.withDefaults]
  · simp [State.poweredOn, State.modLines, State.withDefaults, Port.atPowerOn]
  · simp [State.poweredOn, State.modLines, State.withDefaults, State.note]
  · simp [State.poweredOn, State.modLines, State.withDefaults, Channel.atReset, Descriptor.zero]
  · let t := s.poweredOn { slot, bootp, bootw }
    have hport (p : PortNo) (k : Fin 3) : t.readObject (.portConfig p k) =
        some ((PortConfig.atPowerOn (if p = bootp.toFin then Width.ofBootw bootw else .four)).word k) :=
      congrArg (fun c : PortConfig => some (c.word k)) (s.poweredOn_portConfig _ p)
    have hlive (i : Fin 32) (k : Fin 4) : t.readObject (.live i k) =
        some (if i = 0 then Window.boot bootp else Window.empty).words[k] :=
      congrArg (fun w : Window => some w.words[k]) (s.poweredOn_live _ i)
    have hstaging (i : Fin 32) (k : Fin 4) : t.readObject (.staging i k) =
        some (if i = 0 then (Window.boot bootp).words[k] else 0) :=
      congrArg some (s.poweredOn_staging _ i k)
    obtain ⟨h0, h1, h2, h3⟩ := Window.boot_words bootp
    have htimers : Settings.atPowerOn.timersWord = 0x00001432 := by decide
    have henables : Settings.atPowerOn.enablesWord = 0x000001FF := by decide
    refine ⟨rfl, ?_, rfl, rfl, congrArg some htimers, rfl, congrArg some henables, rfl,
      fun p hp => ?_, ?_, fun p => ⟨?_, ?_⟩, fun i k hi => ⟨?_, ?_⟩, fun k => ?_, ?_, ?_, ?_, ?_⟩
    · refine (State.identity1_readsAs t).trans ?_
      congr 2
    · rw [hport, if_neg hp, (PortConfig.atPowerOn_word .four).1]
    · rw [hport, if_pos rfl, Width.ofBootw_word]
    · rw [hport, (PortConfig.atPowerOn_word _).2.1]
    · rw [hport, (PortConfig.atPowerOn_word _).2.2]
    · rw [hstaging, if_neg hi]
    · rw [hlive, if_neg hi, Window.empty_words]
    · rw [hstaging, hlive, if_pos rfl, if_pos rfl]
    · rw [hlive, if_pos rfl, h0]
    · rw [hlive, if_pos rfl, h1]
    · rw [hlive, if_pos rfl, h2]
    · rw [hlive, if_pos rfl, h3]

end Sys2Proof.Machine
end

section
/-!
PROOFS. The layouts: the words and messages spelled from fields, and the fields read from words and messages (R16, R17,
R24, R107, R145, R160 to R165, section 9.5).
-/

namespace Sys2Proof.Machine

/-! ## Fields of a word -/

theorem extractLsb'_toNat_eq {m : Nat} (w : BitVec m) (i n : Nat) :
    (w.extractLsb' i n).toNat = w.toNat / 2 ^ i % 2 ^ n := by
  simp [BitVec.extractLsb'_toNat, Nat.shiftRight_eq_div_pow]

/-- A field of a word is the bits that stand there. -/
theorem extractLsb'_eq_of_toNat {m n i : Nat} {w : BitVec m} {x : BitVec n}
    (h : w.toNat / 2 ^ i % 2 ^ n = x.toNat) : w.extractLsb' i n = x :=
  BitVec.eq_of_toNat_eq ((extractLsb'_toNat_eq w i n).trans h)

theorem extractLsb'_eq_iff {m n : Nat} (w : BitVec m) (i : Nat) (x : BitVec n) :
    w.extractLsb' i n = x ↔ w.toNat / 2 ^ i % 2 ^ n = x.toNat := by
  rw [← extractLsb'_toNat_eq, BitVec.toNat_inj]

theorem getLsbD_eq_of_toNat {m k : Nat} {w : BitVec m} {b : Bool} (h : w.toNat / 2 ^ k % 2 = b.toNat) :
    w.getLsbD k = b := by
  rw [getLsbD_eq_decide, h]
  cases b <;> rfl

/-! ## Words and bytes -/

theorem wordBytes_eq (w : Word) :
    wordBytes w = (List.range 4).map fun k => BitVec.ofNat 8 (w.toNat / 256 ^ k) := by
  simp only [wordBytes, extractLsb'_eq_ofNat, ofNat_mod_two_pow]
  rfl

theorem wordOf_toNat (b0 b1 b2 b3 : Byte) : (wordOf b0 b1 b2 b3).toNat =
    b0.toNat + 2 ^ 8 * b1.toNat + 2 ^ 16 * b2.toNat + 2 ^ 24 * b3.toNat := by
  simp only [wordOf, toNat_append_eq_add]
  omega

/-- The word of four bytes that a list holds. -/
theorem wordAt_eq {l : List Byte} {i : Nat} {w : Word}
    (h : ∀ k : Fin 4, l.getD (i + k.val) 0 = (wordBytes w).getD k.val 0) : wordAt l i = w := by
  have h0 := h 0
  have h1 := h 1
  have h2 := h 2
  have h3 := h 3
  exact (congr (congr (congr (congrArg wordOf h0) h1) h2) h3).trans (wordOf_parts w)

/-- A management write's word is what its first four bytes spell (R160). -/
theorem Entry.word_of_begins {e : Entry} {w : Word} (h : begins e.buffer (wordBytes w)) : e.word = w := by
  refine wordAt_eq fun k => ?_
  have hk := h ⟨k.val, by omega⟩ (by have := k.isLt; rw [wordBytes_length]; exact this)
  simp only [Fin.getElem_fin] at hk
  have hlt : k.val < 64 := by omega
  simp only [Nat.zero_add, List.getD_eq_getElem?_getD, hk]
  simp [hlt]

/-- The descriptor that the bytes of four words hold is that of the words (R112, R163). -/
theorem Descriptor.ofBytes_words (w0 w1 w2 w3 : Word) :
    Descriptor.ofBytes (wordBytes w0 ++ wordBytes w1 ++ wordBytes w2 ++ wordBytes w3) =
      Descriptor.ofWords w0 w1 w2 w3 := by
  have h0 : wordAt (wordBytes w0 ++ wordBytes w1 ++ wordBytes w2 ++ wordBytes w3) 0 = w0 := wordOf_parts w0
  have h1 : wordAt (wordBytes w0 ++ wordBytes w1 ++ wordBytes w2 ++ wordBytes w3) 4 = w1 := wordOf_parts w1
  have h2 : wordAt (wordBytes w0 ++ wordBytes w1 ++ wordBytes w2 ++ wordBytes w3) 8 = w2 := wordOf_parts w2
  have h3 : wordAt (wordBytes w0 ++ wordBytes w1 ++ wordBytes w2 ++ wordBytes w3) 12 = w3 := wordOf_parts w3
  rw [Descriptor.ofBytes, h0, h1, h2, h3]

/-! ## Codes -/

theorem Space.ofCode_code (x : Option Space) : Space.ofCode (Space.code x) = x := by
  cases x with
  | none => rfl
  | some x => cases x <;> rfl

theorem Op.ofCode_code (x : Op) : Op.ofCode (Op.code x) = x := by
  cases x <;> rfl

theorem Status.ofCode_code (x : Status) : Status.ofCode (Status.code x) = some x := by
  cases x <;> rfl

theorem Rights.ofCode_code (x : Rights) : Rights.ofCode x.code = x := by
  cases x <;> rfl

theorem UnitSize.ofCode_code (x : UnitSize) : UnitSize.ofCode x.code = x := by
  cases x <;> rfl

/-! ## Windows and descriptors -/

/-- The words that a live entry reads as hold its fields (R162). -/
theorem Window.ofWords_words (w : Window) : Window.ofWords w.words = w := by
  obtain ⟨h0, h1, h2, h3⟩ := w.words_toNat
  have hbase := w.base.isLt
  have hlimit := w.limit.isLt
  have htarget := w.targetPage.isLt
  have hport := w.port.isLt
  have hlocal := w.localRights.code.isLt
  have hremote := w.remoteRights.code.isLt
  have hvalid := w.valid.toNat_lt
  have hguarded := w.guarded.toNat_lt
  have e1 : w.words[(0 : Fin 4)].getLsbD 31 = w.valid := getLsbD_eq_of_toNat (by omega)
  have e2 : w.words[(0 : Fin 4)].extractLsb' 0 20 = w.base := extractLsb'_eq_of_toNat (by omega)
  have e3 : w.words[(1 : Fin 4)].extractLsb' 0 20 = w.limit := extractLsb'_eq_of_toNat (by omega)
  have e4 : w.words[(2 : Fin 4)].extractLsb' 28 2 = BitVec.ofFin w.port :=
    extractLsb'_eq_of_toNat (by simp only [BitVec.toNat_ofFin]; omega)
  have e5 : w.words[(2 : Fin 4)].extractLsb' 0 20 = w.targetPage := extractLsb'_eq_of_toNat (by omega)
  have e6 : w.words[(3 : Fin 4)].extractLsb' 0 2 = w.localRights.code := extractLsb'_eq_of_toNat (by omega)
  have e7 : w.words[(3 : Fin 4)].extractLsb' 2 2 = w.remoteRights.code := extractLsb'_eq_of_toNat (by omega)
  have e8 : w.words[(3 : Fin 4)].getLsbD 8 = w.guarded := getLsbD_eq_of_toNat (by omega)
  have hwords : Window.ofWords w.words =
      { valid := w.words[(0 : Fin 4)].getLsbD 31, base := w.words[(0 : Fin 4)].extractLsb' 0 20
        limit := w.words[(1 : Fin 4)].extractLsb' 0 20
        port := (w.words[(2 : Fin 4)].extractLsb' 28 2).toFin
        targetPage := w.words[(2 : Fin 4)].extractLsb' 0 20
        localRights := Rights.ofCode (w.words[(3 : Fin 4)].extractLsb' 0 2)
        remoteRights := Rights.ofCode (w.words[(3 : Fin 4)].extractLsb' 2 2)
        guarded := w.words[(3 : Fin 4)].getLsbD 8 } := rfl
  rw [hwords, e1, e2, e3, e4, e5, e6, e7, e8, Rights.ofCode_code, Rights.ofCode_code]

/-- The words of a descriptor hold its fields (R163). -/
theorem Descriptor.ofWords_words (d : Descriptor) :
    Descriptor.ofWords (d.word 0) (d.word 1) (d.word 2) (d.word 3) = d := by
  have hword := d.word_two_toNat
  have hcount := d.count.isLt
  have hunit := d.unit.code.isLt
  have hpace := d.pace.isLt
  have hsource := d.sourceFixed.toNat_lt
  have hdestination := d.destinationFixed.toNat_lt
  have hnotify := d.notify.toNat_lt
  have e1 : (d.word 2).extractLsb' 0 16 = d.count := extractLsb'_eq_of_toNat (by omega)
  have e2 : (d.word 2).extractLsb' 16 2 = d.unit.code := extractLsb'_eq_of_toNat (by omega)
  have e3 : (d.word 2).getLsbD 18 = d.sourceFixed := getLsbD_eq_of_toNat (by omega)
  have e4 : (d.word 2).getLsbD 19 = d.destinationFixed := getLsbD_eq_of_toNat (by omega)
  have e5 : (d.word 2).extractLsb' 20 3 = d.pace := extractLsb'_eq_of_toNat (by omega)
  have e6 : (d.word 2).getLsbD 23 = d.notify := getLsbD_eq_of_toNat (by omega)
  rw [Descriptor.ofWords, e1, e2, e3, e4, e5, e6, UnitSize.ofCode_code]
  rfl

/-- The fields of any four window words, whatever their unnamed bits (R24, R162). -/
theorem Window.ofWords_fields (words : FourWords) :
    let w := Window.ofWords words
    let field (k : Fin 4) (at' width : Nat) : Nat := words[k].toNat / 2 ^ at' % 2 ^ width
    let rights (n : Nat) : Rights :=
      match n with | 0 => .none | 1 => .read | 2 => .readWrite | _ => .noRight
    w.base.toNat = field 0 0 20 ∧ w.valid = decide (field 0 31 1 = 1) ∧ w.limit.toNat = field 1 0 20 ∧
    w.targetPage.toNat = field 2 0 20 ∧ w.port.val = field 2 28 2 ∧
    w.localRights = rights (field 3 0 2) ∧ w.remoteRights = rights (field 3 2 2) ∧
    w.guarded = decide (field 3 8 1 = 1) := by
  intro w field rights
  have hrights (i : Nat) : Rights.ofCode (words[(3 : Fin 4)].extractLsb' i 2) = rights (field 3 i 2) := by
    have hcode (c : BitVec 2) : Rights.ofCode c = rights c.toNat := rfl
    exact (hcode _).trans (congrArg rights (extractLsb'_toNat_eq _ _ _))
  exact ⟨extractLsb'_toNat_eq _ _ _, getLsbD_eq_decide _ _, extractLsb'_toNat_eq _ _ _,
    extractLsb'_toNat_eq _ _ _, extractLsb'_toNat_eq _ _ _, hrights 0, hrights 2, getLsbD_eq_decide _ _⟩

/-- The fields of the descriptor that any four words hold (R163). -/
theorem Descriptor.ofWords_fields (w0 w1 w2 w3 : Word) :
    let d := Descriptor.ofWords w0 w1 w2 w3
    let bit (k : Nat) : Bool := decide (w2.toNat / 2 ^ k % 2 = 1)
    d.source = w0 ∧ d.destination = w1 ∧ d.link = w3 ∧ d.count.toNat = w2.toNat % 2 ^ 16 ∧
    d.unit = (match w2.toNat / 2 ^ 16 % 4 with
      | 0 => .one | 1 => .two | 2 => .four | _ => .sixteen) ∧
    d.sourceFixed = bit 18 ∧ d.destinationFixed = bit 19 ∧
    d.pace.toNat = w2.toNat / 2 ^ 20 % 8 ∧ d.notify = bit 23 := by
  refine ⟨rfl, rfl, rfl, ?_, ?_, getLsbD_eq_decide _ _, getLsbD_eq_decide _ _, extractLsb'_toNat_eq _ _ _,
    getLsbD_eq_decide _ _⟩
  · exact (extractLsb'_toNat_eq w2 0 16).trans (by rw [pow_zero, Nat.div_one])
  · exact congrArg (fun n : Nat => (match n with
      | 0 => .one | 1 => .two | 2 => .four | _ => .sixteen : UnitSize)) (extractLsb'_toNat_eq w2 16 2)

/-! ## Requests -/

theorem Request.header_toNat (r : Request) : r.header.toNat =
    r.tag.toNat + 2 ^ 4 * r.node.toNat + 2 ^ 8 * (Space.code r.space).toNat + 2 ^ 10 * r.op.code.toNat +
      2 ^ 12 * r.length.toNat + 2 ^ 20 * r.source.toNat + 2 ^ 28 := by
  simp only [Request.header, toNat_append_eq_add, BitVec.toNat_ofNat]
  omega

/-- The header of a request is of kind 1 (R161). -/
theorem Request.header_kind (r : Request) : r.header.extractLsb' 28 4 = 1#4 := by
  have hheader := Request.header_toNat r
  have htag := r.tag.isLt
  have hnode := r.node.isLt
  have hspace := (Space.code r.space).isLt
  have hop := r.op.code.isLt
  have hlength := r.length.isLt
  have hsource := r.source.isLt
  exact extractLsb'_eq_of_toNat (by simp only [BitVec.toNat_ofNat]; omega)

/-- The words of a request hold its fields (R161). -/
theorem Request.ofWords_header (r : Request) (stamp : Word) (data : List Byte) :
    Request.ofWords r.header r.address stamp data =
      { r with stamp := stamp.setWidth 16, data } := by
  have hheader := Request.header_toNat r
  have htag := r.tag.isLt
  have hnode := r.node.isLt
  have hspace := (Space.code r.space).isLt
  have hop := r.op.code.isLt
  have hlength := r.length.isLt
  have hsource := r.source.isLt
  have e1 : r.header.extractLsb' 0 4 = r.tag := extractLsb'_eq_of_toNat (by omega)
  have e2 : r.header.extractLsb' 4 4 = r.node := extractLsb'_eq_of_toNat (by omega)
  have e3 : r.header.extractLsb' 8 2 = Space.code r.space := extractLsb'_eq_of_toNat (by omega)
  have e4 : r.header.extractLsb' 10 2 = r.op.code := extractLsb'_eq_of_toNat (by omega)
  have e5 : r.header.extractLsb' 12 7 = r.length := extractLsb'_eq_of_toNat (by omega)
  have e6 : r.header.extractLsb' 20 4 = r.source := extractLsb'_eq_of_toNat (by omega)
  rw [Request.ofWords, e1, e2, e3, e4, e5, e6, Space.ofCode_code, Op.ofCode_code]

/-- A message of words is a request when its kind is 1 (R161). -/
theorem parseRequest_p (w a : Word) (data : List Byte) :
    parseRequest .p (wordBytes w ++ wordBytes a ++ data) =
      if w.extractLsb' 28 4 = 1#4 then some { Request.ofWords w a 0 data with source := 0 } else none := by
  simp only [parseRequest, List.append_assoc, takeWord_wordBytes, Option.bind_some]

theorem parseRequest_b (w a x : Word) (data : List Byte) :
    parseRequest .b (wordBytes w ++ wordBytes a ++ wordBytes x ++ data) =
      if w.extractLsb' 28 4 = 1#4 then some (Request.ofWords w a x data) else none := by
  simp only [parseRequest, List.append_assoc, takeWord_wordBytes, Option.bind_some, Option.map_some]

theorem parseRequest_encode_b (r : Request) : parseRequest .b (r.encode .b) = some r := by
  have hstamp : (r.stamp.setWidth 32).setWidth 16 = r.stamp :=
    BitVec.eq_of_toNat_eq (by have := r.stamp.isLt; simp only [BitVec.toNat_setWidth]; omega)
  rw [Request.encode, parseRequest_b, if_pos (Request.header_kind r), Request.ofWords_header, hstamp]

theorem parseRequest_encode_p (r : Request) :
    parseRequest .p (r.encode .p) = some { r with source := 0, stamp := 0 } := by
  rw [Request.encode, parseRequest_p, if_pos (Request.header_kind r), Request.ofWords_header]
  rfl

/-! ## Answers of the target links -/

theorem parseAnswer_word (kind : BitVec 4) (w : Word) (data : List Byte) :
    parseAnswer kind (wordBytes w ++ data) =
      if w.extractLsb' 28 4 = kind then some (w.extractLsb' 0 5, w.extractLsb' 8 8, data) else none := by
  simp only [parseAnswer, takeWord_wordBytes, Option.bind_some]

theorem parseAskAnswer_word (kind : BitVec 4) (w : Word) (data : List Byte) :
    parseAskAnswer kind (wordBytes w ++ data) =
      if w.extractLsb' 28 4 = kind then some (w.extractLsb' 8 8, w.extractLsb' 16 8) else none := by
  simp only [parseAskAnswer, takeWord_wordBytes, Option.bind_some]

/-- An answer to a piece reads back (R18, R161). -/
theorem parseAnswer_fields (kind : BitVec 4) (index : BitVec 5) (round : BitVec 8) (data : List Byte) :
    parseAnswer kind (wordBytes (kind ++ 0#12 ++ round ++ 0#3 ++ index) ++ data) =
      some (index, round, data) := by
  have hword : (kind ++ 0#12 ++ round ++ 0#3 ++ index).toNat =
      index.toNat + 2 ^ 8 * round.toNat + 2 ^ 28 * kind.toNat := by
    simp only [toNat_append_eq_add, BitVec.toNat_ofNat]
    omega
  have hindex := index.isLt
  have hround := round.isLt
  have hkind := kind.isLt
  generalize kind ++ 0#12 ++ round ++ 0#3 ++ index = w at hword
  have e1 : w.extractLsb' 28 4 = kind := extractLsb'_eq_of_toNat (by omega)
  have e2 : w.extractLsb' 0 5 = index := extractLsb'_eq_of_toNat (by omega)
  have e3 : w.extractLsb' 8 8 = round := extractLsb'_eq_of_toNat (by omega)
  exact (parseAnswer_word kind w data).trans (by rw [if_pos e1, e2, e3])

/-- An answer to an ASK reads back (R18, R161). -/
theorem parseAskAnswer_fields (kind : BitVec 4) (number code : BitVec 8) (rest : List Byte) :
    parseAskAnswer kind (wordBytes (kind ++ 0#4 ++ code ++ number ++ 0#8) ++ rest) =
      some (number, code) := by
  have hword : (kind ++ 0#4 ++ code ++ number ++ 0#8).toNat =
      2 ^ 8 * number.toNat + 2 ^ 16 * code.toNat + 2 ^ 28 * kind.toNat := by
    simp only [toNat_append_eq_add, BitVec.toNat_ofNat]
    omega
  have hnumber := number.isLt
  have hcode := code.isLt
  have hkind := kind.isLt
  generalize kind ++ 0#4 ++ code ++ number ++ 0#8 = w at hword
  have e1 : w.extractLsb' 28 4 = kind := extractLsb'_eq_of_toNat (by omega)
  have e2 : w.extractLsb' 8 8 = number := extractLsb'_eq_of_toNat (by omega)
  have e3 : w.extractLsb' 16 8 = code := extractLsb'_eq_of_toNat (by omega)
  exact (parseAskAnswer_word kind w rest).trans (by rw [if_pos e1, e2, e3])

end Sys2Proof.Machine
end

section
/-!
PROOFS. Responses, target messages, notices and answer records as bytes (R13, R16, R17, R145, R161, R165).
-/

namespace Sys2Proof.Machine

/-! ## Responses -/

/-- The response that a header word, an addressing word, a fault address and the bytes after it spell (R161). -/
def BResponse.ofWords (w x : Word) (faultAddress : Option Word) (rest : List Byte) (status : Status) :
    BResponse :=
  { node := x.extractLsb' 0 4, source := x.extractLsb' 4 4, stamp := x.extractLsb' 16 16
    body :=
      { tag := w.extractLsb' 0 4, status
        data := if w.extractLsb' 10 1 = 1#1 then some rest else none
        faultAddress
        detail := if w.extractLsb' 9 1 = 1#1 then some (w.extractLsb' 16 8) else none } }

/-- A message of another kind is no response. -/
theorem parseResponse_kind {w : Word} (h : w.extractLsb' 28 4 ≠ 2#4) (rest : List Byte) :
    parseResponse (wordBytes w ++ rest) = none := by
  simp only [parseResponse, takeWord_wordBytes, Option.bind_some, if_neg h]

theorem parseResponse_plain {w : Word} (hk : w.extractLsb' 28 4 = 2#4) (hf : w.extractLsb' 8 1 ≠ 1#1)
    (x : Word) (rest : List Byte) : parseResponse (wordBytes w ++ wordBytes x ++ rest) =
      (Status.ofCode (w.extractLsb' 4 4)).map (BResponse.ofWords w x none rest) := by
  simp only [parseResponse, List.append_assoc, takeWord_wordBytes, Option.bind_some, if_pos hk, if_neg hf,
    Option.map_some]
  cases Status.ofCode (w.extractLsb' 4 4) <;> rfl

theorem parseResponse_fault {w : Word} (hk : w.extractLsb' 28 4 = 2#4) (hf : w.extractLsb' 8 1 = 1#1)
    (x a : Word) (rest : List Byte) :
    parseResponse (wordBytes w ++ wordBytes x ++ wordBytes a ++ rest) =
      (Status.ofCode (w.extractLsb' 4 4)).map (BResponse.ofWords w x (some a) rest) := by
  simp only [parseResponse, List.append_assoc, takeWord_wordBytes, Option.bind_some, if_pos hk, if_pos hf,
    Option.map_some]
  cases Status.ofCode (w.extractLsb' 4 4) <;> rfl

/-- A response without the fault address word that it announces is none (log entry 15). -/
theorem parseResponse_cut {w : Word} (hf : w.extractLsb' 8 1 = 1#1) (x : Word) {rest : List Byte}
    (h : takeWord rest = none) : parseResponse (wordBytes w ++ wordBytes x ++ rest) = none := by
  simp only [parseResponse, List.append_assoc, takeWord_wordBytes, Option.bind_some, if_pos hf, h,
    Option.map_none, Option.bind_fun_none, ite_self]

theorem Response.header_toNat (r : Response) : r.header.toNat =
    r.tag.toNat + 2 ^ 4 * r.status.code.toNat + 2 ^ 8 * r.faultAddress.isSome.toNat +
      2 ^ 9 * r.detail.isSome.toNat + 2 ^ 10 * r.data.isSome.toNat + 2 ^ 16 * (r.detail.getD 0).toNat +
      2 ^ 28 * 2 := by
  simp only [Response.header, toNat_append_eq_add, BitVec.toNat_ofNat, BitVec.toNat_ofBool]
  omega

/-- The header of a response holds its fields (R161, R165). -/
theorem Response.header_fields (r : Response) :
    r.header.extractLsb' 28 4 = 2#4 ∧ r.header.extractLsb' 0 4 = r.tag ∧
      r.header.extractLsb' 4 4 = r.status.code ∧ r.header.extractLsb' 16 8 = r.detail.getD 0 ∧
      r.header.extractLsb' 8 1 = BitVec.ofBool r.faultAddress.isSome ∧
      r.header.extractLsb' 9 1 = BitVec.ofBool r.detail.isSome ∧
      r.header.extractLsb' 10 1 = BitVec.ofBool r.data.isSome := by
  have hheader := Response.header_toNat r
  have htag := r.tag.isLt
  have hstatus := r.status.code.isLt
  have hdetail := (r.detail.getD 0).isLt
  have hfault := r.faultAddress.isSome.toNat_lt
  have hsome := r.detail.isSome.toNat_lt
  have hdata := r.data.isSome.toNat_lt
  refine ⟨?_, ?_, ?_, ?_, ?_, ?_, ?_⟩
  · exact extractLsb'_eq_of_toNat (by simp only [BitVec.toNat_ofNat]; omega)
  · exact extractLsb'_eq_of_toNat (by omega)
  · exact extractLsb'_eq_of_toNat (by omega)
  · exact extractLsb'_eq_of_toNat (by omega)
  · exact extractLsb'_eq_of_toNat (by rw [BitVec.toNat_ofBool]; omega)
  · exact extractLsb'_eq_of_toNat (by rw [BitVec.toNat_ofBool]; omega)
  · exact extractLsb'_eq_of_toNat (by rw [BitVec.toNat_ofBool]; omega)

/-- The second word of a response on the B link (R161). -/
theorem addressing_toNat (node source : BitVec 4) (stamp : BitVec 16) :
    (stamp ++ 0#8 ++ source ++ node).toNat = node.toNat + 2 ^ 4 * source.toNat + 2 ^ 16 * stamp.toNat := by
  simp only [toNat_append_eq_add, BitVec.toNat_ofNat]
  omega

/-- The words of a response on the B link hold its fields. -/
theorem BResponse.ofWords_header (node source : BitVec 4) (stamp : BitVec 16) (r : Response) :
    BResponse.ofWords r.header (stamp ++ 0#8 ++ source ++ node) r.faultAddress (r.data.getD []) r.status =
      { node, source, stamp, body := r } := by
  have hword := addressing_toNat node source stamp
  have hnode := node.isLt
  have hsource := source.isLt
  have hstamp := stamp.isLt
  obtain ⟨_, htag, _, hbyte, _, hdetail, hdata⟩ := Response.header_fields r
  generalize stamp ++ 0#8 ++ source ++ node = x at hword
  have e1 : x.extractLsb' 0 4 = node := extractLsb'_eq_of_toNat (by omega)
  have e2 : x.extractLsb' 4 4 = source := extractLsb'_eq_of_toNat (by omega)
  have e3 : x.extractLsb' 16 16 = stamp := extractLsb'_eq_of_toNat (by omega)
  have announced {α : Type} (o : Option α) (y : α) :
      (if BitVec.ofBool o.isSome = 1#1 then some (o.getD y) else none) = o := by
    cases o <;> rfl
  rw [BResponse.ofWords, e1, e2, e3, htag, hbyte, hdetail, hdata, announced, announced]

/-- What a response spells on the B link reads back. -/
theorem parseResponse_encode (node source : BitVec 4) (stamp : BitVec 16) (r : Response) :
    parseResponse (BMessage.response node source stamp r).encode =
      some { node, source, stamp, body := r } := by
  obtain ⟨hkind, _, hstatus, _, hfault, _, _⟩ := Response.header_fields r
  rw [← BResponse.ofWords_header node source stamp r]
  cases hr : r.faultAddress with
  | none =>
    have hplain : r.header.extractLsb' 8 1 ≠ 1#1 := by rw [hfault, hr]; decide
    have hread := parseResponse_plain hkind hplain (stamp ++ 0#8 ++ source ++ node) (r.data.getD [])
    rw [hstatus, Status.ofCode_code] at hread
    simp only [BMessage.encode, Response.tail, hr, List.nil_append]
    exact hread
  | some a =>
    have hannounced : r.header.extractLsb' 8 1 = 1#1 := by rw [hfault, hr]; rfl
    have hread := parseResponse_fault hkind hannounced (stamp ++ 0#8 ++ source ++ node) a (r.data.getD [])
    rw [hstatus, Status.ofCode_code] at hread
    simp only [BMessage.encode, Response.tail, hr]
    rw [← List.append_assoc]
    exact hread

end Sys2Proof.Machine
end

section
/-!
PROOFS. Every message read from arbitrary words, and the words that each message spells (R16, R17, R18, R145, R160,
R161, R165, section 9.5).
-/

namespace Sys2Proof.Machine

/-! ## Messages of any words -/

/-- The fields of the request that any words spell (R161). -/
theorem Request.ofWords_fields (w a x : Word) (data : List Byte) :
    let field (at' width : Nat) : Nat := w.toNat / 2 ^ at' % 2 ^ width
    Request.ofWords w a x data =
      { tag := BitVec.ofNat 4 (field 0 4), node := BitVec.ofNat 4 (field 4 4)
        space := match field 8 2 with
          | 0 => some .data | 1 => some .mgmt | 2 => some .attn | _ => none
        op := match field 10 2 with
          | 0 => .read | 1 => .write | 2 => .readHold | _ => .writeRelease
        length := BitVec.ofNat 7 (field 12 7), source := BitVec.ofNat 4 (field 20 4), address := a
        stamp := BitVec.ofNat 16 (x.toNat % 2 ^ 16), data } := by
  intro field
  have hspace : Space.ofCode (w.extractLsb' 8 2) = (match field 8 2 with
      | 0 => some .data | 1 => some .mgmt | 2 => some .attn | _ => none) :=
    congrArg (fun n : Nat => (match n with
      | 0 => some .data | 1 => some .mgmt | 2 => some .attn | _ => none : Option Space))
      (extractLsb'_toNat_eq w 8 2)
  have hop : Op.ofCode (w.extractLsb' 10 2) = (match field 10 2 with
      | 0 => .read | 1 => .write | 2 => .readHold | _ => .writeRelease) :=
    congrArg (fun n : Nat => (match n with
      | 0 => .read | 1 => .write | 2 => .readHold | _ => .writeRelease : Op)) (extractLsb'_toNat_eq w 10 2)
  have hstamp : x.setWidth 16 = BitVec.ofNat 16 (x.toNat % 2 ^ 16) :=
    (ofNat_mod_two_pow 16 x.toNat).symm ▸ BitVec.eq_of_toNat_eq (by simp)
  rw [Request.ofWords, hspace, hop, hstamp, extractLsb'_eq_ofNat w 0 4, extractLsb'_eq_ofNat w 4 4,
    extractLsb'_eq_ofNat w 12 7, extractLsb'_eq_ofNat w 20 4]

/-- The status that any header word names (R165). -/
theorem Status.ofCode_field (w : Word) : Status.ofCode (w.extractLsb' 4 4) =
    match w.toNat / 2 ^ 4 % 2 ^ 4 with
    | 0 => some .ok | 1 => some .full | 2 => some .form | 3 => some .unmapped | 4 => some .denied
    | 5 => some .noRoute | 6 => some .noTarget | 7 => some .targetFault | 8 => some .noAnswer
    | 9 => some .retryOut | 10 => some .guarded | 11 => some .holdBroken | 12 => some .linkDown
    | 13 => some .busy | 14 => some .aborted | _ => none := by
  rw [← extractLsb'_toNat_eq]
  rfl

/-- The fields of the response that any words spell (R161). -/
theorem BResponse.ofWords_fields (w x : Word) (faultAddress : Option Word) (rest : List Byte)
    (status : Status) :
    let field (at' width : Nat) : Nat := w.toNat / 2 ^ at' % 2 ^ width
    BResponse.ofWords w x faultAddress rest status =
      { node := BitVec.ofNat 4 (x.toNat % 2 ^ 4), source := BitVec.ofNat 4 (x.toNat / 2 ^ 4 % 2 ^ 4)
        stamp := BitVec.ofNat 16 (x.toNat / 2 ^ 16)
        body :=
          { tag := BitVec.ofNat 4 (field 0 4), status
            data := if field 10 1 = 1 then some rest else none, faultAddress
            detail := if field 9 1 = 1 then some (BitVec.ofNat 8 (field 16 8)) else none } } := by
  intro field
  have hdata : (w.extractLsb' 10 1 = 1#1) = (field 10 1 = 1) := propext (extractLsb'_eq_iff w 10 1#1)
  have hdetail : (w.extractLsb' 9 1 = 1#1) = (field 9 1 = 1) := propext (extractLsb'_eq_iff w 9 1#1)
  have hnode : x.extractLsb' 0 4 = BitVec.ofNat 4 (x.toNat % 2 ^ 4) := by
    rw [extractLsb'_eq_ofNat, pow_zero, Nat.div_one]
  have hstamp : x.extractLsb' 16 16 = BitVec.ofNat 16 (x.toNat / 2 ^ 16) := by
    rw [extractLsb'_eq_ofNat, ofNat_mod_two_pow]
  simp only [BResponse.ofWords, hdata, hdetail, hnode, hstamp, extractLsb'_eq_ofNat x 4 4,
    extractLsb'_eq_ofNat w 0 4, extractLsb'_eq_ofNat w 16 8, field]

/-! ## Messages shorter than their header words -/

/-- No word is taken off fewer than four bytes. -/
theorem takeWord_eq_none {l : List Byte} (h : l.length < 4) : takeWord l = none := by
  cases hword : takeWord l with
  | none => rfl
  | some p =>
    have := takeWord_length hword
    omega

/-- Nothing is read that needs a second word of fewer than eight bytes. -/
theorem bind_takeWord_eq_none {α : Type} {l : List Byte} {n : Nat} {f : Word × List Byte → Option α}
    (h : l.length < n + 4) (hf : ∀ p : Word × List Byte, p.2.length < n → f p = none) :
    (takeWord l).bind f = none := by
  cases hword : takeWord l with
  | none => rfl
  | some p =>
    have := takeWord_length hword
    exact hf p (by omega)

theorem parseRequest_short {l : Link} {msg : List Byte}
    (h : msg.length < match l with | .p => 8 | .b => 12) : parseRequest l msg = none := by
  cases l with
  | p =>
    refine bind_takeWord_eq_none (n := 4) h fun p hp => ?_
    dsimp only
    rw [takeWord_eq_none hp, Option.bind_none, ite_self]
  | b =>
    refine bind_takeWord_eq_none (n := 8) h fun p hp => ?_
    dsimp only
    rw [bind_takeWord_eq_none (n := 4) hp fun q hq => by
      rw [takeWord_eq_none hq, Option.map_none], ite_self]

theorem parseResponse_short {msg : List Byte} (h : msg.length < 8) : parseResponse msg = none := by
  refine bind_takeWord_eq_none (n := 4) h fun p hp => ?_
  dsimp only
  rw [takeWord_eq_none hp, Option.bind_none, ite_self]

theorem parseAnswer_short {msg : List Byte} (kind : BitVec 4) (h : msg.length < 4) :
    parseAnswer kind msg = none ∧ parseAskAnswer kind msg = none := by
  rw [parseAnswer, parseAskAnswer, takeWord_eq_none h]
  exact ⟨rfl, rfl⟩

/-! ## The words of each message -/

theorem wordBytes_of_toNat {w : Word} {n : Nat} (h : w.toNat = n) :
    wordBytes w = wordBytes (BitVec.ofNat 32 n) :=
  congrArg wordBytes (eq_ofNat_of_toNat h)

/-- The size field of a PIECE is half its size (R17). -/
theorem sizeCode_toNat {size : Nat} (h : size = 1 ∨ size = 2 ∨ size = 4) :
    (sizeCode size).toNat = size / 2 := by
  rcases h with rfl | rfl | rfl <;> rfl

theorem TMessage.encode_piece (i : EntryNo) (round : BitVec 8) (isWrite : Bool) (a : Word) {size : Nat}
    (data : List Byte) (h : size = 1 ∨ size = 2 ∨ size = 4) :
    TMessage.encode (.piece i round isWrite a size data) =
      wordBytes (BitVec.ofNat 32 (i.val + 2 ^ 8 * round.toNat + 2 ^ 16 * isWrite.toNat +
        2 ^ 17 * (size / 2) + 2 ^ 28)) ++ wordBytes a ++ data := by
  have hi := i.isLt
  refine congrArg (· ++ wordBytes a ++ data) (wordBytes_of_toNat ?_)
  simp only [toNat_append_eq_add, BitVec.toNat_ofNat, BitVec.toNat_ofBool, sizeCode_toNat h]
  omega

theorem TMessage.encode_ask (number : BitVec 8) : TMessage.encode (.ask number) =
    wordBytes (BitVec.ofNat 32 (2 ^ 8 * number.toNat + 2 ^ 28 * 2)) := by
  refine wordBytes_of_toNat ?_
  simp only [toNat_append_eq_add, BitVec.toNat_ofNat]
  omega

theorem PMessage.encode_notice {count : Nat} (h : count < 32) :
    PMessage.encode (.notice count) = wordBytes (BitVec.ofNat 32 (count + 2 ^ 28 * 3)) := by
  refine wordBytes_of_toNat ?_
  simp only [toNat_append_eq_add, BitVec.toNat_ofNat]
  omega

/-- The second word of an answer record: what is left, the overflow bit, and a port and its code (R145). -/
theorem answerWord_toNat (code : BitVec 8) (port : BitVec 2) (overflow : Bool) {remaining : Nat}
    (h : remaining < 32) :
    (code ++ 0#6 ++ port ++ 0#7 ++ BitVec.ofBool overflow ++ 0#3 ++ BitVec.ofNat 5 remaining).toNat =
      remaining + 2 ^ 8 * overflow.toNat + 2 ^ 16 * port.toNat + 2 ^ 24 * code.toNat := by
  simp only [toNat_append_eq_add, BitVec.toNat_ofNat, BitVec.toNat_ofBool]
  omega

theorem answerWord_plain (overflow : Bool) {remaining : Nat} (h : remaining < 32) :
    wordBytes (0#8 ++ 0#6 ++ 0#2 ++ 0#7 ++ BitVec.ofBool overflow ++ 0#3 ++ BitVec.ofNat 5 remaining) =
      wordBytes (BitVec.ofNat 32 (remaining + 2 ^ 8 * overflow.toNat)) :=
  wordBytes_of_toNat (answerWord_toNat 0 0 overflow h)

theorem answerWord_port (p : PortNo) (code : BitVec 8) (overflow : Bool) {remaining : Nat}
    (h : remaining < 32) :
    wordBytes (code ++ 0#6 ++ BitVec.ofNat 2 p.val ++ 0#7 ++ BitVec.ofBool overflow ++ 0#3 ++
        BitVec.ofNat 5 remaining) =
      wordBytes (BitVec.ofNat 32 (remaining + 2 ^ 8 * overflow.toNat + 2 ^ 16 * p.val +
        2 ^ 24 * code.toNat)) := by
  refine wordBytes_of_toNat ((answerWord_toNat code (BitVec.ofNat 2 p.val) overflow h).trans ?_)
  rw [BitVec.toNat_ofNat, Nat.mod_eq_of_lt p.isLt]

/-- The first word of a record answer (R145, R165). -/
theorem recordWord {x : AttnRecord} {source kind : Nat} (h : x.count < 256)
    (hsource : x.source.code.toNat = source) (hkind : x.kind.code.val = kind) :
    wordBytes (0#8 ++ BitVec.ofNat 8 x.count ++ 0#4 ++ BitVec.ofNat 4 x.kind.code.val ++ x.source.code ++
        0#2 ++ 1#2) =
      wordBytes (BitVec.ofNat 32 (1 + 2 ^ 4 * source + 2 ^ 8 * kind + 2 ^ 16 * x.count)) := by
  have hlt := x.kind.code.isLt
  refine wordBytes_of_toNat ?_
  simp only [toNat_append_eq_add, BitVec.toNat_ofNat, hsource]
  omega

theorem statusWord_toNat (x : Status) : x.code.setWidth 32 = BitVec.ofNat 32 x.code.toNat := by
  cases x <;> rfl

/-- The words of a response on either link (R16, R161). -/
theorem Response.header_bytes (r : Response) : wordBytes r.header =
    wordBytes (BitVec.ofNat 32 (r.tag.toNat + 2 ^ 4 * r.status.code.toNat +
      2 ^ 8 * r.faultAddress.isSome.toNat + 2 ^ 9 * r.detail.isSome.toNat + 2 ^ 10 * r.data.isSome.toNat +
      2 ^ 16 * (r.detail.getD 0).toNat + 2 ^ 28 * 2)) :=
  wordBytes_of_toNat (Response.header_toNat r)

theorem addressing_bytes (node source : BitVec 4) (stamp : BitVec 16) :
    wordBytes (stamp ++ 0#8 ++ source ++ node) =
      wordBytes (BitVec.ofNat 32 (node.toNat + 2 ^ 4 * source.toNat + 2 ^ 16 * stamp.toNat)) :=
  wordBytes_of_toNat (addressing_toNat node source stamp)

end Sys2Proof.Machine
end

section
/-!
PROOFS. The layouts read back their fields (section 9.5).
-/

namespace Sys2Proof.Machine

theorem Response.tail_eq (r : Response) : r.tail =
    (match r.faultAddress with | none => [] | some a => wordBytes a) ++
      (match r.data with | none => [] | some data => data) := by
  cases hfault : r.faultAddress <;> cases hdata : r.data <;> simp [Response.tail, hfault, hdata]

/-- Settles O59: each layout is a sum of its fields at their places, so that extracting a field divides the sum. -/
theorem layoutsReadBackTheirFields : Obligations.LayoutsReadBackTheirFields := by
  unfold Obligations.LayoutsReadBackTheirFields
  refine ⟨parseRequest_encode_b, parseRequest_encode_p, parseResponse_encode, parseAnswer_fields,
    parseAskAnswer_fields, Window.ofWords_words, Window.ofWords_fields, Descriptor.ofWords_words, wordBytes_eq,
    fun _ _ => wordOf_toNat _ _ _ _, fun _ _ => Entry.word_of_begins, ?_, ?_, ?_, ?_, ?_⟩
  · intro w0 w1 w2 w3
    rw [Descriptor.ofBytes_words]
    exact Descriptor.ofWords_fields w0 w1 w2 w3
  · intro w a x data field read
    have hread (y : Word) : Request.ofWords w a y data =
        read (BitVec.ofNat 4 (field 20 4)) (BitVec.ofNat 16 (y.toNat % 2 ^ 16)) :=
      Request.ofWords_fields w a y data
    refine ⟨?_, ?_, ?_, ?_⟩
    · refine (parseRequest_p w a data).trans (if_congr (extractLsb'_eq_iff w 28 1#4) ?_ rfl)
      exact congrArg some (congrArg (fun r : Request => { r with source := 0 }) (hread 0))
    · exact (parseRequest_b w a x data).trans
        (if_congr (extractLsb'_eq_iff w 28 1#4) (congrArg some (hread x)) rfl)
    · intro kind
      rw [parseAnswer_word, extractLsb'_eq_ofNat w 0 5, extractLsb'_eq_ofNat w 8 8]
      exact if_congr (extractLsb'_eq_iff w 28 kind) rfl rfl
    · intro kind
      rw [parseAskAnswer_word, extractLsb'_eq_ofNat w 8 8, extractLsb'_eq_ofNat w 16 8]
      exact if_congr (extractLsb'_eq_iff w 28 kind) rfl rfl
  · intro w a x data field answer status head
    have hstatus : Status.ofCode (w.extractLsb' 4 4) = status := Status.ofCode_field w
    have hanswer (faultAddress : Option Word) :
        BResponse.ofWords w x faultAddress data = answer faultAddress data :=
      funext (BResponse.ofWords_fields w x faultAddress data)
    have hkind : w.extractLsb' 28 4 = 2#4 ↔ field 28 4 = 2 := extractLsb'_eq_iff w 28 2#4
    have hfault : w.extractLsb' 8 1 = 1#1 ↔ field 8 1 = 1 := extractLsb'_eq_iff w 8 1#1
    refine ⟨?_, ?_, ?_, ?_⟩
    · intro hother
      have hnone := parseResponse_kind (mt hkind.1 hother) (wordBytes x ++ data)
      rwa [← List.append_assoc] at hnone
    · intro hk hplain
      rw [parseResponse_plain (hkind.2 hk) (mt hfault.1 (by omega)), hstatus, hanswer]
    · intro hk hannounced
      rw [parseResponse_fault (hkind.2 hk) (hfault.2 hannounced), hstatus, hanswer]
    · intro _ hannounced hshort
      exact parseResponse_cut (hfault.2 hannounced) x (takeWord_eq_none hshort)
  · intro msg
    exact ⟨parseRequest_short (l := .p), parseRequest_short (l := .b), parseResponse_short, parseAnswer_short⟩
  · intro word status source kind
    have hstatus (x : Status) : x.code.toNat = status x := by cases x <;> rfl
    have hkind (x : AttnKind) : x.code.val = kind x := by cases x <;> rfl
    have hsource (x : AttnSource) : x.code.toNat = source x := by
      cases x with
      | channel c => exact Nat.mod_eq_of_lt (by omega)
      | port p => exact Nat.mod_eq_of_lt (by omega)
      | guardUnit => rfl
      | backplane => rfl
    refine ⟨fun i round isWrite a _ data h => TMessage.encode_piece i round isWrite a data h,
      TMessage.encode_ask, rfl, fun _ => PMessage.encode_notice, ?_, ?_, ?_⟩
    · intro r header tail
      have hheader : wordBytes r.header = header := by
        rw [Response.header_bytes, hstatus]
      have htail : r.tail = tail := Response.tail_eq r
      refine ⟨congr (congrArg (· ++ ·) hheader) htail, fun node source stamp => ?_⟩
      have hwords := congr (congrArg (· ++ ·) hheader) (addressing_bytes node source stamp)
      exact congr (congrArg (· ++ ·) hwords) htail
    · intro r header
      have hspace : (Space.code r.space).toNat = (match r.space with
          | some .data => 0 | some .mgmt => 1 | some .attn => 2 | none => 3) := by
        rcases r.space with _ | _ | _ | _ <;> rfl
      have hop : r.op.code.toNat = (match r.op with
          | .read => 0 | .write => 1 | .readHold => 2 | .writeRelease => 3) := by
        cases r.op <;> rfl
      have hheader : wordBytes r.header = header := by
        rw [wordBytes_of_toNat (Request.header_toNat r), hspace, hop] <;> rfl
      have hstamp : wordBytes (r.stamp.setWidth 32) = word r.stamp.toNat :=
        wordBytes_of_toNat (by have := r.stamp.isLt; rw [BitVec.toNat_setWidth]; omega)
      constructor
      · rw [← hheader, Request.encode]
      · rw [← hheader, ← hstamp, BMessage.encode, Request.encode]
    · intro remaining overflow hremaining left
      have hleft := answerWord_plain overflow hremaining
      refine ⟨?_, ?_, ?_, ?_⟩
      · exact congrArg (wordBytes 0#32 ++ · ++ wordBytes 0#32 ++ wordBytes 0#32) hleft
      · exact congrArg (wordBytes 2#32 ++ · ++ wordBytes 0#32 ++ wordBytes 0#32) hleft
      · intro p code
        exact congrArg (wordBytes 3#32 ++ · ++ wordBytes 0#32 ++ wordBytes 0#32)
          (answerWord_port p code overflow hremaining)
      · intro x hcount
        have hfirst := recordWord hcount (hsource x.source) (hkind x.kind)
        have hhead := congr (congrArg (· ++ ·) hfirst) hleft
        cases hdetail : x.detail with
        | none =>
          simp only [Answer.bytes, hdetail]
          rw [← List.append_assoc]
          exact congrArg (· ++ wordBytes 0#32 ++ wordBytes 0#32) hhead
        | some d =>
          obtain ⟨st, a⟩ := d
          have hcode : wordBytes (st.code.setWidth 32) = word (status st) := by
            rw [statusWord_toNat, hstatus]
          simp only [Answer.bytes, hdetail, Option.elim_some, hcode]
          rw [← List.append_assoc]
          exact congrArg (· ++ word (status st) ++ wordBytes a) hhead

end Sys2Proof.Machine
end

section
/-!
PROOFS. The link changes of the B port (R3, R19, R22, R53, R60, R66, R103, R140).
-/

namespace Sys2Proof.Machine

/-! ## The ends of a kind of P entries that are routed to the B port -/

/-- The record of an entry once all of a kind have ended. -/
def endedIf (q : Entry → Bool) (st : Status) (f : Entry → Option Word) (e : Entry) : Entry :=
  if q e = true then e.ended st (f e) none else e

/-- The state that the ends of a kind of P entries leave, where these leave from the head of the P response
list. -/
structure EndedLeaving (q : Entry → Bool) (st : Status) (f : Entry → Option Word)
    (leaving : List (EntryNo × Entry)) (s t : State) : Prop where
  frame : t = { s with
    entries := t.entries
    order := s.order.filter fun j => j ∉ leaving.map Prod.fst
    pSent := if s.lines.pLink = true then
        s.pSent ++ leaving.map fun jf => .response jf.2.response else s.pSent }
  entry : ∀ j : EntryNo, t.entries[j] =
    if j ∈ leaving.map Prod.fst then none else s.entries[j].map (endedIf q st f)

/-- Where none of the kind is left, nothing ends and nothing leaves. -/
theorem EndedLeaving.nil {q : Entry → Bool} (st : Status) (f : Entry → Option Word) {s : State}
    (T : s.TableOk) (hnil : s.kind q = []) (hhead : s.pList.takeWhile leavesAtHead = []) :
    EndedLeaving q st f (leavingOf q st f s.pList) s s := by
  have hnone {j : EntryNo} {e : Entry} (he : s.entries[j] = some e) : ¬ q e = true := fun hqe => by
    have hmem := State.kind_of_entry T he hqe
    rw [hnil] at hmem
    cases hmem
  have hsame : s.pList.map (endOf q st f) = s.pList :=
    (List.map_congr_left fun jf hjf => if_neg (hnone (State.mem_pList hjf).1)).trans (List.map_id' _)
  rw [leavingOf, hsame, hhead]
  refine ⟨by simp, fun j => ?_⟩
  cases hj : s.entries[j] with
  | none => simp
  | some e => simp [endedIf, hnone hj]

/-- The first of the kind ends, what can leave does, and then the rest of the kind ends (R47, R53). -/
theorem EndedLeaving.cons {q : Entry → Bool} (hq : LiveKind q) {st : Status} {f : Entry → Option Word}
    {s t : State} {i : EntryNo} {e : Entry} (T : s.TableOk) (he : s.entries[i] = some e) (hqe : q e = true)
    (ho : e.origin = .p) (hhold : s.holdAtEnd i e st = s)
    (ht : EndedLeaving q st f (leavingOf q st f (s.endEntry i st (f e) none).pList)
      (s.endEntry i st (f e) none) t) :
    EndedLeaving q st f (leavingOf q st f s.pList) s t := by
  obtain ⟨hframe, hentry⟩ := State.endEntry_p T he ho (hq e hqe) st (f e) none rfl
  obtain ⟨hlist, _⟩ := State.endEntry_pList T he (hq e hqe) ho st (f e)
  rw [hhold] at hframe
  rw [← leavingOf_endIn hq he hqe, leavingOf_of_left hq]
  rw [hlist] at ht
  generalize endIn i (e.ended st (f e) none) s.pList = list at *
  generalize s.endEntry i st (f e) none = u at *
  obtain ⟨tframe, tentry⟩ := ht
  generalize leavingOf q st f (list.dropWhile leavesAtHead) = rest at *
  generalize list.takeWhile leavesAtHead = first at *
  refine ⟨?_, fun j => ?_⟩
  · rw [tframe, hframe]
    dsimp only
    rw [List.filter_filter]
    congr 1
    · refine List.filter_congr fun j _ => ?_
      simp only [List.map_append, List.mem_append, not_or, Bool.decide_and, Bool.and_comm]
    · split <;> simp
  · simp only [tentry, hentry, List.map_append, List.mem_append]
    have hended : endedIf q st f (e.ended st (f e) none) = e.ended st (f e) none :=
      if_neg (by rw [hq.complete (e.ended st (f e) none) rfl]; decide)
    have hself : endedIf q st f e = e.ended st (f e) none := if_pos hqe
    by_cases hfirst : j ∈ first.map Prod.fst
    · simp only [hfirst, true_or, if_true, Option.map_none, ite_self]
    · by_cases hij : j = i
      · subst hij
        rw [if_neg hfirst, if_pos rfl, he, Option.map_some, Option.map_some, hended, hself]
        simp only [hfirst, false_or]
      · rw [if_neg hfirst, if_neg hij]
        simp only [hfirst, false_or]

/-- The ends of a kind of P entries that are routed to the B port change no hold, and those that can then leave
do (R47, R53). -/
theorem State.endRemote_leaving {q : Entry → Bool} (hq : LiveKind q) {st : Status} (h : st ≠ .ok)
    (f : Entry → Option Word) {s : State} (T : s.TableOk)
    (hremote : ∀ je ∈ s.kind q, je.2.origin = .p ∧ je.2.route = some .remote)
    (hhead : s.pList.takeWhile leavesAtHead = []) :
    EndedLeaving q st f (leavingOf q st f s.pList) s (s.endAll st f (s.kind q)) := by
  refine State.endKind_induction hq h f (P := fun s t =>
    (∀ je ∈ s.kind q, je.2.origin = .p ∧ je.2.route = some .remote) →
      s.pList.takeWhile leavesAtHead = [] → EndedLeaving q st f (leavingOf q st f s.pList) s t)
    (fun s T hnil _ hhead => .nil st f T hnil hhead)
    (fun s t i e T he hqe hkind ih hremote hhead => ?_) T hremote hhead
  rw [hkind] at hremote
  obtain ⟨ho, hroute⟩ := hremote (i, e) List.mem_cons_self
  have hhold : s.holdAtEnd i e st = s :=
    s.holdAtEnd_unheld i e st fun p hp => by rw [hroute] at hp; cases hp
  obtain ⟨hlist, _⟩ := State.endEntry_pList T he (hq e hqe) ho st (f e)
  refine .cons hq T he hqe ho hhold (ih (fun je hje => hremote je (List.mem_cons_of_mem _ hje)) ?_)
  rw [hlist]
  exact takeWhile_dropWhile _ _

/-! ## The parts of the link-down event -/

theorem State.freeAll_order (s : State) (l : List (EntryNo × Entry)) :
    (s.freeAll l).order = s.order.filter fun j => j ∉ l.map Prod.fst := by
  induction l generalizing s with
  | nil => simp [State.freeAll]
  | cons ie l ih =>
    rw [State.freeAll, ih, State.free_order, List.filter_filter]
    refine List.filter_congr fun j _ => ?_
    simp only [List.map_cons, List.mem_cons, not_or, Bool.decide_and, Bool.and_comm]

/-- A filter of a list is decided by what is left. -/
theorem filter_eq_of_mem_iff {α : Type} {l : List α} {p q : α → Bool}
    (h : ∀ x, x ∈ l.filter p ↔ q x = true) : l.filter p = l.filter q := by
  refine List.filter_congr fun x hx => Bool.eq_iff_iff.2 ?_
  rw [← h x, List.mem_filter]
  exact ⟨fun hp => ⟨hx, hp⟩, And.right⟩

/-- Whether an entry waits for a response on the B link (R20). -/
def Entry.isForwarded (e : Entry) : Bool := decide (e.state = .forwarded)

theorem liveKind_isForwarded : LiveKind Entry.isForwarded := fun e h => by
  have hstate : e.state = .forwarded := of_decide_eq_true h
  simp [Entry.Live, hstate]

/-- The P responses that leave at a link-down event of the B port (R53, R66). -/
def State.leavingAtDown (s : State) : List (EntryNo × Entry) :=
  leavingOf Entry.isForwarded .linkDown (fun _ => none) s.pList

/-- The state once the FORWARDED entries have ended (R66). -/
def State.forwardedEnded (s : State) : State :=
  State.endAll { s with bLinkUp := false } .linkDown (fun _ => none) (s.kind Entry.isForwarded)

/-- The state once the B entries that wait, back off or are served are FREE, too (R66). -/
def State.bEntriesFreed (s : State) : State :=
  s.forwardedEnded.freeAll (s.forwardedEnded.kind Entry.dropsAtDown)

theorem State.bLinkDownEvent_eq (s : State) :
    s.bLinkDownEvent = s.bEntriesFreed.orphanIssued.dropBHolds.raise .backplane .blinkDown none := rfl

/-- What the link-down event leaves of an entry that does not leave the table as a P response. -/
def Entry.afterDown (e : Entry) : Option Entry :=
  if e.dropsAtDown = true then none
  else if e.origin.isB ∧ e.state = .issued then some { e with state := .orphaned } else some e

theorem Entry.afterDown_b {e : Entry} (he : e.Ok) (ho : e.origin.isB = true) : e.afterDown =
    if e.state = .issued then some { e with state := .orphaned }
    else if e.state = .orphaned then some e else none := by
  have hnotp : e.origin ≠ .p := fun hp => by rw [hp] at ho; cases ho
  cases hstate : e.state with
  | forwarded => exact absurd (he.forwarded hstate) hnotp
  | complete => exact absurd (he.complete hstate) hnotp
  | waiting => simp [Entry.afterDown, Entry.dropsAtDown, ho, hstate]
  | backoff => simp [Entry.afterDown, Entry.dropsAtDown, ho, hstate]
  | serving => simp [Entry.afterDown, Entry.dropsAtDown, ho, hstate]
  | issued => simp [Entry.afterDown, Entry.dropsAtDown, ho, hstate]
  | orphaned => simp [Entry.afterDown, Entry.dropsAtDown, ho, hstate]

theorem Entry.afterDown_other {e : Entry} (ho : e.origin.isB = false) : e.afterDown = some e := by
  simp [Entry.afterDown, Entry.dropsAtDown, ho]

theorem Hold.heldByB_eq (x : Hold) : x.heldByB = decide (x.holder ≠ .p) := by
  unfold Hold.heldByB
  cases x.holder <;> simp

theorem State.dropBHolds_port (s : State) (p : PortNo) : s.dropBHolds.ports[p] =
    if s.ports[p].hold.any (fun x => decide (x.holder ≠ .p)) then { s.ports[p] with hold := none }
    else s.ports[p] := by
  have hheld : Hold.heldByB = fun x => decide (x.holder ≠ .p) := funext Hold.heldByB_eq
  simp only [State.dropBHolds, mapCells_eq_map, Fin.getElem_fin, Vector.getElem_map, hheld]

/-- The notes of the B origins are cleared, that of the P origin stays (R103). -/
theorem State.dropBHolds_note_b (s : State) (source : BitVec 4) : s.dropBHolds.note (.b source) = none := by
  have hx : (16 : Nat) ≠ source.toNat := by have := source.isLt; omega
  simp only [State.dropBHolds, State.note, Fin.getElem_fin, Holder.code]
  rw [Vector.getElem_set_ne]
  · simp
  · simpa using hx

theorem State.dropBHolds_note_p (s : State) : s.dropBHolds.note .p = s.note .p := by
  simp [State.dropBHolds, State.note]

/-- What the event does after the ends: it writes entries, ports and notes, and raises BLINK_DOWN (R60, R103). -/
theorem State.raise_dropBHolds_frame {w sent : State} {entries : Vector (Option Entry) 24}
    {order : List EntryNo} (hw : w = { sent with bLinkUp := false, entries, order }) :
    let v := w.orphanIssued.dropBHolds.raise .backplane .blinkDown none
    v = { sent.raise .backplane .blinkDown none with
      bLinkUp := false, entries := v.entries, ports := v.ports, notes := v.notes, order := v.order } := by
  subst hw
  rfl

/-! ## The link-down event -/

section
variable {s : State} (T : s.TableOk) (E : s.EntriesOk) (H : s.HeadOk)

include T in
theorem State.forwardedEnded_tableOk : s.forwardedEnded.TableOk :=
  (State.endAll_acts _ _ _ _).tableOk T

include T in
theorem State.bEntriesFreed_tableOk : s.bEntriesFreed.TableOk :=
  (State.freeAll_acts _ _).tableOk (State.forwardedEnded_tableOk T)

include T E H

theorem State.forwardedEnded_leaving : EndedLeaving Entry.isForwarded .linkDown (fun _ => none)
    s.leavingAtDown { s with bLinkUp := false } s.forwardedEnded := by
  refine State.endRemote_leaving (s := { s with bLinkUp := false }) (st := .linkDown)
    liveKind_isForwarded (by decide) _ T (fun je hje => ?_)
    (State.HeadOk.takeWhile H)
  obtain ⟨he, hq⟩ := State.mem_kind (s := s) hje
  have hstate : je.2.state = .forwarded := of_decide_eq_true hq
  exact ⟨(E je.1 je.2 he).forwarded hstate, (E je.1 je.2 he).remote hstate⟩

/-- Each entry after a link-down event: it leaves, or it is as `Entry.afterDown` has it (R53, R60, R66). -/
theorem State.bLinkDownEvent_entry (j : EntryNo) : s.bLinkDownEvent.entries[j] =
    if j ∈ s.leavingAtDown.map Prod.fst then none
    else s.entries[j].bind fun e => (endedIf Entry.isForwarded .linkDown (fun _ => none) e).afterDown := by
  have hentry := (State.forwardedEnded_leaving T E H).entry j
  have hkeys := State.mem_kind_keys (State.forwardedEnded_tableOk T) (q := Entry.dropsAtDown) (j := j)
  have hfreed : s.bLinkDownEvent.entries[j] = s.bEntriesFreed.orphanIssued.entries[j] := rfl
  rw [hfreed, State.orphanIssued_entry, State.bEntriesFreed, State.freeAll_entry]
  simp only [hkeys, hentry]
  by_cases hleaves : j ∈ s.leavingAtDown.map Prod.fst
  · simp [hleaves]
  · cases hj : s.entries[j] with
    | none => simp
    | some e =>
      simp only [if_neg hleaves, Option.map_some, Option.any_some, Option.bind_some, Entry.afterDown]
      generalize endedIf Entry.isForwarded .linkDown (fun _ => none) e = x
      by_cases hdrops : x.dropsAtDown = true
      · rw [if_pos hdrops, if_pos hdrops, Option.map_none]
      · rw [if_neg hdrops, if_neg hdrops, Option.map_some, apply_ite some]

/-- The order lists the entries that are left (R44). -/
theorem State.bLinkDownEvent_order : s.bLinkDownEvent.order =
    s.order.filter fun j => (s.bLinkDownEvent.entries[j]).isSome := by
  have horder : s.bEntriesFreed.order = (s.order.filter fun j => j ∉ s.leavingAtDown.map Prod.fst).filter
      fun j => j ∉ (s.forwardedEnded.kind Entry.dropsAtDown).map Prod.fst := by
    rw [State.bEntriesFreed, State.freeAll_order, (State.forwardedEnded_leaving T E H).frame]
  have hsome (j : EntryNo) : (s.bLinkDownEvent.entries[j]).isSome = (s.bEntriesFreed.entries[j]).isSome := by
    rw [State.bLinkDownEvent_eq, State.raise_entries]
    exact (congrArg Option.isSome (s.bEntriesFreed.orphanIssued_entry j)).trans Option.isSome_map
  have hlisted := (State.bEntriesFreed_tableOk T).2
  rw [horder, List.filter_filter] at hlisted
  refine (horder.trans List.filter_filter).trans (filter_eq_of_mem_iff fun j => ?_)
  rw [hsome]
  exact hlisted j

/-- What the ends and frees of the link-down event write beside the table (R53). -/
theorem State.bEntriesFreed_frame : s.bEntriesFreed = { s with
    bLinkUp := false, entries := s.bEntriesFreed.entries, order := s.bEntriesFreed.order
    pSent := if s.lines.pLink = true then
        s.pSent ++ s.leavingAtDown.map fun jf => .response jf.2.response else s.pSent } :=
  (State.freeAll_frame _ _).trans (congrArg (fun u : State => { u with
    entries := s.bEntriesFreed.entries, order := s.bEntriesFreed.order })
    (State.forwardedEnded_leaving T E H).frame)

theorem State.bEntriesFreed_kept : s.bEntriesFreed.ports = s.ports ∧ s.bEntriesFreed.notes = s.notes := by
  rw [State.bEntriesFreed_frame T E H]
  exact ⟨rfl, rfl⟩

/-- A port whose hold is that of a B origin is not held after the event (R103). -/
theorem State.bLinkDownEvent_port (p : PortNo) : s.bLinkDownEvent.ports[p] =
    if s.ports[p].hold.any (fun x => decide (x.holder ≠ .p)) then { s.ports[p] with hold := none }
    else s.ports[p] := by
  obtain ⟨hports, _⟩ := State.bEntriesFreed_kept T E H
  have hdropped := State.dropBHolds_port s.bEntriesFreed.orphanIssued p
  have horphaned : s.bEntriesFreed.orphanIssued.ports = s.ports := hports
  rw [horphaned] at hdropped
  exact hdropped

theorem State.bLinkDownEvent_note_p : s.bLinkDownEvent.note .p = s.note .p := by
  obtain ⟨_, hnotes⟩ := State.bEntriesFreed_kept T E H
  have hnote : s.bEntriesFreed.note .p = s.note .p := by rw [State.note, hnotes, State.note]
  exact (State.dropBHolds_note_p _).trans hnote

/-- What the link-down event writes beside the entries, the ports and the notes. -/
theorem State.bLinkDownEvent_frame :
    let v := s.bLinkDownEvent
    let sent : State := { s with
      pSent := if s.lines.pLink = true then
          s.pSent ++ s.leavingAtDown.map fun jf => .response jf.2.response else s.pSent }
    v = { sent.raise .backplane .blinkDown none with
      bLinkUp := false, entries := v.entries, ports := v.ports, notes := v.notes
      order := s.order.filter fun j => (v.entries[j]).isSome } := by
  intro v sent
  rw [← State.bLinkDownEvent_order T E H]
  exact State.raise_dropBHolds_frame (sent := sent) (State.bEntriesFreed_frame T E H)

end

/-! ## The commands -/

/-- The B link goes down, and the first of the lines that move ahead of their events is taken off the list (log
entry 17). -/
def State.bLinkDownLine (s : State) : State :=
  s.modLines fun l => { l with bLink := false, early := l.early.tail }

/-- B_LINK_UP is the link-up event, or changes the line alone (R19). -/
theorem exec_bLinkUp {s : State} (h : s.lines.porst = false) :
    exec .bLinkUp s = .next (s.modLines fun l => { l with bLink := true }).bLinkUpEvent :=
  if_neg (by simp [h])

/-- B_LINK_DOWN is the link-down event, or changes the line alone (R22). -/
theorem exec_bLinkDown (s : State) : exec .bLinkDown s =
    if ¬ s.lines.early.head? = some true ∧ s.lines.porst = false ∧ s.setup.straps.slot ≠ 0 ∧
      s.bLinkUp = true then .next s.bLinkDownLine.bLinkDownEvent.settle else .next s.bLinkDownLine := by
  have htaken : s.lines.eventTaken = true ↔ ¬ s.lines.early.head? = some true := by
    rw [← s.lines.eventTaken_eq_false_iff]; simp
  have hporst : (!s.lines.porst) = true ↔ s.lines.porst = false := by simp
  exact if_congr (and_congr htaken (and_congr_left' hporst)) rfl rfl

/-- The entries of the table that are no P entries are not among the P responses that leave. -/
theorem State.leavingAtDown_p {s : State} {j : EntryNo} {e : Entry} (he : s.entries[j] = some e)
    (h : j ∈ s.leavingAtDown.map Prod.fst) : e.origin = .p := by
  obtain ⟨jf, hjf, rfl⟩ := List.mem_map.1 h
  obtain ⟨kg, hkg, rfl⟩ := List.mem_map.1 ((List.takeWhile_sublist _).mem hjf)
  obtain ⟨hentry, ho⟩ := State.mem_pList hkg
  have hkey : (endOf Entry.isForwarded .linkDown (fun _ => none) kg).1 = kg.1 := by
    unfold endOf
    split <;> rfl
  rw [hkey] at he
  cases hentry.symm.trans he
  exact ho

/-- Settles O24: the commands by `exec_bLinkUp` and `exec_bLinkDown`; the link-down event entry by entry, the rest by
its frame. -/
theorem backplaneLinkChanges : Obligations.BackplaneLinkChanges := by
  refine ⟨fun s hporst => ⟨fun hslot hdown => ?_, fun hidle => ?_⟩, fun s => ⟨fun hline => ?_, ?_⟩⟩
  · exact (exec_bLinkUp hporst).trans (congrArg Host.Outcome.next (State.bLinkUpEvent_of_down hslot hdown))
  · exact (exec_bLinkUp hporst).trans (congrArg Host.Outcome.next (State.bLinkUpEvent_idle hidle))
  · refine (exec_bLinkDown s).trans (if_neg ?_)
    rintro ⟨htaken, _, hslot, hup⟩
    obtain hearly | hzero | hdown := hline
    · exact htaken hearly
    · exact hslot hzero
    · rw [hup] at hdown; cases hdown
  · intro htaken hporst hslot hup T E H lost list leaving
    have hleaving : s.bLinkDownLine.leavingAtDown = leaving := by
      refine congrArg (List.takeWhile leavesAtHead) (List.map_congr_left fun jf _ => ?_)
      exact if_congr decide_eq_true_iff rfl rfl
    have hentry := State.bLinkDownEvent_entry (s := s.bLinkDownLine) T E H
    have hframe := State.bLinkDownEvent_frame (s := s.bLinkDownLine) T E H
    have hother {i : EntryNo} {e : Entry} (he : s.entries[i] = some e) (ho : e.origin ≠ .p) :
        s.bLinkDownLine.bLinkDownEvent.entries[i] = e.afterDown := by
      have hstays : i ∉ s.bLinkDownLine.leavingAtDown.map Prod.fst :=
        fun h => ho (State.leavingAtDown_p (s := s.bLinkDownLine) he h)
      have hkept : endedIf Entry.isForwarded .linkDown (fun _ => none) e = e :=
        if_neg fun h => ho ((E i e he).forwarded (of_decide_eq_true h))
      rw [hentry, if_neg hstays]
      exact (congrArg (Option.bind · _) he).trans (congrArg Entry.afterDown hkept)
    rw [hleaving] at hentry hframe
    refine ⟨s.bLinkDownLine.bLinkDownEvent,
      (exec_bLinkDown s).trans (if_pos ⟨htaken, hporst, hslot, hup⟩), fun i hi => ?_,
      fun i e he => ⟨fun ho => ?_, fun ho => ?_, fun ho => ?_⟩, fun p => ?_, fun source => ?_, ?_, hframe⟩
    · rw [hentry]
      exact (if_congr Iff.rfl rfl (congrArg (Option.bind · _) hi)).trans (ite_self _)
    · exact (hother he fun hp => by rw [hp] at ho; cases ho).trans (Entry.afterDown_b (E i e he) ho)
    · refine (hother he fun hp => by rw [hp] at ho; cases ho).trans (Entry.afterDown_other ?_)
      cases hm : e.origin with
      | m c => rfl
      | p => rfl
      | b x => rw [hm] at ho; cases ho
    · rw [hentry]
      refine if_congr Iff.rfl rfl ((congrArg (Option.bind · _) he).trans ?_)
      have hlost : endedIf Entry.isForwarded .linkDown (fun _ => none) e =
          if e.state = .forwarded then lost e else e := if_congr decide_eq_true_iff rfl rfl
      have hp : (endedIf Entry.isForwarded .linkDown (fun _ => none) e).origin.isB = false := by
        rw [hlost]
        split <;> exact congrArg Origin.isB ho
      rw [Option.bind_some, Entry.afterDown_other hp, hlost, apply_ite some]
    · exact State.bLinkDownEvent_port (s := s.bLinkDownLine) T E H p
    · exact State.dropBHolds_note_b _ source
    · exact State.bLinkDownEvent_note_p (s := s.bLinkDownLine) T E H

end Sys2Proof.Machine
end
